-- ==== Sys2Proof/Word.lean ====
section
/-! DEFINITION. The word types of the HBC bit codec block (spec 00_scope R11, 30_encoding R90). -/

namespace Sys2Proof

/-- A byte of a stream, of a buffer or of the window: 8 bits (R60). -/
abbrev Byte := BitVec 8

/-- CMD, ARG, RESULT and STATUS are 32 bits (R11). -/
abbrev Word := BitVec 32

/-- One beat of the command or the response port: 64 bits (R90, R93). -/
abbrev Beat := BitVec 64

end Sys2Proof
end

