-- ==== Sys2Proof/Syntax.lean ====
section
/-! DEFINITION. The command set: one constructor per row of spec/opcode_table.json (R95), with the
operands of that row as the fields of the beat they are copied from (R96). -/

namespace Sys2Proof

/-- The two modes of the bit-stream filter (R66): a mode operand 0 is MSB-first, 1 is LSB-first. -/
inductive BitOrder where
  | msb
  | lsb
deriving DecidableEq, Repr

/-- The unit a command belongs to, its UNIT field (R94). -/
inductive CodecUnit where
  | sys
  | br
  | bw
  | huf
  | lzd
  | lze
deriving DecidableEq, Repr

/-- The 28 commands of R95. -/
inductive Instr where
  /-- SYS.NOP (R120). -/
  | sysNop
  /-- SYS.RESET (R121). -/
  | sysReset
  /-- SYS.RDSR r (R122). -/
  | sysRdsr (r : BitVec 8)
  /-- BR.INIT mode (R130). -/
  | brInit (mode : BitOrder)
  /-- BR.GETBIT (R133). -/
  | brGetbit
  /-- BR.READ n (R134). -/
  | brRead (n : BitVec 6)
  /-- BW.INIT mode (R137). -/
  | bwInit (mode : BitOrder)
  /-- BW.PUTBIT b (R142). -/
  | bwPutbit (b : Bool)
  /-- BW.WRITE n, v (R143). -/
  | bwWrite (n : BitVec 6) (v : Word)
  /-- BW.FLUSH (R144). -/
  | bwFlush
  /-- HUF.CLEAR (R151). -/
  | hufClear
  /-- HUF.PUSH len (R152). -/
  | hufPush (len : BitVec 8)
  /-- HUF.BUILD (R153). -/
  | hufBuild
  /-- HUF.GETSYM (R159). -/
  | hufGetsym
  /-- HUF.FPUSH freq (R162). -/
  | hufFpush (freq : Word)
  /-- HUF.MKENC (R163). -/
  | hufMkenc
  /-- HUF.PUTSYM sym (R169). -/
  | hufPutsym (sym : BitVec 16)
  /-- HUF.SETDEF sym (R161). -/
  | hufSetdef (sym : BitVec 16)
  /-- HUF.RDLEN sym (R171). -/
  | hufRdlen (sym : BitVec 16)
  /-- LZD.INIT wb, ob, lb, min, max (R181). -/
  | lzdInit (wb ob lb : BitVec 5) (min max : BitVec 16)
  /-- LZD.LIT b (R192). -/
  | lzdLit (b : Byte)
  /-- LZD.REF off, len (R193). -/
  | lzdRef (off len : BitVec 16)
  /-- LZD.STEP (R194). -/
  | lzdStep
  /-- LZD.RUN n (R196). -/
  | lzdRun (n : Word)
  /-- LZE.INIT wb, ob, lb, min, max (R199). -/
  | lzeInit (wb ob lb : BitVec 5) (min max : BitVec 16)
  /-- LZE.LIT b (R200). -/
  | lzeLit (b : Byte)
  /-- LZE.REF off, len (R201). -/
  | lzeRef (off len : BitVec 16)
  /-- LZE.FLUSH (R202). -/
  | lzeFlush
deriving DecidableEq, Repr

/-- The unit whose command it is (R94, R95). -/
def Instr.unit : Instr → CodecUnit
  | .sysNop | .sysReset | .sysRdsr _ => .sys
  | .brInit _ | .brGetbit | .brRead _ => .br
  | .bwInit _ | .bwPutbit _ | .bwWrite _ _ | .bwFlush => .bw
  | .hufClear | .hufPush _ | .hufBuild | .hufGetsym | .hufFpush _ | .hufMkenc | .hufPutsym _
  | .hufSetdef _ | .hufRdlen _ => .huf
  | .lzdInit _ _ _ _ _ | .lzdLit _ | .lzdRef _ _ | .lzdStep | .lzdRun _ => .lzd
  | .lzeInit _ _ _ _ _ | .lzeLit _ | .lzeRef _ _ | .lzeFlush => .lze

/-- The five initialising commands, which a sticky error never refuses (R223). -/
def Instr.isInit : Instr → Bool
  | .brInit _ | .bwInit _ | .hufClear | .lzdInit _ _ _ _ _ | .lzeInit _ _ _ _ _ => true
  | .sysNop | .sysReset | .sysRdsr _ | .brGetbit | .brRead _ | .bwPutbit _ | .bwWrite _ _
  | .bwFlush | .hufPush _ | .hufBuild | .hufGetsym | .hufFpush _ | .hufMkenc | .hufPutsym _
  | .hufSetdef _ | .hufRdlen _ | .lzdLit _ | .lzdRef _ _ | .lzdStep | .lzdRun _ | .lzeLit _
  | .lzeRef _ _ | .lzeFlush => false

end Sys2Proof
end

