-- ==== Sys2Proof/Decode.lean ====
section
/-! DEFINITION. Decoding and encoding of command beats (spec 30_encoding). Decoding is total: a beat
is one of the 28 commands or illegal, by name of the cause (R97, R98). -/

namespace Sys2Proof

/-- Why a CMD matches no row of the opcode map (the three cases R97 lists). -/
inductive Illegal where
  /-- UNIT in 6..15. -/
  | reservedUnit
  /-- OP not defined for its unit. -/
  | reservedOp
  /-- A must-be-zero IMM bit is set. -/
  | mustBeZero
deriving DecidableEq, Repr

/-! ## Fields of a beat (R90, R91) -/

/-- CMD: bits 31..0 of the beat. -/
def cmdOf (b : Beat) : Word := b.extractLsb' 0 32

/-- ARG: bits 63..32 of the beat. -/
def argOf (b : Beat) : Word := b.extractLsb' 32 32

/-- UNIT = CMD[31:28]. -/
def unitField (c : Word) : BitVec 4 := c.extractLsb' 28 4

/-- OP = CMD[27:24]. -/
def opField (c : Word) : BitVec 4 := c.extractLsb' 24 4

/-- IMM = CMD[23:0]. -/
def immField (c : Word) : BitVec 24 := c.extractLsb' 0 24

/-- A mode operand: 0 MSB-first, 1 LSB-first (R130, R137). -/
def modeOfBit (b : BitVec 1) : BitOrder := if b = 0#1 then .msb else .lsb

/-- The bit that carries a mode operand. -/
def bitOfMode : BitOrder → BitVec 1
  | .msb => 0#1
  | .lsb => 1#1

/-! ## Decoding -/

/-- The must-be-zero check (R92): the command, provided the IMM bits `high` are all 0. -/
def needZero {k : Nat} (high : BitVec k) (i : Instr) : Except Illegal Instr :=
  if high = 0#k then .ok i else .error .mustBeZero

/-- The SYS rows of R95. -/
def decodeSys (op : Nat) (imm : BitVec 24) : Except Illegal Instr :=
  match op with
  | 0 => needZero imm .sysNop
  | 1 => needZero imm .sysReset
  | 2 => needZero (imm.extractLsb' 8 16) (.sysRdsr (imm.extractLsb' 0 8))
  | _ => .error .reservedOp

/-- The BR rows of R95. -/
def decodeBr (op : Nat) (imm : BitVec 24) : Except Illegal Instr :=
  match op with
  | 0 => needZero (imm.extractLsb' 1 23) (.brInit (modeOfBit (imm.extractLsb' 0 1)))
  | 1 => needZero imm .brGetbit
  | 2 => needZero (imm.extractLsb' 6 18) (.brRead (imm.extractLsb' 0 6))
  | _ => .error .reservedOp

/-- The BW rows of R95. -/
def decodeBw (op : Nat) (imm : BitVec 24) (arg : Word) : Except Illegal Instr :=
  match op with
  | 0 => needZero (imm.extractLsb' 1 23) (.bwInit (modeOfBit (imm.extractLsb' 0 1)))
  | 1 => needZero (imm.extractLsb' 1 23) (.bwPutbit (imm.getLsbD 0))
  | 2 => needZero (imm.extractLsb' 6 18) (.bwWrite (imm.extractLsb' 0 6) arg)
  | 3 => needZero imm .bwFlush
  | _ => .error .reservedOp

/-- The HUF rows of R95. -/
def decodeHuf (op : Nat) (imm : BitVec 24) (arg : Word) : Except Illegal Instr :=
  match op with
  | 0 => needZero imm .hufClear
  | 1 => needZero (imm.extractLsb' 8 16) (.hufPush (imm.extractLsb' 0 8))
  | 2 => needZero imm .hufBuild
  | 3 => needZero imm .hufGetsym
  | 4 => needZero imm (.hufFpush arg)
  | 5 => needZero imm .hufMkenc
  | 6 => needZero (imm.extractLsb' 16 8) (.hufPutsym (imm.extractLsb' 0 16))
  | 7 => needZero (imm.extractLsb' 16 8) (.hufSetdef (imm.extractLsb' 0 16))
  | 8 => needZero (imm.extractLsb' 16 8) (.hufRdlen (imm.extractLsb' 0 16))
  | _ => .error .reservedOp

/-- The LZD rows of R95. -/
def decodeLzd (op : Nat) (imm : BitVec 24) (arg : Word) : Except Illegal Instr :=
  match op with
  | 0 => needZero (imm.extractLsb' 15 9)
      (.lzdInit (imm.extractLsb' 0 5) (imm.extractLsb' 5 5) (imm.extractLsb' 10 5)
        (arg.extractLsb' 0 16) (arg.extractLsb' 16 16))
  | 1 => needZero (imm.extractLsb' 8 16) (.lzdLit (imm.extractLsb' 0 8))
  | 2 => needZero imm (.lzdRef (arg.extractLsb' 0 16) (arg.extractLsb' 16 16))
  | 3 => needZero imm .lzdStep
  | 4 => needZero imm (.lzdRun arg)
  | _ => .error .reservedOp

/-- The LZE rows of R95. -/
def decodeLze (op : Nat) (imm : BitVec 24) (arg : Word) : Except Illegal Instr :=
  match op with
  | 0 => needZero (imm.extractLsb' 15 9)
      (.lzeInit (imm.extractLsb' 0 5) (imm.extractLsb' 5 5) (imm.extractLsb' 10 5)
        (arg.extractLsb' 0 16) (arg.extractLsb' 16 16))
  | 1 => needZero (imm.extractLsb' 8 16) (.lzeLit (imm.extractLsb' 0 8))
  | 2 => needZero imm (.lzeRef (arg.extractLsb' 0 16) (arg.extractLsb' 16 16))
  | 3 => needZero imm .lzeFlush
  | _ => .error .reservedOp

/-- `decode(CMD) = row | illegal` (R98), with the operands assembled (R96); ARG never decides
legality. -/
def decode (b : Beat) : Except Illegal Instr :=
  match (unitField (cmdOf b)).toNat with
  | 0 => decodeSys (opField (cmdOf b)).toNat (immField (cmdOf b))
  | 1 => decodeBr (opField (cmdOf b)).toNat (immField (cmdOf b))
  | 2 => decodeBw (opField (cmdOf b)).toNat (immField (cmdOf b)) (argOf b)
  | 3 => decodeHuf (opField (cmdOf b)).toNat (immField (cmdOf b)) (argOf b)
  | 4 => decodeLzd (opField (cmdOf b)).toNat (immField (cmdOf b)) (argOf b)
  | 5 => decodeLze (opField (cmdOf b)).toNat (immField (cmdOf b)) (argOf b)
  | _ => .error .reservedUnit

/-- The command the decoder reads from a row of spec/opcode_table.json: the low `nbits` bits of `w`
are the beat's low bits, every bit above is 0 (the table gives CMD only, so ARG is 0). -/
def decodeTableWord (nbits w : Nat) : Option Instr :=
  match decode (BitVec.ofNat 64 (w % 2 ^ nbits)) with
  | .ok i => some i
  | .error _ => none

/-! ## Encoding (R102: CMD = UNIT << 28 | OP << 24 | IMM, ARG as R95 says, else 0) -/

/-- A beat from its fields. -/
def beatOf (unit op : BitVec 4) (imm : BitVec 24) (arg : Word) : Beat :=
  arg ++ (unit ++ op ++ imm : Word)

/-- IMM of LZD.INIT and LZE.INIT: wb = IMM[4:0], ob = IMM[9:5], lb = IMM[14:10]. -/
def cfgImm (wb ob lb : BitVec 5) : BitVec 24 := 0#9 ++ lb ++ ob ++ wb

/-- The beat of a command. -/
def encode : Instr → Beat
  | .sysNop => beatOf 0 0 0 0
  | .sysReset => beatOf 0 1 0 0
  | .sysRdsr r => beatOf 0 2 (0#16 ++ r) 0
  | .brInit mode => beatOf 1 0 (0#23 ++ bitOfMode mode) 0
  | .brGetbit => beatOf 1 1 0 0
  | .brRead n => beatOf 1 2 (0#18 ++ n) 0
  | .bwInit mode => beatOf 2 0 (0#23 ++ bitOfMode mode) 0
  | .bwPutbit b => beatOf 2 1 (0#23 ++ BitVec.ofBool b) 0
  | .bwWrite n v => beatOf 2 2 (0#18 ++ n) v
  | .bwFlush => beatOf 2 3 0 0
  | .hufClear => beatOf 3 0 0 0
  | .hufPush len => beatOf 3 1 (0#16 ++ len) 0
  | .hufBuild => beatOf 3 2 0 0
  | .hufGetsym => beatOf 3 3 0 0
  | .hufFpush freq => beatOf 3 4 0 freq
  | .hufMkenc => beatOf 3 5 0 0
  | .hufPutsym sym => beatOf 3 6 (0#8 ++ sym) 0
  | .hufSetdef sym => beatOf 3 7 (0#8 ++ sym) 0
  | .hufRdlen sym => beatOf 3 8 (0#8 ++ sym) 0
  | .lzdInit wb ob lb min max => beatOf 4 0 (cfgImm wb ob lb) (max ++ min)
  | .lzdLit b => beatOf 4 1 (0#16 ++ b) 0
  | .lzdRef off len => beatOf 4 2 0 (len ++ off)
  | .lzdStep => beatOf 4 3 0 0
  | .lzdRun n => beatOf 4 4 0 n
  | .lzeInit wb ob lb min max => beatOf 5 0 (cfgImm wb ob lb) (max ++ min)
  | .lzeLit b => beatOf 5 1 (0#16 ++ b) 0
  | .lzeRef off len => beatOf 5 2 0 (len ++ off)
  | .lzeFlush => beatOf 5 3 0 0

/-! ## The opcode map as the spec prints it (R95) -/

/-- The four formats of R92: which of IMM and ARG hold operands. -/
inductive Format where
  | n
  | i
  | a
  | ia
deriving DecidableEq, Repr

/-- One row of R95: a beat selects it when `CMD & mask = pattern` (the column `match`). -/
structure OpcodeRow where
  mnemonic : String
  pattern : Word
  mask : Word
  format : Format
deriving DecidableEq, Repr

/-- The row selects the CMD. -/
def OpcodeRow.selects (r : OpcodeRow) (c : Word) : Bool := c &&& r.mask == r.pattern

/-- The 28 rows of R95. -/
def opcodeMap : List OpcodeRow :=
  [ ⟨"SYS.NOP", 0x00000000#32, 0xFFFFFFFF#32, .n⟩,
    ⟨"SYS.RESET", 0x01000000#32, 0xFFFFFFFF#32, .n⟩,
    ⟨"SYS.RDSR", 0x02000000#32, 0xFFFFFF00#32, .i⟩,
    ⟨"BR.INIT", 0x10000000#32, 0xFFFFFFFE#32, .i⟩,
    ⟨"BR.GETBIT", 0x11000000#32, 0xFFFFFFFF#32, .n⟩,
    ⟨"BR.READ", 0x12000000#32, 0xFFFFFFC0#32, .i⟩,
    ⟨"BW.INIT", 0x20000000#32, 0xFFFFFFFE#32, .i⟩,
    ⟨"BW.PUTBIT", 0x21000000#32, 0xFFFFFFFE#32, .i⟩,
    ⟨"BW.WRITE", 0x22000000#32, 0xFFFFFFC0#32, .ia⟩,
    ⟨"BW.FLUSH", 0x23000000#32, 0xFFFFFFFF#32, .n⟩,
    ⟨"HUF.CLEAR", 0x30000000#32, 0xFFFFFFFF#32, .n⟩,
    ⟨"HUF.PUSH", 0x31000000#32, 0xFFFFFF00#32, .i⟩,
    ⟨"HUF.BUILD", 0x32000000#32, 0xFFFFFFFF#32, .n⟩,
    ⟨"HUF.GETSYM", 0x33000000#32, 0xFFFFFFFF#32, .n⟩,
    ⟨"HUF.FPUSH", 0x34000000#32, 0xFFFFFFFF#32, .a⟩,
    ⟨"HUF.MKENC", 0x35000000#32, 0xFFFFFFFF#32, .n⟩,
    ⟨"HUF.PUTSYM", 0x36000000#32, 0xFFFF0000#32, .i⟩,
    ⟨"HUF.SETDEF", 0x37000000#32, 0xFFFF0000#32, .i⟩,
    ⟨"HUF.RDLEN", 0x38000000#32, 0xFFFF0000#32, .i⟩,
    ⟨"LZD.INIT", 0x40000000#32, 0xFFFF8000#32, .ia⟩,
    ⟨"LZD.LIT", 0x41000000#32, 0xFFFFFF00#32, .i⟩,
    ⟨"LZD.REF", 0x42000000#32, 0xFFFFFFFF#32, .a⟩,
    ⟨"LZD.STEP", 0x43000000#32, 0xFFFFFFFF#32, .n⟩,
    ⟨"LZD.RUN", 0x44000000#32, 0xFFFFFFFF#32, .a⟩,
    ⟨"LZE.INIT", 0x50000000#32, 0xFFFF8000#32, .ia⟩,
    ⟨"LZE.LIT", 0x51000000#32, 0xFFFFFF00#32, .i⟩,
    ⟨"LZE.REF", 0x52000000#32, 0xFFFFFFFF#32, .a⟩,
    ⟨"LZE.FLUSH", 0x53000000#32, 0xFFFFFFFF#32, .n⟩ ]

/-- The place of a command's row in `opcodeMap`. -/
def Instr.rowIndex : Instr → Nat
  | .sysNop => 0
  | .sysReset => 1
  | .sysRdsr _ => 2
  | .brInit _ => 3
  | .brGetbit => 4
  | .brRead _ => 5
  | .bwInit _ => 6
  | .bwPutbit _ => 7
  | .bwWrite _ _ => 8
  | .bwFlush => 9
  | .hufClear => 10
  | .hufPush _ => 11
  | .hufBuild => 12
  | .hufGetsym => 13
  | .hufFpush _ => 14
  | .hufMkenc => 15
  | .hufPutsym _ => 16
  | .hufSetdef _ => 17
  | .hufRdlen _ => 18
  | .lzdInit _ _ _ _ _ => 19
  | .lzdLit _ => 20
  | .lzdRef _ _ => 21
  | .lzdStep => 22
  | .lzdRun _ => 23
  | .lzeInit _ _ _ _ _ => 24
  | .lzeLit _ => 25
  | .lzeRef _ _ => 26
  | .lzeFlush => 27

/-- The row of R95 a command belongs to. -/
def Instr.row (i : Instr) : OpcodeRow :=
  opcodeMap.getD i.rowIndex ⟨"", 0#32, 0#32, .n⟩

end Sys2Proof
end

