-- ==== Sys2Proof/Config.lean ====
section
/-! DEFINITION. The implementation parameters of rule R6, one record with this hardware's values
(log 9). The block needs no free value: every command has one result for each state and
environment (R228), and what the environment decides (P1 to P4) is held in State. -/

namespace Sys2Proof

/-- The parameter record of R6. -/
structure Params where
  /-- BUFSZ: bytes in the reader's and in the writer's block buffer. -/
  bufsz : Nat
  /-- MAXN: largest bit count of BR.READ and BW.WRITE. -/
  maxn : Nat
  /-- HUF_MAXLEN: largest legal code length. -/
  hufMaxlen : Nat
  /-- HUF_NSYM_MAX: capacity of the length and frequency tables. -/
  hufNsymMax : Nat
  /-- LITBITS: payload bits of a literal token. -/
  litbits : Nat
  /-- WB_MAX: largest WINDOW_BITS. -/
  wbMax : Nat
  /-- ID: value of status register 0. -/
  id : Word
deriving DecidableEq, Repr

/-- The values of this hardware (R6). -/
def hbc1 : Params :=
  { bufsz := 4096, maxn := 32, hufMaxlen := 16, hufNsymMax := 512, litbits := 8, wbMax := 16,
    id := 0x48424331#32 }

namespace Config

/-- BUFSZ (R6). -/
def BUFSZ : Nat := hbc1.bufsz
/-- MAXN (R6). -/
def MAXN : Nat := hbc1.maxn
/-- HUF_MAXLEN (R6). -/
def HUF_MAXLEN : Nat := hbc1.hufMaxlen
/-- HUF_NSYM_MAX (R6). -/
def HUF_NSYM_MAX : Nat := hbc1.hufNsymMax
/-- LITBITS (R6). -/
def LITBITS : Nat := hbc1.litbits
/-- WB_MAX (R6). -/
def WB_MAX : Nat := hbc1.wbMax
/-- ID (R6, R35). -/
def ID : Word := hbc1.id

end Config

end Sys2Proof
end

