-- ==== Sys2Proof/Machine/State.lean ====
section
/-! DEFINITION. The state of the block: five units (R20, R23, R25, R27, R29, R31), the three streams
as plain data (R12, R60 to R63), the command and the response port (R90, R93). Counts, positions and
sizes are naturals (log 12); the bit vectors are what the spec treats as bits. -/

namespace Sys2Proof.Machine

/-! ## Reasons -/

/-- The fault codes of R220 that an ERR field can hold (log 10). -/
inductive FaultCode where
  /-- E_EOS (16): a bit was needed and SRC answered Eof. -/
  | eos
  /-- E_SRC (17): SrcRead answered Err. -/
  | src
  /-- E_SNK (18): SnkWrite answered Err. -/
  | snk
  /-- E_HUF_LEN (19): a code length above HUF_MAXLEN at table construction. -/
  | hufLen
  /-- E_HUF_OVERSUB (20): more codes at a length than bit-space allows. -/
  | hufOversub
  /-- E_HUF_NOCODE (21): LMAX bits read and no code matched. -/
  | hufNocode
  /-- E_LZ_RANGE (22): a decoded match length exceeds D.MAX. -/
  | lzRange
  /-- E_LZ_BADREF (23): a reference reaches a window position never written. -/
  | lzBadref
deriving DecidableEq, Repr

/-- The reject codes of R220. -/
inductive RejectCode where
  /-- E_ILLEGAL (1). -/
  | illegal
  /-- E_OPERAND (2). -/
  | operand
  /-- E_STATE (3). -/
  | state
  /-- E_NOSYM (4). -/
  | noSym
  /-- E_FULL (5). -/
  | full
deriving DecidableEq, Repr

/-- Reasons for which the machine would stop. It has none: every command of the block has a next
state for each state and environment (R228), the spec's faults are answers in STATUS (R222), and a
stream that never answers is `State.waiting` (log 6, log 19). Having no constructor is safe: nothing
is cut short. -/
inductive Fault where
deriving DecidableEq, Repr

/-- Refusals. -/
inductive Refusal where
  /-- Raised by exec's arm of an instruction that has no meaning yet; no arm raises it (log 19).
  Safe: a refusal proves nothing about the hardware. -/
  | notModelled (mnemonic : String)
deriving DecidableEq, Repr

/-- The three external streams (R60). -/
inductive Stream where
  | src
  | snk
  | dout
deriving DecidableEq, Repr

/-! ## Private memories -/

/-- A private memory of the block (R64): (index, value) pairs in one canonical form, indices strictly
rising and no entry equal to what an unlisted index reads as (log 7). A memory of bytes is a list of
`Host.Cell`. Reading and writing are `Memory.read` and `Memory.write` in Machine/Ops.lean. -/
structure Memory (w : Nat) where
  cells : List (Nat × BitVec w)
deriving DecidableEq, Repr

/-! ## The five units -/

/-- BR, the bit reader (R23). -/
structure Br where
  /-- RMODE. -/
  mode : BitOrder
  /-- RBUF. -/
  rbuf : Memory 8
  /-- RLEN. -/
  rlen : Nat
  /-- RPOS. -/
  rpos : Nat
  /-- RCUR, already shifted so that the next bit is at bit 7 (MSB-first) or bit 0 (LSB-first). -/
  rcur : Byte
  /-- RCNT. -/
  rcnt : Nat
  /-- REOF. -/
  reof : Bool
  /-- RBITS. -/
  rbits : BitVec 64
  /-- RPULL. -/
  rpull : BitVec 64
  /-- BR.ERR. -/
  err : Option FaultCode
deriving DecidableEq, Repr

/-- BW, the bit writer (R25). -/
structure Bw where
  /-- WMODE. -/
  mode : BitOrder
  /-- WBUF. -/
  wbuf : Memory 8
  /-- WLEN. -/
  wlen : Nat
  /-- WCUR. -/
  wcur : Byte
  /-- WCNT. -/
  wcnt : Nat
  /-- WBITS. -/
  wbits : BitVec 64
  /-- WPUSH. -/
  wpush : BitVec 64
  /-- BW.ERR. -/
  err : Option FaultCode
deriving DecidableEq, Repr

/-- HSTATE (R27, R150). -/
inductive HufState where
  | loading
  | built
deriving DecidableEq, Repr

/-- HUF, the canonical Huffman coder (R27). -/
structure Huf where
  /-- HSTATE. -/
  hstate : HufState
  /-- LEN. -/
  len : Memory 8
  /-- NSYM. -/
  nsym : Nat
  /-- FREQ. -/
  freq : Memory 32
  /-- NFREQ. -/
  nfreq : Nat
  /-- COUNT, indices 1..16. -/
  count : Memory 10
  /-- FIRST, indices 1..16. -/
  first : Memory 17
  /-- BASE, indices 1..16. -/
  base : Memory 10
  /-- SORTED. -/
  sorted : Memory 16
  /-- CODE. -/
  code : Memory 16
  /-- NCODES. -/
  ncodes : Nat
  /-- LMAX. -/
  lmax : Nat
  /-- DEFSYM. -/
  defsym : BitVec 16
  /-- HUF.ERR. -/
  err : Option FaultCode
deriving DecidableEq, Repr

/-- The five LZ parameters of one direction (R7, R29, R31). -/
structure LzConfig where
  /-- WINDOW_BITS. -/
  wb : BitVec 5
  /-- OFFSET_BITS. -/
  ob : BitVec 5
  /-- LENGTH_BITS. -/
  lb : BitVec 5
  /-- MIN_MATCH. -/
  min : BitVec 16
  /-- MAX_MATCH. -/
  max : BitVec 16
deriving DecidableEq, Repr

/-- DSTATE (R29). -/
inductive LzdState where
  | ready
  | copy
  | done
deriving DecidableEq, Repr

/-- LZD, the LZSS decompressor (R29). -/
structure Lzd where
  /-- D.WB, D.OB, D.LB, D.MIN, D.MAX. -/
  cfg : LzConfig
  /-- WIN. -/
  win : Memory 8
  /-- WPOS. -/
  wpos : Nat
  /-- FILLED. -/
  filled : Nat
  /-- DSTATE. -/
  dstate : LzdState
  /-- TOKPHASE. -/
  tokphase : Bool
  /-- CSRC. -/
  csrc : Nat
  /-- CREM. -/
  crem : Nat
  /-- OUTCNT. -/
  outcnt : BitVec 64
  /-- LZD.ERR. -/
  err : Option FaultCode
deriving DecidableEq, Repr

/-- ESTATE (R31, R203). -/
inductive LzeState where
  | idle
  | flushing
deriving DecidableEq, Repr

/-- LZE, the LZSS compressor (R31). -/
structure Lze where
  /-- E.WB, E.OB, E.LB, E.MIN, E.MAX. -/
  cfg : LzConfig
  /-- ESTATE. -/
  estate : LzeState
  /-- LZE.ERR. -/
  err : Option FaultCode
deriving DecidableEq, Repr

/-! ## The streams (R12: the environment; log 3, log 4, log 5) -/

/-- What SrcRead answers once every byte of SRC has been delivered (R61, P1, P4). -/
inductive SrcEnd where
  /-- `Eof`: S ends cleanly. -/
  | eof
  /-- `Err`: the stream has failed. -/
  | err
  /-- No answer, ever (R80). -/
  | silent
deriving DecidableEq, Repr

/-- SRC (R61): the byte sequence S is `delivered ++ pending.flatten`; the cursor is the length of
`delivered`; the lists of `pending` are the chunks the coming calls will answer (P2). -/
structure Src where
  delivered : List Byte
  pending : List (List Byte)
  ending : SrcEnd
  /-- How many SrcRead calls have been made. -/
  calls : Nat
deriving DecidableEq, Repr

/-- What one SnkWrite answers (R62, P3, P4). -/
inductive SnkAnswer where
  /-- `Ok`. -/
  | ok
  /-- `Err`. -/
  | err
  /-- No answer, ever (R80). -/
  | silent
deriving DecidableEq, Repr

/-- SNK (R62): the blocks accepted so far, in order; the answers of the coming calls, and the answer
of every call after those. -/
structure Snk where
  accepted : List (List Byte)
  answers : List SnkAnswer
  otherwise : SnkAnswer
  /-- How many SnkWrite calls have been made. -/
  calls : Nat
deriving DecidableEq, Repr

/-- DOUT (R63): the bytes emitted so far; `room = some k` says that it takes k more bytes and then
blocks for ever, `none` that it never blocks. -/
structure Dout where
  bytes : List Byte
  room : Option Nat
deriving DecidableEq, Repr

/-- One response beat, {RESULT[63:32], STATUS[31:0]} (R93). -/
structure Response where
  result : Word
  status : Word
deriving DecidableEq, Repr

/-! ## The state -/

/-- The whole machine: the five units, the streams, the ports. -/
structure State where
  br : Br
  bw : Bw
  huf : Huf
  lzd : Lzd
  lze : Lze
  src : Src
  snk : Snk
  dout : Dout
  /-- The command port: the beats the host will present, each after the response to the one before
  it (R93; log 1). -/
  cmds : List Beat
  /-- The response port: the responses given so far, oldest first (R93; log 2). -/
  responses : List Response
  /-- The stream whose answer the command in progress waits for without end, if any (R80; log 6). -/
  waiting : Option Stream
deriving DecidableEq, Repr

/-! ## Reset (R44, R250) -/

/-- A memory with nothing written (R251; log 7). -/
def Memory.empty {w : Nat} : Memory w := ⟨[]⟩

/-- BR after reset (R44). -/
def Br.reset : Br :=
  { mode := .msb, rbuf := Memory.empty, rlen := 0, rpos := 0, rcur := 0#8, rcnt := 0, reof := false,
    rbits := 0#64, rpull := 0#64, err := none }

/-- BW after reset (R44). -/
def Bw.reset : Bw :=
  { mode := .msb, wbuf := Memory.empty, wlen := 0, wcur := 0#8, wcnt := 0, wbits := 0#64,
    wpush := 0#64, err := none }

/-- HUF after reset (R44). -/
def Huf.reset : Huf :=
  { hstate := .loading, len := Memory.empty, nsym := 0, freq := Memory.empty, nfreq := 0,
    count := Memory.empty, first := Memory.empty, base := Memory.empty, sorted := Memory.empty,
    code := Memory.empty, ncodes := 0, lmax := 0, defsym := 0#16, err := none }

/-- The reset configuration of both directions: 12, 12, 4, 3, 18 (R7, R44). -/
def LzConfig.reset : LzConfig :=
  { wb := 12#5, ob := 12#5, lb := 4#5, min := 3#16, max := 18#16 }

/-- LZD after reset (R44). -/
def Lzd.reset : Lzd :=
  { cfg := LzConfig.reset, win := Memory.empty, wpos := 0, filled := 0, dstate := .ready,
    tokphase := false, csrc := 0, crem := 0, outcnt := 0#64, err := none }

/-- LZE after reset (R44). -/
def Lze.reset : Lze := { cfg := LzConfig.reset, estate := .idle, err := none }

/-- Power-on reset (R250): the first state of the model. The environment's values (SRC empty with a
clean end, SNK always Ok, DOUT never blocking, no command presented) are choices of the log
(log 1 to log 5). -/
def State.reset : State :=
  { br := Br.reset, bw := Bw.reset, huf := Huf.reset, lzd := Lzd.reset, lze := Lze.reset,
    src := { delivered := [], pending := [], ending := .eof, calls := 0 },
    snk := { accepted := [], answers := [], otherwise := .ok, calls := 0 },
    dout := { bytes := [], room := none },
    cmds := [], responses := [], waiting := none }

end Sys2Proof.Machine
end

