-- ==== Sys2Proof/Machine/Operands.lean ====
section
/-! DEFINITION. Operand forms: how bits become values and values become bits in the two modes (R66,
R67, R170), and the quantities the LZ configuration gives (R7, R182, R190). -/

namespace Sys2Proof.Machine

open Config

/-! ## Bits and values -/

/-- The bits of a value of n bits in the order ReadBits and WriteBits move them (R67): most
significant first in MSB-first mode, least significant first in LSB-first mode. -/
def bitsOf (mode : BitOrder) (n v : Nat) : List Bool :=
  match mode with
  | .msb => (List.range n).map fun i => v.testBit (n - 1 - i)
  | .lsb => (List.range n).map fun i => v.testBit i

/-- MSB-first packing: each further bit shifts the value left (R132). -/
def packMsb (bs : List Bool) : Nat := bs.foldl (fun v b => 2 * v + b.toNat) 0

/-- LSB-first packing: bit i of the list becomes bit i of the value (R132). -/
def packLsb : List Bool → Nat
  | [] => 0
  | b :: bs => b.toNat + 2 * packLsb bs

/-- The value ReadBits makes of the bits it has read, in reading order (R67, R132). -/
def packBits (mode : BitOrder) (bs : List Bool) : Nat :=
  match mode with
  | .msb => packMsb bs
  | .lsb => packLsb bs

/-- The bits of a Huffman code, bit l-1 first whatever the mode (R170). -/
def codeBits (l code : Nat) : List Bool := bitsOf .msb l code

/-- The one-bit byte that sits where the next written bit lands (R66, R138): position 7 - WCNT in
MSB-first mode, WCNT in LSB-first mode. -/
def bitAt (mode : BitOrder) (cnt : Nat) : Byte :=
  match mode with
  | .msb => 1#8 <<< (7 - cnt)
  | .lsb => 1#8 <<< cnt

/-! ## The LZ configuration -/

/-- WSIZE = 2^WB (R7). -/
def LzConfig.wsize (c : LzConfig) : Nat := 2 ^ c.wb.toNat

/-- ConfigOk (R182). -/
def LzConfig.ok (c : LzConfig) : Bool :=
  decide (1 ≤ c.wb.toNat ∧ c.wb.toNat ≤ WB_MAX ∧ 1 ≤ c.ob.toNat ∧ c.ob.toNat ≤ c.wb.toNat ∧
    1 ≤ c.lb.toNat ∧ c.lb.toNat ≤ 16 ∧ c.min.toNat ≤ c.max.toNat ∧
    c.max.toNat - c.min.toNat ≤ 2 ^ c.lb.toNat - 1)

/-- The distance of a reference with this offset (R190): off, or WSIZE when off = 0. -/
def LzConfig.distance (c : LzConfig) (off : Nat) : Nat := if off = 0 then c.wsize else off

/-- `(WPOS - off) mod WSIZE`, the non-negative remainder (R187, R210). -/
def LzConfig.source (c : LzConfig) (wpos off : Nat) : Nat :=
  (wpos + (c.wsize - off % c.wsize)) % c.wsize

/-- A token (R180). -/
inductive Token where
  | literal (b : Byte)
  | reference (off len : Nat)
deriving DecidableEq, Repr

/-- A token in the plain format, in stream order (R183). -/
def tokenBits (mode : BitOrder) (c : LzConfig) : Token → List Bool
  | .literal b => false :: bitsOf mode LITBITS b.toNat
  | .reference off len =>
    true :: (bitsOf mode c.ob.toNat off ++ bitsOf mode c.lb.toNat (len - c.min.toNat))

end Sys2Proof.Machine
end

