-- ==== Sys2Proof/Machine/Ops.lean ====
section
/-! DEFINITION. The named operations every command is built from: private memories, the outcome of a
primitive, responses, rejects and faults (R220 to R225), the three stream primitives (R61 to R63). -/

namespace Sys2Proof.Machine

open Config

/-! ## Private memories (R64, R216) -/

/-- What an index that no write is listed for reads as: 0 (log 7, DESIGN CHOICE; R251 lets a model
pick any value). -/
def Memory.unlisted {w : Nat} : BitVec w := 0#w

/-- The value at an index of a list of entries. -/
def readCells {w : Nat} : List (Nat × BitVec w) → Nat → BitVec w
  | [], _ => Memory.unlisted
  | (k, v) :: cs, a => if k = a then v else readCells cs a

/-- The entries after a write, kept in canonical form. -/
def writeCells {w : Nat} : List (Nat × BitVec w) → Nat → BitVec w → List (Nat × BitVec w)
  | [], a, v => if v = Memory.unlisted then [] else [(a, v)]
  | (k, u) :: cs, a, v =>
    if a < k then
      if v = Memory.unlisted then (k, u) :: cs else (a, v) :: (k, u) :: cs
    else if a = k then
      if v = Memory.unlisted then cs else (a, v) :: cs
    else (k, u) :: writeCells cs a v

/-- `T[i]` (R9). -/
def Memory.read {w : Nat} (m : Memory w) (a : Nat) : BitVec w := readCells m.cells a

/-- `T[i] <- v` (R9). -/
def Memory.write {w : Nat} (m : Memory w) (a : Nat) (v : BitVec w) : Memory w :=
  ⟨writeCells m.cells a v⟩

/-- Consecutive writes from an index up. -/
def Memory.writeList {w : Nat} (m : Memory w) (a : Nat) : List (BitVec w) → Memory w
  | [] => m
  | v :: vs => Memory.writeList (m.write a v) (a + 1) vs

/-- `n` consecutive elements from an index up. -/
def Memory.readList {w : Nat} (m : Memory w) (a n : Nat) : List (BitVec w) :=
  (List.range n).map fun i => m.read (a + i)

/-- The canonical form of a list of entries: indices strictly rising, every entry different from
what an unlisted index reads as. -/
def wfCells {w : Nat} : List (Nat × BitVec w) → Bool
  | [] => true
  | [(_, v)] => v != Memory.unlisted
  | (k, v) :: (k', v') :: cs => (v != Memory.unlisted) && decide (k < k') && wfCells ((k', v') :: cs)

/-- The memory is in canonical form. -/
def Memory.wf {w : Nat} (m : Memory w) : Bool := wfCells m.cells

/-- Every listed index is below the memory's capacity (R216). -/
def Memory.below {w : Nat} (m : Memory w) (cap : Nat) : Bool :=
  m.cells.all fun c => decide (c.1 < cap)

/-! ## What a primitive does -/

/-- The outcome of a primitive (R10): it goes on with a value, or ends the command with a fault
detected in a unit (R222), or waits for a stream that never answers (R80). The state carries every
effect made so far (R229). -/
inductive Res (α : Type) where
  | ok (a : α) (s : State)
  | faulted (v : CodecUnit) (c : FaultCode) (s : State)
  | waits (d : Stream) (s : State)

/-- Go on after a primitive that has not ended the command. -/
def Res.bind {α β : Type} (r : Res α) (f : α → State → Res β) : Res β :=
  match r with
  | .ok a s => f a s
  | .faulted v c s => .faulted v c s
  | .waits d s => .waits d s

/-- What one command answers the host. -/
abbrev Answer := Host.Outcome State Fault Refusal

/-! ## Status codes (R220) -/

/-- The number of a fault code. -/
def FaultCode.num : FaultCode → Word
  | .eos => 16#32
  | .src => 17#32
  | .snk => 18#32
  | .hufLen => 19#32
  | .hufOversub => 20#32
  | .hufNocode => 21#32
  | .lzRange => 22#32
  | .lzBadref => 23#32

/-- The number of a reject code. -/
def RejectCode.num : RejectCode → Word
  | .illegal => 1#32
  | .operand => 2#32
  | .state => 3#32
  | .noSym => 4#32
  | .full => 5#32

/-- What an ERR field reads as: 0 for none (R23, R32). -/
def errNum : Option FaultCode → Word
  | none => 0#32
  | some c => c.num

/-- The response as one 64-bit beat (R93). -/
def Response.beat (r : Response) : Beat := r.result ++ r.status

/-! ## The sticky error fields (R32) -/

/-- U.ERR; SYS has none. -/
def State.err (s : State) : CodecUnit → Option FaultCode
  | .sys => none
  | .br => s.br.err
  | .bw => s.bw.err
  | .huf => s.huf.err
  | .lzd => s.lzd.err
  | .lze => s.lze.err

/-- `U.ERR <- code`; SYS has none. -/
def State.setErr (s : State) (u : CodecUnit) (c : FaultCode) : State :=
  match u with
  | .sys => s
  | .br => { s with br := { s.br with err := some c } }
  | .bw => { s with bw := { s.bw with err := some c } }
  | .huf => { s with huf := { s.huf with err := some c } }
  | .lzd => { s with lzd := { s.lzd with err := some c } }
  | .lze => { s with lze := { s.lze with err := some c } }

/-! ## Ending a command (R93, R221, R222) -/

/-- The response beat {RESULT, STATUS} is given. -/
def State.answer (s : State) (result status : Word) : State :=
  { s with responses := s.responses ++ [⟨result, status⟩] }

/-- `respond(r)`: STATUS = 0, RESULT = r (R93; R213: r fits in 32 bits). -/
def State.respond (s : State) (r : Nat) : State := s.answer (BitVec.ofNat 32 r) 0#32

/-- `reject(code)`: the command ends at once, nothing changes (R221). -/
def reject (c : RejectCode) (s : State) : Answer := .next (s.answer 0#32 c.num)

/-- TAKING A FAULT (R222): V.ERR <- code in the unit V that detected it, U.ERR <- code in the unit U
whose command runs, then the response {0, code}. It is the block's trap entry (R229). -/
def State.takeFault (s : State) (u v : CodecUnit) (c : FaultCode) : State :=
  ((s.setErr v c).setErr u c).answer 0#32 c.num

/-- The end of a command of unit `u`: respond with the value, or take the fault, or wait without end
(R80: no response, no further step). -/
def Res.finish (u : CodecUnit) : Res Nat → Answer
  | .ok r s => .next (s.respond r)
  | .faulted v c s => .next (s.takeFault u v c)
  | .waits d s => .next { s with waiting := some d }

/-- Step 2 of the common prologue (R225): a command of unit `u` is answered with the sticky code while
U.ERR is set, and changes nothing (R223). -/
def unlessSticky (u : CodecUnit) (s : State) (run : State → Answer) : Answer :=
  match s.err u with
  | some c => .next (s.answer 0#32 c.num)
  | none => run s

/-- The command port: the beat the host presents next and the state without it. -/
def State.takeBeat (s : State) : Option (Beat × State) :=
  match s.cmds with
  | [] => none
  | b :: rest => some (b, { s with cmds := rest })

/-! ## The stream primitives -/

/-- What one SrcRead answers (R61). -/
inductive SrcAnswer where
  | data (bs : List Byte)
  | eof
  | err
  | silent
deriving DecidableEq, Repr

/-- The answer once every byte has been delivered. -/
def SrcEnd.answer : SrcEnd → SrcAnswer
  | .eof => .eof
  | .err => .err
  | .silent => .silent

/-- The chunk the next call delivers, at most `max` bytes, and the chunks left: an empty chunk is no
answer and is passed over, a longer one is cut (log 3). -/
def nextChunk (max : Nat) : List (List Byte) → Option (List Byte × List (List Byte))
  | [] => none
  | [] :: cs => nextChunk max cs
  | (b :: bs) :: cs => some ((b :: bs).take max, (b :: bs).drop max :: cs)

/-- `SrcRead(max)` (R61). -/
def srcRead (max : Nat) (s : Src) : SrcAnswer × Src :=
  match nextChunk max s.pending with
  | some (bs, rest) =>
    (.data bs, { s with delivered := s.delivered ++ bs, pending := rest, calls := s.calls + 1 })
  | none => (s.ending.answer, { s with calls := s.calls + 1 })

/-- The answer the next SnkWrite gets. -/
def Snk.answer (s : Snk) : SnkAnswer := s.answers.headD s.otherwise

/-- `SnkWrite(bs)` (R62): all of `bs` is appended on Ok, nothing otherwise. -/
def snkWrite (bs : List Byte) (s : Snk) : SnkAnswer × Snk :=
  (s.answer,
    { s with
      accepted := if s.answer = .ok then s.accepted ++ [bs] else s.accepted
      answers := s.answers.tail
      calls := s.calls + 1 })

/-- `DoutPut(b)` (R63): the byte is appended, unless DOUT takes no more and never answers. -/
def doutPut (b : Byte) (s : State) : Res Unit :=
  match s.dout.room with
  | none => .ok () { s with dout := { s.dout with bytes := s.dout.bytes ++ [b] } }
  | some 0 => .waits .dout s
  | some (k + 1) => .ok () { s with dout := { bytes := s.dout.bytes ++ [b], room := some k } }

end Sys2Proof.Machine
end

