-- ==== Sys2Proof/Machine/Flags.lean ====
section
/-! DEFINITION. Flags and status registers: the 28 read-only views of R34 to R40, computed from the
state elements at the moment SYS.RDSR runs. Bits that no rule names read as 0. -/

namespace Sys2Proof.Machine

open Config

/-- The bit of a flag. -/
def flagBit (b : Bool) : Word := BitVec.setWidth 32 (BitVec.ofBool b)

/-- A field of `w` bits holding a count, at bit `lo` of a status register. -/
def fieldAt (lo w v : Nat) : Word := BitVec.setWidth 32 (BitVec.ofNat w v) <<< lo

/-- RMODE and WMODE as a bit: 0 MSB-first, 1 LSB-first (R23, R25). -/
def modeBit : BitOrder → Word
  | .msb => 0#32
  | .lsb => 1#32

/-- HSTATE as a bit: 0 LOADING, 1 BUILT (R27). -/
def hstateBit : HufState → Word
  | .loading => 0#32
  | .built => 1#32

/-- DSTATE as two bits: 0 READY, 1 COPY, 2 DONE (R29). -/
def dstateBits : LzdState → Word
  | .ready => 0#32
  | .copy => 1#32
  | .done => 2#32

/-- ESTATE as a bit: 0 Idle, 1 Flushing (R31). -/
def estateBit : LzeState → Word
  | .idle => 0#32
  | .flushing => 1#32

/-- The low half of a 64-bit counter. -/
def loHalf (c : BitVec 64) : Word := c.extractLsb' 0 32

/-- The high half of a 64-bit counter. -/
def hiHalf (c : BitVec 64) : Word := c.extractLsb' 32 32

/-- PARAM1 (R35). -/
def param1 : Word := fieldAt 0 8 HUF_MAXLEN ||| fieldAt 8 8 MAXN ||| fieldAt 16 16 HUF_NSYM_MAX

/-- PARAM2 (R35). -/
def param2 : Word := fieldAt 0 8 WB_MAX ||| fieldAt 8 8 LITBITS

/-- BRSR (R36). -/
def Br.sr (b : Br) : Word :=
  modeBit b.mode ||| flagBit b.reof <<< 1 ||| fieldAt 4 4 b.rcnt ||| errNum b.err <<< 8 |||
    fieldAt 16 13 (b.rlen - b.rpos)

/-- BWSR (R37). -/
def Bw.sr (b : Bw) : Word :=
  modeBit b.mode ||| fieldAt 4 3 b.wcnt ||| errNum b.err <<< 8 ||| fieldAt 16 13 b.wlen

/-- HUFSR (R38). -/
def Huf.sr (h : Huf) : Word := hstateBit h.hstate ||| errNum h.err <<< 8 ||| fieldAt 16 16 h.nsym

/-- HUFSR2 (R38). -/
def Huf.sr2 (h : Huf) : Word := BitVec.setWidth 32 h.defsym ||| fieldAt 16 16 h.ncodes

/-- HUFSR3 (R38). -/
def Huf.sr3 (h : Huf) : Word := fieldAt 0 16 h.nfreq ||| fieldAt 16 5 h.lmax

/-- LZDCFG0 and LZECFG0 (R39, R40). -/
def LzConfig.sr0 (c : LzConfig) : Word :=
  BitVec.setWidth 32 c.wb ||| BitVec.setWidth 32 c.ob <<< 5 ||| BitVec.setWidth 32 c.lb <<< 10

/-- LZDCFG1 and LZECFG1 (R39, R40). -/
def LzConfig.sr1 (c : LzConfig) : Word := c.max ++ c.min

/-- LZDSR (R39). -/
def Lzd.sr (d : Lzd) : Word :=
  dstateBits d.dstate ||| flagBit d.tokphase <<< 2 ||| errNum d.err <<< 8

/-- LZESR (R40). -/
def Lze.sr (e : Lze) : Word := estateBit e.estate ||| errNum e.err <<< 8

/-- SR(r) for r = 0..27 (R34 to R40); the numbers above are reserved and no command reads them. -/
def statusRegister (s : State) (r : Nat) : Word :=
  match r with
  | 0 => ID
  | 1 => fieldAt 0 32 BUFSZ
  | 2 => param1
  | 3 => param2
  | 4 => s.br.sr
  | 5 => loHalf s.br.rbits
  | 6 => hiHalf s.br.rbits
  | 7 => loHalf s.br.rpull
  | 8 => hiHalf s.br.rpull
  | 9 => s.bw.sr
  | 10 => loHalf s.bw.wbits
  | 11 => hiHalf s.bw.wbits
  | 12 => loHalf s.bw.wpush
  | 13 => hiHalf s.bw.wpush
  | 14 => s.huf.sr
  | 15 => s.huf.sr2
  | 16 => s.huf.sr3
  | 17 => s.lzd.sr
  | 18 => s.lzd.cfg.sr0
  | 19 => s.lzd.cfg.sr1
  | 20 => fieldAt 0 16 s.lzd.wpos
  | 21 => fieldAt 0 17 s.lzd.filled
  | 22 => fieldAt 0 16 s.lzd.csrc ||| fieldAt 16 16 s.lzd.crem
  | 23 => loHalf s.lzd.outcnt
  | 24 => hiHalf s.lzd.outcnt
  | 25 => s.lze.sr
  | 26 => s.lze.cfg.sr0
  | 27 => s.lze.cfg.sr1
  | _ => 0#32

end Sys2Proof.Machine
end

