-- ==== Sys2Proof/Machine/Sys.lean ====
section
/-! DEFINITION. The SYS commands (spec 40_sys). SYS has no state and no sticky error, so none of them
is refused because of an earlier fault. -/

namespace Sys2Proof.Machine

/-! ## Resets of one unit (R253). The private memories keep their contents (R251, log 8). -/

/-- All BR elements as after reset, in the given mode (R130, R250). -/
def Br.initialised (b : Br) (mode : BitOrder) : Br := { Br.reset with mode := mode, rbuf := b.rbuf }

/-- All BW elements as after reset, in the given mode (R137, R250). -/
def Bw.initialised (b : Bw) (mode : BitOrder) : Bw := { Bw.reset with mode := mode, wbuf := b.wbuf }

/-- All HUF counts, HSTATE, DEFSYM and HUF.ERR as after reset (R151, R250). -/
def Huf.cleared (h : Huf) : Huf :=
  { h with
    hstate := .loading, nsym := 0, nfreq := 0, ncodes := 0, lmax := 0, defsym := 0#16, err := none }

/-- All LZD elements as after reset, with the given configuration (R181, R250). -/
def Lzd.initialised (d : Lzd) (c : LzConfig) : Lzd := { Lzd.reset with cfg := c, win := d.win }

/-- All LZE elements as after reset, with the given configuration (R199, R250). -/
def Lze.initialised (c : LzConfig) : Lze := { Lze.reset with cfg := c }

/-- Every unit takes its reset values; the streams are not touched (R121, R252). -/
def State.resetUnits (s : State) : State :=
  { s with
    br := s.br.initialised .msb
    bw := s.bw.initialised .msb
    huf := s.huf.cleared
    lzd := s.lzd.initialised LzConfig.reset
    lze := Lze.initialised LzConfig.reset }

/-! ## The commands -/

/-- SYS.NOP (R120). -/
def execSysNop (s : State) : Answer := .next (s.respond 0)

/-- SYS.RESET (R121). -/
def execSysReset (s : State) : Answer := .next (s.resetUnits.respond 0)

/-- SYS.RDSR r (R122). -/
def execSysRdsr (r : BitVec 8) (s : State) : Answer :=
  if 27 < r.toNat then reject .operand s
  else .next (s.answer (statusRegister s r.toNat) 0#32)

end Sys2Proof.Machine
end

