-- ==== Sys2Proof/Machine/BitWriter.lean ====
section
/-! DEFINITION. BW, the bit writer: its primitives PutBit, WriteBits, EmitByte, Drain and Flush (R138
to R141) and its commands (R137, R142 to R144). -/

namespace Sys2Proof.Machine

open Config

/-! ## Primitives -/

/-- `Drain()` (R140): everything in WBUF is handed to SNK in one SnkWrite. -/
def drain (s : State) : Res Unit :=
  if 0 < s.bw.wlen then
    match snkWrite (s.bw.wbuf.readList 0 s.bw.wlen) s.snk with
    | (.ok, snk) =>
      .ok () { s with
        snk := snk
        bw := { s.bw with wpush := s.bw.wpush + BitVec.ofNat 64 s.bw.wlen, wlen := 0 } }
    | (.err, snk) => .faulted .bw .snk { s with snk := snk }
    | (.silent, snk) => .waits .snk { s with snk := snk }
  else .ok () s

/-- The first line of EmitByte (R140): WCUR is appended to WBUF. -/
def appendCur (s : State) : State :=
  { s with bw := { s.bw with
      wbuf := s.bw.wbuf.write s.bw.wlen s.bw.wcur
      wlen := s.bw.wlen + 1
      wcur := 0#8
      wcnt := 0 } }

/-- `EmitByte()` (R140): the drain happens at the moment the block buffer fills. -/
def emitByte (s : State) : Res Unit :=
  if s.bw.wlen + 1 = BUFSZ then drain (appendCur s) else .ok () (appendCur s)

/-- BW after a bit has been placed in WCUR (R138). -/
def Bw.withBit (w : Bw) (b : Bool) : Bw :=
  { w with
    wcur := if b then w.wcur ||| bitAt w.mode w.wcnt else w.wcur
    wcnt := w.wcnt + 1
    wbits := w.wbits + 1#64 }

/-- `PutBit(b)` (R138). -/
def putBit (b : Bool) (s : State) : Res Unit :=
  match s.bw.err with
  | some c => .faulted .bw c s
  | none =>
    if s.bw.wcnt + 1 = 8 then emitByte { s with bw := s.bw.withBit b }
    else .ok () { s with bw := s.bw.withBit b }

/-- PutBit on each bit of a list, in order. -/
def putBits : List Bool → State → Res Unit
  | [], s => .ok () s
  | b :: bs, s => (putBit b s).bind fun _ s => putBits bs s

/-- `WriteBits(n, v)` (R139): only bits n-1..0 of v are used. -/
def writeBits (n v : Nat) (s : State) : Res Unit := putBits (bitsOf s.bw.mode n v) s

/-- `Flush()` (R141): the partial byte is padded with zeros, then everything is delivered. -/
def flush (s : State) : Res Unit :=
  match s.bw.err with
  | some c => .faulted .bw c s
  | none => (if 0 < s.bw.wcnt then emitByte s else .ok () s).bind fun _ s => drain s

/-! ## Commands -/

/-- BW.INIT mode (R137). -/
def execBwInit (mode : BitOrder) (s : State) : Answer :=
  .next (State.respond { s with bw := s.bw.initialised mode } 0)

/-- BW.PUTBIT b (R142). -/
def execBwPutbit (b : Bool) (s : State) : Answer :=
  unlessSticky .bw s fun s => ((putBit b s).bind fun _ s => Res.ok 0 s).finish .bw

/-- BW.WRITE n, v (R143). -/
def execBwWrite (n : BitVec 6) (v : Word) (s : State) : Answer :=
  unlessSticky .bw s fun s =>
    if MAXN < n.toNat then reject .operand s
    else ((writeBits n.toNat v.toNat s).bind fun _ s => Res.ok 0 s).finish .bw

/-- BW.FLUSH (R144). -/
def execBwFlush (s : State) : Answer :=
  unlessSticky .bw s fun s => ((flush s).bind fun _ s => Res.ok 0 s).finish .bw

end Sys2Proof.Machine
end

