-- ==== Sys2Proof/Machine/Compressor.lean ====
section
/-! DEFINITION. LZE, the compressor's serialiser (R199 to R205): tokens the host has decided are
written through BW in the plain format. -/

namespace Sys2Proof.Machine

open Config

/-- `ESTATE <- e` (R202). -/
def setEstate (e : LzeState) (s : State) : State := { s with lze := { s.lze with estate := e } }

/-- Serialise a token; answers how many bits were written (R200, R201). -/
def putToken (t : Token) (s : State) : Res Nat :=
  (putBits (tokenBits s.bw.mode s.lze.cfg t) s).bind fun _ r =>
    .ok (tokenBits s.bw.mode s.lze.cfg t).length r

/-- LZE.INIT wb, ob, lb, min, max (R199). -/
def execLzeInit (wb ob lb : BitVec 5) (min max : BitVec 16) (s : State) : Answer :=
  if (LzConfig.mk wb ob lb min max).ok then
    .next (State.respond
      { s with lze := Lze.initialised { wb := wb, ob := ob, lb := lb, min := min, max := max } } 0)
  else reject .operand s

/-- LZE.LIT b (R200). -/
def execLzeLit (b : Byte) (s : State) : Answer :=
  unlessSticky .lze s fun s =>
    if s.lze.estate ≠ .idle then reject .state s
    else (putToken (.literal b) s).finish .lze

/-- LZE.REF off, len (R201). -/
def execLzeRef (off len : BitVec 16) (s : State) : Answer :=
  unlessSticky .lze s fun s =>
    if s.lze.estate ≠ .idle then reject .state s
    else if 2 ^ s.lze.cfg.ob.toNat ≤ off.toNat then reject .operand s
    else if len.toNat < s.lze.cfg.min.toNat ∨ s.lze.cfg.max.toNat < len.toNat then
      reject .operand s
    else (putToken (.reference off.toNat len.toNat) s).finish .lze

/-- LZE.FLUSH (R202): ESTATE stays Flushing when the flush faults (R203). -/
def execLzeFlush (s : State) : Answer :=
  unlessSticky .lze s fun s =>
    ((flush (setEstate .flushing s)).bind fun _ s => Res.ok 0 (setEstate .idle s)).finish .lze

end Sys2Proof.Machine
end

