-- ==== Sys2Proof/Machine/BitReader.lean ====
section
/-! DEFINITION. BR, the bit reader: its primitives GetBit and ReadBits (R131, R132) and its commands
(R130, R133, R134). -/

namespace Sys2Proof.Machine

open Config

/-! ## Primitives -/

/-- The refill of GetBit: one SrcRead for a whole block (R131). -/
def refill (s : State) : Res Unit :=
  if s.br.reof then .faulted .br .eos s
  else
    match srcRead BUFSZ s.src with
    | (.data bs, src) =>
      .ok () { s with
        src := src
        br := { s.br with
          rbuf := s.br.rbuf.writeList 0 bs
          rlen := bs.length
          rpos := 0
          rpull := s.br.rpull + BitVec.ofNat 64 bs.length } }
    | (.eof, src) => .faulted .br .eos { s with src := src, br := { s.br with reof := true } }
    | (.err, src) => .faulted .br .src { s with src := src }
    | (.silent, src) => .waits .src { s with src := src }

/-- `RCUR <- RBUF[RPOS]; RPOS <- RPOS + 1; RCNT <- 8` (R131). -/
def loadCur (s : State) : State :=
  { s with br := { s.br with
      rcur := s.br.rbuf.read s.br.rpos, rpos := s.br.rpos + 1, rcnt := 8 } }

/-- Make sure that RCUR holds a bit: refill when RBUF is used up, then load the next byte (R131). -/
def fetchBits (s : State) : Res Unit :=
  if s.br.rcnt = 0 then
    (if s.br.rpos = s.br.rlen then refill s else .ok () s).bind fun _ s => .ok () (loadCur s)
  else .ok () s

/-- The next bit of RCUR: bit 7 in MSB-first mode, bit 0 in LSB-first mode (R66, R131). -/
def Br.nextBit (b : Br) : Bool :=
  match b.mode with
  | .msb => b.rcur.getLsbD 7
  | .lsb => b.rcur.getLsbD 0

/-- BR after its next bit has been taken (R131). -/
def Br.shifted (b : Br) : Br :=
  { b with
    rcur := (match b.mode with
      | .msb => b.rcur <<< 1
      | .lsb => b.rcur >>> 1)
    rcnt := b.rcnt - 1
    rbits := b.rbits + 1#64 }

/-- `GetBit()` (R131): the next bit of SRC, or a fault; a bit is never invented. -/
def getBit (s : State) : Res Bool :=
  match s.br.err with
  | some c => .faulted .br c s
  | none => (fetchBits s).bind fun _ s => .ok s.br.nextBit { s with br := s.br.shifted }

/-- `n` calls of GetBit: the bits in reading order. -/
def getBits : Nat → State → Res (List Bool)
  | 0, s => .ok [] s
  | n + 1, s => (getBit s).bind fun b s => (getBits n s).bind fun bs s => .ok (b :: bs) s

/-- `ReadBits(n)` (R132). The mode cannot change between the bits of one value (R68). -/
def readBits (n : Nat) (s : State) : Res Nat :=
  (getBits n s).bind fun bs t => .ok (packBits s.br.mode bs) t

/-! ## Commands -/

/-- BR.INIT mode (R130). -/
def execBrInit (mode : BitOrder) (s : State) : Answer :=
  .next (State.respond { s with br := s.br.initialised mode } 0)

/-- BR.GETBIT (R133). -/
def execBrGetbit (s : State) : Answer :=
  unlessSticky .br s fun s =>
    ((getBit s).bind fun b s => Res.ok b.toNat s).finish .br

/-- BR.READ n (R134). -/
def execBrRead (n : BitVec 6) (s : State) : Answer :=
  unlessSticky .br s fun s =>
    if MAXN < n.toNat then reject .operand s
    else (readBits n.toNat s).finish .br

end Sys2Proof.Machine
end

