-- ==== Sys2Proof/Machine/Decompressor.lean ====
section
/-! DEFINITION. LZD, the LZSS decompressor: the token reader (R184), the execution of tokens (R185 to
R191) and the commands (R181, R192 to R196). -/

namespace Sys2Proof.Machine

open Config

/-! ## Executing tokens -/

/-- The window part of PutByte: `WIN[WPOS] <- b`, WPOS and FILLED advance (R185). -/
def Lzd.insert (d : Lzd) (b : Byte) : Lzd :=
  { d with
    win := d.win.write d.wpos b
    wpos := (d.wpos + 1) % d.cfg.wsize
    filled := min (d.filled + 1) d.cfg.wsize }

/-- `OUTCNT <- OUTCNT + 1` (R185). -/
def countOut (s : State) : State :=
  { s with lzd := { s.lzd with outcnt := s.lzd.outcnt + 1#64 } }

/-- `PutByte(b)` (R185): insert into the window and emit. -/
def putByte (b : Byte) (s : State) : Res Unit :=
  (doutPut b { s with lzd := s.lzd.insert b }).bind fun _ s => .ok () (countOut s)

/-- `StartRef(off, len)` (R187), with the terminator of R188. -/
def startRef (off len : Nat) (s : State) : Res Unit :=
  if len = 0 then .ok () { s with lzd := { s.lzd with dstate := .done } }
  else if s.lzd.filled < s.lzd.cfg.distance off then .faulted .lzd .lzBadref s
  else
    .ok () { s with lzd := { s.lzd with
      csrc := s.lzd.cfg.source s.lzd.wpos off, crem := len, dstate := .copy } }

/-- `CSRC <- (CSRC + 1) mod WSIZE` (R189). -/
def advanceSource (s : State) : State :=
  { s with lzd := { s.lzd with csrc := (s.lzd.csrc + 1) % s.lzd.cfg.wsize } }

/-- `CREM <- CREM - 1` (R189). -/
def countCopied (s : State) : State :=
  { s with lzd := { s.lzd with crem := s.lzd.crem - 1 } }

/-- One turn of CopyBytes (R189): the read of WIN[CSRC] comes before the write of WIN[WPOS]. -/
def copyByte (s : State) : Res Unit :=
  (putByte (s.lzd.win.read s.lzd.csrc) (advanceSource s)).bind fun _ s => .ok () (countCopied s)

/-- `m` turns of CopyBytes, strictly byte by byte (R189). -/
def copyTurns : Nat → State → Res Unit
  | 0, s => .ok () s
  | m + 1, s => (copyByte s).bind fun _ s => copyTurns m s

/-- `if CREM = 0: DSTATE <- READY` (R189). -/
def settleCopy (s : State) : State :=
  if s.lzd.crem = 0 then { s with lzd := { s.lzd with dstate := .ready } } else s

/-- `CopyBytes(k)` (R189): the loop makes min(k, CREM) turns; answers how many. -/
def copyBytes (k : Nat) (s : State) : Res Nat :=
  (copyTurns (min k s.lzd.crem) s).bind fun _ t => .ok (min k s.lzd.crem) (settleCopy t)

/-- `if DSTATE = COPY: CopyBytes(k)`: how many bytes were copied (R193, R194, R196). -/
def continueCopy (k : Nat) (s : State) : Res Nat :=
  if s.lzd.dstate = .copy then copyBytes k s else .ok 0 s

/-- StartRef, then `if DSTATE = COPY: CopyAll()`; answers `len` (R189, R193, R194). -/
def runRef (off len : Nat) (s : State) : Res Nat :=
  (startRef off len s).bind fun _ s =>
    (continueCopy s.lzd.crem s).bind fun _ s => .ok len s

/-! ## Reading tokens -/

/-- `TOKPHASE <- b` (R184). -/
def setTokphase (b : Bool) (s : State) : State := { s with lzd := { s.lzd with tokphase := b } }

/-- The payload of a literal (R184). -/
def readLiteral (s : State) : Res Token :=
  (readBits LITBITS s).bind fun v s => .ok (.literal (BitVec.ofNat 8 v)) (setTokphase false s)

/-- The payload of a reference, with the range check of R195 (R184). -/
def readReference (s : State) : Res Token :=
  (readBits s.lzd.cfg.ob.toNat s).bind fun off s =>
    (readBits s.lzd.cfg.lb.toNat s).bind fun l s =>
      if s.lzd.cfg.max.toNat < l + s.lzd.cfg.min.toNat then
        .faulted .lzd .lzRange (setTokphase false s)
      else .ok (.reference off (l + s.lzd.cfg.min.toNat)) (setTokphase false s)

/-- `ReadToken()` (R184). -/
def readToken (s : State) : Res Token :=
  (getBit s).bind fun flag s =>
    if flag then readReference (setTokphase true s) else readLiteral (setTokphase true s)

/-! ## The pull loop -/

/-- Execute one token completely, as LZD.STEP does; answers the bytes emitted (R194). -/
def runToken (t : Token) (s : State) : Res Nat :=
  match t with
  | .literal b => (putByte b s).bind fun _ s => .ok 1 s
  | .reference off len => runRef off len s

/-- What LZD.RUN does with a token it has read (R196): a literal is emitted, a reference is started;
answers the bytes emitted so far. -/
def startToken (e : Nat) (t : Token) (s : State) : Res Nat :=
  match t with
  | .literal b => (putByte b s).bind fun _ s => .ok (e + 1) s
  | .reference off len => (startRef off len s).bind fun _ s => .ok e s

/-- The loop of LZD.RUN with budget `n`, `e` bytes emitted so far (R196). The first argument bounds
the turns; `n + 1` are always enough (R268, log 13). -/
def runLoop (n : Nat) : Nat → Nat → State → Res Nat
  | 0, e, s => .ok e s
  | turns + 1, e, s =>
    if s.lzd.dstate = .done then .ok e s
    else
      (continueCopy (n - e) s).bind fun c s =>
        if e + c = n then .ok (e + c) s
        else
          (readToken s).bind fun t s =>
            (startToken (e + c) t s).bind fun e s => runLoop n turns e s

/-! ## Commands -/

/-- LZD.INIT wb, ob, lb, min, max (R181). -/
def execLzdInit (wb ob lb : BitVec 5) (min max : BitVec 16) (s : State) : Answer :=
  if (LzConfig.mk wb ob lb min max).ok then
    .next (State.respond
      { s with lzd := s.lzd.initialised { wb := wb, ob := ob, lb := lb, min := min, max := max } } 0)
  else reject .operand s

/-- LZD.LIT b (R192, R186). -/
def execLzdLit (b : Byte) (s : State) : Answer :=
  unlessSticky .lzd s fun s =>
    if s.lzd.dstate ≠ .ready then reject .state s
    else ((putByte b s).bind fun _ s => Res.ok 1 s).finish .lzd

/-- LZD.REF off, len (R193). -/
def execLzdRef (off len : BitVec 16) (s : State) : Answer :=
  unlessSticky .lzd s fun s =>
    if s.lzd.dstate ≠ .ready then reject .state s
    else if s.lzd.cfg.wsize ≤ off.toNat then reject .operand s
    else if len.toNat ≠ 0 ∧
        (len.toNat < s.lzd.cfg.min.toNat ∨ s.lzd.cfg.max.toNat < len.toNat) then
      reject .operand s
    else (runRef off.toNat len.toNat s).finish .lzd

/-- LZD.STEP (R194). -/
def execLzdStep (s : State) : Answer :=
  unlessSticky .lzd s fun s =>
    if s.lzd.dstate ≠ .ready then reject .state s
    else ((readToken s).bind fun t s => runToken t s).finish .lzd

/-- LZD.RUN n (R196). -/
def execLzdRun (n : Word) (s : State) : Answer :=
  unlessSticky .lzd s fun s => (runLoop n.toNat (n.toNat + 1) 0 s).finish .lzd

end Sys2Proof.Machine
end

