-- ==== Sys2Proof/Machine/Huffman.lean ====
section
/-! DEFINITION. HUF, the canonical Huffman coder: table construction (R154, R155), decoding (R160),
the two-queue merge (R164, R165) and the commands (R151 to R153, R159, R161 to R163, R169, R171). -/

namespace Sys2Proof.Machine

open Config

/-! ## Building the table from lengths -/

/-- LEN[s] as a number. -/
def Huf.lenOf (h : Huf) (sym : Nat) : Nat := (h.len.read sym).toNat

/-- The symbols 0 .. NSYM-1, in increasing order. -/
def Huf.symbols (h : Huf) : List Nat := List.range h.nsym

/-- The lengths 1 .. HUF_MAXLEN, in increasing order. -/
def codeLengths : List Nat := List.range' 1 HUF_MAXLEN

/-- `|{ s < NSYM : LEN[s] = l }|` (R154). -/
def Huf.countOf (h : Huf) (l : Nat) : Nat := (h.symbols.filter fun s => h.lenOf s == l).length

/-- Some length is above HUF_MAXLEN (R154). -/
def Huf.tooLong (h : Huf) : Bool := h.symbols.any fun s => decide (HUF_MAXLEN < h.lenOf s)

/-- `for l in 1 .. HUF_MAXLEN: COUNT[l] <- ...` (R154). -/
def Huf.withCounts (h : Huf) : Huf :=
  { h with
    count := codeLengths.foldl (fun m l => m.write l (BitVec.ofNat 10 (h.countOf l))) h.count }

/-- The running variables of AssignCodes: `code`, `idx` and the tables (R155). -/
structure Assign where
  code : Nat
  idx : Nat
  huf : Huf
deriving DecidableEq, Repr

/-- The inner turn of AssignCodes for one symbol at length `l` (R155). -/
def assignSymbol (l : Nat) (a : Assign) (sym : Nat) : Assign :=
  if a.huf.lenOf sym = l then
    { code := a.code + 1
      idx := a.idx + 1
      huf := { a.huf with
        sorted := a.huf.sorted.write a.idx (BitVec.ofNat 16 sym)
        code := a.huf.code.write sym (BitVec.ofNat 16 a.code) } }
  else a

/-- FIRST[l] and BASE[l] are set at the head of the turn for length `l` (R155). -/
def Assign.startLength (a : Assign) (l : Nat) : Assign :=
  { a with huf := { a.huf with
      first := a.huf.first.write l (BitVec.ofNat 17 a.code)
      base := a.huf.base.write l (BitVec.ofNat 10 a.idx) } }

/-- All symbols of length `l`, then the step to the next length (R155). -/
def Assign.fillLength (a : Assign) (l : Nat) : Assign :=
  let b := a.huf.symbols.foldl (assignSymbol l) a
  { b with code := 2 * b.code }

/-- The outer loop of AssignCodes over the lengths given (R155); an error carries the tables as they
stand when the code is found over-subscribed. -/
def assignLengths : List Nat → Assign → Except Huf Assign
  | [], a => .ok a
  | l :: ls, a =>
    if 2 ^ l < a.code + (a.huf.count.read l).toNat then .error (a.startLength l).huf
    else assignLengths ls ((a.startLength l).fillLength l)

/-- The largest l with COUNT[l] > 0, or 0 (R155). -/
def Huf.longest (h : Huf) : Nat :=
  codeLengths.foldl (fun m l => if 0 < (h.count.read l).toNat then l else m) 0

/-- `BuildTable()` (R154) with `AssignCodes()` (R155). -/
def buildTable (s : State) : Res Unit :=
  if s.huf.tooLong then .faulted .huf .hufLen s
  else
    match assignLengths codeLengths { code := 0, idx := 0, huf := s.huf.withCounts } with
    | .error h => .faulted .huf .hufOversub { s with huf := h }
    | .ok a =>
      .ok () { s with huf := { a.huf with ncodes := a.idx, lmax := a.huf.longest, hstate := .built } }

/-! ## Decoding -/

/-- The length class test of DecodeSym: `code` is one of the codes of length `l` (R160). -/
def Huf.inClass (h : Huf) (l code : Nat) : Bool :=
  decide (0 < (h.count.read l).toNat ∧ (h.first.read l).toNat ≤ code ∧
    code - (h.first.read l).toNat < (h.count.read l).toNat)

/-- `SORTED[BASE[l] + (code - FIRST[l])]` (R160). -/
def Huf.symbolAt (h : Huf) (l code : Nat) : Nat :=
  (h.sorted.read ((h.base.read l).toNat + (code - (h.first.read l).toNat))).toNat

/-- The loop of DecodeSym over the lengths left, with the code read so far (R160). -/
def decodeFrom : List Nat → Nat → State → Res Nat
  | [], _, s => .faulted .huf .hufNocode s
  | l :: ls, code, s =>
    (getBit s).bind fun b s =>
      if s.huf.inClass l (2 * code + b.toNat) then .ok (s.huf.symbolAt l (2 * code + b.toNat)) s
      else decodeFrom ls (2 * code + b.toNat) s

/-- `DecodeSym()` (R160). -/
def decodeSym (s : State) : Res Nat :=
  if s.huf.ncodes = 0 then .ok s.huf.defsym.toNat s
  else decodeFrom (List.range' 1 s.huf.lmax) 0 s

/-! ## Building lengths from frequencies -/

/-- A tree of the merge (R164): which child is which does not matter, only the depths are kept. -/
inductive HufTree where
  | leaf (sym : Nat)
  | node (x y : HufTree)
deriving DecidableEq, Repr

/-- A tree with its weight, an exact natural number (R164). -/
structure HufNode where
  weight : Nat
  tree : HufTree
deriving DecidableEq, Repr

/-- The leaves of a tree with their depths below a root at depth `d` (R164). -/
def HufTree.depths (d : Nat) : HufTree → List (Nat × Nat)
  | .leaf sym => [(sym, d)]
  | .node x y => x.depths (d + 1) ++ y.depths (d + 1)

/-- Insert in order of weight, before the entries of equal weight. -/
def insertNode (x : HufNode) : List HufNode → List HufNode
  | [] => [x]
  | y :: ys => if x.weight ≤ y.weight then x :: y :: ys else y :: insertNode x ys

/-- Sort by weight ascending; equal weights keep their order (R164, R165 (a)). -/
def sortNodes : List HufNode → List HufNode
  | [] => []
  | x :: xs => insertNode x (sortNodes xs)

/-- `TakeMin()` (R164): a leaf before an internal node of equal weight (R165 (b)). -/
def takeMin : List HufNode → List HufNode → Option (HufNode × List HufNode × List HufNode)
  | [], [] => none
  | x :: q1, [] => some (x, q1, [])
  | [], y :: q2 => some (y, [], q2)
  | x :: q1, y :: q2 =>
    if x.weight ≤ y.weight then some (x, q1, y :: q2) else some (y, x :: q1, q2)

/-- The parent of two trees. -/
def joinNodes (x y : HufNode) : HufNode := ⟨x.weight + y.weight, .node x.tree y.tree⟩

/-- `k` merges; then the one node left, the front of Q2 (R164). -/
def mergeNodes : Nat → List HufNode → List HufNode → Option HufNode
  | 0, _, q2 => q2.head?
  | k + 1, q1, q2 =>
    match takeMin q1 q2 with
    | none => none
    | some (x, p1, p2) =>
      match takeMin p1 p2 with
      | none => none
      | some (y, r1, r2) => mergeNodes k r1 (r2 ++ [joinNodes x y])

/-- FREQ[s] as a number. -/
def Huf.freqOf (h : Huf) (sym : Nat) : Nat := (h.freq.read sym).toNat

/-- `A`: the symbols with non-zero frequency, increasing (R163). -/
def Huf.active (h : Huf) : List Nat :=
  (List.range h.nfreq).filter fun s => decide (0 < h.freqOf s)

/-- The leaves of `A` with their frequencies (R164). -/
def Huf.leaves (h : Huf) : List HufNode := h.active.map fun s => ⟨h.freqOf s, .leaf s⟩

/-- The depths `MergeLengths(A)` gives the leaves (R164). -/
def Huf.mergeDepths (h : Huf) : List (Nat × Nat) :=
  match mergeNodes (h.active.length - 1) (sortNodes h.leaves) [] with
  | none => []
  | some root => root.tree.depths 0

/-- `NSYM <- NFREQ; for s in 0 .. NSYM-1: LEN[s] <- 0` (R163). -/
def Huf.zeroLengths (h : Huf) : Huf :=
  { h with
    nsym := h.nfreq
    len := (List.range h.nfreq).foldl (fun m s => m.write s 0#8) h.len }

/-- `LEN[s] <- depth of s` for each leaf (R164). -/
def Huf.writeDepths (h : Huf) (ds : List (Nat × Nat)) : Huf :=
  { h with len := ds.foldl (fun m d => m.write d.1 (BitVec.ofNat 8 d.2)) h.len }

/-- The lengths HUF.MKENC gives when at least two symbols have non-zero frequency (R163, R164). -/
def Huf.mergeLengths (h : Huf) : Huf := h.zeroLengths.writeDepths h.mergeDepths

/-- Some leaf of the merge lies deeper than HUF_MAXLEN (R167, log 15). -/
def Huf.tooDeep (h : Huf) : Bool := h.mergeDepths.any fun d => decide (HUF_MAXLEN < d.2)

/-- The body of HUF.MKENC after its checks (R163): the one-symbol case of R166, or the merge with the
length check of R167, then BuildTable. -/
def makeEncoder (s : State) : Res Nat :=
  match s.huf.active with
  | [a] =>
    (buildTable { s with huf := { s.huf.zeroLengths with defsym := BitVec.ofNat 16 a } }).bind
      fun _ s => .ok s.huf.ncodes s
  | _ =>
    if s.huf.tooDeep then .faulted .huf .hufLen { s with huf := s.huf.mergeLengths }
    else
      (buildTable { s with huf := s.huf.mergeLengths }).bind fun _ s => .ok s.huf.ncodes s

/-! ## Encoding -/

/-- The bits of PUTSYM, then the number written (R169). -/
def putSym (sym : Nat) (s : State) : Res Nat :=
  (putBits (codeBits (s.huf.lenOf sym) (s.huf.code.read sym).toNat) s).bind fun _ t =>
    .ok (s.huf.lenOf sym) t

/-! ## Commands -/

/-- HUF.CLEAR (R151). -/
def execHufClear (s : State) : Answer :=
  .next (State.respond { s with huf := s.huf.cleared } 0)

/-- HUF.PUSH len (R152). -/
def execHufPush (len : BitVec 8) (s : State) : Answer :=
  unlessSticky .huf s fun s =>
    if s.huf.hstate ≠ .loading then reject .state s
    else if s.huf.nsym = HUF_NSYM_MAX then reject .full s
    else
      .next (State.respond
        { s with huf := { s.huf with
            len := s.huf.len.write s.huf.nsym len, nsym := s.huf.nsym + 1 } }
        s.huf.nsym)

/-- HUF.BUILD (R153). -/
def execHufBuild (s : State) : Answer :=
  unlessSticky .huf s fun s =>
    if s.huf.hstate ≠ .loading then reject .state s
    else ((buildTable s).bind fun _ s => Res.ok s.huf.ncodes s).finish .huf

/-- HUF.GETSYM (R159). -/
def execHufGetsym (s : State) : Answer :=
  unlessSticky .huf s fun s =>
    if s.huf.hstate ≠ .built then reject .state s
    else (decodeSym s).finish .huf

/-- HUF.FPUSH freq (R162). -/
def execHufFpush (freq : Word) (s : State) : Answer :=
  unlessSticky .huf s fun s =>
    if s.huf.hstate ≠ .loading then reject .state s
    else if s.huf.nfreq = HUF_NSYM_MAX then reject .full s
    else
      .next (State.respond
        { s with huf := { s.huf with
            freq := s.huf.freq.write s.huf.nfreq freq, nfreq := s.huf.nfreq + 1 } }
        s.huf.nfreq)

/-- HUF.MKENC (R163). -/
def execHufMkenc (s : State) : Answer :=
  unlessSticky .huf s fun s =>
    if s.huf.hstate ≠ .loading then reject .state s
    else if s.huf.active = [] then reject .noSym s
    else (makeEncoder s).finish .huf

/-- HUF.PUTSYM sym (R169). -/
def execHufPutsym (sym : BitVec 16) (s : State) : Answer :=
  unlessSticky .huf s fun s =>
    if s.huf.hstate ≠ .built then reject .state s
    else if s.huf.ncodes = 0 then
      if sym ≠ s.huf.defsym then reject .noSym s else .next (s.respond 0)
    else if s.huf.nsym ≤ sym.toNat ∨ s.huf.lenOf sym.toNat = 0 then reject .noSym s
    else (putSym sym.toNat s).finish .huf

/-- HUF.SETDEF sym (R161). -/
def execHufSetdef (sym : BitVec 16) (s : State) : Answer :=
  unlessSticky .huf s fun s =>
    .next (State.respond { s with huf := { s.huf with defsym := sym } } 0)

/-- RESULT of HUF.RDLEN: length in bits 7..0, code in bits 23..8, 0 for a symbol without code
(R171). -/
def Huf.lenRow (h : Huf) (sym : Nat) : Word :=
  if h.lenOf sym = 0 then 0#32
  else 0#8 ++ h.code.read sym ++ h.len.read sym

/-- HUF.RDLEN sym (R171). -/
def execHufRdlen (sym : BitVec 16) (s : State) : Answer :=
  unlessSticky .huf s fun s =>
    if s.huf.hstate ≠ .built then reject .state s
    else if s.huf.nsym ≤ sym.toNat then reject .operand s
    else .next (s.answer (s.huf.lenRow sym.toNat) 0#32)

end Sys2Proof.Machine
end

