-- ==== Sys2Proof/Machine/Dispatch.lean ====
section
/-! DEFINITION. The dispatch of a decoded command to its meaning (R104), one arm per constructor. -/

namespace Sys2Proof.Machine

def exec (i : Instr) (s : State) : Host.Outcome State Fault Refusal :=
  match i with
  | .sysNop => Sys2Proof.Machine.execSysNop s
  | .sysReset => Sys2Proof.Machine.execSysReset s
  | .sysRdsr r => Sys2Proof.Machine.execSysRdsr r s
  | .brInit mode => Sys2Proof.Machine.execBrInit mode s
  | .brGetbit => Sys2Proof.Machine.execBrGetbit s
  | .brRead n => Sys2Proof.Machine.execBrRead n s
  | .bwInit mode => Sys2Proof.Machine.execBwInit mode s
  | .bwPutbit b => Sys2Proof.Machine.execBwPutbit b s
  | .bwWrite n v => Sys2Proof.Machine.execBwWrite n v s
  | .bwFlush => Sys2Proof.Machine.execBwFlush s
  | .hufClear => Sys2Proof.Machine.execHufClear s
  | .hufPush len => Sys2Proof.Machine.execHufPush len s
  | .hufBuild => Sys2Proof.Machine.execHufBuild s
  | .hufGetsym => Sys2Proof.Machine.execHufGetsym s
  | .hufFpush freq => Sys2Proof.Machine.execHufFpush freq s
  | .hufMkenc => Sys2Proof.Machine.execHufMkenc s
  | .hufPutsym sym => Sys2Proof.Machine.execHufPutsym sym s
  | .hufSetdef sym => Sys2Proof.Machine.execHufSetdef sym s
  | .hufRdlen sym => Sys2Proof.Machine.execHufRdlen sym s
  | .lzdInit wb ob lb min max => Sys2Proof.Machine.execLzdInit wb ob lb min max s
  | .lzdLit b => Sys2Proof.Machine.execLzdLit b s
  | .lzdRef off len => Sys2Proof.Machine.execLzdRef off len s
  | .lzdStep => Sys2Proof.Machine.execLzdStep s
  | .lzdRun n => Sys2Proof.Machine.execLzdRun n s
  | .lzeInit wb ob lb min max => Sys2Proof.Machine.execLzeInit wb ob lb min max s
  | .lzeLit b => Sys2Proof.Machine.execLzeLit b s
  | .lzeRef off len => Sys2Proof.Machine.execLzeRef off len s
  | .lzeFlush => Sys2Proof.Machine.execLzeFlush s

end Sys2Proof.Machine
end

