-- ==== Sys2Proof/Machine/Step.lean ====
section
/-! DEFINITION. One step of the block: the next command beat, executed to completion and answered
(R104). -/

namespace Sys2Proof.Machine

/-- One step. A block that waits for a stream that never answers stays as it is (R80); with no beat
presented it is idle and keeps all state (R236); an illegal beat is rejected (R97); any other runs its
command (R104). -/
def step (s : State) : Host.Outcome State Fault Refusal :=
  match s.waiting with
  | some _ => .next s
  | none =>
    match s.takeBeat with
    | none => .next s
    | some (b, t) =>
      match decode b with
      | .error _ => reject .illegal t
      | .ok i => exec i t

/-- The host presents the beat whose low `nbits` bits are those of `w` (ARG bits above are 0) as the
next command, and no earlier command is in progress (log 1). -/
def State.withFetchWord (s : State) (nbits w : Nat) : State :=
  { s with cmds := BitVec.ofNat 64 (w % 2 ^ nbits) :: s.cmds, waiting := none }

end Sys2Proof.Machine
end

