-- ==== Sys2Proof/WellFormed.lean ====
section
/-! DEFINITION. Well-formed commands. The operand types of `Instr` are exactly as wide as the fields
of the beat, so every term can be encoded; R96 then lets some operands be wider than their legal
values, and a command whose operands ALONE (whatever the state) are out of range is answered
E_OPERAND. `WellFormed` says that a command is not of that kind. -/

namespace Sys2Proof

open Config

/-- ConfigOk of R182, on the operand fields of LZD.INIT and LZE.INIT. -/
def configOkFields (wb ob lb : BitVec 5) (min max : BitVec 16) : Bool :=
  decide (1 ≤ wb.toNat ∧ wb.toNat ≤ WB_MAX ∧ 1 ≤ ob.toNat ∧ ob.toNat ≤ wb.toNat ∧
    1 ≤ lb.toNat ∧ lb.toNat ≤ 16 ∧ min.toNat ≤ max.toNat ∧
    max.toNat - min.toNat ≤ 2 ^ lb.toNat - 1)

/-- The operand checks of R227 that read the operands alone. -/
def WellFormed : Instr → Bool
  | .sysRdsr r => decide (r.toNat ≤ 27)
  | .brRead n => decide (n.toNat ≤ MAXN)
  | .bwWrite n _ => decide (n.toNat ≤ MAXN)
  | .lzdInit wb ob lb min max => configOkFields wb ob lb min max
  | .lzeInit wb ob lb min max => configOkFields wb ob lb min max
  | .sysNop | .sysReset | .brInit _ | .brGetbit | .bwInit _ | .bwPutbit _ | .bwFlush | .hufClear
  | .hufPush _ | .hufBuild | .hufGetsym | .hufFpush _ | .hufMkenc | .hufPutsym _ | .hufSetdef _
  | .hufRdlen _ | .lzdLit _ | .lzdRef _ _ | .lzdStep | .lzdRun _ | .lzeLit _ | .lzeRef _ _
  | .lzeFlush => true

end Sys2Proof
end

