-- ==== Sys2Proof/Safety.lean ====
section
/-! DEFINITION. The terms in which claims about the block are made: the abstract reader and writer
(R42, R43), the canonical table (R28, R155), the history of the decompressor (R190), and the
invariants the spec states of the state between commands (R24, R26, R28, R30, R203, R222). -/

namespace Sys2Proof.Machine

open Config

/-! ## Bits of streams (R66) -/

/-- The bit of a byte that is `k`-th in stream order (R66): bit 7 - k in MSB-first mode, bit k in
LSB-first mode; there is none from k = 8 on. -/
def streamBit (mode : BitOrder) (b : Byte) (k : Nat) : Bool :=
  match mode with
  | .msb => b.getMsbD k
  | .lsb => b.getLsbD k

/-- The eight bits of a byte in stream order. -/
def byteBits (mode : BitOrder) (b : Byte) : List Bool := (List.range 8).map (streamBit mode b)

/-- The bits of a byte sequence in stream order. -/
def bytesBits (mode : BitOrder) (bs : List Byte) : List Bool := bs.flatMap (byteBits mode)

/-! ## The abstract reader (R42) -/

/-- The bits of RCUR not yet consumed. -/
def Br.curBits (b : Br) : List Bool := (List.range b.rcnt).map (streamBit b.mode b.rcur)

/-- The bytes of RBUF not yet loaded into RCUR. -/
def Br.aheadBytes (b : Br) : List Byte := b.rbuf.readList b.rpos (b.rlen - b.rpos)

/-- Every byte that GetBit can still load: those waiting in RBUF, then, unless REOF stops further
SrcRead calls, those SRC has yet to deliver. -/
def State.unreadBytes (s : State) : List Byte :=
  s.br.aheadBytes ++ (if s.br.reof then [] else s.src.pending.flatten)

/-- Every bit GetBit can still return, in the order it returns them. -/
def State.readerBits (s : State) : List Bool := s.br.curBits ++ bytesBits s.br.mode s.unreadBytes

/-- The byte sequence S of SRC (R61): what it has delivered, then what it will deliver. -/
def Src.content (s : Src) : List Byte := s.delivered ++ s.pending.flatten

/-! ## The abstract writer (R43) -/

/-- The bits already placed in WCUR. -/
def Bw.curBits (w : Bw) : List Bool := (List.range w.wcnt).map (streamBit w.mode w.wcur)

/-- The complete bytes not yet handed to SNK. -/
def Bw.heldBytes (w : Bw) : List Byte := w.wbuf.readList 0 w.wlen

/-- The byte sequence SNK has received (R62). -/
def Snk.content (s : Snk) : List Byte := s.accepted.flatten

/-- Every bit given to SNK or held for it, in stream order. -/
def State.writtenBits (s : State) : List Bool :=
  bytesBits s.bw.mode (s.snk.content ++ s.bw.heldBytes) ++ s.bw.curBits

/-- The zero bits a Flush appends (R141). -/
def Bw.padding (w : Bw) : List Bool := List.replicate ((8 - w.wcnt) % 8) false

/-- The bytes one Flush hands to SNK: WBUF, then the padded partial byte if there is one (R141). -/
def Bw.flushBytes (w : Bw) : List Byte := w.heldBytes ++ (if 0 < w.wcnt then [w.wcur] else [])

/-! ## The canonical table (R28, R155) -/

/-- The first code of length `l` by the recurrence of R155, from the lengths alone. -/
def Huf.firstCode (h : Huf) : Nat → Nat
  | 0 => 0
  | l + 1 => 2 * (h.firstCode l + (if l = 0 then 0 else h.countOf l))

/-- The number of symbols whose length is non-zero and below `l`: the place of the first symbol of
length `l` in SORTED (R155). -/
def Huf.baseOf (h : Huf) (l : Nat) : Nat :=
  (h.symbols.filter fun s => decide (0 < h.lenOf s ∧ h.lenOf s < l)).length

/-- The number of symbols before `sym` with the same length (R155: increasing symbol number). -/
def Huf.rank (h : Huf) (sym : Nat) : Nat :=
  ((List.range sym).filter fun s => h.lenOf s == h.lenOf sym).length

/-- The code the canonical assignment gives a symbol with non-zero length (R155). -/
def Huf.canonicalCode (h : Huf) (sym : Nat) : Nat := h.firstCode (h.lenOf sym) + h.rank sym

/-- The symbols with non-zero length. -/
def Huf.coded (h : Huf) : List Nat := h.symbols.filter fun s => decide (0 < h.lenOf s)

/-- No code length is above HUF_MAXLEN (R154). -/
def Huf.LengthsLegal (h : Huf) : Prop := ∀ sym < h.nsym, h.lenOf sym ≤ HUF_MAXLEN

/-- At no length are there more codes than bit-space allows (R154, R156). -/
def Huf.NotOversubscribed (h : Huf) : Prop :=
  ∀ l, 1 ≤ l → l ≤ HUF_MAXLEN → h.firstCode l + h.countOf l ≤ 2 ^ l

/-- The lookup structure is the one R154 and R155 build from the lengths. -/
structure Huf.Canonical (h : Huf) : Prop where
  lengthsLegal : h.LengthsLegal
  notOversubscribed : h.NotOversubscribed
  count : ∀ l, 1 ≤ l → l ≤ HUF_MAXLEN → (h.count.read l).toNat = h.countOf l
  first : ∀ l, 1 ≤ l → l ≤ HUF_MAXLEN → (h.first.read l).toNat = h.firstCode l
  base : ∀ l, 1 ≤ l → l ≤ HUF_MAXLEN → (h.base.read l).toNat = h.baseOf l
  code : ∀ sym < h.nsym, 0 < h.lenOf sym → (h.code.read sym).toNat = h.canonicalCode sym
  sorted : ∀ sym < h.nsym, 0 < h.lenOf sym →
    (h.sorted.read (h.baseOf (h.lenOf sym) + h.rank sym)).toNat = sym
  ncodes : h.ncodes = h.coded.length
  lmaxUpper : ∀ sym < h.nsym, h.lenOf sym ≤ h.lmax
  lmaxReached : h.lmax = 0 ∨ ∃ sym < h.nsym, h.lenOf sym = h.lmax

/-- The code of a symbol as it stands on the wire (R170). -/
def Huf.wireCode (h : Huf) (sym : Nat) : List Bool :=
  codeBits (h.lenOf sym) (h.code.read sym).toNat

/-! ## The order of the merge (R165) -/

/-- The node R165 takes next from a list in insertion order: the first of least weight. -/
def takeFirstMin : List HufNode → Option (HufNode × List HufNode)
  | [] => none
  | x :: xs =>
    match takeFirstMin xs with
    | none => some (x, xs)
    | some (y, ys) => if x.weight ≤ y.weight then some (x, xs) else some (y, x :: ys)

/-- `k` merges over one list in insertion order: every new node is inserted last (R165). -/
def mergeInOrder : Nat → List HufNode → Option HufNode
  | 0, q => q.head?
  | k + 1, q =>
    match takeFirstMin q with
    | none => none
    | some (x, p) =>
      match takeFirstMin p with
      | none => none
      | some (y, r) => mergeInOrder k (r ++ [joinNodes x y])

/-- The depths that merging in insertion order gives the symbols of non-zero frequency (R165). -/
def Huf.depthsInOrder (h : Huf) : List (Nat × Nat) :=
  match mergeInOrder (h.active.length - 1) h.leaves with
  | none => []
  | some root => root.tree.depths 0

/-! ## The history of the decompressor (R190, R191) -/

/-- `m` bytes appended to an output, each the byte emitted `d` bytes earlier (R190, R191). -/
def copyBack (d : Nat) : Nat → List Byte → List Byte
  | 0, out => out
  | m + 1, out => copyBack d m (out ++ [out.getD (out.length - d) 0#8])

/-- The output after one token (R185 to R191). -/
def expandToken (c : LzConfig) (out : List Byte) : Token → List Byte
  | .literal b => out ++ [b]
  | .reference off len => copyBack (c.distance off) len out

/-- The output after a token sequence. -/
def expandTokens (c : LzConfig) (out : List Byte) (ts : List Token) : List Byte :=
  ts.foldl (expandToken c) out

/-- How many bytes a token emits. -/
def Token.size : Token → Nat
  | .literal _ => 1
  | .reference _ len => len

/-- How many bytes a token sequence emits. -/
def tokensSize (ts : List Token) : Nat := (ts.map Token.size).sum

/-- A token that can be executed with `filled` bytes in the window and that the plain format carries
(R205). -/
def Token.valid (c : LzConfig) (filled : Nat) : Token → Bool
  | .literal _ => true
  | .reference off len =>
    decide (len ≠ 0 ∧ c.min.toNat ≤ len ∧ len ≤ c.max.toNat ∧ off < 2 ^ c.ob.toNat ∧
      c.distance off ≤ filled)

/-- A valid token sequence (R205), from `filled` bytes in the window. -/
def validTokens (c : LzConfig) : Nat → List Token → Bool
  | _, [] => true
  | filled, t :: ts => t.valid c filled && validTokens c (min (filled + t.size) c.wsize) ts

/-- The bits of a token sequence in the plain format (R183). -/
def tokensBits (mode : BitOrder) (c : LzConfig) (ts : List Token) : List Bool :=
  ts.flatMap (tokenBits mode c)

/-- What a started reference has still to copy, as the reference that copies it: its offset is the way
from CSRC to WPOS (R187, R189). -/
def State.pendingCopy (s : State) : List Token :=
  if s.lzd.crem = 0 then []
  else
    [.reference ((s.lzd.wpos + s.lzd.cfg.wsize - s.lzd.csrc) % s.lzd.cfg.wsize) s.lzd.crem]

/-- (WPOS, CSRC) after a token that emits bytes (R185, R187, R189). -/
def Token.move (c : LzConfig) (p : Nat × Nat) : Token → Nat × Nat
  | .literal _ => ((p.1 + 1) % c.wsize, p.2)
  | .reference off len => ((p.1 + len) % c.wsize, (c.source p.1 off + len) % c.wsize)

/-- CSRC after a token sequence executed from WPOS and CSRC (R187, R189). -/
def sourceAfter (c : LzConfig) (wpos csrc : Nat) (ts : List Token) : Nat :=
  (ts.foldl (Token.move c) (wpos, csrc)).2

/-- DOUT takes `n` more bytes without blocking for ever (R63, R80). -/
def Dout.takes (d : Dout) (n : Nat) : Bool :=
  match d.room with
  | none => true
  | some k => decide (n ≤ k)

/-! ## Invariants between commands -/

/-- R24. -/
structure Br.Inv (b : Br) : Prop where
  canonical : b.rbuf.wf = true
  bounded : b.rbuf.below BUFSZ = true
  posLe : b.rpos ≤ b.rlen
  lenLe : b.rlen ≤ BUFSZ
  /-- At most 7 between commands (R36). -/
  cntLe : b.rcnt ≤ 7
  spentZero : ∀ k < 8, b.rcnt ≤ k → streamBit b.mode b.rcur k = false
  balance : b.rbits + BitVec.ofNat 64 (b.rcnt + 8 * (b.rlen - b.rpos)) = 8#64 * b.rpull
  eofFailed : b.reof = true → b.err = some .eos

/-- R26. -/
structure Bw.Inv (w : Bw) : Prop where
  canonical : w.wbuf.wf = true
  bounded : w.wbuf.below BUFSZ = true
  cntLe : w.wcnt ≤ 7
  lenLe : w.wlen ≤ BUFSZ
  room : w.err = none → w.wlen < BUFSZ
  blankZero : ∀ k < 8, w.wcnt ≤ k → streamBit w.mode w.wcur k = false

/-- R28, with the ranges of R27. -/
structure Huf.Inv (h : Huf) : Prop where
  canonical : h.len.wf = true ∧ h.freq.wf = true ∧ h.count.wf = true ∧ h.first.wf = true ∧
    h.base.wf = true ∧ h.sorted.wf = true ∧ h.code.wf = true
  nsymLe : h.nsym ≤ HUF_NSYM_MAX
  nfreqLe : h.nfreq ≤ HUF_NSYM_MAX
  empty : h.hstate = .loading → h.ncodes = 0 ∧ h.lmax = 0
  table : h.hstate = .built → h.Canonical

/-- R30, with the ranges of R29: the window holds the FILLED most recent bytes of DOUT. -/
structure State.LzdInv (s : State) : Prop where
  cfgOk : s.lzd.cfg.ok = true
  canonical : s.lzd.win.wf = true
  bounded : s.lzd.win.below (2 ^ WB_MAX) = true
  wposEq : s.lzd.wpos = s.lzd.outcnt.toNat % s.lzd.cfg.wsize
  filledEq : s.lzd.filled = min s.lzd.outcnt.toNat s.lzd.cfg.wsize ∨
    s.lzd.filled = s.lzd.cfg.wsize
  csrcLt : s.lzd.csrc < s.lzd.cfg.wsize
  cremLe : s.lzd.crem ≤ 65535
  copyIff : s.lzd.dstate = .copy ↔ 0 < s.lzd.crem
  copySource : s.lzd.dstate = .copy →
    s.lzd.cfg.distance ((s.lzd.wpos + s.lzd.cfg.wsize - s.lzd.csrc) % s.lzd.cfg.wsize) ≤
      s.lzd.filled
  filledLe : s.lzd.filled ≤ s.dout.bytes.length
  history : ∀ k, 1 ≤ k → k ≤ s.lzd.filled →
    s.lzd.win.read ((s.lzd.wpos + s.lzd.cfg.wsize - k) % s.lzd.cfg.wsize) =
      s.dout.bytes.getD (s.dout.bytes.length - k) 0#8

/-- R182 for the compressor, and R203: Flushing is seen only after a flush that faulted. -/
structure Lze.Inv (e : Lze) : Prop where
  cfgOk : e.cfg.ok = true
  flushing : e.estate = .flushing → e.err ≠ none

/-- The units whose ERR a code can stand in (R222's table). -/
def FaultCode.possible : CodecUnit → FaultCode → Bool
  | .sys, _ => false
  | .br, c => c == .eos || c == .src
  | .bw, c => c == .snk
  | .huf, c => c == .eos || c == .src || c == .snk || c == .hufLen || c == .hufOversub ||
      c == .hufNocode
  | .lzd, c => c == .eos || c == .src || c == .lzRange || c == .lzBadref
  | .lze, c => c == .snk

/-- Every ERR field holds a code R222 lets it hold. -/
def State.ErrInv (s : State) : Prop := ∀ u c, s.err u = some c → c.possible u = true

/-- The unit in which a code is detected (R222). -/
def FaultCode.detector : FaultCode → CodecUnit
  | .eos | .src => .br
  | .snk => .bw
  | .hufLen | .hufOversub | .hufNocode => .huf
  | .lzRange | .lzBadref => .lzd

/-! ## What a command does to the shared units (R42, R43, R185) -/

/-- The reader has gone from `s` to `br`, `src` by consuming exactly the bits `bs` (R42, R131): they
were the next bits, SRC is asked for more only when no bit is at hand, and nothing else of BR or of
SRC's content changes. -/
structure State.Consumed (s : State) (bs : List Bool) (br : Br) (src : Src) : Prop where
  bits : s.readerBits = bs ++ ({ s with br := br, src := src } : State).readerBits
  rbits : br.rbits = s.br.rbits + BitVec.ofNat 64 bs.length
  mode : br.mode = s.br.mode
  reof : br.reof = s.br.reof
  err : br.err = s.br.err
  inv : br.Inv
  content : src.content = s.src.content
  delivered : s.src.delivered <+: src.delivered
  ending : src.ending = s.src.ending
  lazy : bs.length ≤ s.br.rcnt + 8 * (s.br.rlen - s.br.rpos) → src = s.src
  untouched : bs = [] → br = s.br

/-- The code GetBit faults with once SRC has delivered everything (R131); none when no answer comes. -/
def SrcEnd.fault : SrcEnd → Option FaultCode
  | .eof => some .eos
  | .err => some .src
  | .silent => none

/-- The reader has gone from `s` to `br`, `src` by consuming every bit there is and asking SRC once more
(R131, R136): REOF and BR.ERR say what SRC answered. -/
structure State.Exhausted (s : State) (br : Br) (src : Src) : Prop where
  rbits : br.rbits = s.br.rbits + BitVec.ofNat 64 s.readerBits.length
  mode : br.mode = s.br.mode
  inv : br.Inv
  spent : br.curBits = [] ∧ br.aheadBytes = [] ∧ src.pending.flatten = []
  content : src.content = s.src.content
  ending : src.ending = s.src.ending
  reof : br.reof = decide (s.src.ending = .eof)
  err : br.err = s.src.ending.fault

/-- How a command of unit `u` ends in `t` when it needs a bit that SRC does not have: E_EOS (16) or E_SRC
(17), also in the ERR of `u` (R222), or waiting (R80, the model's reading: log 6). -/
def SrcEnd.ends (e : SrcEnd) (u : CodecUnit) (t : State) : Answer :=
  match e with
  | .eof => .next ((t.setErr u .eos).answer 0#32 16#32)
  | .err => .next ((t.setErr u .src).answer 0#32 17#32)
  | .silent => .next { t with waiting := some .src }

/-- The writer can take `n` more bits without a fault and without waiting: BW has no sticky error, and
either the block buffer does not fill or SNK accepts the block (R138, R140). -/
structure State.WriterReady (s : State) (n : Nat) : Prop where
  err : s.bw.err = none
  inv : s.bw.Inv
  sink : 8 * s.bw.wlen + s.bw.wcnt + n < 8 * BUFSZ ∨ s.snk.answer = .ok

/-- The writer has gone from `s` to `bw`, `snk` by accepting exactly the bits `bs` (R43, R138): SNK is
called, with one whole block, only when the block buffer fills (R140). -/
structure State.Accepted (s : State) (bs : List Bool) (bw : Bw) (snk : Snk) : Prop where
  bits : ({ s with bw := bw, snk := snk } : State).writtenBits = s.writtenBits ++ bs
  wbits : bw.wbits = s.bw.wbits + BitVec.ofNat 64 bs.length
  mode : bw.mode = s.bw.mode
  err : bw.err = s.bw.err
  inv : bw.Inv
  held : 8 * s.bw.wlen + s.bw.wcnt + bs.length < 8 * BUFSZ →
    snk = s.snk ∧ bw.wpush = s.bw.wpush ∧
      8 * bw.wlen + bw.wcnt = 8 * s.bw.wlen + s.bw.wcnt + bs.length
  block : 8 * BUFSZ ≤ 8 * s.bw.wlen + s.bw.wcnt + bs.length →
    bw.wpush = s.bw.wpush + BitVec.ofNat 64 BUFSZ ∧
      8 * BUFSZ + 8 * bw.wlen + bw.wcnt = 8 * s.bw.wlen + s.bw.wcnt + bs.length ∧
      ∃ bytes : List Byte, bytes.length = BUFSZ ∧
        snk = { s.snk with
          accepted := s.snk.accepted ++ [bytes]
          answers := s.snk.answers.tail
          calls := s.snk.calls + 1 }

/-- Of the next `n` bits one fills the block buffer, and SNK answers Err to it (R140). -/
structure State.SinkFails (s : State) (n : Nat) : Prop where
  err : s.bw.err = none
  inv : s.bw.Inv
  fills : 8 * BUFSZ ≤ 8 * s.bw.wlen + s.bw.wcnt + n
  sink : s.snk.answer = .err

/-- The writer has gone from `s` to `bw`, `snk` by accepting the bits of `bs` up to the one that fills the
block buffer, which SNK refused: the bits before it and that bit stay written, none after it is, and all
BUFSZ bytes stay in WBUF (R138, R140, R222). -/
structure State.Refused (s : State) (bs : List Bool) (bw : Bw) (snk : Snk) : Prop where
  bits : ({ s with bw := bw, snk := snk } : State).writtenBits =
    s.writtenBits ++ bs.take (8 * BUFSZ - (8 * s.bw.wlen + s.bw.wcnt))
  wbits : bw.wbits = s.bw.wbits + BitVec.ofNat 64 (8 * BUFSZ - (8 * s.bw.wlen + s.bw.wcnt))
  mode : bw.mode = s.bw.mode
  err : bw.err = some .snk
  inv : bw.Inv
  full : bw.wlen = BUFSZ ∧ bw.wcnt = 0
  wpush : bw.wpush = s.bw.wpush
  snk : snk = { s.snk with answers := s.snk.answers.tail, calls := s.snk.calls + 1 }

/-- The decompressor has gone from `s` to `lzd`, `dout` by emitting `n` bytes, which make DOUT hold
`out` (R185). -/
structure State.Emitted (s : State) (n : Nat) (out : List Byte) (lzd : Lzd) (dout : Dout) : Prop where
  bytes : dout.bytes = out
  room : dout.room = s.dout.room.map fun k => k - n
  outcnt : lzd.outcnt = s.lzd.outcnt + BitVec.ofNat 64 n
  wpos : lzd.wpos = (s.lzd.wpos + n) % s.lzd.cfg.wsize
  filled : lzd.filled = min (s.lzd.filled + n) s.lzd.cfg.wsize
  cfg : lzd.cfg = s.lzd.cfg
  err : lzd.err = s.lzd.err
  inv : ({ s with lzd := lzd, dout := dout } : State).LzdInv

/-- The decompressor has gone from `s` to `lzd`, `dout` by executing the tokens `ts` whole, each of
which emits bytes (R185 to R191). -/
structure State.Executed (s : State) (ts : List Token) (lzd : Lzd) (dout : Dout) : Prop where
  emitted : s.Emitted (tokensSize ts) (expandTokens s.lzd.cfg s.dout.bytes ts) lzd dout
  csrc : lzd.csrc = sourceAfter s.lzd.cfg s.lzd.wpos s.lzd.csrc ts
  crem : lzd.crem = 0

/-! ## Which commands reach which unit (R23, R25, R215) -/

/-- The commands that call GetBit. -/
def readsBits : Instr → Bool
  | .brGetbit | .brRead _ | .hufGetsym | .lzdStep | .lzdRun _ => true
  | .sysNop | .sysReset | .sysRdsr _ | .brInit _ | .bwInit _ | .bwPutbit _ | .bwWrite _ _
  | .bwFlush | .hufClear | .hufPush _ | .hufBuild | .hufFpush _ | .hufMkenc | .hufPutsym _
  | .hufSetdef _ | .hufRdlen _ | .lzdInit _ _ _ _ _ | .lzdLit _ | .lzdRef _ _
  | .lzeInit _ _ _ _ _ | .lzeLit _ | .lzeRef _ _ | .lzeFlush => false

/-- The commands that call PutBit or Flush. -/
def writesBits : Instr → Bool
  | .bwPutbit _ | .bwWrite _ _ | .bwFlush | .hufPutsym _ | .lzeLit _ | .lzeRef _ _ | .lzeFlush =>
    true
  | .sysNop | .sysReset | .sysRdsr _ | .brInit _ | .brGetbit | .brRead _ | .bwInit _ | .hufClear
  | .hufPush _ | .hufBuild | .hufGetsym | .hufFpush _ | .hufMkenc | .hufSetdef _ | .hufRdlen _
  | .lzdInit _ _ _ _ _ | .lzdLit _ | .lzdRef _ _ | .lzdStep | .lzdRun _
  | .lzeInit _ _ _ _ _ => false

/-- BR.INIT and SYS.RESET: the commands that reset BR. -/
def resetsReader : Instr → Bool
  | .brInit _ | .sysReset => true
  | .sysNop | .sysRdsr _ | .brGetbit | .brRead _ | .bwInit _ | .bwPutbit _ | .bwWrite _ _
  | .bwFlush | .hufClear | .hufPush _ | .hufBuild | .hufGetsym | .hufFpush _ | .hufMkenc
  | .hufPutsym _ | .hufSetdef _ | .hufRdlen _ | .lzdInit _ _ _ _ _ | .lzdLit _ | .lzdRef _ _
  | .lzdStep | .lzdRun _ | .lzeInit _ _ _ _ _ | .lzeLit _ | .lzeRef _ _ | .lzeFlush => false

/-- BW.INIT and SYS.RESET: the commands that reset BW. -/
def resetsWriter : Instr → Bool
  | .bwInit _ | .sysReset => true
  | .sysNop | .sysRdsr _ | .brInit _ | .brGetbit | .brRead _ | .bwPutbit _ | .bwWrite _ _
  | .bwFlush | .hufClear | .hufPush _ | .hufBuild | .hufGetsym | .hufFpush _ | .hufMkenc
  | .hufPutsym _ | .hufSetdef _ | .hufRdlen _ | .lzdInit _ _ _ _ _ | .lzdLit _ | .lzdRef _ _
  | .lzdStep | .lzdRun _ | .lzeInit _ _ _ _ _ | .lzeLit _ | .lzeRef _ _ | .lzeFlush => false

end Sys2Proof.Machine
end

