-- ==== Sys2Proof/Certificates/Slice0/Obligations.lean ====
section
/-! DEFINITION. The statements about the model, made from the numbered rules of spec/. A next state
written `State.respond (updated s) r` fixes the whole frame: every unit, stream and port that the
update does not name is as before, and one response is appended. -/

open Sys2Proof Sys2Proof.Machine Sys2Proof.Config

/-! ## Encoding and the step -/

/-- R104: a step takes the beat at the command port, decodes it and runs the decoded command. -/
def Obligations.StepRunsTheDecodedCommand : Prop :=
  ∀ (s : State) (b : Beat) (rest : List Beat) (i : Instr),
    s.waiting = none → s.cmds = b :: rest → decode b = .ok i →
    step s = exec i { s with cmds := rest }

/-- R236 and R80: with no beat presented, and while it waits for a stream that never answers, the
block keeps all its state; a DOUT that never takes a byte leaves LZD.LIT waiting with no response. That
waiting is a step to the same state, and that PutByte's window part then stands while OUTCNT does not,
is the model's reading of R80 and R185 (log 6, log 18). -/
def Obligations.IdleOrWaitingBlockKeepsItsState : Prop :=
  (∀ s : State, s.waiting ≠ none ∨ s.cmds = [] → step s = .next s) ∧
  (∀ (s : State) (b : Byte), s.lzd.err = none → s.lzd.dstate = .ready → s.dout.takes 1 = false →
    exec (.lzdLit b) s = .next { s with
      lzd := { s.lzd with
        win := s.lzd.win.write s.lzd.wpos b
        wpos := (s.lzd.wpos + 1) % 2 ^ s.lzd.cfg.wb.toNat
        filled := min (s.lzd.filled + 1) (2 ^ s.lzd.cfg.wb.toNat) }
      waiting := some .dout })

/-- R97: a CMD that matches no row is answered E_ILLEGAL before every other check and changes no
state; the three kinds R97 lists match no row. -/
def Obligations.IllegalBeatIsRejected : Prop :=
  (∀ (s : State) (b : Beat) (rest : List Beat), s.waiting = none → s.cmds = b :: rest →
    (∀ r ∈ opcodeMap, r.selects (cmdOf b) = false) →
    step s = .next { s with cmds := rest, responses := s.responses ++ [⟨0#32, 1#32⟩] }) ∧
  (∀ c : Word,
    (6 ≤ (unitField c).toNat ∨
      ((unitField c).toNat = 0 ∧ 3 ≤ (opField c).toNat) ∨
      ((unitField c).toNat = 1 ∧ 3 ≤ (opField c).toNat) ∨
      ((unitField c).toNat = 2 ∧ 4 ≤ (opField c).toNat) ∨
      ((unitField c).toNat = 3 ∧ 9 ≤ (opField c).toNat) ∨
      ((unitField c).toNat = 4 ∧ 5 ≤ (opField c).toNat) ∨
      ((unitField c).toNat = 5 ∧ 4 ≤ (opField c).toNat) ∨
      ∃ r ∈ opcodeMap, unitField c = unitField r.pattern ∧ opField c = opField r.pattern ∧
        c &&& r.mask ≠ r.pattern) ↔
    ∀ r ∈ opcodeMap, r.selects c = false)

/-- The decoder gives back each command from its encoding, with every operand at every value. -/
def Obligations.DecodeEncodeRoundTrip : Prop :=
  ∀ i : Instr, decode (encode i) = .ok i

/-- The encoder gives back each legal beat but for the ARG of formats N and I, which no command
reads: the decoder drops no other bit (R92, R96, R99). -/
def Obligations.EncodeDecodeRoundTrip : Prop :=
  ∀ (b : Beat) (i : Instr), decode b = .ok i →
    cmdOf (encode i) = cmdOf b ∧
      argOf (encode i) = if i.row.format = .n ∨ i.row.format = .i then 0#32 else argOf b

/-- R98: a beat is one of the 28 commands or illegal, by its CMD alone; no two rows overlap (R95) and
the decoder answers a command of the row that matches. -/
def Obligations.DecodeFollowsTheOpcodeMap : Prop :=
  (∀ b : Beat, (∃ i, decode b = .ok i) ↔ ∃ r ∈ opcodeMap, r.selects (cmdOf b) = true) ∧
  (∀ (b : Beat) (i : Instr), decode b = .ok i →
    i.row ∈ opcodeMap ∧ i.row.selects (cmdOf b) = true) ∧
  (∀ b b' : Beat, cmdOf b = cmdOf b' → ((∃ i, decode b = .ok i) ↔ ∃ i, decode b' = .ok i)) ∧
  (∀ c : Word, ∀ r ∈ opcodeMap, ∀ r' ∈ opcodeMap, r.selects c = true → r'.selects c = true →
    r = r') ∧
  opcodeMap.length = 28

/-- R99: the ARG of a format-N or format-I command is ignored; any value gives the same behaviour. -/
def Obligations.ArgIsIgnoredInFormatsNAndI : Prop :=
  ∀ (b b' : Beat) (i : Instr), decode b = .ok i → i.row.format = .n ∨ i.row.format = .i →
    cmdOf b' = cmdOf b →
    decode b' = .ok i ∧
      ∀ (s : State) (rest : List Beat), s.waiting = none →
        step { s with cmds := b' :: rest } = step { s with cmds := b :: rest }

/-- Beats written out from the spec's encodings decode to the commands they stand for (R95, R102 and
the examples of R120, R122, R130, R152, R181, R201, R226). -/
def Obligations.WrittenOutBeatsDecode : Prop :=
  decode 0xDEADBEEF00000000#64 = .ok .sysNop ∧
  decode 0x000000000200001C#64 = .ok (.sysRdsr 28#8) ∧
  decode 0x0000000010000001#64 = .ok (.brInit .lsb) ∧
  decode 0x1234567822000020#64 = .ok (.bwWrite 32#6 0x12345678#32) ∧
  decode 0x0000000031000002#64 = .ok (.hufPush 2#8) ∧
  decode 0x001200034000118C#64 = .ok (.lzdInit 12#5 12#5 4#5 3#16 18#16) ∧
  decode 0x0005000240000842#64 = .ok (.lzdInit 2#5 2#5 2#5 2#16 5#16) ∧
  decode 0x0006000352000000#64 = .ok (.lzeRef 3#16 6#16) ∧
  decode 0x0000000012000100#64 = .error .mustBeZero ∧
  decode 0x0000000039000000#64 = .error .reservedOp ∧
  decode 0x0000000060000000#64 = .error .reservedUnit

/-! ## Rules of the whole machine -/

/-- R93 and R228: every command has a next state; it is answered by exactly one response, whose STATUS
is a code of R220 and whose RESULT is 0 unless STATUS is 0, or it waits for a stream without end and
gives none (R80, log 6). No command takes a further beat from the port. -/
def Obligations.EveryCommandAnswersOnceOrWaits : Prop :=
  ∀ (i : Instr) (s : State), ∃ t, exec i s = .next t ∧ t.cmds = s.cmds ∧
    ((t.waiting = s.waiting ∧ ∃ r : Response, t.responses = s.responses ++ [r] ∧
        (r.status ≠ 0#32 → r.result = 0#32) ∧
        (r.status = 0#32 ∨ (∃ c : RejectCode, r.status = c.num) ∨
          ∃ c : FaultCode, r.status = c.num)) ∨
      ((∃ d, t.waiting = some d) ∧ t.responses = s.responses))

/-- R32: an ERR field is written only by a fault, cleared only by the unit's initialising command and
by SYS.RESET, and while it is set every other command of the unit answers it and changes nothing. -/
def Obligations.StickyErrorFields : Prop :=
  (∀ u, State.reset.err u = none) ∧
  (∀ (i : Instr) (s : State) (c : FaultCode), s.err i.unit = some c → i.isInit = false →
    exec i s = .next (s.answer 0#32 c.num)) ∧
  (∀ (i : Instr) (s t : State), exec i s = .next t → ∀ u,
    t.err u = s.err u ∨
    (s.err u = none ∧ ∃ c : FaultCode, t.err u = some c ∧
      t.responses = s.responses ++ [⟨0#32, c.num⟩]) ∨
    (t.err u = none ∧ (i = .sysReset ∨ (i.isInit = true ∧ i.unit = u))))

/-- R221: a rejected command changes no state element of any unit and calls no stream; only its
response is added. -/
def Obligations.RejectedCommandsChangeNothing : Prop :=
  ∀ (i : Instr) (s t : State) (r : Response) (c : RejectCode), exec i s = .next t →
    t.responses = s.responses ++ [r] → r.status = c.num → t = s.answer 0#32 c.num

/-- R222, R223: a fault sets the ERR of the unit that detects it and of the unit whose command runs to the
code it answers, RESULT is 0, and no other ERR changes. A command that needs a bit while BR.ERR is set, or
writes one or flushes while BW.ERR is set, is not refused: it runs, LZD.RUN copying first, and its first
GetBit, PutBit or Flush faults with that code, which its own unit takes. -/
def Obligations.FaultLatchesBothErrFields : Prop :=
  (∀ (i : Instr) (s t : State) (r : Response) (c : FaultCode), s.ErrInv → s.err i.unit = none →
    exec i s = .next t → t.responses = s.responses ++ [r] → r.status = c.num →
    r.result = 0#32 ∧ t.err c.detector = some c ∧ t.err i.unit = some c ∧
      ∀ u, u ≠ c.detector → u ≠ i.unit → t.err u = s.err u) ∧
  (∀ (s : State) (c : FaultCode), s.br.err = some c →
    (s.huf.err = none → s.huf.hstate = .built → s.huf.Inv → 0 < s.huf.ncodes →
      exec .hufGetsym s =
        .next (State.answer { s with huf := { s.huf with err := some c } } 0#32 c.num)) ∧
    (s.lzd.err = none → s.lzd.dstate = .ready →
      exec .lzdStep s =
        .next (State.answer { s with lzd := { s.lzd with err := some c } } 0#32 c.num)) ∧
    (∀ n : Word, s.lzd.err = none → s.lzd.dstate ≠ .done → s.LzdInv → s.lzd.crem < n.toNat →
      s.dout.takes s.lzd.crem = true →
      ∃ lzd dout, s.Executed s.pendingCopy lzd dout ∧ lzd.dstate = .ready ∧
        lzd.tokphase = s.lzd.tokphase ∧
        exec (.lzdRun n) s = .next (State.answer
          { s with lzd := { lzd with err := some c }, dout := dout } 0#32 c.num))) ∧
  (∀ (s : State) (c : FaultCode), s.bw.err = some c →
    (∀ sym : BitVec 16, s.huf.err = none → s.huf.hstate = .built → s.huf.Inv →
      sym.toNat < s.huf.nsym → 0 < s.huf.lenOf sym.toNat →
      exec (.hufPutsym sym) s =
        .next (State.answer { s with huf := { s.huf with err := some c } } 0#32 c.num)) ∧
    (∀ b : Byte, s.lze.err = none → s.lze.estate = .idle →
      exec (.lzeLit b) s =
        .next (State.answer { s with lze := { s.lze with err := some c } } 0#32 c.num)) ∧
    (∀ off len : BitVec 16, s.lze.err = none → s.lze.estate = .idle →
      off.toNat < 2 ^ s.lze.cfg.ob.toNat → s.lze.cfg.min.toNat ≤ len.toNat →
      len.toNat ≤ s.lze.cfg.max.toNat →
      exec (.lzeRef off len) s =
        .next (State.answer { s with lze := { s.lze with err := some c } } 0#32 c.num)) ∧
    (s.lze.err = none → exec .lzeFlush s = .next (State.answer
      { s with lze := { s.lze with estate := .flushing, err := some c } } 0#32 c.num)))

/-- R225 and R227: with no sticky error a command whose operands alone are out of range is rejected
with E_OPERAND, an initialising command even with one. -/
def Obligations.OutOfRangeOperandsAreRejected : Prop :=
  ∀ (i : Instr) (s : State), WellFormed i = false → s.err i.unit = none ∨ i.isInit = true →
    exec i s = .next (s.answer 0#32 2#32)

/-- R20, R198, R215 and R253: a command changes the reader and SRC only if it reads bits or resets BR,
the writer and SNK only if it writes bits or resets BW, HUF, LZD with DOUT, and LZE only if it is of
that unit or SYS.RESET; SYS.RESET leaves the streams alone (R252). -/
def Obligations.CommandsKeepToTheirUnits : Prop :=
  ∀ (i : Instr) (s t : State), exec i s = .next t →
    (readsBits i = false → resetsReader i = false → t.br = s.br) ∧
    (readsBits i = false → t.src = s.src) ∧
    (writesBits i = false → resetsWriter i = false → t.bw = s.bw) ∧
    (writesBits i = false → t.snk = s.snk) ∧
    (i.unit ≠ .huf → i ≠ .sysReset → t.huf = s.huf) ∧
    (i.unit ≠ .lzd → i ≠ .sysReset → t.lzd = s.lzd) ∧
    (i.unit ≠ .lzd → t.dout = s.dout) ∧
    (i.unit ≠ .lze → i ≠ .sysReset → t.lze = s.lze)

/-- R71 and R74: SRC is consumed in order and never changed, SNK and DOUT are only appended to. -/
def Obligations.StreamsAreSequential : Prop :=
  ∀ (i : Instr) (s t : State), exec i s = .next t →
    t.src.content = s.src.content ∧ s.src.delivered <+: t.src.delivered ∧
      t.src.ending = s.src.ending ∧ s.snk.accepted <+: t.snk.accepted ∧
      s.dout.bytes <+: t.dout.bytes

/-! ## Invariants -/

/-- R44: the state right after reset has every invariant below. -/
def Obligations.ResetHasTheInvariants : Prop :=
  State.reset.br.Inv ∧ State.reset.bw.Inv ∧ State.reset.huf.Inv ∧ State.reset.LzdInv ∧
    State.reset.lze.Inv ∧ State.reset.ErrInv

/-- R24: the reader's invariant is kept by every step, from every state that has it, and once SRC has
ended no step asks it for more and REOF stays set, but for the step that runs BR.INIT or SYS.RESET. -/
def Obligations.ReaderInvariantIsKept : Prop :=
  State.reset.br.Inv ∧
  ∀ s t : State, s.br.Inv → step s = .next t →
    t.br.Inv ∧ (s.br.reof = true → t.src = s.src ∧ (t.br.reof = true ∨
      ∃ (b : Beat) (rest : List Beat) (i : Instr), s.waiting = none ∧ s.cmds = b :: rest ∧
        decode b = .ok i ∧ resetsReader i = true))

/-- R26: the writer's invariant is kept by every step that ends its command. -/
def Obligations.WriterInvariantIsKept : Prop :=
  ∀ s t : State, (s.waiting = none → s.bw.Inv) → step s = .next t →
    (t.waiting = none → t.bw.Inv)

/-- R28 with R150: every step keeps the coder's invariant; in BUILT the lookup structure is the one R154
and R155 build from the lengths. -/
def Obligations.HuffmanInvariantIsKept : Prop :=
  ∀ s t : State, s.huf.Inv → step s = .next t → t.huf.Inv

/-- R30: every step that ends its command keeps the decompressor's invariant, the window holding the
most recent bytes of DOUT; DONE is left only by LZD.INIT or SYS.RESET. -/
def Obligations.DecompressorInvariantIsKept : Prop :=
  (∀ s t : State, (s.waiting = none → s.LzdInv) → step s = .next t →
    (t.waiting = none → t.LzdInv)) ∧
  (∀ (i : Instr) (s t : State), s.lzd.dstate = .done → exec i s = .next t →
    t.lzd.dstate = .done ∨ i = .sysReset ∨ ∃ wb ob lb min max, i = .lzdInit wb ob lb min max)

/-- R203 and R222: every step keeps each ERR field at a code that unit can have, and ESTATE is seen
Flushing only with LZE.ERR set. -/
def Obligations.ErrorAndCompressorInvariantsAreKept : Prop :=
  (∀ s t : State, s.ErrInv → step s = .next t → t.ErrInv) ∧
  (∀ s t : State, (s.waiting = none → s.lze.Inv) → step s = .next t →
    (t.waiting = none → t.lze.Inv))

/-! ## SYS -/

/-- R120 to R122: SYS.NOP answers 0; SYS.RDSR answers the view of its number or rejects it; neither
changes anything else, whatever the ERR fields hold. -/
def Obligations.NopAndRdsrOnlyAnswer : Prop :=
  ∀ s : State, exec .sysNop s = .next (s.respond 0) ∧
    ∀ r : BitVec 8, exec (.sysRdsr r) s =
      if r.toNat ≤ 27 then .next (s.answer (statusRegister s r.toNat) 0#32)
      else .next (s.answer 0#32 2#32)

/-- R121, R250 to R252: SYS.RESET gives every element of the five units its reset value but for the
memories, which it does not erase, and touches no stream. -/
def Obligations.ResetCommandRestoresTheUnits : Prop :=
  ∀ s : State, exec .sysReset s = .next (State.respond { s with
    br := { Br.reset with rbuf := s.br.rbuf }
    bw := { Bw.reset with wbuf := s.bw.wbuf }
    huf := { Huf.reset with
      len := s.huf.len, freq := s.huf.freq, count := s.huf.count, first := s.huf.first
      base := s.huf.base, sorted := s.huf.sorted, code := s.huf.code }
    lzd := { Lzd.reset with win := s.lzd.win }
    lze := Lze.reset } 0)

/-- R250: the 28 status registers after power-on reset and after SYS.RESET. -/
def Obligations.StatusRegistersAfterReset : Prop :=
  (List.range 28).map (statusRegister State.reset) =
    [0x48424331#32, 0x00001000#32, 0x02002010#32, 0x00000810#32, 0#32, 0#32, 0#32, 0#32, 0#32,
      0#32, 0#32, 0#32, 0#32, 0#32, 0#32, 0#32, 0#32, 0#32, 0x0000118C#32, 0x00120003#32, 0#32,
      0#32, 0#32, 0#32, 0#32, 0#32, 0x0000118C#32, 0x00120003#32] ∧
  ∀ s t : State, exec .sysReset s = .next t →
    (List.range 28).map (statusRegister t) = (List.range 28).map (statusRegister State.reset)

/-- R36, R37, R38, R39, R40: each status register shows its state elements in the bits the rules name, and
every other bit reads as 0 (R34). -/
def Obligations.StatusRegistersShowTheState : Prop :=
  ∀ s : State, s.br.rcnt < 16 → s.br.rlen - s.br.rpos < 2 ^ 13 → s.bw.wcnt < 8 →
    s.bw.wlen < 2 ^ 13 → s.huf.nsym < 2 ^ 16 → s.huf.ncodes < 2 ^ 16 → s.huf.nfreq < 2 ^ 16 →
    s.huf.lmax < 2 ^ 5 → s.lzd.wpos < 2 ^ 16 → s.lzd.filled < 2 ^ 17 → s.lzd.csrc < 2 ^ 16 →
    s.lzd.crem < 2 ^ 16 →
    (statusRegister s 4).toNat =
      (match s.br.mode with | .msb => 0 | .lsb => 1) + 2 * s.br.reof.toNat + 2 ^ 4 * s.br.rcnt +
        2 ^ 8 * (errNum s.br.err).toNat + 2 ^ 16 * (s.br.rlen - s.br.rpos) ∧
    (statusRegister s 5).toNat = s.br.rbits.toNat % 2 ^ 32 ∧
    (statusRegister s 6).toNat = s.br.rbits.toNat / 2 ^ 32 ∧
    (statusRegister s 7).toNat = s.br.rpull.toNat % 2 ^ 32 ∧
    (statusRegister s 8).toNat = s.br.rpull.toNat / 2 ^ 32 ∧
    (statusRegister s 9).toNat =
      (match s.bw.mode with | .msb => 0 | .lsb => 1) + 2 ^ 4 * s.bw.wcnt +
        2 ^ 8 * (errNum s.bw.err).toNat + 2 ^ 16 * s.bw.wlen ∧
    (statusRegister s 10).toNat = s.bw.wbits.toNat % 2 ^ 32 ∧
    (statusRegister s 11).toNat = s.bw.wbits.toNat / 2 ^ 32 ∧
    (statusRegister s 12).toNat = s.bw.wpush.toNat % 2 ^ 32 ∧
    (statusRegister s 13).toNat = s.bw.wpush.toNat / 2 ^ 32 ∧
    (statusRegister s 14).toNat =
      (match s.huf.hstate with | .loading => 0 | .built => 1) +
        2 ^ 8 * (errNum s.huf.err).toNat + 2 ^ 16 * s.huf.nsym ∧
    (statusRegister s 15).toNat = s.huf.defsym.toNat + 2 ^ 16 * s.huf.ncodes ∧
    (statusRegister s 16).toNat = s.huf.nfreq + 2 ^ 16 * s.huf.lmax ∧
    (statusRegister s 17).toNat =
      (match s.lzd.dstate with | .ready => 0 | .copy => 1 | .done => 2) +
        2 ^ 2 * s.lzd.tokphase.toNat + 2 ^ 8 * (errNum s.lzd.err).toNat ∧
    (statusRegister s 18).toNat =
      s.lzd.cfg.wb.toNat + 2 ^ 5 * s.lzd.cfg.ob.toNat + 2 ^ 10 * s.lzd.cfg.lb.toNat ∧
    (statusRegister s 19).toNat = s.lzd.cfg.min.toNat + 2 ^ 16 * s.lzd.cfg.max.toNat ∧
    (statusRegister s 20).toNat = s.lzd.wpos ∧
    (statusRegister s 21).toNat = s.lzd.filled ∧
    (statusRegister s 22).toNat = s.lzd.csrc + 2 ^ 16 * s.lzd.crem ∧
    (statusRegister s 23).toNat = s.lzd.outcnt.toNat % 2 ^ 32 ∧
    (statusRegister s 24).toNat = s.lzd.outcnt.toNat / 2 ^ 32 ∧
    (statusRegister s 25).toNat =
      (match s.lze.estate with | .idle => 0 | .flushing => 1) +
        2 ^ 8 * (errNum s.lze.err).toNat ∧
    (statusRegister s 26).toNat =
      s.lze.cfg.wb.toNat + 2 ^ 5 * s.lze.cfg.ob.toNat + 2 ^ 10 * s.lze.cfg.lb.toNat ∧
    (statusRegister s 27).toNat = s.lze.cfg.min.toNat + 2 ^ 16 * s.lze.cfg.max.toNat

/-! ## BR and BW: bits and values -/

/-- R67: the first bit read is bit n-1 of the value in MSB-first mode and bit 0 in LSB-first mode; the
writer's order is its mirror; whole bytes are read big-endian and little-endian. -/
def Obligations.ValuesFollowTheBitOrder : Prop :=
  (∀ (bs : List Bool) (k : Nat), k < bs.length →
    (packBits .msb bs).testBit (bs.length - 1 - k) = bs.getD k false ∧
    (packBits .lsb bs).testBit k = bs.getD k false) ∧
  (∀ (mode : BitOrder) (bs : List Bool), packBits mode bs < 2 ^ bs.length) ∧
  (∀ (mode : BitOrder) (n v : Nat), (bitsOf mode n v).length = n ∧
    packBits mode (bitsOf mode n v) = v % 2 ^ n) ∧
  (∀ (mode : BitOrder) (bs : List Bool), bitsOf mode bs.length (packBits mode bs) = bs) ∧
  (∀ bytes : List Byte,
    packBits .msb (bytesBits .msb bytes) = bytes.foldl (fun v b => 256 * v + b.toNat) 0 ∧
    packBits .lsb (bytesBits .lsb bytes) = bytes.foldr (fun b v => b.toNat + 256 * v) 0)

/-- R130, R137: BR.INIT and BW.INIT reset their own unit, whatever its ERR holds, and touch nothing
else; what was read ahead or held back is gone (R79). -/
def Obligations.ReaderAndWriterInit : Prop :=
  ∀ (mode : BitOrder) (s : State),
    exec (.brInit mode) s = .next (State.respond
      { s with br := { Br.reset with mode := mode, rbuf := s.br.rbuf } } 0) ∧
    exec (.bwInit mode) s = .next (State.respond
      { s with bw := { Bw.reset with mode := mode, wbuf := s.bw.wbuf } } 0)

/-- R131, R133: with a bit left in the stream BR.GETBIT answers the next one and consumes it, calling
SrcRead only when neither RCUR nor RBUF holds a bit; with none left it faults E_EOS or E_SRC, consumes
nothing, and only REOF and BR.ERR change. That a SRC which never answers (R80) leaves BR as it is, the
call counted and the block waiting is the model's reading (log 6). -/
def Obligations.GetbitTakesTheNextBit : Prop :=
  ∀ s : State, s.br.err = none → s.br.Inv →
    (∀ (b : Bool) (rest : List Bool), s.readerBits = b :: rest →
      ∃ br src, exec .brGetbit s =
          .next (State.respond { s with br := br, src := src } b.toNat) ∧
        s.Consumed [b] br src ∧ src.calls = s.src.calls +
          if s.br.rcnt = 0 ∧ s.br.rpos = s.br.rlen then 1 else 0) ∧
    (s.readerBits = [] →
      (s.src.ending = .eof → exec .brGetbit s = .next (State.answer
        { s with
          src := { s.src with calls := s.src.calls + 1 }
          br := { s.br with reof := true, err := some .eos } } 0#32 16#32)) ∧
      (s.src.ending = .err → exec .brGetbit s = .next (State.answer
        { s with
          src := { s.src with calls := s.src.calls + 1 }
          br := { s.br with err := some .src } } 0#32 17#32)) ∧
      (s.src.ending = .silent → exec .brGetbit s = .next
        { s with src := { s.src with calls := s.src.calls + 1 }, waiting := some .src }))

/-- R132, R134: with n bits left BR.READ n answers the value they make and consumes exactly them. -/
def Obligations.ReadPacksTheNextBits : Prop :=
  ∀ (s : State) (n : BitVec 6) (bs rest : List Bool), s.br.err = none → s.br.Inv →
    n.toNat ≤ MAXN → bs.length = n.toNat → s.readerBits = bs ++ rest →
    ∃ br src, exec (.brRead n) s =
        .next (State.respond { s with br := br, src := src } (packBits s.br.mode bs)) ∧
      s.Consumed bs br src

/-- R136, with R61 for a stream that fails: a value that needs more bits than the source holds consumes
them all and gives no result. That a SRC which never answers (R80) leaves the block waiting with those
bits consumed is the model's reading (log 6). -/
def Obligations.ReadPastTheEndFaults : Prop :=
  ∀ (s : State) (n : BitVec 6), s.br.err = none → s.br.Inv → n.toNat ≤ MAXN →
    s.readerBits.length < n.toNat →
    ∃ br src, br.rbits = s.br.rbits + BitVec.ofNat 64 s.readerBits.length ∧
      br.mode = s.br.mode ∧ br.Inv ∧ br.curBits = [] ∧ br.aheadBytes = [] ∧ src.pending.flatten = [] ∧
      src.content = s.src.content ∧
      match s.src.ending with
      | .eof => br.reof = true ∧ br.err = some .eos ∧
          readBits n.toNat s =
            .faulted .br .eos { s with br := { br with err := none }, src := src } ∧
          exec (.brRead n) s = .next (({ s with br := br, src := src } : State).answer 0#32 16#32)
      | .err => br.reof = false ∧ br.err = some .src ∧
          exec (.brRead n) s = .next (({ s with br := br, src := src } : State).answer 0#32 17#32)
      | .silent => br.reof = false ∧ br.err = none ∧
          exec (.brRead n) s = .next { s with br := br, src := src, waiting := some .src }

/-- R135: what BR.READ answers, the error it leaves and the bits still to come depend on the bits of the
stream and the mode, not on the chunks in which SRC delivers them. -/
def Obligations.ReadIsIndependentOfChunks : Prop :=
  ∀ (n : BitVec 6) (s s' t t' : State), s.br.Inv → s'.br.Inv → s.br.err = none →
    s'.br.err = none → s.br.mode = s'.br.mode → s.br.rbits = s'.br.rbits →
    s.readerBits = s'.readerBits → s.src.ending = s'.src.ending → s.responses = s'.responses →
    s.waiting = s'.waiting →
    exec (.brRead n) s = .next t → exec (.brRead n) s' = .next t' →
    t.responses = t'.responses ∧ t.waiting = t'.waiting ∧ t.br.err = t'.br.err ∧
      t.br.reof = t'.br.reof ∧ t.br.rbits = t'.br.rbits ∧ t.readerBits = t'.readerBits ∧
      t.br.rcnt = t'.br.rcnt

/-- R138, R139, R142, R143: BW.PUTBIT appends its bit and BW.WRITE n, v bits n-1..0 of v in the writer's
order to the bits written; SNK gets a whole block exactly when the block buffer fills (R140, R146). -/
def Obligations.PutbitAndWriteAppendTheirBits : Prop :=
  (∀ (s : State) (b : Bool), s.WriterReady 1 →
    ∃ bw snk, exec (.bwPutbit b) s = .next (State.respond { s with bw := bw, snk := snk } 0) ∧
      s.Accepted [b] bw snk) ∧
  (∀ (s : State) (n : BitVec 6) (v : Word), n.toNat ≤ MAXN → s.WriterReady n.toNat →
    ∃ bw snk, exec (.bwWrite n v) s = .next (State.respond { s with bw := bw, snk := snk } 0) ∧
      s.Accepted (bitsOf s.bw.mode n.toNat v.toNat) bw snk)

/-- R141, R144: BW.FLUSH pads the partial byte with zeros and hands everything held to SNK in one
SnkWrite; with nothing held it calls nothing; when SNK answers Err the padded bytes stay in WBUF. -/
def Obligations.FlushDeliversEverything : Prop :=
  ∀ s : State, s.bw.err = none → s.bw.Inv →
    (s.bw.flushBytes = [] → exec .bwFlush s = .next (s.respond 0)) ∧
    (s.bw.flushBytes ≠ [] → s.snk.answer = .ok →
      ∃ bw, exec .bwFlush s = .next (State.respond { s with
          bw := bw
          snk := { s.snk with
            accepted := s.snk.accepted ++ [s.bw.flushBytes]
            answers := s.snk.answers.tail
            calls := s.snk.calls + 1 } } 0) ∧
        bw.wlen = 0 ∧ bw.wcnt = 0 ∧ bw.mode = s.bw.mode ∧ bw.err = none ∧
        bw.wbits = s.bw.wbits ∧
        bw.wpush = s.bw.wpush + BitVec.ofNat 64 s.bw.flushBytes.length ∧
        bw.Inv ∧
        bytesBits s.bw.mode (s.snk.content ++ s.bw.flushBytes) =
          s.writtenBits ++ s.bw.padding) ∧
    (s.bw.flushBytes ≠ [] → s.snk.answer = .err →
      ∃ bw snk, exec .bwFlush s =
          .next (State.answer { s with bw := bw, snk := snk } 0#32 18#32) ∧
        bw.err = some .snk ∧ bw.wcnt = 0 ∧ bw.heldBytes = s.bw.flushBytes ∧
        bw.wbits = s.bw.wbits ∧ bw.wpush = s.bw.wpush ∧ snk.accepted = s.snk.accepted)

/-- R139, R140, R142, R143, R169, R200, R201, R222: when a bit fills the block buffer and SNK answers Err,
BW.PUTBIT, BW.WRITE, HUF.PUTSYM, LZE.LIT and LZE.REF fault E_SNK at that bit: it and the bits before it
stay written, the bits of the value after it are not, all BUFSZ bytes stay in WBUF, and the unit of the
command takes the code too. -/
def Obligations.SinkErrorKeepsTheBytes : Prop :=
  (∀ (s : State) (b : Bool), s.SinkFails 1 →
    ∃ bw snk, s.Refused [b] bw snk ∧
      exec (.bwPutbit b) s = .next (State.answer { s with bw := bw, snk := snk } 0#32 18#32)) ∧
  (∀ (s : State) (n : BitVec 6) (v : Word), n.toNat ≤ MAXN → s.SinkFails n.toNat →
    ∃ bw snk, s.Refused (bitsOf s.bw.mode n.toNat v.toNat) bw snk ∧
      exec (.bwWrite n v) s = .next (State.answer { s with bw := bw, snk := snk } 0#32 18#32)) ∧
  (∀ (s : State) (sym : BitVec 16), s.huf.err = none → s.huf.hstate = .built → s.huf.Inv →
    sym.toNat < s.huf.nsym → 0 < s.huf.lenOf sym.toNat →
    s.SinkFails (s.huf.lenOf sym.toNat) →
    ∃ bw snk, s.Refused (s.huf.wireCode sym.toNat) bw snk ∧
      exec (.hufPutsym sym) s = .next (State.answer
        { s with bw := bw, snk := snk, huf := { s.huf with err := some .snk } } 0#32 18#32)) ∧
  (∀ (s : State) (b : Byte), s.lze.err = none → s.lze.estate = .idle → s.SinkFails 9 →
    ∃ bw snk, s.Refused (false :: bitsOf s.bw.mode 8 b.toNat) bw snk ∧
      exec (.lzeLit b) s = .next (State.answer
        { s with bw := bw, snk := snk, lze := { s.lze with err := some .snk } } 0#32 18#32)) ∧
  (∀ (s : State) (off len : BitVec 16), s.lze.err = none → s.lze.estate = .idle →
    off.toNat < 2 ^ s.lze.cfg.ob.toNat → s.lze.cfg.min.toNat ≤ len.toNat →
    len.toNat ≤ s.lze.cfg.max.toNat →
    s.SinkFails (1 + s.lze.cfg.ob.toNat + s.lze.cfg.lb.toNat) →
    ∃ bw snk, s.Refused (true :: (bitsOf s.bw.mode s.lze.cfg.ob.toNat off.toNat ++
        bitsOf s.bw.mode s.lze.cfg.lb.toNat (len.toNat - s.lze.cfg.min.toNat))) bw snk ∧
      exec (.lzeRef off len) s = .next (State.answer
        { s with bw := bw, snk := snk, lze := { s.lze with err := some .snk } } 0#32 18#32))

/-! ## HUF -/

/-- R151, R152, R161, R162: HUF.CLEAR resets counts, state, DEFSYM and HUF.ERR whatever that holds, and
erases no memory; HUF.SETDEF sets DEFSYM alone; HUF.PUSH and HUF.FPUSH append one entry and answer its
symbol number, or are rejected in BUILT with E_STATE, on a full table with E_FULL, in that order (R226). -/
def Obligations.ClearSetdefPushAndFpush : Prop :=
  (∀ s : State, exec .hufClear s = .next (State.respond { s with huf := { s.huf with
    hstate := .loading, nsym := 0, nfreq := 0, ncodes := 0, lmax := 0, defsym := 0#16
    err := none } } 0)) ∧
  ∀ (s : State) (sym : BitVec 16) (len : BitVec 8) (freq : Word), s.huf.err = none →
    exec (.hufSetdef sym) s =
      .next (State.respond { s with huf := { s.huf with defsym := sym } } 0) ∧
    (exec (.hufPush len) s =
      if s.huf.hstate = .built then .next (s.answer 0#32 3#32)
      else if s.huf.nsym = HUF_NSYM_MAX then .next (s.answer 0#32 5#32)
      else .next (State.respond { s with huf := { s.huf with
        len := s.huf.len.write s.huf.nsym len, nsym := s.huf.nsym + 1 } } s.huf.nsym)) ∧
    (exec (.hufFpush freq) s =
      if s.huf.hstate = .built then .next (s.answer 0#32 3#32)
      else if s.huf.nfreq = HUF_NSYM_MAX then .next (s.answer 0#32 5#32)
      else .next (State.respond { s with huf := { s.huf with
        freq := s.huf.freq.write s.huf.nfreq freq, nfreq := s.huf.nfreq + 1 } } s.huf.nfreq)) ∧
    (s.huf.len.wf = true → ∀ k, (s.huf.len.write s.huf.nsym len).read k =
      if k = s.huf.nsym then len else s.huf.len.read k) ∧
    (s.huf.freq.wf = true → ∀ k, (s.huf.freq.write s.huf.nfreq freq).read k =
      if k = s.huf.nfreq then freq else s.huf.freq.read k)

/-- R153 to R155, R157, R158: from lengths that are legal and not over-subscribed, complete or not,
HUF.BUILD makes the canonical table, enters BUILT and answers NCODES. -/
def Obligations.BuildMakesTheCanonicalTable : Prop :=
  ∀ s : State, s.huf.err = none → s.huf.hstate = .loading → s.huf.Inv →
    s.huf.LengthsLegal → s.huf.NotOversubscribed →
    ∃ h : Huf, exec .hufBuild s = .next (State.respond { s with huf := h } h.ncodes) ∧
      h.hstate = .built ∧ h.Canonical ∧ h.Inv ∧ h.len = s.huf.len ∧ h.nsym = s.huf.nsym ∧
      h.freq = s.huf.freq ∧ h.nfreq = s.huf.nfreq ∧ h.defsym = s.huf.defsym ∧ h.err = none

/-- R153, R154, R156: a length above HUF_MAXLEN faults E_HUF_LEN before any over-subscription is looked
at; otherwise more codes than bit-space faults E_HUF_OVERSUB; HSTATE stays LOADING and the lengths are
kept. In BUILT the command is rejected. -/
def Obligations.BuildFaultsOnBadLengths : Prop :=
  ∀ s : State, s.huf.err = none → s.huf.Inv →
    (s.huf.hstate = .built → exec .hufBuild s = .next (s.answer 0#32 3#32)) ∧
    (s.huf.hstate = .loading → ¬ s.huf.LengthsLegal → exec .hufBuild s =
      .next (State.answer { s with huf := { s.huf with err := some .hufLen } } 0#32 19#32)) ∧
    (s.huf.hstate = .loading → s.huf.LengthsLegal → ¬ s.huf.NotOversubscribed →
      ∃ h : Huf, exec .hufBuild s = .next (State.answer { s with huf := h } 0#32 20#32) ∧
        h.hstate = .loading ∧ h.err = some .hufOversub ∧ h.nsym = s.huf.nsym ∧
        h.len = s.huf.len ∧ h.freq = s.huf.freq ∧ h.nfreq = s.huf.nfreq ∧
        h.ncodes = s.huf.ncodes ∧ h.lmax = s.huf.lmax ∧ h.defsym = s.huf.defsym)

/-- R28: in BUILT the lengths are legal, NCODES is the sum of COUNT, no length is over-subscribed, the
codes form a prefix code and SORTED lists each symbol with a code exactly once. -/
def Obligations.BuiltTableIsAPrefixCode : Prop :=
  ∀ h : Huf, h.Inv → h.hstate = .built →
    (∀ sym < h.nsym, h.lenOf sym ≤ HUF_MAXLEN) ∧
    h.ncodes = ((codeLengths.map fun l => (h.count.read l).toNat).sum) ∧
    (∀ l, 1 ≤ l → l ≤ HUF_MAXLEN → (h.first.read l).toNat + (h.count.read l).toNat ≤ 2 ^ l) ∧
    (∀ a < h.nsym, ∀ b < h.nsym, 0 < h.lenOf a → 0 < h.lenOf b → a ≠ b →
      ¬ h.wireCode a <+: h.wireCode b) ∧
    (∀ sym < h.nsym, 0 < h.lenOf sym →
      ∃ k < h.ncodes, (h.sorted.read k).toNat = sym ∧
        ∀ j < h.ncodes, (h.sorted.read j).toNat = sym → j = k) ∧
    (∀ k < h.ncodes, (h.sorted.read k).toNat < h.nsym ∧ 0 < h.lenOf (h.sorted.read k).toNat)

/-- R159, R160, R170: when the bits to come begin with the code of a symbol, HUF.GETSYM answers the
symbol and consumes exactly its code, in either mode. -/
def Obligations.GetsymDecodesItsCode : Prop :=
  ∀ (s : State) (sym : Nat) (rest : List Bool), s.huf.err = none → s.huf.hstate = .built →
    s.huf.Inv → s.br.err = none → s.br.Inv → sym < s.huf.nsym → 0 < s.huf.lenOf sym →
    s.readerBits = s.huf.wireCode sym ++ rest →
    ∃ br src, exec .hufGetsym s = .next (State.respond { s with br := br, src := src } sym) ∧
      s.Consumed (s.huf.wireCode sym) br src

/-- R160, R222: when no code is a beginning of the next LMAX bits, HUF.GETSYM consumes them and faults
E_HUF_NOCODE in HUF; when the source ends or fails first, it consumes what is left and faults E_EOS or
E_SRC in BR and HUF. That it waits, those bits consumed, when SRC never answers (R80) is the model's
reading (log 6). -/
def Obligations.GetsymFaults : Prop :=
  ∀ (s : State) (bs rest : List Bool), s.huf.err = none → s.huf.hstate = .built → s.huf.Inv →
    0 < s.huf.ncodes → s.br.err = none → s.br.Inv → s.readerBits = bs ++ rest →
    (∀ sym < s.huf.nsym, 0 < s.huf.lenOf sym → ¬ s.huf.wireCode sym <+: bs) →
    (bs.length = s.huf.lmax → ∃ br src, s.Consumed bs br src ∧
      exec .hufGetsym s = .next (State.answer { s with
        br := br, src := src, huf := { s.huf with err := some .hufNocode } } 0#32 21#32)) ∧
    (rest = [] → bs.length < s.huf.lmax → ∃ br src, s.Exhausted br src ∧
      exec .hufGetsym s = s.src.ending.ends .huf { s with br := br, src := src })

/-- R163 to R165: with at least two symbols of non-zero frequency and no merge depth above HUF_MAXLEN,
HUF.MKENC gives each its depth, every other symbol no code, and builds the canonical table. The depths are
those of merging, again and again, the two nodes of least weight that were inserted first, leaves in symbol
order and new nodes last (R165); the examples of R164 and R165, and 1, 1, 2, 2, where taking a new node
before a leaf of its weight would give 3, 3, 2, 1. -/
def Obligations.MkencBuildsTheMergeTable : Prop :=
  (∀ s : State, s.huf.err = none → s.huf.hstate = .loading → s.huf.Inv →
    2 ≤ s.huf.active.length → (∀ d ∈ s.huf.mergeDepths, d.2 ≤ HUF_MAXLEN) →
    ∃ h : Huf, exec .hufMkenc s = .next (State.respond { s with huf := h } h.ncodes) ∧
      h.hstate = .built ∧ h.Canonical ∧ h.Inv ∧ h.nsym = s.huf.nfreq ∧
      h.ncodes = s.huf.active.length ∧
      (∀ d ∈ s.huf.mergeDepths, h.lenOf d.1 = d.2) ∧
      (∀ sym < s.huf.nfreq, s.huf.freqOf sym = 0 → h.lenOf sym = 0) ∧
      h.freq = s.huf.freq ∧ h.nfreq = s.huf.nfreq ∧ h.defsym = s.huf.defsym ∧ h.err = none) ∧
  (∀ h : Huf, 2 ≤ h.active.length → h.mergeDepths = h.depthsInOrder) ∧
  (∀ (h : Huf) (freqs lens : List Nat),
    (freqs, lens) ∈ [([5, 1, 1, 2], [1, 3, 3, 2]), ([1, 1, 1, 1], [2, 2, 2, 2]),
      ([1, 1, 2], [2, 2, 1]), ([2, 1, 1], [1, 2, 2]), ([1, 1, 2, 2], [2, 2, 2, 2])] →
    (List.range h.nfreq).map h.freqOf = freqs →
    ∀ sym d, (sym, d) ∈ h.mergeDepths ↔ lens[sym]? = some d)

/-- R168, its first two properties: the merge gives each symbol of non-zero frequency one depth, the
Kraft sum of the depths is exactly 1, and a more frequent symbol never lies deeper. -/
def Obligations.MergeDepthsAreCompleteAndMonotone : Prop :=
  ∀ h : Huf, 2 ≤ h.active.length →
    (h.mergeDepths.map Prod.fst).Perm h.active ∧
    (h.mergeDepths.map fun d => (1 / 2 : ℚ) ^ d.2).sum = 1 ∧
    (∀ a ∈ h.mergeDepths, ∀ b ∈ h.mergeDepths, h.freqOf b.1 < h.freqOf a.1 → a.2 ≤ b.2)

/-- R163, R166, R167: with one symbol of non-zero frequency HUF.MKENC builds a table with no codes whose
DEFSYM is that symbol; with none it is rejected; with a depth above HUF_MAXLEN it faults E_HUF_LEN and
stays LOADING. -/
def Obligations.MkencCornerCases : Prop :=
  ∀ s : State, s.huf.err = none → s.huf.Inv →
    (s.huf.hstate = .built → exec .hufMkenc s = .next (s.answer 0#32 3#32)) ∧
    (s.huf.hstate = .loading → s.huf.active = [] →
      exec .hufMkenc s = .next (s.answer 0#32 4#32)) ∧
    (∀ a, s.huf.hstate = .loading → s.huf.active = [a] →
      ∃ h : Huf, exec .hufMkenc s = .next (State.respond { s with huf := h } 0) ∧
        h.hstate = .built ∧ h.Inv ∧ h.defsym.toNat = a ∧ h.ncodes = 0 ∧ h.lmax = 0 ∧
        h.nsym = s.huf.nfreq ∧ (∀ sym < h.nsym, h.lenOf sym = 0) ∧ h.freq = s.huf.freq ∧
        h.nfreq = s.huf.nfreq ∧ h.err = none) ∧
    (s.huf.hstate = .loading → 2 ≤ s.huf.active.length →
      (∃ d ∈ s.huf.mergeDepths, HUF_MAXLEN < d.2) →
      ∃ h : Huf, exec .hufMkenc s = .next (State.answer { s with huf := h } 0#32 19#32) ∧
        h.hstate = .loading ∧ h.err = some .hufLen ∧ h.nsym = s.huf.nfreq ∧
        h.freq = s.huf.freq ∧ h.nfreq = s.huf.nfreq ∧ h.ncodes = s.huf.ncodes ∧
        (∀ d ∈ s.huf.mergeDepths, d.2 < 256 → h.lenOf d.1 = d.2))

/-- R169, R170: HUF.PUTSYM writes the code of its symbol, most significant bit first in both modes, and
answers its length. -/
def Obligations.PutsymWritesItsCode : Prop :=
  ∀ (s : State) (sym : BitVec 16), s.huf.err = none → s.huf.hstate = .built → s.huf.Inv →
    sym.toNat < s.huf.nsym → 0 < s.huf.lenOf sym.toNat →
    s.WriterReady (s.huf.lenOf sym.toNat) →
    ∃ bw snk, exec (.hufPutsym sym) s = .next (State.respond { s with bw := bw, snk := snk }
        (s.huf.lenOf sym.toNat)) ∧
      s.Accepted (s.huf.wireCode sym.toNat) bw snk

/-- R158, R159, R169: on a table with no codes HUF.GETSYM answers DEFSYM and reads nothing, whatever the
state of the reader, and HUF.PUTSYM of DEFSYM writes nothing; any other symbol without a code is rejected
with E_NOSYM, and outside BUILT both commands with E_STATE. -/
def Obligations.SymbolsWithoutACode : Prop :=
  ∀ (s : State) (sym : BitVec 16), s.huf.err = none →
    (s.huf.hstate = .loading → exec .hufGetsym s = .next (s.answer 0#32 3#32)) ∧
    (s.huf.hstate = .built → s.huf.ncodes = 0 →
      exec .hufGetsym s = .next (s.respond s.huf.defsym.toNat)) ∧
    (s.huf.hstate = .loading → exec (.hufPutsym sym) s = .next (s.answer 0#32 3#32)) ∧
    (s.huf.hstate = .built → s.huf.ncodes = 0 → exec (.hufPutsym sym) s =
      if sym = s.huf.defsym then .next (s.respond 0) else .next (s.answer 0#32 4#32)) ∧
    (s.huf.hstate = .built → 0 < s.huf.ncodes →
      s.huf.nsym ≤ sym.toNat ∨ s.huf.lenOf sym.toNat = 0 →
      exec (.hufPutsym sym) s = .next (s.answer 0#32 4#32))

/-- R171: HUF.RDLEN answers length and code of a symbol and changes nothing; the order of its checks is
state, then operand. -/
def Obligations.RdlenReadsOneRow : Prop :=
  ∀ (s : State) (sym : BitVec 16), s.huf.err = none →
    (s.huf.hstate = .loading → exec (.hufRdlen sym) s = .next (s.answer 0#32 3#32)) ∧
    (s.huf.hstate = .built → s.huf.nsym ≤ sym.toNat →
      exec (.hufRdlen sym) s = .next (s.answer 0#32 2#32)) ∧
    (s.huf.hstate = .built → sym.toNat < s.huf.nsym → ∃ result : Word,
      exec (.hufRdlen sym) s = .next (s.answer result 0#32) ∧
      result.toNat = if s.huf.lenOf sym.toNat = 0 then 0
        else s.huf.lenOf sym.toNat + 2 ^ 8 * (s.huf.code.read sym.toNat).toNat)

/-! ## LZD -/

/-- R182 with R181 and R199: LZD.INIT and LZE.INIT take effect exactly on the configurations ConfigOk
admits, whatever the unit's ERR holds, and are rejected on all others; every offset the plain format
carries is then below the window size and every legal length fits its field. -/
def Obligations.LzInitChecksTheConfiguration : Prop :=
  ∀ (s : State) (wb ob lb : BitVec 5) (min max : BitVec 16),
    ((1 ≤ wb.toNat ∧ wb.toNat ≤ 16 ∧ 1 ≤ ob.toNat ∧ ob.toNat ≤ wb.toNat ∧ 1 ≤ lb.toNat ∧
        lb.toNat ≤ 16 ∧ min.toNat ≤ max.toNat ∧ max.toNat - min.toNat ≤ 2 ^ lb.toNat - 1) →
      exec (.lzdInit wb ob lb min max) s = .next (State.respond { s with lzd := { Lzd.reset with
        cfg := { wb := wb, ob := ob, lb := lb, min := min, max := max }, win := s.lzd.win } } 0) ∧
      exec (.lzeInit wb ob lb min max) s = .next (State.respond { s with lze := { Lze.reset with
        cfg := { wb := wb, ob := ob, lb := lb, min := min, max := max } } } 0) ∧
      (∀ off, off < 2 ^ ob.toNat → off < 2 ^ wb.toNat) ∧
      (∀ len, min.toNat ≤ len → len ≤ max.toNat → len - min.toNat < 2 ^ lb.toNat)) ∧
    (¬ (1 ≤ wb.toNat ∧ wb.toNat ≤ 16 ∧ 1 ≤ ob.toNat ∧ ob.toNat ≤ wb.toNat ∧ 1 ≤ lb.toNat ∧
        lb.toNat ≤ 16 ∧ min.toNat ≤ max.toNat ∧ max.toNat - min.toNat ≤ 2 ^ lb.toNat - 1) →
      exec (.lzdInit wb ob lb min max) s = .next (s.answer 0#32 2#32) ∧
      exec (.lzeInit wb ob lb min max) s = .next (s.answer 0#32 2#32))

/-- R185, R186 with R192: a literal is stored at WPOS, WPOS and FILLED advance, the byte is appended to
DOUT and counted; DSTATE stays READY and nothing else changes. -/
def Obligations.LiteralIsInsertedAndEmitted : Prop :=
  ∀ (s : State) (b : Byte), s.lzd.err = none →
    (s.lzd.dstate ≠ .ready → exec (.lzdLit b) s = .next (s.answer 0#32 3#32)) ∧
    (s.lzd.dstate = .ready → s.dout.takes 1 = true →
      exec (.lzdLit b) s = .next (State.respond { s with
        lzd := { s.lzd with
          win := s.lzd.win.write s.lzd.wpos b
          wpos := (s.lzd.wpos + 1) % 2 ^ s.lzd.cfg.wb.toNat
          filled := min (s.lzd.filled + 1) (2 ^ s.lzd.cfg.wb.toNat)
          outcnt := s.lzd.outcnt + 1#64 }
        dout := { bytes := s.dout.bytes ++ [b], room := s.dout.room.map fun k => k - 1 } } 1)) ∧
    (s.LzdInv → s.lzd.dstate = .ready → s.dout.takes 1 = true → ∀ t,
      exec (.lzdLit b) s = .next t → t.LzdInv)

/-- R191 with R190: a copy from distance d appends, byte for byte, the last d bytes over and over, also
when it is longer than d. -/
def Obligations.OverlappingCopyIsPeriodic : Prop :=
  (∀ (d m : Nat) (out : List Byte), 1 ≤ d → d ≤ out.length →
    (copyBack d m out).length = out.length + m ∧ out <+: copyBack d m out ∧
    ∀ k < m, (copyBack d m out).getD (out.length + k) 0#8 =
      out.getD (out.length - d + k % d) 0#8) ∧
  copyBack 1 4 [0x61#8] = [0x61#8, 0x61#8, 0x61#8, 0x61#8, 0x61#8] ∧
  copyBack 2 5 [0x61#8, 0x62#8] = [0x61#8, 0x62#8, 0x61#8, 0x62#8, 0x61#8, 0x62#8, 0x61#8] ∧
  copyBack 3 6 [0x61#8, 0x62#8, 0x63#8] =
    [0x61#8, 0x62#8, 0x63#8, 0x61#8, 0x62#8, 0x63#8, 0x61#8, 0x62#8, 0x63#8]

/-- R187, R189, R190, R193: LZD.REF copies len bytes from the reference's distance, each the byte emitted
that distance earlier, re-inserting each into the window, and ends READY with CSRC len bytes beyond where
the copy began. -/
def Obligations.ReferenceCopiesFromItsDistance : Prop :=
  ∀ (s : State) (off len : BitVec 16), s.lzd.err = none → s.lzd.dstate = .ready → s.LzdInv →
    off.toNat < s.lzd.cfg.wsize → len ≠ 0#16 → s.lzd.cfg.min.toNat ≤ len.toNat →
    len.toNat ≤ s.lzd.cfg.max.toNat → s.lzd.cfg.distance off.toNat ≤ s.lzd.filled →
    s.dout.takes len.toNat = true →
    ∃ lzd dout, exec (.lzdRef off len) s =
        .next (State.respond { s with lzd := lzd, dout := dout } len.toNat) ∧
      s.Emitted len.toNat (copyBack (s.lzd.cfg.distance off.toNat) len.toNat s.dout.bytes)
        lzd dout ∧
      lzd.csrc = (s.lzd.wpos + s.lzd.cfg.wsize - off.toNat + len.toNat) % s.lzd.cfg.wsize ∧
      lzd.dstate = .ready ∧ lzd.crem = 0 ∧ lzd.tokphase = s.lzd.tokphase

/-- R187, R188, R190, R193: LZD.REF with length 0 ends the stream whatever its offset; a distance beyond
what the window holds faults E_LZ_BADREF before anything is copied; an offset beyond the window or a
length out of range is rejected, outside READY the command is. -/
def Obligations.ReferenceCornerCases : Prop :=
  ∀ (s : State) (off len : BitVec 16), s.lzd.err = none →
    (s.lzd.dstate ≠ .ready → exec (.lzdRef off len) s = .next (s.answer 0#32 3#32)) ∧
    (s.lzd.dstate = .ready →
      (s.lzd.cfg.wsize ≤ off.toNat → exec (.lzdRef off len) s = .next (s.answer 0#32 2#32)) ∧
      (off.toNat < s.lzd.cfg.wsize →
        (len = 0#16 → exec (.lzdRef off len) s =
          .next (State.respond { s with lzd := { s.lzd with dstate := .done } } 0)) ∧
        (len ≠ 0#16 →
          (len.toNat < s.lzd.cfg.min.toNat ∨ s.lzd.cfg.max.toNat < len.toNat →
            exec (.lzdRef off len) s = .next (s.answer 0#32 2#32)) ∧
          (s.lzd.cfg.min.toNat ≤ len.toNat → len.toNat ≤ s.lzd.cfg.max.toNat →
            s.lzd.filled < s.lzd.cfg.distance off.toNat →
            exec (.lzdRef off len) s = .next (State.answer
              { s with lzd := { s.lzd with err := some .lzBadref } } 0#32 23#32)))))

/-- R183 to R187, R189, R194: when the bits to come begin with a token that can be executed, LZD.STEP
consumes exactly the token, emits exactly its bytes, answers their number and ends READY; CSRC moves as the
token says. -/
def Obligations.StepExecutesOneToken : Prop :=
  ∀ (s : State) (tok : Token) (rest : List Bool), s.lzd.err = none → s.lzd.dstate = .ready →
    s.LzdInv → s.br.err = none → s.br.Inv →
    tok.valid s.lzd.cfg s.lzd.filled = true →
    s.readerBits = tokenBits s.br.mode s.lzd.cfg tok ++ rest →
    s.dout.takes tok.size = true →
    ∃ br src lzd dout, exec .lzdStep s = .next (State.respond
        { s with br := br, src := src, lzd := lzd, dout := dout } tok.size) ∧
      s.Consumed (tokenBits s.br.mode s.lzd.cfg tok) br src ∧
      s.Emitted tok.size (expandToken s.lzd.cfg s.dout.bytes tok) lzd dout ∧
      lzd.csrc = (match tok with
        | .literal _ => s.lzd.csrc
        | .reference off len =>
          (s.lzd.wpos + s.lzd.cfg.wsize - off + len) % s.lzd.cfg.wsize) ∧
      lzd.crem = 0 ∧ lzd.dstate = .ready ∧ lzd.tokphase = false

/-- R184, R188, R190, R194, R195: a reference read by LZD.STEP whose length passes D.MAX faults
E_LZ_RANGE, whatever its distance (R226); else length 0 ends the stream; else a distance beyond what the
window holds faults E_LZ_BADREF. The whole token is consumed and nothing is emitted. -/
def Obligations.StepCornerCases : Prop :=
  ∀ (s : State) (off l : Nat) (rest : List Bool), s.lzd.err = none → s.lzd.dstate = .ready →
    s.br.err = none → s.br.Inv → off < 2 ^ s.lzd.cfg.ob.toNat → l < 2 ^ s.lzd.cfg.lb.toNat →
    s.readerBits = true :: (bitsOf s.br.mode s.lzd.cfg.ob.toNat off ++
      bitsOf s.br.mode s.lzd.cfg.lb.toNat l) ++ rest →
    s.lzd.cfg.max.toNat < l + s.lzd.cfg.min.toNat ∨ l + s.lzd.cfg.min.toNat = 0 ∨
      s.lzd.filled < s.lzd.cfg.distance off →
    ∃ br src, s.Consumed (true :: (bitsOf s.br.mode s.lzd.cfg.ob.toNat off ++
        bitsOf s.br.mode s.lzd.cfg.lb.toNat l)) br src ∧
      exec .lzdStep s =
        if s.lzd.cfg.max.toNat < l + s.lzd.cfg.min.toNat then
          .next (State.answer { s with br := br, src := src, lzd := { s.lzd with
            tokphase := false, err := some .lzRange } } 0#32 22#32)
        else if l + s.lzd.cfg.min.toNat = 0 then
          .next (State.respond { s with br := br, src := src, lzd := { s.lzd with
            tokphase := false, dstate := .done } } 0)
        else
          .next (State.answer { s with br := br, src := src, lzd := { s.lzd with
            tokphase := false, err := some .lzBadref } } 0#32 23#32)

/-- R184, R197, R222: a source that ends or fails between tokens faults E_EOS or E_SRC with TOKPHASE as it
was, inside a token with TOKPHASE 1; both BR.ERR and LZD.ERR are set and nothing is emitted. Outside READY
LZD.STEP is rejected. That it waits, the bits left consumed, when SRC never answers (R80) is the model's
reading (log 6). -/
def Obligations.StepAtTheEndFaults : Prop :=
  ∀ s : State, s.lzd.err = none →
    (s.lzd.dstate ≠ .ready → exec .lzdStep s = .next (s.answer 0#32 3#32)) ∧
    (s.lzd.dstate = .ready → s.br.err = none → s.br.Inv →
      s.readerBits = [] ∨
        (∃ bs, s.readerBits = false :: bs ∧ bs.length < LITBITS) ∨
        (∃ bs, s.readerBits = true :: bs ∧
          bs.length < s.lzd.cfg.ob.toNat + s.lzd.cfg.lb.toNat) →
      ∃ br src, s.Exhausted br src ∧
        exec .lzdStep s = s.src.ending.ends .lzd { s with br := br, src := src, lzd := { s.lzd with
          tokphase := if s.readerBits = [] then s.lzd.tokphase else true } })

/-- R196 with R188, R205 and R206: LZD.RUN n finishes a pending copy, then runs the valid tokens of the
stream. When these hold n bytes or more it emits exactly n bytes of their expansion, reads no token beyond
the one that reaches the budget, and keeps the rest of a reference the budget cuts as the pending copy:
CREM is what is left of it and CSRC is CREM bytes short of where the reference ends (b). When they hold
fewer and the terminator follows, it executes them all, consumes the terminator, answers how many bytes
it has emitted and ends DONE. -/
def Obligations.RunEmitsExactlyItsBudget : Prop :=
  ∀ (s : State) (n : Word) (toks : List Token) (rest : List Bool), s.lzd.err = none →
    s.lzd.dstate ≠ .done → s.LzdInv → s.br.err = none → s.br.Inv →
    validTokens s.lzd.cfg (min (s.lzd.filled + s.lzd.crem) s.lzd.cfg.wsize) toks = true →
    s.readerBits = tokensBits s.br.mode s.lzd.cfg toks ++ rest →
    (n.toNat ≤ tokensSize (s.pendingCopy ++ toks) → s.dout.takes n.toNat = true →
      ∃ k br src lzd dout, k ≤ toks.length ∧
        exec (.lzdRun n) s = .next (State.respond
          { s with br := br, src := src, lzd := lzd, dout := dout } n.toNat) ∧
        s.Consumed (tokensBits s.br.mode s.lzd.cfg (toks.take k)) br src ∧
        s.Emitted n.toNat
          ((expandTokens s.lzd.cfg s.dout.bytes (s.pendingCopy ++ toks)).take
            (s.dout.bytes.length + n.toNat))
          lzd dout ∧
        n.toNat ≤ tokensSize (s.pendingCopy ++ toks.take k) ∧
        (0 < k → tokensSize (s.pendingCopy ++ toks.take (k - 1)) < n.toNat) ∧
        lzd.crem = tokensSize (s.pendingCopy ++ toks.take k) - n.toNat ∧
        (lzd.csrc + lzd.crem) % s.lzd.cfg.wsize =
          sourceAfter s.lzd.cfg s.lzd.wpos s.lzd.csrc (s.pendingCopy ++ toks.take k) ∧
        lzd.dstate = (if lzd.crem = 0 then .ready else .copy) ∧
        lzd.tokphase = (if k = 0 then s.lzd.tokphase else false)) ∧
    (∀ (off : Nat) (after : List Bool), s.lzd.cfg.min = 0#16 → off < 2 ^ s.lzd.cfg.ob.toNat →
      rest = tokenBits s.br.mode s.lzd.cfg (.reference off 0) ++ after →
      tokensSize (s.pendingCopy ++ toks) < n.toNat →
      s.dout.takes (tokensSize (s.pendingCopy ++ toks)) = true →
      ∃ br src lzd dout, exec (.lzdRun n) s = .next (State.respond
          { s with br := br, src := src, lzd := lzd, dout := dout }
          (tokensSize (s.pendingCopy ++ toks))) ∧
        s.Consumed (tokensBits s.br.mode s.lzd.cfg (toks ++ [.reference off 0])) br src ∧
        s.Executed (s.pendingCopy ++ toks) lzd dout ∧
        lzd.dstate = .done ∧ lzd.tokphase = false)

/-- R196 (a), (b), (e): LZD.RUN first continues a pending copy without reading a bit, whatever BR.ERR holds,
CSRC and CREM then holding the rest; with n = 0, and in DONE, it answers 0 and changes nothing. -/
def Obligations.RunContinuesThePendingCopy : Prop :=
  ∀ (s : State) (n : Word), s.lzd.err = none → s.LzdInv →
    (n = 0#32 → exec (.lzdRun n) s = .next (s.respond 0)) ∧
    (s.lzd.dstate = .done → exec (.lzdRun n) s = .next (s.respond 0)) ∧
    (s.lzd.dstate = .copy → n.toNat ≤ s.lzd.crem → s.dout.takes n.toNat = true →
      ∃ lzd dout, exec (.lzdRun n) s =
          .next (State.respond { s with lzd := lzd, dout := dout } n.toNat) ∧
        s.Emitted n.toNat
          (copyBack (s.lzd.cfg.distance
            ((s.lzd.wpos + s.lzd.cfg.wsize - s.lzd.csrc) % s.lzd.cfg.wsize)) n.toNat
            s.dout.bytes) lzd dout ∧
        lzd.crem = s.lzd.crem - n.toNat ∧
        lzd.csrc = (s.lzd.csrc + n.toNat) % s.lzd.cfg.wsize ∧
        lzd.tokphase = s.lzd.tokphase ∧
        lzd.dstate = if n.toNat = s.lzd.crem then .ready else .copy)

/-- R268: the loop of LZD.RUN with budget n ends within the n + 1 turns the model gives it (log 13): more
turns change nothing. -/
def Obligations.RunTurnBoundIsEnough : Prop :=
  ∀ (n k : Nat) (s : State), runLoop n (n + 1 + k) 0 s = runLoop n (n + 1) 0 s

/-! ## LZE -/

/-- R183, R200, R201, R204: LZE.LIT writes flag 0 and the byte as an 8-bit value; LZE.REF writes flag 1,
the offset in OB bits and the length less MIN in LB bits; each answers how many bits that is. An offset
or a length out of range is rejected, and ESTATE Flushing. -/
def Obligations.LzeWritesItsTokens : Prop :=
  ∀ (s : State) (b : Byte) (off len : BitVec 16), s.lze.err = none →
    (s.lze.estate ≠ .idle → exec (.lzeLit b) s = .next (s.answer 0#32 3#32) ∧
      exec (.lzeRef off len) s = .next (s.answer 0#32 3#32)) ∧
    (s.lze.estate = .idle →
      (s.WriterReady 9 →
        ∃ bw snk, exec (.lzeLit b) s = .next (State.respond { s with bw := bw, snk := snk } 9) ∧
          s.Accepted (false :: bitsOf s.bw.mode 8 b.toNat) bw snk) ∧
      (2 ^ s.lze.cfg.ob.toNat ≤ off.toNat ∨ len.toNat < s.lze.cfg.min.toNat ∨
          s.lze.cfg.max.toNat < len.toNat →
        exec (.lzeRef off len) s = .next (s.answer 0#32 2#32)) ∧
      (off.toNat < 2 ^ s.lze.cfg.ob.toNat → s.lze.cfg.min.toNat ≤ len.toNat →
        len.toNat ≤ s.lze.cfg.max.toNat →
        s.WriterReady (1 + s.lze.cfg.ob.toNat + s.lze.cfg.lb.toNat) →
        ∃ bw snk, exec (.lzeRef off len) s = .next (State.respond { s with bw := bw, snk := snk }
            (1 + s.lze.cfg.ob.toNat + s.lze.cfg.lb.toNat)) ∧
          s.Accepted (true :: (bitsOf s.bw.mode s.lze.cfg.ob.toNat off.toNat ++
            bitsOf s.bw.mode s.lze.cfg.lb.toNat (len.toNat - s.lze.cfg.min.toNat))) bw snk))

/-- R202, R203: LZE.FLUSH has the effect of BW.FLUSH on the writer and SNK and ends Idle; when SNK answers
Err, ESTATE stays Flushing, BW.ERR and LZE.ERR are set and the padded bytes stay in WBUF. -/
def Obligations.LzeFlushDeliversEverything : Prop :=
  ∀ s : State, s.lze.err = none → s.bw.err = none → s.bw.Inv →
    (s.bw.flushBytes = [] → exec .lzeFlush s =
      .next (State.respond { s with lze := { s.lze with estate := .idle } } 0)) ∧
    (s.bw.flushBytes ≠ [] → s.snk.answer = .ok →
      ∃ bw, exec .lzeFlush s = .next (State.respond { s with
          bw := bw
          snk := { s.snk with
            accepted := s.snk.accepted ++ [s.bw.flushBytes]
            answers := s.snk.answers.tail
            calls := s.snk.calls + 1 }
          lze := { s.lze with estate := .idle } } 0) ∧
        bw.wlen = 0 ∧ bw.wcnt = 0 ∧ bw.mode = s.bw.mode ∧ bw.err = none ∧
        bw.wbits = s.bw.wbits ∧
        bw.wpush = s.bw.wpush + BitVec.ofNat 64 s.bw.flushBytes.length) ∧
    (s.bw.flushBytes ≠ [] → s.snk.answer = .err →
      ∃ bw snk, exec .lzeFlush s = .next (State.answer { s with
          bw := bw, snk := snk
          lze := { s.lze with estate := .flushing, err := some .snk } } 0#32 18#32) ∧
        bw.err = some .snk ∧ bw.wcnt = 0 ∧ bw.heldBytes = s.bw.flushBytes ∧
        snk.accepted = s.snk.accepted)

/-! ## Where LZD.RUN faults -/

/-- R196 (d), R195, R190, R222, R227: when the valid tokens of the stream, after a pending copy, hold fewer
bytes than the budget of LZD.RUN, it executes them all and then faults as the next token does: E_EOS or
E_SRC where the source ends or fails between tokens or inside one, E_LZ_RANGE for a length above D.MAX,
E_LZ_BADREF for a distance beyond what the window then holds. RESULT is 0, the bytes stay emitted and
counted. That it waits, in the same state, when SRC never answers (R80) is the model's reading (log 6). -/
def Obligations.RunFaultsAtTheTokenThatFaults : Prop :=
  ∀ (s : State) (n : Word) (toks : List Token) (rest : List Bool), s.lzd.err = none →
    s.lzd.dstate ≠ .done → s.LzdInv → s.br.err = none → s.br.Inv →
    validTokens s.lzd.cfg (min (s.lzd.filled + s.lzd.crem) s.lzd.cfg.wsize) toks = true →
    s.readerBits = tokensBits s.br.mode s.lzd.cfg toks ++ rest →
    tokensSize (s.pendingCopy ++ toks) < n.toNat →
    s.dout.takes (tokensSize (s.pendingCopy ++ toks)) = true →
    (rest = [] ∨ (∃ bs, rest = false :: bs ∧ bs.length < LITBITS) ∨
        (∃ bs, rest = true :: bs ∧ bs.length < s.lzd.cfg.ob.toNat + s.lzd.cfg.lb.toNat) →
      ∃ br src lzd dout, s.Exhausted br src ∧ s.Executed (s.pendingCopy ++ toks) lzd dout ∧
        lzd.dstate = .ready ∧
        lzd.tokphase = (if rest ≠ [] then true else if toks = [] then s.lzd.tokphase else false) ∧
        exec (.lzdRun n) s = s.src.ending.ends .lzd
          { s with br := br, src := src, lzd := lzd, dout := dout }) ∧
    (∀ (off l : Nat) (after : List Bool), off < 2 ^ s.lzd.cfg.ob.toNat →
      l < 2 ^ s.lzd.cfg.lb.toNat →
      rest = true :: (bitsOf s.br.mode s.lzd.cfg.ob.toNat off ++
        bitsOf s.br.mode s.lzd.cfg.lb.toNat l) ++ after →
      (s.lzd.cfg.max.toNat < l + s.lzd.cfg.min.toNat ∨ (l + s.lzd.cfg.min.toNat ≠ 0 ∧
        min (s.lzd.filled + tokensSize (s.pendingCopy ++ toks)) s.lzd.cfg.wsize <
          s.lzd.cfg.distance off)) →
      ∃ br src lzd dout, s.Consumed (tokensBits s.br.mode s.lzd.cfg toks ++
          true :: (bitsOf s.br.mode s.lzd.cfg.ob.toNat off ++
            bitsOf s.br.mode s.lzd.cfg.lb.toNat l)) br src ∧
        s.Executed (s.pendingCopy ++ toks) lzd dout ∧ lzd.dstate = .ready ∧
        lzd.tokphase = false ∧
        exec (.lzdRun n) s =
          if s.lzd.cfg.max.toNat < l + s.lzd.cfg.min.toNat then
            .next (State.answer { s with br := br, src := src, dout := dout, lzd := { lzd with
              err := some .lzRange } } 0#32 22#32)
          else
            .next (State.answer { s with br := br, src := src, dout := dout, lzd := { lzd with
              err := some .lzBadref } } 0#32 23#32))
end

