-- ==== Sys2Proof/Laws/State.lean ====
section
/-! SUPPORT. One lemma per field for each named update of the state, so that no proof unfolds one. -/

namespace Sys2Proof.Machine

/-! ## The response port -/

@[simp] theorem answer_br (s : State) (r st : Word) : (s.answer r st).br = s.br := rfl
@[simp] theorem answer_bw (s : State) (r st : Word) : (s.answer r st).bw = s.bw := rfl
@[simp] theorem answer_huf (s : State) (r st : Word) : (s.answer r st).huf = s.huf := rfl
@[simp] theorem answer_lzd (s : State) (r st : Word) : (s.answer r st).lzd = s.lzd := rfl
@[simp] theorem answer_lze (s : State) (r st : Word) : (s.answer r st).lze = s.lze := rfl
@[simp] theorem answer_src (s : State) (r st : Word) : (s.answer r st).src = s.src := rfl
@[simp] theorem answer_snk (s : State) (r st : Word) : (s.answer r st).snk = s.snk := rfl
@[simp] theorem answer_dout (s : State) (r st : Word) : (s.answer r st).dout = s.dout := rfl
@[simp] theorem answer_cmds (s : State) (r st : Word) : (s.answer r st).cmds = s.cmds := rfl
@[simp] theorem answer_responses (s : State) (r st : Word) : (s.answer r st).responses = s.responses ++ [⟨r, st⟩] := rfl
@[simp] theorem answer_waiting (s : State) (r st : Word) : (s.answer r st).waiting = s.waiting := rfl

/-! ## respond -/

@[simp] theorem respond_br (s : State) (r : Nat) : (s.respond r).br = s.br := rfl
@[simp] theorem respond_bw (s : State) (r : Nat) : (s.respond r).bw = s.bw := rfl
@[simp] theorem respond_huf (s : State) (r : Nat) : (s.respond r).huf = s.huf := rfl
@[simp] theorem respond_lzd (s : State) (r : Nat) : (s.respond r).lzd = s.lzd := rfl
@[simp] theorem respond_lze (s : State) (r : Nat) : (s.respond r).lze = s.lze := rfl
@[simp] theorem respond_src (s : State) (r : Nat) : (s.respond r).src = s.src := rfl
@[simp] theorem respond_snk (s : State) (r : Nat) : (s.respond r).snk = s.snk := rfl
@[simp] theorem respond_dout (s : State) (r : Nat) : (s.respond r).dout = s.dout := rfl
@[simp] theorem respond_cmds (s : State) (r : Nat) : (s.respond r).cmds = s.cmds := rfl
@[simp] theorem respond_responses (s : State) (r : Nat) : (s.respond r).responses = s.responses ++ [⟨BitVec.ofNat 32 r, 0#32⟩] := rfl
@[simp] theorem respond_waiting (s : State) (r : Nat) : (s.respond r).waiting = s.waiting := rfl

/-! ## loadCur -/

@[simp] theorem loadCur_br (s : State) : (loadCur s).br = { s.br with rcur := s.br.rbuf.read s.br.rpos, rpos := s.br.rpos + 1, rcnt := 8 } := rfl
@[simp] theorem loadCur_bw (s : State) : (loadCur s).bw = s.bw := rfl
@[simp] theorem loadCur_huf (s : State) : (loadCur s).huf = s.huf := rfl
@[simp] theorem loadCur_lzd (s : State) : (loadCur s).lzd = s.lzd := rfl
@[simp] theorem loadCur_lze (s : State) : (loadCur s).lze = s.lze := rfl
@[simp] theorem loadCur_src (s : State) : (loadCur s).src = s.src := rfl
@[simp] theorem loadCur_snk (s : State) : (loadCur s).snk = s.snk := rfl
@[simp] theorem loadCur_dout (s : State) : (loadCur s).dout = s.dout := rfl
@[simp] theorem loadCur_cmds (s : State) : (loadCur s).cmds = s.cmds := rfl
@[simp] theorem loadCur_responses (s : State) : (loadCur s).responses = s.responses := rfl
@[simp] theorem loadCur_waiting (s : State) : (loadCur s).waiting = s.waiting := rfl

/-! ## appendCur -/

@[simp] theorem appendCur_br (s : State) : (appendCur s).br = s.br := rfl
@[simp] theorem appendCur_bw (s : State) : (appendCur s).bw = { s.bw with wbuf := s.bw.wbuf.write s.bw.wlen s.bw.wcur, wlen := s.bw.wlen + 1, wcur := 0#8, wcnt := 0 } := rfl
@[simp] theorem appendCur_huf (s : State) : (appendCur s).huf = s.huf := rfl
@[simp] theorem appendCur_lzd (s : State) : (appendCur s).lzd = s.lzd := rfl
@[simp] theorem appendCur_lze (s : State) : (appendCur s).lze = s.lze := rfl
@[simp] theorem appendCur_src (s : State) : (appendCur s).src = s.src := rfl
@[simp] theorem appendCur_snk (s : State) : (appendCur s).snk = s.snk := rfl
@[simp] theorem appendCur_dout (s : State) : (appendCur s).dout = s.dout := rfl
@[simp] theorem appendCur_cmds (s : State) : (appendCur s).cmds = s.cmds := rfl
@[simp] theorem appendCur_responses (s : State) : (appendCur s).responses = s.responses := rfl
@[simp] theorem appendCur_waiting (s : State) : (appendCur s).waiting = s.waiting := rfl

/-! ## countOut -/

@[simp] theorem countOut_br (s : State) : (countOut s).br = s.br := rfl
@[simp] theorem countOut_bw (s : State) : (countOut s).bw = s.bw := rfl
@[simp] theorem countOut_huf (s : State) : (countOut s).huf = s.huf := rfl
@[simp] theorem countOut_lzd (s : State) : (countOut s).lzd = { s.lzd with outcnt := s.lzd.outcnt + 1#64 } := rfl
@[simp] theorem countOut_lze (s : State) : (countOut s).lze = s.lze := rfl
@[simp] theorem countOut_src (s : State) : (countOut s).src = s.src := rfl
@[simp] theorem countOut_snk (s : State) : (countOut s).snk = s.snk := rfl
@[simp] theorem countOut_dout (s : State) : (countOut s).dout = s.dout := rfl
@[simp] theorem countOut_cmds (s : State) : (countOut s).cmds = s.cmds := rfl
@[simp] theorem countOut_responses (s : State) : (countOut s).responses = s.responses := rfl
@[simp] theorem countOut_waiting (s : State) : (countOut s).waiting = s.waiting := rfl

/-! ## advanceSource -/

@[simp] theorem advanceSource_br (s : State) : (advanceSource s).br = s.br := rfl
@[simp] theorem advanceSource_bw (s : State) : (advanceSource s).bw = s.bw := rfl
@[simp] theorem advanceSource_huf (s : State) : (advanceSource s).huf = s.huf := rfl
@[simp] theorem advanceSource_lzd (s : State) : (advanceSource s).lzd = { s.lzd with csrc := (s.lzd.csrc + 1) % s.lzd.cfg.wsize } := rfl
@[simp] theorem advanceSource_lze (s : State) : (advanceSource s).lze = s.lze := rfl
@[simp] theorem advanceSource_src (s : State) : (advanceSource s).src = s.src := rfl
@[simp] theorem advanceSource_snk (s : State) : (advanceSource s).snk = s.snk := rfl
@[simp] theorem advanceSource_dout (s : State) : (advanceSource s).dout = s.dout := rfl
@[simp] theorem advanceSource_cmds (s : State) : (advanceSource s).cmds = s.cmds := rfl
@[simp] theorem advanceSource_responses (s : State) : (advanceSource s).responses = s.responses := rfl
@[simp] theorem advanceSource_waiting (s : State) : (advanceSource s).waiting = s.waiting := rfl

/-! ## countCopied -/

@[simp] theorem countCopied_br (s : State) : (countCopied s).br = s.br := rfl
@[simp] theorem countCopied_bw (s : State) : (countCopied s).bw = s.bw := rfl
@[simp] theorem countCopied_huf (s : State) : (countCopied s).huf = s.huf := rfl
@[simp] theorem countCopied_lzd (s : State) : (countCopied s).lzd = { s.lzd with crem := s.lzd.crem - 1 } := rfl
@[simp] theorem countCopied_lze (s : State) : (countCopied s).lze = s.lze := rfl
@[simp] theorem countCopied_src (s : State) : (countCopied s).src = s.src := rfl
@[simp] theorem countCopied_snk (s : State) : (countCopied s).snk = s.snk := rfl
@[simp] theorem countCopied_dout (s : State) : (countCopied s).dout = s.dout := rfl
@[simp] theorem countCopied_cmds (s : State) : (countCopied s).cmds = s.cmds := rfl
@[simp] theorem countCopied_responses (s : State) : (countCopied s).responses = s.responses := rfl
@[simp] theorem countCopied_waiting (s : State) : (countCopied s).waiting = s.waiting := rfl

/-! ## setTokphase -/

@[simp] theorem setTokphase_br (b : Bool) (s : State) : (setTokphase b s).br = s.br := rfl
@[simp] theorem setTokphase_bw (b : Bool) (s : State) : (setTokphase b s).bw = s.bw := rfl
@[simp] theorem setTokphase_huf (b : Bool) (s : State) : (setTokphase b s).huf = s.huf := rfl
@[simp] theorem setTokphase_lzd (b : Bool) (s : State) : (setTokphase b s).lzd = { s.lzd with tokphase := b } := rfl
@[simp] theorem setTokphase_lze (b : Bool) (s : State) : (setTokphase b s).lze = s.lze := rfl
@[simp] theorem setTokphase_src (b : Bool) (s : State) : (setTokphase b s).src = s.src := rfl
@[simp] theorem setTokphase_snk (b : Bool) (s : State) : (setTokphase b s).snk = s.snk := rfl
@[simp] theorem setTokphase_dout (b : Bool) (s : State) : (setTokphase b s).dout = s.dout := rfl
@[simp] theorem setTokphase_cmds (b : Bool) (s : State) : (setTokphase b s).cmds = s.cmds := rfl
@[simp] theorem setTokphase_responses (b : Bool) (s : State) : (setTokphase b s).responses = s.responses := rfl
@[simp] theorem setTokphase_waiting (b : Bool) (s : State) : (setTokphase b s).waiting = s.waiting := rfl

/-! ## setEstate -/

@[simp] theorem setEstate_br (e : LzeState) (s : State) : (setEstate e s).br = s.br := rfl
@[simp] theorem setEstate_bw (e : LzeState) (s : State) : (setEstate e s).bw = s.bw := rfl
@[simp] theorem setEstate_huf (e : LzeState) (s : State) : (setEstate e s).huf = s.huf := rfl
@[simp] theorem setEstate_lzd (e : LzeState) (s : State) : (setEstate e s).lzd = s.lzd := rfl
@[simp] theorem setEstate_lze (e : LzeState) (s : State) : (setEstate e s).lze = { s.lze with estate := e } := rfl
@[simp] theorem setEstate_src (e : LzeState) (s : State) : (setEstate e s).src = s.src := rfl
@[simp] theorem setEstate_snk (e : LzeState) (s : State) : (setEstate e s).snk = s.snk := rfl
@[simp] theorem setEstate_dout (e : LzeState) (s : State) : (setEstate e s).dout = s.dout := rfl
@[simp] theorem setEstate_cmds (e : LzeState) (s : State) : (setEstate e s).cmds = s.cmds := rfl
@[simp] theorem setEstate_responses (e : LzeState) (s : State) : (setEstate e s).responses = s.responses := rfl
@[simp] theorem setEstate_waiting (e : LzeState) (s : State) : (setEstate e s).waiting = s.waiting := rfl

/-! ## SYS.RESET -/

@[simp] theorem resetUnits_br (s : State) : (s.resetUnits).br = s.br.initialised .msb := rfl
@[simp] theorem resetUnits_bw (s : State) : (s.resetUnits).bw = s.bw.initialised .msb := rfl
@[simp] theorem resetUnits_huf (s : State) : (s.resetUnits).huf = s.huf.cleared := rfl
@[simp] theorem resetUnits_lzd (s : State) : (s.resetUnits).lzd = s.lzd.initialised LzConfig.reset := rfl
@[simp] theorem resetUnits_lze (s : State) : (s.resetUnits).lze = Lze.initialised LzConfig.reset := rfl
@[simp] theorem resetUnits_src (s : State) : (s.resetUnits).src = s.src := rfl
@[simp] theorem resetUnits_snk (s : State) : (s.resetUnits).snk = s.snk := rfl
@[simp] theorem resetUnits_dout (s : State) : (s.resetUnits).dout = s.dout := rfl
@[simp] theorem resetUnits_cmds (s : State) : (s.resetUnits).cmds = s.cmds := rfl
@[simp] theorem resetUnits_responses (s : State) : (s.resetUnits).responses = s.responses := rfl
@[simp] theorem resetUnits_waiting (s : State) : (s.resetUnits).waiting = s.waiting := rfl

/-! ## settleCopy -/

@[simp] theorem settleCopy_br (s : State) : (settleCopy s).br = s.br := by
  unfold settleCopy; split <;> rfl
@[simp] theorem settleCopy_bw (s : State) : (settleCopy s).bw = s.bw := by
  unfold settleCopy; split <;> rfl
@[simp] theorem settleCopy_huf (s : State) : (settleCopy s).huf = s.huf := by
  unfold settleCopy; split <;> rfl
@[simp] theorem settleCopy_lze (s : State) : (settleCopy s).lze = s.lze := by
  unfold settleCopy; split <;> rfl
@[simp] theorem settleCopy_src (s : State) : (settleCopy s).src = s.src := by
  unfold settleCopy; split <;> rfl
@[simp] theorem settleCopy_snk (s : State) : (settleCopy s).snk = s.snk := by
  unfold settleCopy; split <;> rfl
@[simp] theorem settleCopy_dout (s : State) : (settleCopy s).dout = s.dout := by
  unfold settleCopy; split <;> rfl
@[simp] theorem settleCopy_cmds (s : State) : (settleCopy s).cmds = s.cmds := by
  unfold settleCopy; split <;> rfl
@[simp] theorem settleCopy_responses (s : State) : (settleCopy s).responses = s.responses := by
  unfold settleCopy; split <;> rfl
@[simp] theorem settleCopy_waiting (s : State) : (settleCopy s).waiting = s.waiting := by
  unfold settleCopy; split <;> rfl

theorem settleCopy_lzd (s : State) :
    (settleCopy s).lzd =
      if s.lzd.crem = 0 then { s.lzd with dstate := .ready } else s.lzd := by
  unfold settleCopy; split <;> rfl

/-! ## The ERR fields (R32) -/

@[simp] theorem setErr_src (s : State) (u : CodecUnit) (c : FaultCode) :
    (s.setErr u c).src = s.src := by cases u <;> rfl
@[simp] theorem setErr_snk (s : State) (u : CodecUnit) (c : FaultCode) :
    (s.setErr u c).snk = s.snk := by cases u <;> rfl
@[simp] theorem setErr_dout (s : State) (u : CodecUnit) (c : FaultCode) :
    (s.setErr u c).dout = s.dout := by cases u <;> rfl
@[simp] theorem setErr_cmds (s : State) (u : CodecUnit) (c : FaultCode) :
    (s.setErr u c).cmds = s.cmds := by cases u <;> rfl
@[simp] theorem setErr_responses (s : State) (u : CodecUnit) (c : FaultCode) :
    (s.setErr u c).responses = s.responses := by cases u <;> rfl
@[simp] theorem setErr_waiting (s : State) (u : CodecUnit) (c : FaultCode) :
    (s.setErr u c).waiting = s.waiting := by cases u <;> rfl

theorem setErr_br (s : State) (u : CodecUnit) (c : FaultCode) :
    (s.setErr u c).br = if u = .br then { s.br with err := some c } else s.br := by
  cases u <;> rfl

theorem setErr_bw (s : State) (u : CodecUnit) (c : FaultCode) :
    (s.setErr u c).bw = if u = .bw then { s.bw with err := some c } else s.bw := by
  cases u <;> rfl

theorem setErr_huf (s : State) (u : CodecUnit) (c : FaultCode) :
    (s.setErr u c).huf = if u = .huf then { s.huf with err := some c } else s.huf := by
  cases u <;> rfl

theorem setErr_lzd (s : State) (u : CodecUnit) (c : FaultCode) :
    (s.setErr u c).lzd = if u = .lzd then { s.lzd with err := some c } else s.lzd := by
  cases u <;> rfl

theorem setErr_lze (s : State) (u : CodecUnit) (c : FaultCode) :
    (s.setErr u c).lze = if u = .lze then { s.lze with err := some c } else s.lze := by
  cases u <;> rfl

@[simp] theorem err_setErr_self (s : State) (u : CodecUnit) (c : FaultCode) (h : u ≠ .sys) :
    (s.setErr u c).err u = some c := by
  cases u <;> first | rfl | exact absurd rfl h

@[simp] theorem err_setErr_ne (s : State) (u v : CodecUnit) (c : FaultCode) (h : v ≠ u) :
    (s.setErr u c).err v = s.err v := by
  cases u <;> cases v <;> first | rfl | exact absurd rfl h

theorem setErr_sys (s : State) (c : FaultCode) : s.setErr .sys c = s := rfl

@[simp] theorem err_answer (s : State) (u : CodecUnit) (r st : Word) :
    (s.answer r st).err u = s.err u := by cases u <;> rfl

@[simp] theorem err_respond (s : State) (u : CodecUnit) (r : Nat) :
    (s.respond r).err u = s.err u := by cases u <;> rfl

/-! ## Taking a fault (R222) -/

@[simp] theorem takeFault_src (s : State) (u v : CodecUnit) (c : FaultCode) :
    (s.takeFault u v c).src = s.src := by simp [State.takeFault]
@[simp] theorem takeFault_snk (s : State) (u v : CodecUnit) (c : FaultCode) :
    (s.takeFault u v c).snk = s.snk := by simp [State.takeFault]
@[simp] theorem takeFault_dout (s : State) (u v : CodecUnit) (c : FaultCode) :
    (s.takeFault u v c).dout = s.dout := by simp [State.takeFault]
@[simp] theorem takeFault_cmds (s : State) (u v : CodecUnit) (c : FaultCode) :
    (s.takeFault u v c).cmds = s.cmds := by simp [State.takeFault]
@[simp] theorem takeFault_waiting (s : State) (u v : CodecUnit) (c : FaultCode) :
    (s.takeFault u v c).waiting = s.waiting := by simp [State.takeFault]
@[simp] theorem takeFault_responses (s : State) (u v : CodecUnit) (c : FaultCode) :
    (s.takeFault u v c).responses = s.responses ++ [⟨0#32, c.num⟩] := by simp [State.takeFault]

/-- The ERR fields after a fault: the code in the detecting and in the commanding unit, the others as
they were (R222). -/
theorem err_takeFault (s : State) (u v w : CodecUnit) (c : FaultCode) :
    (s.takeFault u v c).err w =
      if w = .sys then none else if w = u ∨ w = v then some c else s.err w := by
  cases u <;> cases v <;> cases w <;> rfl

/-- Apart from its ERR field no unit changes when a fault is taken (R222). -/
theorem takeFault_br (s : State) (u v : CodecUnit) (c : FaultCode) :
    (s.takeFault u v c).br = { s.br with err := (s.takeFault u v c).err .br } := by
  cases u <;> cases v <;> rfl
theorem takeFault_bw (s : State) (u v : CodecUnit) (c : FaultCode) :
    (s.takeFault u v c).bw = { s.bw with err := (s.takeFault u v c).err .bw } := by
  cases u <;> cases v <;> rfl
theorem takeFault_huf (s : State) (u v : CodecUnit) (c : FaultCode) :
    (s.takeFault u v c).huf = { s.huf with err := (s.takeFault u v c).err .huf } := by
  cases u <;> cases v <;> rfl
theorem takeFault_lzd (s : State) (u v : CodecUnit) (c : FaultCode) :
    (s.takeFault u v c).lzd = { s.lzd with err := (s.takeFault u v c).err .lzd } := by
  cases u <;> cases v <;> rfl
theorem takeFault_lze (s : State) (u v : CodecUnit) (c : FaultCode) :
    (s.takeFault u v c).lze = { s.lze with err := (s.takeFault u v c).err .lze } := by
  cases u <;> cases v <;> rfl

/-! ## Units after one bit or one byte -/

@[simp] theorem shifted_mode (b : Br) : b.shifted.mode = b.mode := rfl
@[simp] theorem shifted_rbuf (b : Br) : b.shifted.rbuf = b.rbuf := rfl
@[simp] theorem shifted_rlen (b : Br) : b.shifted.rlen = b.rlen := rfl
@[simp] theorem shifted_rpos (b : Br) : b.shifted.rpos = b.rpos := rfl
@[simp] theorem shifted_rcnt (b : Br) : b.shifted.rcnt = b.rcnt - 1 := rfl
@[simp] theorem shifted_reof (b : Br) : b.shifted.reof = b.reof := rfl
@[simp] theorem shifted_rbits (b : Br) : b.shifted.rbits = b.rbits + 1#64 := rfl
@[simp] theorem shifted_rpull (b : Br) : b.shifted.rpull = b.rpull := rfl
@[simp] theorem shifted_err (b : Br) : b.shifted.err = b.err := rfl

@[simp] theorem withBit_mode (w : Bw) (b : Bool) : (w.withBit b).mode = w.mode := rfl
@[simp] theorem withBit_wbuf (w : Bw) (b : Bool) : (w.withBit b).wbuf = w.wbuf := rfl
@[simp] theorem withBit_wlen (w : Bw) (b : Bool) : (w.withBit b).wlen = w.wlen := rfl
@[simp] theorem withBit_wcnt (w : Bw) (b : Bool) : (w.withBit b).wcnt = w.wcnt + 1 := rfl
@[simp] theorem withBit_wbits (w : Bw) (b : Bool) : (w.withBit b).wbits = w.wbits + 1#64 := rfl
@[simp] theorem withBit_wpush (w : Bw) (b : Bool) : (w.withBit b).wpush = w.wpush := rfl
@[simp] theorem withBit_err (w : Bw) (b : Bool) : (w.withBit b).err = w.err := rfl

@[simp] theorem insert_cfg (d : Lzd) (b : Byte) : (d.insert b).cfg = d.cfg := rfl
@[simp] theorem insert_win (d : Lzd) (b : Byte) : (d.insert b).win = d.win.write d.wpos b := rfl
@[simp] theorem insert_wpos (d : Lzd) (b : Byte) :
    (d.insert b).wpos = (d.wpos + 1) % d.cfg.wsize := rfl
@[simp] theorem insert_filled (d : Lzd) (b : Byte) :
    (d.insert b).filled = min (d.filled + 1) d.cfg.wsize := rfl
@[simp] theorem insert_dstate (d : Lzd) (b : Byte) : (d.insert b).dstate = d.dstate := rfl
@[simp] theorem insert_tokphase (d : Lzd) (b : Byte) : (d.insert b).tokphase = d.tokphase := rfl
@[simp] theorem insert_csrc (d : Lzd) (b : Byte) : (d.insert b).csrc = d.csrc := rfl
@[simp] theorem insert_crem (d : Lzd) (b : Byte) : (d.insert b).crem = d.crem := rfl
@[simp] theorem insert_outcnt (d : Lzd) (b : Byte) : (d.insert b).outcnt = d.outcnt := rfl
@[simp] theorem insert_err (d : Lzd) (b : Byte) : (d.insert b).err = d.err := rfl

end Sys2Proof.Machine
end

