-- ==== Sys2Proof/Laws/Bits.lean ====
section
/-! SUPPORT. Bits in stream order, and the outcome of a primitive. -/

namespace Sys2Proof.Machine

/-! ## Outcomes -/

section Outcomes
variable {α β γ : Type}

@[simp] theorem bind_ok (a : α) (s : State) (f : α → State → Res β) :
    (Res.ok a s).bind f = f a s := rfl
@[simp] theorem bind_faulted (v : CodecUnit) (c : FaultCode) (s : State) (f : α → State → Res β) :
    (Res.faulted v c s).bind f = .faulted v c s := rfl
@[simp] theorem bind_waits (d : Stream) (s : State) (f : α → State → Res β) :
    (Res.waits d s : Res α).bind f = .waits d s := rfl

/-- Primitives compose associatively. -/
theorem bind_assoc (r : Res α) (f : α → State → Res β) (g : β → State → Res γ) :
    (r.bind f).bind g = r.bind fun a s => (f a s).bind g := by
  cases r <;> rfl

@[simp] theorem finish_ok (u : CodecUnit) (r : Nat) (s : State) :
    (Res.ok r s).finish u = .next (s.respond r) := rfl
@[simp] theorem finish_faulted (u v : CodecUnit) (c : FaultCode) (s : State) :
    (Res.faulted v c s).finish u = .next (s.takeFault u v c) := rfl
@[simp] theorem finish_waits (u : CodecUnit) (d : Stream) (s : State) :
    (Res.waits d s).finish u = .next { s with waiting := some d } := rfl

/-- The prologue of a unit whose ERR is set (R223). -/
theorem unlessSticky_some {u : CodecUnit} {s : State} {c : FaultCode} {run : State → Answer}
    (h : s.err u = some c) : unlessSticky u s run = .next (s.answer 0#32 c.num) := by
  simp [unlessSticky, h]

/-- The prologue of a unit whose ERR is clear (R225). -/
theorem unlessSticky_none {u : CodecUnit} {s : State} {run : State → Answer}
    (h : s.err u = none) : unlessSticky u s run = run s := by
  simp [unlessSticky, h]

end Outcomes

/-! ## Bits of a byte (R66) -/

@[simp] theorem length_byteBits (mode : BitOrder) (b : Byte) : (byteBits mode b).length = 8 := by
  simp [byteBits]

@[simp] theorem bytesBits_nil (mode : BitOrder) : bytesBits mode [] = [] := rfl

@[simp] theorem bytesBits_cons (mode : BitOrder) (b : Byte) (bs : List Byte) :
    bytesBits mode (b :: bs) = byteBits mode b ++ bytesBits mode bs := rfl

@[simp] theorem bytesBits_append (mode : BitOrder) (as bs : List Byte) :
    bytesBits mode (as ++ bs) = bytesBits mode as ++ bytesBits mode bs := by
  simp [bytesBits]

@[simp] theorem length_bytesBits (mode : BitOrder) (bs : List Byte) :
    (bytesBits mode bs).length = 8 * bs.length := by
  induction bs with
  | nil => rfl
  | cons b bs ih => simp [ih]; omega

@[simp] theorem streamBit_zero (mode : BitOrder) (k : Nat) : streamBit mode 0#8 k = false := by
  cases mode <;> simp [streamBit]

/-- There is no bit from position 8 on. -/
theorem streamBit_ge (mode : BitOrder) (b : Byte) {k : Nat} (h : 8 ≤ k) :
    streamBit mode b k = false := by
  cases mode <;> simp [streamBit, h]

/-! ## The reader's current byte -/

theorem nextBit_eq (b : Br) : b.nextBit = streamBit b.mode b.rcur 0 := by
  unfold Br.nextBit streamBit
  cases b.mode <;> simp [BitVec.getMsbD]

theorem streamBit_shifted (b : Br) (k : Nat) :
    streamBit b.mode b.shifted.rcur k = streamBit b.mode b.rcur (k + 1) := by
  unfold Br.shifted streamBit
  cases b.mode <;> simp [BitVec.getMsbD_shiftLeft, Nat.add_comm]

/-- Taking a bit takes the head of RCUR's bits (R131). -/
theorem curBits_shifted (b : Br) (h : b.rcnt ≠ 0) :
    b.curBits = b.nextBit :: b.shifted.curBits := by
  obtain ⟨n, hn⟩ := Nat.exists_eq_succ_of_ne_zero h
  simp only [Br.curBits, hn, List.range_succ_eq_map, List.map_cons, List.map_map, nextBit_eq,
    shifted_rcnt, shifted_mode, Nat.succ_sub_one]
  congr 1
  refine List.map_congr_left fun i _ => ?_
  simpa [Function.comp] using (streamBit_shifted b i).symm

end Sys2Proof.Machine
end

