-- ==== Sys2Proof/Laws/Memory.lean ====
section
/-! SUPPORT. The private memories: a write is read back, every other index reads as before, and every
operation keeps the canonical form, so that equal memories are equal data. -/

namespace Sys2Proof.Machine

variable {w : Nat}

/-! ## Entries -/

/-- Every index of the entries is above `k`. -/
def Above (k : Nat) (cs : List (Nat × BitVec w)) : Prop := ∀ c ∈ cs, k < c.1

theorem wfCells_cons {k : Nat} {v : BitVec w} {cs : List (Nat × BitVec w)} :
    wfCells ((k, v) :: cs) = true ↔ v ≠ Memory.unlisted ∧ Above k cs ∧ wfCells cs = true := by
  induction cs generalizing k v with
  | nil => simp [wfCells, Above]
  | cons c cs ih =>
    obtain ⟨k', v'⟩ := c
    have step : wfCells ((k, v) :: (k', v') :: cs) = true ↔
        v ≠ Memory.unlisted ∧ k < k' ∧ wfCells ((k', v') :: cs) = true := by
      simp [wfCells, and_assoc]
    rw [step, ih]
    constructor
    · rintro ⟨hv, hk, hv', ha, hw⟩
      refine ⟨hv, ?_, hv', ha, hw⟩
      intro c hc
      rcases List.mem_cons.1 hc with rfl | hc
      · exact hk
      · exact Nat.lt_trans hk (ha c hc)
    · rintro ⟨hv, ha, hv', ha', hw⟩
      exact ⟨hv, ha (k', v') (by simp), hv', ha', hw⟩

theorem readCells_above {k a : Nat} {cs : List (Nat × BitVec w)} (h : Above k cs) (ha : a ≤ k) :
    readCells cs a = Memory.unlisted := by
  induction cs with
  | nil => rfl
  | cons c cs ih =>
    obtain ⟨k', v⟩ := c
    have hk : k < k' := h (k', v) (by simp)
    rw [readCells, if_neg (by omega)]
    exact ih fun c hc => h c (by simp [hc])

theorem writeCells_above {k a : Nat} {v : BitVec w} {cs : List (Nat × BitVec w)} (h : Above k cs)
    (ha : k < a) : Above k (writeCells cs a v) := by
  induction cs with
  | nil =>
    intro c hc
    unfold writeCells at hc
    split at hc <;> simp at hc
    subst hc; exact ha
  | cons c cs ih =>
    obtain ⟨k', u⟩ := c
    have hk : k < k' := h (k', u) (by simp)
    have ht : Above k cs := fun c hc => h c (by simp [hc])
    intro c hc
    unfold writeCells at hc
    repeat' split at hc
    · exact h c hc
    · rcases List.mem_cons.1 hc with rfl | hc
      · exact ha
      · exact h c hc
    · exact ht c hc
    · rcases List.mem_cons.1 hc with rfl | hc
      · exact ha
      · exact ht c hc
    · rcases List.mem_cons.1 hc with rfl | hc
      · exact hk
      · exact ih ht c hc

theorem wfCells_write {a : Nat} {v : BitVec w} {cs : List (Nat × BitVec w)}
    (h : wfCells cs = true) : wfCells (writeCells cs a v) = true := by
  induction cs with
  | nil =>
    unfold writeCells
    split
    · rfl
    · simpa [wfCells] using ‹¬_›
  | cons c cs ih =>
    obtain ⟨k, u⟩ := c
    obtain ⟨hu, ha, hw⟩ := wfCells_cons.1 h
    unfold writeCells
    repeat' split
    · exact h
    · refine wfCells_cons.2 ⟨‹_›, ?_, h⟩
      intro c hc
      rcases List.mem_cons.1 hc with rfl | hc
      · assumption
      · exact Nat.lt_trans ‹_› (ha c hc)
    · exact hw
    · subst_vars; exact wfCells_cons.2 ⟨‹_›, ha, hw⟩
    · exact wfCells_cons.2 ⟨hu, writeCells_above ha (by omega), ih hw⟩

theorem readCells_write {a b : Nat} {v : BitVec w} {cs : List (Nat × BitVec w)}
    (h : wfCells cs = true) :
    readCells (writeCells cs a v) b = if b = a then v else readCells cs b := by
  induction cs with
  | nil =>
    unfold writeCells
    by_cases hv : v = Memory.unlisted
    · simp [hv, readCells]
    · simp only [if_neg hv, readCells, eq_comm (a := a)]
  | cons c cs ih =>
    obtain ⟨k, u⟩ := c
    obtain ⟨-, ha, hw⟩ := wfCells_cons.1 h
    have above : ∀ x, x ≤ k → readCells cs x = Memory.unlisted := fun x hx => readCells_above ha hx
    unfold writeCells
    by_cases hk : a < k
    · by_cases hv : v = Memory.unlisted
      · by_cases hb : b = a
        · simp [hk, hv, hb, readCells, above a (by omega), show ¬k = a by omega]
        · simp [hk, hv, hb]
      · by_cases hb : b = a
        · simp [hk, hv, hb, readCells]
        · simp [hk, hv, hb, readCells, Ne.symm hb]
    · by_cases he : a = k
      · subst he
        by_cases hv : v = Memory.unlisted
        · by_cases hb : b = a
          · simp [hv, hb, above a (by omega)]
          · simp [hv, hb, readCells, Ne.symm hb]
        · by_cases hb : b = a
          · simp [hv, hb, readCells]
          · simp [hv, hb, readCells, Ne.symm hb]
      · rw [if_neg hk, if_neg he]
        by_cases hb : b = a
        · subst hb
          simp [readCells, show ¬k = b by omega, ih hw]
        · simp [readCells, ih hw, hb]

/-- Entries in canonical form that read alike are the same entries. -/
theorem cells_ext {cs ds : List (Nat × BitVec w)} (hc : wfCells cs = true) (hd : wfCells ds = true)
    (h : ∀ a, readCells cs a = readCells ds a) : cs = ds := by
  induction cs generalizing ds with
  | nil =>
    cases ds with
    | nil => rfl
    | cons d ds =>
      obtain ⟨k, v⟩ := d
      have := h k
      simp only [readCells, if_true] at this
      exact absurd this.symm (wfCells_cons.1 hd).1
  | cons c cs ih =>
    obtain ⟨k, v⟩ := c
    obtain ⟨hv, ha, hw⟩ := wfCells_cons.1 hc
    cases ds with
    | nil =>
      have := h k
      simp only [readCells, if_true] at this
      exact absurd this hv
    | cons d ds =>
      obtain ⟨k', v'⟩ := d
      obtain ⟨hv', ha', hw'⟩ := wfCells_cons.1 hd
      have hk : k = k' := by
        rcases Nat.lt_trichotomy k k' with hlt | heq | hgt
        · have := h k
          rw [readCells, if_pos rfl, readCells, if_neg (by omega),
            readCells_above ha' (by omega)] at this
          exact absurd this hv
        · exact heq
        · have := h k'
          rw [readCells, if_neg (by omega), readCells_above ha (by omega), readCells,
            if_pos rfl] at this
          exact absurd this.symm hv'
      subst hk
      have hvv : v = v' := by simpa [readCells] using h k
      subst hvv
      congr 1
      refine ih hw hw' fun a => ?_
      by_cases hak : a ≤ k
      · rw [readCells_above ha hak, readCells_above ha' hak]
      · simpa [readCells, show ¬k = a by omega] using h a

/-! ## Memories -/

@[simp] theorem wf_empty : (Memory.empty : Memory w).wf = true := rfl
@[simp] theorem read_empty (a : Nat) : (Memory.empty : Memory w).read a = 0#w := rfl

/-- Every write keeps the canonical form. -/
@[simp] theorem wf_write {m : Memory w} {a : Nat} {v : BitVec w} (h : m.wf = true) :
    (m.write a v).wf = true := wfCells_write h

/-- What a write leaves: the value at its index, everything else as before. -/
theorem read_write {m : Memory w} (h : m.wf = true) (a b : Nat) (v : BitVec w) :
    (m.write a v).read b = if b = a then v else m.read b := readCells_write h

@[simp] theorem read_write_same {m : Memory w} (h : m.wf = true) (a : Nat) (v : BitVec w) :
    (m.write a v).read a = v := by rw [read_write h, if_pos rfl]

theorem read_write_other {m : Memory w} (h : m.wf = true) {a b : Nat} (v : BitVec w)
    (hb : b ≠ a) : (m.write a v).read b = m.read b := by rw [read_write h, if_neg hb]

/-- Memories in canonical form that read alike are equal. -/
theorem memory_ext {m n : Memory w} (hm : m.wf = true) (hn : n.wf = true)
    (h : ∀ a, m.read a = n.read a) : m = n := by
  cases m; cases n
  exact congrArg Memory.mk (cells_ext hm hn h)

/-- Writing what an index holds changes nothing. -/
theorem write_read {m : Memory w} (h : m.wf = true) (a : Nat) : m.write a (m.read a) = m :=
  memory_ext (wf_write h) h fun b => by
    rw [read_write h]; split <;> simp_all

@[simp] theorem wf_writeList {m : Memory w} {a : Nat} {vs : List (BitVec w)} (h : m.wf = true) :
    (m.writeList a vs).wf = true := by
  induction vs generalizing m a with
  | nil => exact h
  | cons v vs ih => exact ih (wf_write h)

/-- What consecutive writes leave. -/
theorem read_writeList {m : Memory w} (h : m.wf = true) (a b : Nat) (vs : List (BitVec w)) :
    (m.writeList a vs).read b =
      if a ≤ b ∧ b < a + vs.length then vs.getD (b - a) 0#w else m.read b := by
  induction vs generalizing m a with
  | nil =>
    rw [if_neg (by simp only [List.length_nil]; omega)]; rfl
  | cons v vs ih =>
    rw [Memory.writeList, ih (wf_write h), read_write h]
    simp only [List.length_cons]
    by_cases h1 : b = a
    · subst h1
      rw [if_neg (by omega), if_pos rfl, if_pos (by omega)]; simp
    · by_cases h2 : a + 1 ≤ b ∧ b < a + 1 + vs.length
      · rw [if_pos h2, if_pos (by omega)]
        obtain ⟨n, rfl⟩ : ∃ n, b = a + 1 + n := ⟨b - (a + 1), by omega⟩
        simp [show a + 1 + n - (a + 1) = n by omega, show a + 1 + n - a = n + 1 by omega]
      · rw [if_neg h2, if_neg h1, if_neg (by omega)]

@[simp] theorem length_readList (m : Memory w) (a n : Nat) : (m.readList a n).length = n := by
  simp [Memory.readList]

@[simp] theorem readList_zero (m : Memory w) (a : Nat) : m.readList a 0 = [] := rfl

theorem readList_succ (m : Memory w) (a n : Nat) :
    m.readList a (n + 1) = m.read a :: m.readList (a + 1) n := by
  simp only [Memory.readList, List.range_succ_eq_map, List.map_cons, List.map_map, Nat.add_zero]
  congr 1
  refine List.map_congr_left fun i _ => ?_
  simp only [Function.comp, Nat.succ_eq_add_one]
  rw [Nat.add_right_comm, Nat.add_assoc]

theorem readList_succ_last (m : Memory w) (a n : Nat) :
    m.readList a (n + 1) = m.readList a n ++ [m.read (a + n)] := by
  simp [Memory.readList, List.range_succ]

/-- Reading back a block that has just been written. -/
theorem readList_writeList {m : Memory w} (h : m.wf = true) (a : Nat) (vs : List (BitVec w)) :
    (m.writeList a vs).readList a vs.length = vs := by
  refine List.ext_getElem (by simp) fun i h1 h2 => ?_
  simp only [Memory.readList, List.getElem_map, List.getElem_range]
  rw [read_writeList h, if_pos (by omega), Nat.add_sub_cancel_left]
  simp [List.getD_eq_getElem?_getD, h2]

/-- A write outside a block does not change the block. -/
theorem readList_write_other {m : Memory w} (h : m.wf = true) {a b n : Nat} (v : BitVec w)
    (hb : b < a ∨ a + n ≤ b) : (m.write b v).readList a n = m.readList a n := by
  refine List.map_congr_left fun i hi => ?_
  have := List.mem_range.1 hi
  exact read_write_other h v (by omega)

/-! ## Capacity -/

theorem below_iff {m : Memory w} {cap : Nat} :
    m.below cap = true ↔ ∀ c ∈ m.cells, c.1 < cap := by
  simp [Memory.below]

theorem mem_writeCells {a : Nat} {v : BitVec w} {cs : List (Nat × BitVec w)}
    {c : Nat × BitVec w} (h : c ∈ writeCells cs a v) : c.1 = a ∨ c ∈ cs := by
  induction cs with
  | nil =>
    unfold writeCells at h
    split at h <;> simp at h
    simp [h]
  | cons d cs ih =>
    obtain ⟨k, u⟩ := d
    unfold writeCells at h
    repeat' split at h
    · exact .inr h
    · rcases List.mem_cons.1 h with rfl | h
      · exact .inl rfl
      · exact .inr h
    · exact .inr (by simp [h])
    · rcases List.mem_cons.1 h with rfl | h
      · exact .inl rfl
      · exact .inr (by simp [h])
    · rcases List.mem_cons.1 h with rfl | h
      · exact .inr (by simp)
      · rcases ih h with h | h
        · exact .inl h
        · exact .inr (by simp [h])

theorem below_write {m : Memory w} {a cap : Nat} {v : BitVec w} (h : m.below cap = true)
    (ha : a < cap) : (m.write a v).below cap = true := by
  rw [below_iff] at h ⊢
  intro c hc
  rcases mem_writeCells hc with hc | hc
  · omega
  · exact h c hc

theorem below_writeList {m : Memory w} {a cap : Nat} {vs : List (BitVec w)}
    (h : m.below cap = true) (ha : a + vs.length ≤ cap) : (m.writeList a vs).below cap = true := by
  induction vs generalizing m a with
  | nil => exact h
  | cons v vs ih =>
    simp only [List.length_cons] at ha
    exact ih (below_write h (by omega)) (by omega)

/-! ## The reset memories -/

/-- Every private memory of the reset state is in canonical form. -/
theorem reset_memories_wf :
    State.reset.br.rbuf.wf = true ∧ State.reset.bw.wbuf.wf = true ∧
      State.reset.huf.len.wf = true ∧ State.reset.huf.freq.wf = true ∧
      State.reset.huf.count.wf = true ∧ State.reset.huf.first.wf = true ∧
      State.reset.huf.base.wf = true ∧ State.reset.huf.sorted.wf = true ∧
      State.reset.huf.code.wf = true ∧ State.reset.lzd.win.wf = true := by decide

end Sys2Proof.Machine
end

