-- ==== Sys2Proof/Laws/Reader.lean ====
section
/-! SUPPORT. What GetBit can do, said once (R131), and the abstract reader of R42. -/

namespace Sys2Proof.Machine

open Config

/-! ## SRC -/

theorem nextChunk_none {max : Nat} {ps : List (List Byte)} (h : nextChunk max ps = none) :
    ps.flatten = [] := by
  induction ps with
  | nil => rfl
  | cons c cs ih =>
    cases c with
    | nil => simpa using ih h
    | cons b bs => simp [nextChunk] at h

/-- What one SrcRead delivers: at least one byte, at most `max`, from the front of what is left
(R61). -/
theorem nextChunk_some {max : Nat} {ps rest : List (List Byte)} {bs : List Byte}
    (h : nextChunk max ps = some (bs, rest)) (hm : 0 < max) :
    bs ≠ [] ∧ bs.length ≤ max ∧ bs ++ rest.flatten = ps.flatten := by
  induction ps with
  | nil => simp [nextChunk] at h
  | cons c cs ih =>
    cases c with
    | nil => simpa using ih h
    | cons b cs' =>
      simp only [nextChunk, Option.some.injEq, Prod.mk.injEq] at h
      obtain ⟨rfl, rfl⟩ := h
      refine ⟨?_, List.length_take_le _ _, ?_⟩
      · obtain ⟨n, rfl⟩ := Nat.exists_eq_succ_of_ne_zero (by omega : max ≠ 0)
        simp
      · rw [List.flatten_cons, ← List.append_assoc, List.take_append_drop, List.flatten_cons]

/-! ## GetBit -/

/-- The state after a refill that delivered `bs` and left `rest` (R131). -/
def refilled (s : State) (bs : List Byte) (rest : List (List Byte)) : State :=
  { s with
    src := { s.src with
      delivered := s.src.delivered ++ bs, pending := rest, calls := s.src.calls + 1 }
    br := { s.br with
      rbuf := s.br.rbuf.writeList 0 bs
      rlen := bs.length
      rpos := 0
      rpull := s.br.rpull + BitVec.ofNat 64 bs.length } }

/-- The state after a SrcRead that delivered nothing. -/
def asked (s : State) : State := { s with src := { s.src with calls := s.src.calls + 1 } }

/-- The state after the bit at hand has been taken. -/
def taken (s : State) : State := { s with br := s.br.shifted }

/-- Everything GetBit can do (R131), in the order its rule tests it. -/
inductive GetBitCase (s : State) : Res Bool → Prop
  | sticky (c : FaultCode) : s.br.err = some c → GetBitCase s (.faulted .br c s)
  | atHand : s.br.err = none → s.br.rcnt ≠ 0 → GetBitCase s (.ok s.br.nextBit (taken s))
  | loaded : s.br.err = none → s.br.rcnt = 0 → s.br.rpos ≠ s.br.rlen →
      GetBitCase s (.ok (loadCur s).br.nextBit (taken (loadCur s)))
  | ended : s.br.err = none → s.br.rcnt = 0 → s.br.rpos = s.br.rlen → s.br.reof = true →
      GetBitCase s (.faulted .br .eos s)
  | refill (bs : List Byte) (rest : List (List Byte)) :
      s.br.err = none → s.br.rcnt = 0 → s.br.rpos = s.br.rlen → s.br.reof = false →
      nextChunk BUFSZ s.src.pending = some (bs, rest) →
      GetBitCase s (.ok (loadCur (refilled s bs rest)).br.nextBit
        (taken (loadCur (refilled s bs rest))))
  | eof : s.br.err = none → s.br.rcnt = 0 → s.br.rpos = s.br.rlen → s.br.reof = false →
      nextChunk BUFSZ s.src.pending = none → s.src.ending = .eof →
      GetBitCase s (.faulted .br .eos { asked s with br := { s.br with reof := true } })
  | err : s.br.err = none → s.br.rcnt = 0 → s.br.rpos = s.br.rlen → s.br.reof = false →
      nextChunk BUFSZ s.src.pending = none → s.src.ending = .err →
      GetBitCase s (.faulted .br .src (asked s))
  | silent : s.br.err = none → s.br.rcnt = 0 → s.br.rpos = s.br.rlen → s.br.reof = false →
      nextChunk BUFSZ s.src.pending = none → s.src.ending = .silent →
      GetBitCase s (.waits .src (asked s))

theorem getBit_cases (s : State) : GetBitCase s (getBit s) := by
  unfold getBit
  cases he : s.br.err with
  | some c => exact .sticky c he
  | none =>
    by_cases hc : s.br.rcnt = 0
    · by_cases hp : s.br.rpos = s.br.rlen
      · cases hr : s.br.reof with
        | true => simpa [fetchBits, hc, hp, refill, hr] using GetBitCase.ended he hc hp hr
        | false =>
          cases hn : nextChunk BUFSZ s.src.pending with
          | some p =>
            obtain ⟨bs, rest⟩ := p
            have hf : fetchBits s = .ok () (loadCur (refilled s bs rest)) := by
              unfold fetchBits refill srcRead
              rw [if_pos hc, if_pos hp, if_neg (by simp [hr]), hn]
              rfl
            rw [hf]
            exact GetBitCase.refill bs rest he hc hp hr hn
          | none =>
            cases hg : s.src.ending with
            | eof =>
              simpa [fetchBits, hc, hp, refill, hr, srcRead, hn, hg, SrcEnd.answer, asked] using
                GetBitCase.eof he hc hp hr hn hg
            | err =>
              simpa [fetchBits, hc, hp, refill, hr, srcRead, hn, hg, SrcEnd.answer, asked] using
                GetBitCase.err he hc hp hr hn hg
            | silent =>
              simpa [fetchBits, hc, hp, refill, hr, srcRead, hn, hg, SrcEnd.answer, asked] using
                GetBitCase.silent he hc hp hr hn hg
      · simpa [fetchBits, hc, hp, taken] using GetBitCase.loaded he hc hp
    · simpa [fetchBits, hc, taken] using GetBitCase.atHand he hc

/-! ## The abstract reader (R42) -/

theorem aheadBytes_step {b : Br} (h : b.rpos < b.rlen) :
    b.aheadBytes = b.rbuf.read b.rpos :: { b with rpos := b.rpos + 1 }.aheadBytes := by
  unfold Br.aheadBytes
  obtain ⟨n, hn⟩ : ∃ n, b.rlen - b.rpos = n + 1 := ⟨b.rlen - b.rpos - 1, by omega⟩
  rw [hn, readList_succ]
  simp only
  rw [show b.rlen - (b.rpos + 1) = n by omega]

theorem curBits_loadCur (s : State) :
    (loadCur s).br.curBits = byteBits s.br.mode (s.br.rbuf.read s.br.rpos) := rfl

/-- Loading a byte moves it from the bytes ahead to RCUR and changes no bit still to be read. -/
theorem readerBits_loadCur {s : State} (hc : s.br.rcnt = 0) (hp : s.br.rpos < s.br.rlen) :
    (loadCur s).readerBits = s.readerBits := by
  unfold State.readerBits State.unreadBytes
  rw [curBits_loadCur, aheadBytes_step hp]
  simp only [Br.curBits, hc, List.range_zero, List.map_nil, List.nil_append, bytesBits_append,
    List.cons_append, bytesBits_cons]
  rfl

/-- Refilling moves bytes from SRC to RBUF and changes no bit still to be read. -/
theorem readerBits_refilled {s : State} {bs : List Byte} {rest : List (List Byte)}
    (hw : s.br.rbuf.wf = true) (hp : s.br.rpos = s.br.rlen) (hr : s.br.reof = false)
    (hn : nextChunk BUFSZ s.src.pending = some (bs, rest)) :
    (refilled s bs rest).readerBits = s.readerBits := by
  obtain ⟨-, -, hf⟩ := nextChunk_some hn (by decide)
  unfold State.readerBits State.unreadBytes
  have : (refilled s bs rest).br.aheadBytes = bs := by
    simp [Br.aheadBytes, refilled, readList_writeList hw]
  rw [this]
  simp [refilled, hr, Br.curBits, Br.aheadBytes, hp, hf]

/-- Taking the bit at hand takes the head of the bits still to be read. -/
theorem readerBits_taken {s : State} (hc : s.br.rcnt ≠ 0) :
    s.readerBits = s.br.nextBit :: (taken s).readerBits := by
  unfold State.readerBits
  rw [curBits_shifted _ hc]
  rfl

/-- What GetBit leaves alone: everything but BR and SRC, and of those the mode, the flags, the SRC
content and its end. -/
structure ReadFrame (s t : State) : Prop where
  rest : t = { s with br := t.br, src := t.src }
  mode : t.br.mode = s.br.mode
  reof : t.br.reof = s.br.reof
  err : t.br.err = s.br.err
  content : t.src.content = s.src.content
  delivered : s.src.delivered <+: t.src.delivered
  ending : t.src.ending = s.src.ending

theorem ReadFrame.refl (s : State) : ReadFrame s s :=
  ⟨rfl, rfl, rfl, rfl, rfl, List.prefix_refl _, rfl⟩

theorem ReadFrame.trans {s t u : State} (h : ReadFrame s t) (k : ReadFrame t u) :
    ReadFrame s u := by
  refine ⟨?_, k.mode.trans h.mode, k.reof.trans h.reof, k.err.trans h.err,
    k.content.trans h.content, h.delivered.trans k.delivered, k.ending.trans h.ending⟩
  rw [k.rest, h.rest]

theorem readFrame_taken (s : State) : ReadFrame s (taken s) :=
  ⟨rfl, rfl, rfl, rfl, rfl, List.prefix_refl _, rfl⟩

theorem readFrame_loadCur (s : State) : ReadFrame s (loadCur s) :=
  ⟨rfl, rfl, rfl, rfl, rfl, List.prefix_refl _, rfl⟩

theorem readFrame_refilled {s : State} {bs : List Byte} {rest : List (List Byte)}
    (hn : nextChunk BUFSZ s.src.pending = some (bs, rest)) :
    ReadFrame s (refilled s bs rest) := by
  obtain ⟨-, -, hf⟩ := nextChunk_some hn (by decide)
  refine ⟨rfl, rfl, rfl, rfl, ?_, List.prefix_append _ _, rfl⟩
  simp [Src.content, refilled, ← hf]

/-- A GetBit that answers a bit answers the next one and consumes it; nothing but BR and SRC
changes. -/
theorem getBit_ok {s t : State} {b : Bool} (hw : s.br.rbuf.wf = true)
    (hp : s.br.rpos ≤ s.br.rlen) (h : getBit s = .ok b t) :
    s.br.err = none ∧ ReadFrame s t ∧ s.readerBits = b :: t.readerBits ∧
      t.br.rbits = s.br.rbits + 1#64 := by
  have hcase := getBit_cases s
  rw [h] at hcase
  cases hcase with
  | atHand he hc => exact ⟨he, readFrame_taken s, readerBits_taken hc, rfl⟩
  | loaded he hc hne =>
    refine ⟨he, (readFrame_loadCur s).trans (readFrame_taken _), ?_, rfl⟩
    rw [← readerBits_loadCur hc (by omega)]
    exact readerBits_taken (by simp)
  | refill bs rest he hc hpe hr hn =>
    refine ⟨he, ((readFrame_refilled hn).trans (readFrame_loadCur _)).trans (readFrame_taken _),
      ?_, rfl⟩
    obtain ⟨hne, -, -⟩ := nextChunk_some hn (by decide)
    rw [← readerBits_refilled hw hpe hr hn, ← readerBits_loadCur (s := refilled s bs rest) hc
      (by simpa [refilled, List.length_pos_iff] using hne)]
    exact readerBits_taken (by simp)

/-! ## The invariant of R24 -/

theorem ofNat64_add (a b : Nat) :
    BitVec.ofNat 64 (a + b) = BitVec.ofNat 64 a + BitVec.ofNat 64 b := by
  simp [BitVec.ofNat_add]

theorem inv_taken {s : State} (h : s.br.Inv) (hc : s.br.rcnt ≠ 0) : (taken s).br.Inv where
  canonical := h.canonical
  bounded := h.bounded
  posLe := h.posLe
  lenLe := h.lenLe
  cntLe := by have := h.cntLe; simp [taken]; omega
  spentZero := by
    intro k hk hle
    simp only [taken, shifted_mode, streamBit_shifted]
    simp only [taken, shifted_rcnt] at hle
    by_cases h8 : k + 1 < 8
    · exact h.spentZero (k + 1) h8 (by omega)
    · exact streamBit_ge _ _ (by omega)
  balance := by
    have hb := h.balance
    simp only [taken, shifted_rbits, shifted_rcnt, shifted_rlen, shifted_rpos, shifted_rpull]
    rw [← hb]
    obtain ⟨n, hn⟩ := Nat.exists_eq_succ_of_ne_zero hc
    rw [hn, Nat.succ_sub_one, show n.succ + 8 * (s.br.rlen - s.br.rpos) =
      1 + (n + 8 * (s.br.rlen - s.br.rpos)) by omega, ofNat64_add 1, BitVec.add_assoc]
  eofFailed := h.eofFailed

/-- BR with a byte just loaded and its first bit taken keeps R24. -/
theorem inv_loaded {s : State} (h : s.br.Inv) (hc : s.br.rcnt = 0) (hp : s.br.rpos < s.br.rlen) :
    (taken (loadCur s)).br.Inv where
  canonical := h.canonical
  bounded := h.bounded
  posLe := by simpa [taken] using hp
  lenLe := h.lenLe
  cntLe := by simp [taken]
  spentZero := by
    intro k hk hle
    simp only [taken, shifted_mode, streamBit_shifted]
    simp only [taken, shifted_rcnt, loadCur_br] at hle
    exact streamBit_ge _ _ (by omega)
  balance := by
    have hb := h.balance
    simp only [taken, loadCur_br, shifted_rbits, shifted_rcnt, shifted_rlen, shifted_rpos,
      shifted_rpull]
    rw [← hb, hc]
    rw [show 0 + 8 * (s.br.rlen - s.br.rpos) =
      1 + (8 - 1 + 8 * (s.br.rlen - (s.br.rpos + 1))) by omega, ofNat64_add 1, BitVec.add_assoc]
  eofFailed := h.eofFailed

theorem inv_refilled {s : State} {bs : List Byte} {rest : List (List Byte)} (h : s.br.Inv)
    (hc : s.br.rcnt = 0) (hp : s.br.rpos = s.br.rlen)
    (hn : nextChunk BUFSZ s.src.pending = some (bs, rest)) : (refilled s bs rest).br.Inv where
  canonical := wf_writeList h.canonical
  bounded := below_writeList h.bounded (by simpa using (nextChunk_some hn (by decide)).2.1)
  posLe := Nat.zero_le _
  lenLe := (nextChunk_some hn (by decide)).2.1
  cntLe := h.cntLe
  spentZero := h.spentZero
  balance := by
    have hb := h.balance
    simp only [refilled]
    rw [hc, hp] at hb
    simp only [Nat.sub_self, Nat.mul_zero, Nat.add_zero,
      BitVec.add_zero] at hb
    rw [hb, hc, Nat.zero_add, Nat.sub_zero, BitVec.mul_add, BitVec.ofNat_mul]
  eofFailed := h.eofFailed

/-- However GetBit ends, R24 holds of the state it leaves, once a fault is latched. -/
theorem getBit_inv {s : State} (h : s.br.Inv) :
    match getBit s with
    | .ok _ t => t.br.Inv
    | .faulted _ c t => { t.br with err := some c }.Inv
    | .waits _ t => t.br.Inv := by
  have hcase := getBit_cases s
  generalize getBit s = r at hcase
  cases hcase with
  | sticky c he =>
    show ({ s.br with err := some c } : Br).Inv
    rw [← he]; exact h
  | atHand he hc => exact inv_taken h hc
  | loaded he hc hne => exact inv_loaded h hc (by have := h.posLe; omega)
  | ended he hc hp hr => exact { h with eofFailed := fun _ => rfl }
  | refill bs rest he hc hp hr hn =>
    obtain ⟨hne, -, -⟩ := nextChunk_some hn (by decide)
    exact inv_loaded (inv_refilled h hc hp hn) hc
      (by simpa [refilled, List.length_pos_iff] using hne)
  | eof he hc hp hr hn hg => exact { h with eofFailed := fun _ => rfl }
  | err he hc hp hr hn hg =>
    exact { h with eofFailed := fun hr' => by simp [asked, hr] at hr' }
  | silent he hc hp hr hn hg => exact h

/-! ## Several bits -/

/-- With a bit still to be read and no sticky error GetBit answers it. -/
theorem getBit_next {s : State} {b : Bool} {rest : List Bool} (he : s.br.err = none)
    (hi : s.br.Inv) (h : s.readerBits = b :: rest) :
    ∃ t, getBit s = .ok b t ∧ ReadFrame s t ∧ t.readerBits = rest ∧ t.br.Inv ∧
      t.br.rbits = s.br.rbits + 1#64 := by
  have hinv := getBit_inv hi
  have hcase := getBit_cases s
  have hok : ∃ b' t, getBit s = .ok b' t := by
    generalize getBit s = r at hcase
    have empty : s.br.rcnt = 0 → s.br.rpos = s.br.rlen → s.src.pending.flatten = [] →
        s.readerBits = [] := by
      intro hc hp hf
      simp [State.readerBits, State.unreadBytes, Br.curBits, hc, Br.aheadBytes, hp, hf]
    cases hcase with
    | sticky c he' => rw [he] at he'; exact absurd he' (by simp)
    | atHand => exact ⟨_, _, rfl⟩
    | loaded => exact ⟨_, _, rfl⟩
    | refill => exact ⟨_, _, rfl⟩
    | ended _ _ _ hr => rw [hi.eofFailed hr] at he; exact absurd he (by simp)
    | eof _ hc hp _ hn => rw [empty hc hp (nextChunk_none hn)] at h; exact absurd h (by simp)
    | err _ hc hp _ hn => rw [empty hc hp (nextChunk_none hn)] at h; exact absurd h (by simp)
    | silent _ hc hp _ hn => rw [empty hc hp (nextChunk_none hn)] at h; exact absurd h (by simp)
  obtain ⟨b', t, ht⟩ := hok
  obtain ⟨-, hf, hb, hr⟩ := getBit_ok hi.canonical hi.posLe ht
  rw [h] at hb
  obtain ⟨rfl, rfl⟩ := List.cons.inj hb
  rw [ht] at hinv
  exact ⟨t, ht, hf, rfl, hinv, hr⟩

/-- With `n` bits still to be read and no sticky error, `n` calls of GetBit answer them. -/
theorem getBits_next {s : State} {bs rest : List Bool} (he : s.br.err = none) (hi : s.br.Inv)
    (h : s.readerBits = bs ++ rest) :
    ∃ t, getBits bs.length s = .ok bs t ∧ ReadFrame s t ∧ t.readerBits = rest ∧ t.br.Inv ∧
      t.br.rbits = s.br.rbits + BitVec.ofNat 64 bs.length := by
  induction bs generalizing s with
  | nil => exact ⟨s, rfl, .refl s, h, hi, by simp⟩
  | cons b bs ih =>
    obtain ⟨t, ht, hf, hr, hit, hn⟩ := getBit_next he hi h
    obtain ⟨u, hu, hfu, hru, hiu, hnu⟩ := ih (hf.err.trans he) hit hr
    refine ⟨u, ?_, hf.trans hfu, hru, hiu, ?_⟩
    · simp [getBits, ht, hu]
    · rw [hnu, hn, List.length_cons, Nat.add_comm bs.length, ofNat64_add 1, BitVec.add_assoc]

end Sys2Proof.Machine
end

