-- ==== Sys2Proof/Laws/Writer.lean ====
section
/-! SUPPORT. What Drain, EmitByte, PutBit and Flush can do, said once (R138 to R141), and the abstract
writer of R43. -/

namespace Sys2Proof.Machine

open Config

/-! ## Drain -/

/-- SNK after a call that has taken the next answer. -/
def Snk.asked (k : Snk) : Snk := { k with answers := k.answers.tail, calls := k.calls + 1 }

/-- The state after a Drain that SNK accepted (R140). -/
def drained (s : State) : State :=
  { s with
    snk := { s.snk.asked with accepted := s.snk.accepted ++ [s.bw.heldBytes] }
    bw := { s.bw with wpush := s.bw.wpush + BitVec.ofNat 64 s.bw.wlen, wlen := 0 } }

/-- The state after a SnkWrite that was not accepted. -/
def offered (s : State) : State := { s with snk := s.snk.asked }

/-- Everything Drain can do (R140). -/
inductive DrainCase (s : State) : Res Unit → Prop
  | empty : s.bw.wlen = 0 → DrainCase s (.ok () s)
  | ok : 0 < s.bw.wlen → s.snk.answer = .ok → DrainCase s (.ok () (drained s))
  | err : 0 < s.bw.wlen → s.snk.answer = .err → DrainCase s (.faulted .bw .snk (offered s))
  | silent : 0 < s.bw.wlen → s.snk.answer = .silent → DrainCase s (.waits .snk (offered s))

theorem drain_cases (s : State) : DrainCase s (drain s) := by
  unfold drain
  by_cases hl : 0 < s.bw.wlen
  · rw [if_pos hl]
    unfold snkWrite
    cases ha : s.snk.answer with
    | ok => exact .ok hl ha
    | err => exact .err hl ha
    | silent => exact .silent hl ha
  · rw [if_neg hl]
    exact .empty (by omega)

/-! ## PutBit -/

/-- The state after a bit has been placed in WCUR (R138). -/
def placed (b : Bool) (s : State) : State := { s with bw := s.bw.withBit b }

/-- Everything PutBit can do (R138, R140). -/
inductive PutBitCase (b : Bool) (s : State) : Res Unit → Prop
  | sticky (c : FaultCode) : s.bw.err = some c → PutBitCase b s (.faulted .bw c s)
  | partly : s.bw.err = none → s.bw.wcnt + 1 ≠ 8 → PutBitCase b s (.ok () (placed b s))
  | byte : s.bw.err = none → s.bw.wcnt + 1 = 8 → s.bw.wlen + 1 ≠ BUFSZ →
      PutBitCase b s (.ok () (appendCur (placed b s)))
  | block (r : Res Unit) : s.bw.err = none → s.bw.wcnt + 1 = 8 → s.bw.wlen + 1 = BUFSZ →
      DrainCase (appendCur (placed b s)) r → PutBitCase b s r

theorem putBit_cases (b : Bool) (s : State) : PutBitCase b s (putBit b s) := by
  unfold putBit
  cases he : s.bw.err with
  | some c => exact .sticky c he
  | none =>
    by_cases h8 : s.bw.wcnt + 1 = 8
    · by_cases hl : s.bw.wlen + 1 = BUFSZ
      · simpa [h8, emitByte, hl, placed] using PutBitCase.block _ he h8 hl (drain_cases _)
      · simpa [h8, emitByte, hl, placed] using PutBitCase.byte he h8 hl
    · simpa [h8, placed] using PutBitCase.partly he h8

/-! ## The abstract writer (R43) -/

/-- What the writer leaves alone: everything but BW and SNK, and of BW the mode and ERR. -/
structure WriteFrame (s t : State) : Prop where
  rest : t = { s with bw := t.bw, snk := t.snk }
  mode : t.bw.mode = s.bw.mode
  err : t.bw.err = s.bw.err
  accepted : s.snk.accepted <+: t.snk.accepted

theorem WriteFrame.refl (s : State) : WriteFrame s s := ⟨rfl, rfl, rfl, List.prefix_refl _⟩

theorem WriteFrame.trans {s t u : State} (h : WriteFrame s t) (k : WriteFrame t u) :
    WriteFrame s u := by
  refine ⟨?_, k.mode.trans h.mode, k.err.trans h.err, h.accepted.trans k.accepted⟩
  rw [k.rest, h.rest]

theorem writeFrame_placed (b : Bool) (s : State) : WriteFrame s (placed b s) :=
  ⟨rfl, rfl, rfl, List.prefix_refl _⟩

theorem writeFrame_appendCur (s : State) : WriteFrame s (appendCur s) :=
  ⟨rfl, rfl, rfl, List.prefix_refl _⟩

theorem writeFrame_drained (s : State) : WriteFrame s (drained s) :=
  ⟨rfl, rfl, rfl, List.prefix_append _ _⟩

theorem writeFrame_offered (s : State) : WriteFrame s (offered s) :=
  ⟨rfl, rfl, rfl, List.prefix_refl _⟩

/-- Draining moves bytes from WBUF to SNK and changes no bit accepted so far. -/
theorem writtenBits_drained (s : State) : (drained s).writtenBits = s.writtenBits := by
  simp [State.writtenBits, drained, Snk.content, Bw.heldBytes, Bw.curBits]

/-- A full WCUR moves to WBUF and changes no bit accepted so far. -/
theorem writtenBits_appendCur {s : State} (hw : s.bw.wbuf.wf = true) (h8 : s.bw.wcnt = 8) :
    (appendCur s).writtenBits = s.writtenBits := by
  have hb : (appendCur s).bw.heldBytes = s.bw.heldBytes ++ [s.bw.wcur] := by
    simp only [Bw.heldBytes, appendCur_bw, readList_succ_last, Nat.zero_add]
    rw [readList_write_other hw _ (by omega), read_write_same hw]
  simp only [State.writtenBits, hb]
  simp [Bw.curBits, h8, byteBits]

/-- Where the bit at position `cnt` lands (R66, R138). -/
theorem streamBit_bitAt (mode : BitOrder) {cnt k : Nat} (hc : cnt < 8) (hk : k < 8) :
    streamBit mode (bitAt mode cnt) k = decide (k = cnt) := by
  revert hc hk
  have : ∀ c : Fin 8, ∀ j : Fin 8,
      streamBit mode (bitAt mode c) j = decide ((j : Nat) = (c : Nat)) := by
    cases mode <;> decide
  intro hc hk
  exact this ⟨cnt, hc⟩ ⟨k, hk⟩

theorem streamBit_or (mode : BitOrder) (a b : Byte) (k : Nat) :
    streamBit mode (a ||| b) k = (streamBit mode a k || streamBit mode b k) := by
  cases mode <;> simp [streamBit]

/-- A bit is appended to the bits in WCUR, provided the positions not yet written are 0 (R26). -/
theorem curBits_withBit {w : Bw} {b : Bool} (hc : w.wcnt ≤ 7)
    (hz : ∀ k < 8, w.wcnt ≤ k → streamBit w.mode w.wcur k = false) :
    (w.withBit b).curBits = w.curBits ++ [b] := by
  have hbit : ∀ k < 8, streamBit w.mode (w.withBit b).wcur k =
      (streamBit w.mode w.wcur k || (b && decide (k = w.wcnt))) := by
    intro k hk
    cases b with
    | false => simp [Bw.withBit]
    | true =>
      simp only [Bw.withBit, if_true, streamBit_or, Bool.true_and]
      rw [streamBit_bitAt w.mode (by omega) hk]
  simp only [Bw.curBits, withBit_wcnt, withBit_mode, List.range_succ, List.map_append,
    List.map_cons, List.map_nil]
  congr 1
  · refine List.map_congr_left fun k hk => ?_
    have := List.mem_range.1 hk
    rw [hbit k (by omega)]
    simp [show ¬k = w.wcnt by omega]
  · rw [hbit w.wcnt (by omega), hz w.wcnt (by omega) (Nat.le_refl _)]
    simp

/-- After a bit has been placed the positions beyond it are still 0 (R26). -/
theorem blank_withBit {w : Bw} {b : Bool} (hc : w.wcnt ≤ 7)
    (hz : ∀ k < 8, w.wcnt ≤ k → streamBit w.mode w.wcur k = false) :
    ∀ k < 8, w.wcnt + 1 ≤ k → streamBit w.mode (w.withBit b).wcur k = false := by
  intro k hk hle
  cases b with
  | false => simpa [Bw.withBit] using hz k hk (by omega)
  | true =>
    simp only [Bw.withBit, if_true, streamBit_or]
    rw [hz k hk (by omega), streamBit_bitAt w.mode (by omega) hk]
    simp; omega

/-! ## The invariant of R26 -/

theorem bwInv_placed {b : Bool} {s : State} (h : s.bw.Inv) (h8 : s.bw.wcnt + 1 ≠ 8) :
    (placed b s).bw.Inv where
  canonical := h.canonical
  bounded := h.bounded
  cntLe := by have := h.cntLe; simp [placed]; omega
  lenLe := h.lenLe
  room := h.room
  blankZero := blank_withBit h.cntLe h.blankZero

/-- R26 after EmitByte's first lines, but that WLEN may have reached BUFSZ. -/
theorem bwInv_appendCur {s : State} (hw : s.bw.wbuf.wf = true)
    (hb : s.bw.wbuf.below BUFSZ = true) (hl : s.bw.wlen < BUFSZ)
    (hr : s.bw.err = none → s.bw.wlen + 1 ≠ BUFSZ) : (appendCur s).bw.Inv where
  canonical := wf_write hw
  bounded := below_write hb hl
  cntLe := Nat.zero_le _
  lenLe := hl
  room := fun he => by
    have := hr he
    simp only [appendCur_bw]; omega
  blankZero := fun k _ _ => streamBit_zero _ k

theorem bwInv_drained {s : State} (hw : s.bw.wbuf.wf = true) (hb : s.bw.wbuf.below BUFSZ = true)
    (hc : s.bw.wcnt ≤ 7)
    (hz : ∀ k < 8, s.bw.wcnt ≤ k → streamBit s.bw.mode s.bw.wcur k = false) :
    (drained s).bw.Inv where
  canonical := hw
  bounded := hb
  cntLe := hc
  lenLe := Nat.zero_le _
  room := fun _ => Nat.zero_lt_succ _
  blankZero := hz

/-- However PutBit ends, R26 holds of the state it leaves, once a fault is latched; not while it waits
for SNK. -/
theorem putBit_inv {b : Bool} {s : State} (h : s.bw.Inv) :
    match putBit b s with
    | .ok _ t => t.bw.Inv
    | .faulted _ c t => { t.bw with err := some c }.Inv
    | .waits _ _ => True := by
  have hcase := putBit_cases b s
  generalize putBit b s = r at hcase
  cases hcase with
  | sticky c he =>
    show ({ s.bw with err := some c } : Bw).Inv
    rw [← he]; exact h
  | partly he h8 => exact bwInv_placed h h8
  | byte he h8 hl =>
    exact bwInv_appendCur h.canonical h.bounded (h.room he) (fun _ => hl)
  | block _ he h8 hl hd =>
    have hw : (appendCur (placed b s)).bw.wbuf.wf = true := wf_write h.canonical
    have hb : (appendCur (placed b s)).bw.wbuf.below BUFSZ = true :=
      below_write h.bounded (h.room he)
    cases hd with
    | empty h0 => exact absurd h0 (Nat.succ_ne_zero _)
    | ok _ _ => exact bwInv_drained hw hb (Nat.zero_le _) (fun k _ _ => streamBit_zero _ k)
    | err _ _ =>
      exact ⟨hw, hb, Nat.zero_le _, h.room he, fun hc => absurd hc (by simp),
        fun k _ _ => streamBit_zero _ k⟩
    | silent _ _ => trivial

/-! ## Writing a bit that SNK does not refuse -/

/-- With no sticky error and a sink that accepts, PutBit accepts the bit: it is appended to the bits
written, and SNK is called exactly when the bit completes the block (R138, R140). -/
theorem putBit_next {b : Bool} {s : State} (he : s.bw.err = none) (h : s.bw.Inv)
    (ha : s.snk.answer = .ok) :
    ∃ t, putBit b s = .ok () t ∧ WriteFrame s t ∧ t.bw.Inv ∧
      t.writtenBits = s.writtenBits ++ [b] ∧ t.bw.wbits = s.bw.wbits + 1#64 ∧
      (if 8 * s.bw.wlen + s.bw.wcnt + 1 = 8 * BUFSZ then
        t.bw.wlen = 0 ∧ t.bw.wcnt = 0 ∧ t.snk.accepted.length = s.snk.accepted.length + 1
      else
        8 * t.bw.wlen + t.bw.wcnt = 8 * s.bw.wlen + s.bw.wcnt + 1 ∧ t.snk = s.snk) := by
  have hroom := h.room he
  have hcnt := h.cntLe
  have hinv := putBit_inv (b := b) h
  have hplaced : (placed b s).writtenBits = s.writtenBits ++ [b] := by
    simp only [State.writtenBits, placed, curBits_withBit hcnt h.blankZero,
      ← List.append_assoc]
    rfl
  have hfull : s.bw.wcnt + 1 = 8 →
      (appendCur (placed b s)).writtenBits = s.writtenBits ++ [b] := fun h8 => by
    rw [writtenBits_appendCur (s := placed b s) h.canonical h8, hplaced]
  have hcase := putBit_cases b s
  generalize putBit b s = r at hcase hinv
  cases hcase with
  | sticky c he' => rw [he] at he'; exact absurd he' (by simp)
  | partly _ h8 =>
    refine ⟨_, rfl, writeFrame_placed b s, hinv, hplaced, rfl, ?_⟩
    rw [if_neg (by omega)]
    exact ⟨by simp [placed]; omega, rfl⟩
  | byte _ h8 hl =>
    refine ⟨_, rfl, (writeFrame_placed b s).trans (writeFrame_appendCur _), hinv, hfull h8, rfl,
      ?_⟩
    rw [if_neg (by omega)]
    exact ⟨by simp [placed]; omega, rfl⟩
  | block _ _ h8 hl hd =>
    cases hd with
    | empty h0 => exact absurd h0 (Nat.succ_ne_zero _)
    | ok _ _ =>
      refine ⟨_, rfl, ((writeFrame_placed b s).trans (writeFrame_appendCur _)).trans
        (writeFrame_drained _), hinv, ?_, rfl, ?_⟩
      · rw [writtenBits_drained, hfull h8]
      · rw [if_pos (by omega)]
        exact ⟨rfl, rfl, by simp [drained, placed]⟩
    | err _ ha' => exact absurd (ha'.symm.trans ha) (by simp)
    | silent _ ha' => exact absurd (ha'.symm.trans ha) (by simp)

end Sys2Proof.Machine
end

