-- ==== Sys2Proof/Laws/Effects.lean ====
section
/-! SUPPORT. Where a primitive can take the state, however it ends, said once per primitive: reading
changes BR and SRC only, writing BW and SNK only, emitting LZD and DOUT only (R20, R215). A command
built from primitives inherits the relation through `moves_bind`. -/

namespace Sys2Proof.Machine

open Config

/-! ## Relations along a primitive -/

section Moves
variable {α β : Type} {R : State → State → Prop} {s : State}

/-- However the primitive ends, the state it leaves is reached from `s` along `R`. -/
def Res.moves (R : State → State → Prop) (s : State) : Res α → Prop
  | .ok _ t => R s t
  | .faulted _ _ t => R s t
  | .waits _ t => R s t

/-- Each fault of the primitive is one that `P` allows. -/
def Res.faultsOnly (P : CodecUnit → FaultCode → Prop) : Res α → Prop
  | .ok _ _ => True
  | .faulted v c _ => P v c
  | .waits _ _ => True

theorem moves_bind (htrans : ∀ a b c, R a b → R b c → R a c) {r : Res α}
    {f : α → State → Res β} (h : r.moves R s)
    (hf : ∀ a t, r = .ok a t → R s t → (f a t).moves R t) : (r.bind f).moves R s := by
  cases r with
  | ok a t =>
    have hft := hf a t rfl h
    show (f a t).moves R s
    generalize f a t = q at hft
    cases q <;> exact htrans _ _ _ h hft
  | faulted v c t => exact h
  | waits d t => exact h

theorem faultsOnly_bind {P : CodecUnit → FaultCode → Prop} {r : Res α} {f : α → State → Res β}
    (h : r.faultsOnly P) (hf : ∀ a t, r = .ok a t → (f a t).faultsOnly P) :
    (r.bind f).faultsOnly P := by
  cases r with
  | ok a t => exact hf a t rfl
  | faulted v c t => exact h
  | waits d t => trivial

end Moves

/-! ## Reading -/

/-- Everything a sequence of GetBit calls can do to the state. -/
structure ReadEffect (s t : State) : Prop where
  rest : t = { s with br := t.br, src := t.src }
  mode : t.br.mode = s.br.mode
  err : t.br.err = s.br.err
  content : t.src.content = s.src.content
  delivered : s.src.delivered <+: t.src.delivered
  ending : t.src.ending = s.src.ending
  stopped : s.br.reof = true → t.src = s.src ∨ s.br.err = none
  flagged : s.br.reof = true → t.br.reof = true

theorem ReadEffect.refl (s : State) : ReadEffect s s :=
  ⟨rfl, rfl, rfl, rfl, List.prefix_refl _, rfl, fun _ => .inl rfl, id⟩

theorem ReadEffect.trans {s t u : State} (h : ReadEffect s t) (k : ReadEffect t u) :
    ReadEffect s u := by
  refine ⟨?_, k.mode.trans h.mode, k.err.trans h.err, k.content.trans h.content,
    h.delivered.trans k.delivered, k.ending.trans h.ending, ?_,
    fun hr => k.flagged (h.flagged hr)⟩
  · rw [k.rest, h.rest]
  · intro hr
    rcases h.stopped hr with h1 | h1
    · rcases k.stopped (h.flagged hr) with h2 | h2
      · exact .inl (h2.trans h1)
      · exact .inr (by rw [← h.err]; exact h2)
    · exact .inr h1

theorem readEffect_bind {α β : Type} {s : State} {r : Res α} {f : α → State → Res β}
    (h : r.moves ReadEffect s)
    (hf : ∀ a t, r = .ok a t → ReadEffect s t → (f a t).moves ReadEffect t) :
    (r.bind f).moves ReadEffect s :=
  moves_bind (R := ReadEffect) (fun _ _ _ => .trans) h hf

theorem ReadFrame.effect {s t : State} (h : ReadFrame s t)
    (hs : s.br.reof = true → t.src = s.src ∨ s.br.err = none) : ReadEffect s t :=
  ⟨h.rest, h.mode, h.err, h.content, h.delivered, h.ending, hs, fun hr => h.reof.trans hr⟩

theorem getBit_moves (s : State) : (getBit s).moves ReadEffect s := by
  have hcase := getBit_cases s
  generalize getBit s = r at hcase
  cases hcase with
  | sticky c he => exact .refl s
  | atHand he hc => exact (readFrame_taken s).effect fun _ => .inl rfl
  | loaded he hc hp =>
    exact ((readFrame_loadCur s).trans (readFrame_taken _)).effect fun _ => .inl rfl
  | ended he hc hp hr => exact .refl s
  | refill bs rest he hc hp hr hn =>
    exact (((readFrame_refilled hn).trans (readFrame_loadCur _)).trans (readFrame_taken _)).effect
      fun _ => .inr he
  | eof he hc hp hr hn hg =>
    exact ⟨rfl, rfl, rfl, rfl, List.prefix_refl _, rfl, fun _ => .inr he, fun _ => rfl⟩
  | err he hc hp hr hn hg =>
    exact ⟨rfl, rfl, rfl, rfl, List.prefix_refl _, rfl, fun _ => .inr he, id⟩
  | silent he hc hp hr hn hg =>
    exact ⟨rfl, rfl, rfl, rfl, List.prefix_refl _, rfl, fun _ => .inr he, id⟩

/-- The faults of reading: those of R131, or the sticky code of BR. -/
def readFaults (e : Option FaultCode) (v : CodecUnit) (c : FaultCode) : Prop :=
  v = .br ∧ (e = some c ∨ (e = none ∧ (c = .eos ∨ c = .src)))

theorem getBit_faultsOnly (s : State) : (getBit s).faultsOnly (readFaults s.br.err) := by
  have hcase := getBit_cases s
  generalize getBit s = r at hcase
  cases hcase with
  | sticky c he => exact ⟨rfl, .inl he⟩
  | ended he => exact ⟨rfl, .inr ⟨he, .inl rfl⟩⟩
  | eof he => exact ⟨rfl, .inr ⟨he, .inl rfl⟩⟩
  | err he => exact ⟨rfl, .inr ⟨he, .inr rfl⟩⟩
  | atHand | loaded | refill | silent => trivial

theorem getBits_moves (n : Nat) (s : State) : (getBits n s).moves ReadEffect s := by
  induction n generalizing s with
  | zero => exact .refl s
  | succ n ih =>
    exact readEffect_bind (getBit_moves s) fun b t _ _ =>
      readEffect_bind (ih t) fun bs u _ _ => ReadEffect.refl u

theorem getBits_faultsOnly (n : Nat) (s : State) :
    (getBits n s).faultsOnly (readFaults s.br.err) := by
  induction n generalizing s with
  | zero => trivial
  | succ n ih =>
    refine faultsOnly_bind (getBit_faultsOnly s) fun b t ht => ?_
    have hm := getBit_moves s
    rw [ht] at hm
    rw [← hm.err]
    exact faultsOnly_bind (ih t) fun bs u _ => trivial

theorem readBits_moves (n : Nat) (s : State) : (readBits n s).moves ReadEffect s :=
  readEffect_bind (getBits_moves n s) fun _ t _ _ => ReadEffect.refl t

theorem readBits_faultsOnly (n : Nat) (s : State) :
    (readBits n s).faultsOnly (readFaults s.br.err) :=
  faultsOnly_bind (getBits_faultsOnly n s) fun _ _ _ => trivial

/-- ReadBits on a stream that still has the bits (R132). -/
theorem readBits_next {s : State} {bs rest : List Bool} (he : s.br.err = none) (hi : s.br.Inv)
    (h : s.readerBits = bs ++ rest) :
    ∃ t, readBits bs.length s = .ok (packBits s.br.mode bs) t ∧ ReadFrame s t ∧
      t.readerBits = rest ∧ t.br.Inv ∧ t.br.rbits = s.br.rbits + BitVec.ofNat 64 bs.length := by
  obtain ⟨t, ht, hf⟩ := getBits_next he hi h
  exact ⟨t, by simp [readBits, ht], hf⟩

/-! ## Writing -/

/-- Everything a sequence of PutBit and Flush calls can do to the state. -/
structure WriteEffect (s t : State) : Prop where
  rest : t = { s with bw := t.bw, snk := t.snk }
  mode : t.bw.mode = s.bw.mode
  err : t.bw.err = s.bw.err
  accepted : s.snk.accepted <+: t.snk.accepted

theorem WriteEffect.refl (s : State) : WriteEffect s s := ⟨rfl, rfl, rfl, List.prefix_refl _⟩

theorem WriteEffect.trans {s t u : State} (h : WriteEffect s t) (k : WriteEffect t u) :
    WriteEffect s u := by
  refine ⟨?_, k.mode.trans h.mode, k.err.trans h.err, h.accepted.trans k.accepted⟩
  rw [k.rest, h.rest]

theorem writeEffect_bind {α β : Type} {s : State} {r : Res α} {f : α → State → Res β}
    (h : r.moves WriteEffect s)
    (hf : ∀ a t, r = .ok a t → WriteEffect s t → (f a t).moves WriteEffect t) :
    (r.bind f).moves WriteEffect s :=
  moves_bind (R := WriteEffect) (fun _ _ _ => .trans) h hf

theorem WriteFrame.effect {s t : State} (h : WriteFrame s t) : WriteEffect s t :=
  ⟨h.rest, h.mode, h.err, h.accepted⟩

theorem drainCase_moves {s : State} {r : Res Unit} (h : DrainCase s r) :
    r.moves WriteEffect s := by
  cases h with
  | empty => exact .refl s
  | ok => exact (writeFrame_drained s).effect
  | err => exact (writeFrame_offered s).effect
  | silent => exact (writeFrame_offered s).effect

theorem drain_moves (s : State) : (drain s).moves WriteEffect s := drainCase_moves (drain_cases s)

theorem emitByte_moves (s : State) : (emitByte s).moves WriteEffect s := by
  unfold emitByte
  split
  · have h := drain_moves (appendCur s)
    have ha := (writeFrame_appendCur s).effect
    generalize drain (appendCur s) = r at h
    cases r <;> exact ha.trans h
  · exact (writeFrame_appendCur s).effect

theorem putBit_moves (b : Bool) (s : State) : (putBit b s).moves WriteEffect s := by
  unfold putBit
  split
  · exact .refl s
  · split
    · have h := emitByte_moves (placed b s)
      have hp := (writeFrame_placed b s).effect
      change (emitByte (placed b s)).moves WriteEffect s
      generalize emitByte (placed b s) = r at h
      cases r <;> exact hp.trans h
    · exact (writeFrame_placed b s).effect

theorem putBits_moves (bs : List Bool) (s : State) : (putBits bs s).moves WriteEffect s := by
  induction bs generalizing s with
  | nil => exact .refl s
  | cons b bs ih => exact writeEffect_bind (putBit_moves b s) fun _ t _ _ => ih t

theorem flush_moves (s : State) : (flush s).moves WriteEffect s := by
  unfold flush
  split
  · exact .refl s
  · refine writeEffect_bind ?_ fun _ t _ _ => drain_moves t
    split
    · exact emitByte_moves s
    · exact .refl s

/-- The faults of writing: E_SNK, or the sticky code of BW. -/
def writeFaults (e : Option FaultCode) (v : CodecUnit) (c : FaultCode) : Prop :=
  v = .bw ∧ (e = some c ∨ (e = none ∧ c = .snk))

theorem drain_faultsOnly {s : State} (he : s.bw.err = none) :
    (drain s).faultsOnly (writeFaults s.bw.err) := by
  have hcase := drain_cases s
  generalize drain s = r at hcase
  cases hcase with
  | err => exact ⟨rfl, .inr ⟨he, rfl⟩⟩
  | empty | ok | silent => trivial

theorem putBit_faultsOnly (b : Bool) (s : State) :
    (putBit b s).faultsOnly (writeFaults s.bw.err) := by
  have hcase := putBit_cases b s
  generalize putBit b s = r at hcase
  cases hcase with
  | sticky c he => exact ⟨rfl, .inl he⟩
  | block _ he _ _ hd =>
    cases hd with
    | err => exact ⟨rfl, .inr ⟨he, rfl⟩⟩
    | empty | ok | silent => trivial
  | partly | byte => trivial

theorem putBits_faultsOnly (bs : List Bool) (s : State) :
    (putBits bs s).faultsOnly (writeFaults s.bw.err) := by
  induction bs generalizing s with
  | nil => trivial
  | cons b bs ih =>
    refine faultsOnly_bind (putBit_faultsOnly b s) fun _ t ht => ?_
    have hm := putBit_moves b s
    rw [ht] at hm
    rw [← hm.err]
    exact ih t

/-! ## Emitting -/

/-- Everything PutByte and the copy loop can do to the state (R185, R189). -/
structure EmitEffect (s t : State) : Prop where
  rest : t = { s with lzd := t.lzd, dout := t.dout }
  bytes : s.dout.bytes <+: t.dout.bytes
  cfg : t.lzd.cfg = s.lzd.cfg
  err : t.lzd.err = s.lzd.err
  tokphase : t.lzd.tokphase = s.lzd.tokphase

theorem EmitEffect.refl (s : State) : EmitEffect s s := ⟨rfl, List.prefix_refl _, rfl, rfl, rfl⟩

theorem EmitEffect.trans {s t u : State} (h : EmitEffect s t) (k : EmitEffect t u) :
    EmitEffect s u := by
  refine ⟨?_, h.bytes.trans k.bytes, k.cfg.trans h.cfg, k.err.trans h.err,
    k.tokphase.trans h.tokphase⟩
  rw [k.rest, h.rest]

theorem emitEffect_bind {α β : Type} {s : State} {r : Res α} {f : α → State → Res β}
    (h : r.moves EmitEffect s)
    (hf : ∀ a t, r = .ok a t → EmitEffect s t → (f a t).moves EmitEffect t) :
    (r.bind f).moves EmitEffect s :=
  moves_bind (R := EmitEffect) (fun _ _ _ => .trans) h hf

/-- The state after PutByte (R185). -/
def emitted (b : Byte) (s : State) : State :=
  { s with
    lzd := { s.lzd.insert b with outcnt := s.lzd.outcnt + 1#64 }
    dout := { bytes := s.dout.bytes ++ [b], room := s.dout.room.map fun k => k - 1 } }

/-- Everything PutByte can do (R185, R80). -/
inductive PutByteCase (b : Byte) (s : State) : Res Unit → Prop
  | taken : s.dout.takes 1 = true → PutByteCase b s (.ok () (emitted b s))
  | blocked : s.dout.takes 1 = false →
      PutByteCase b s (.waits .dout { s with lzd := s.lzd.insert b })

theorem putByte_cases (b : Byte) (s : State) : PutByteCase b s (putByte b s) := by
  unfold putByte doutPut
  cases hr : s.dout.room with
  | none =>
    have h : PutByteCase b s (.ok () (emitted b s)) := .taken (by simp [Dout.takes, hr])
    simpa [emitted, hr, countOut] using h
  | some k =>
    cases k with
    | zero =>
      have h := PutByteCase.blocked (b := b) (s := s) (by simp [Dout.takes, hr])
      simpa using h
    | succ k =>
      have h : PutByteCase b s (.ok () (emitted b s)) := .taken (by simp [Dout.takes, hr])
      simpa [emitted, hr, countOut] using h

theorem putByte_moves (b : Byte) (s : State) : (putByte b s).moves EmitEffect s := by
  have hcase := putByte_cases b s
  generalize putByte b s = r at hcase
  cases hcase with
  | taken => exact ⟨rfl, List.prefix_append _ _, rfl, rfl, rfl⟩
  | blocked => exact ⟨rfl, List.prefix_refl _, rfl, rfl, rfl⟩

theorem copyByte_moves (s : State) : (copyByte s).moves EmitEffect s := by
  have h0 : EmitEffect s (advanceSource s) := ⟨rfl, List.prefix_refl _, rfl, rfl, rfl⟩
  refine emitEffect_bind ?_ fun _ t _ _ => ?_
  · have h := putByte_moves (s.lzd.win.read s.lzd.csrc) (advanceSource s)
    generalize putByte (s.lzd.win.read s.lzd.csrc) (advanceSource s) = r at h
    cases r <;> exact h0.trans h
  · exact ⟨rfl, List.prefix_refl _, rfl, rfl, rfl⟩

theorem copyTurns_moves (m : Nat) (s : State) : (copyTurns m s).moves EmitEffect s := by
  induction m generalizing s with
  | zero => exact .refl s
  | succ m ih => exact emitEffect_bind (copyByte_moves s) fun _ t _ _ => ih t

theorem settleCopy_effect (s : State) : EmitEffect s (settleCopy s) := by
  unfold settleCopy
  split
  · exact ⟨rfl, List.prefix_refl _, rfl, rfl, rfl⟩
  · exact .refl s

theorem copyBytes_moves (k : Nat) (s : State) : (copyBytes k s).moves EmitEffect s :=
  emitEffect_bind (copyTurns_moves _ s) fun _ t _ _ => settleCopy_effect t

theorem continueCopy_moves (k : Nat) (s : State) : (continueCopy k s).moves EmitEffect s := by
  unfold continueCopy
  split
  · exact copyBytes_moves k s
  · exact .refl s

/-- Everything StartRef can do (R187, R188). -/
inductive StartRefCase (off len : Nat) (s : State) : Res Unit → Prop
  | terminator : len = 0 →
      StartRefCase off len s (.ok () { s with lzd := { s.lzd with dstate := .done } })
  | badref : len ≠ 0 → s.lzd.filled < s.lzd.cfg.distance off →
      StartRefCase off len s (.faulted .lzd .lzBadref s)
  | started : len ≠ 0 → s.lzd.cfg.distance off ≤ s.lzd.filled →
      StartRefCase off len s (.ok () { s with lzd := { s.lzd with
        csrc := s.lzd.cfg.source s.lzd.wpos off, crem := len, dstate := .copy } })

theorem startRef_cases (off len : Nat) (s : State) :
    StartRefCase off len s (startRef off len s) := by
  unfold startRef
  by_cases h0 : len = 0
  · rw [if_pos h0]; exact .terminator h0
  · rw [if_neg h0]
    by_cases hd : s.lzd.filled < s.lzd.cfg.distance off
    · rw [if_pos hd]; exact .badref h0 hd
    · rw [if_neg hd]; exact .started h0 (by omega)

theorem startRef_moves (off len : Nat) (s : State) : (startRef off len s).moves EmitEffect s := by
  have hcase := startRef_cases off len s
  generalize startRef off len s = r at hcase
  cases hcase <;> exact ⟨rfl, List.prefix_refl _, rfl, rfl, rfl⟩

theorem runRef_moves (off len : Nat) (s : State) : (runRef off len s).moves EmitEffect s :=
  emitEffect_bind (startRef_moves off len s) fun _ t _ _ =>
    emitEffect_bind (continueCopy_moves _ t) fun _ u _ _ => EmitEffect.refl u

/-! ## Ending a command -/

/-- A command built on a primitive always has a next state (R228). -/
theorem finish_next (u : CodecUnit) (r : Res Nat) : ∃ t, r.finish u = .next t := by
  cases r <;> exact ⟨_, rfl⟩

/-- Taking a fault writes the two ERR fields of R222 and gives the response; all else stands. -/
theorem takeFault_err (s : State) (u v w : CodecUnit) (c : FaultCode) :
    (s.takeFault u v c).err w =
      if w ≠ .sys ∧ (w = u ∨ w = v) then some c else s.err w := by
  cases u <;> cases v <;> cases w <;> simp [State.takeFault, State.setErr, State.err, State.answer]

end Sys2Proof.Machine
end

