-- ==== Sys2Proof/Laws/Huffman.lean ====
section
/-! SUPPORT. What the table builder and the decoder of HUF can do, said once (R154, R155, R160). -/

namespace Sys2Proof.Machine

open Config

/-- Everything BuildTable can do (R154, R155), in the order its rule tests it. -/
inductive BuildCase (s : State) : Res Unit → Prop
  | tooLong : s.huf.tooLong = true → BuildCase s (.faulted .huf .hufLen s)
  | oversub (h : Huf) : s.huf.tooLong = false →
      assignLengths codeLengths { code := 0, idx := 0, huf := s.huf.withCounts } = .error h →
      BuildCase s (.faulted .huf .hufOversub { s with huf := h })
  | built (a : Assign) : s.huf.tooLong = false →
      assignLengths codeLengths { code := 0, idx := 0, huf := s.huf.withCounts } = .ok a →
      BuildCase s (.ok () { s with
        huf := { a.huf with ncodes := a.idx, lmax := a.huf.longest, hstate := .built } })

theorem buildTable_cases (s : State) : BuildCase s (buildTable s) := by
  unfold buildTable
  cases hl : s.huf.tooLong with
  | true => exact .tooLong hl
  | false =>
    simp only [Bool.false_eq_true, if_false]
    cases ha : assignLengths codeLengths { code := 0, idx := 0, huf := s.huf.withCounts } with
    | error h => exact .oversub h hl ha
    | ok a => exact .built a hl ha

/-- The length check is that of R154. -/
theorem tooLong_eq_false (h : Huf) : h.tooLong = false ↔ h.LengthsLegal := by
  simp [Huf.tooLong, Huf.symbols, Huf.LengthsLegal]

/-- What AssignCodes leaves alone: the lengths, the frequencies, the counts, DEFSYM, NCODES, LMAX,
HSTATE and HUF.ERR (R155). -/
structure TableFrame (h k : Huf) : Prop where
  rest : k = { h with first := k.first, base := k.base, sorted := k.sorted, code := k.code }

theorem TableFrame.refl (h : Huf) : TableFrame h h := ⟨rfl⟩

theorem TableFrame.trans {h k l : Huf} (a : TableFrame h k) (b : TableFrame k l) :
    TableFrame h l := ⟨by rw [b.rest, a.rest]⟩

theorem assignSymbol_frame (l : Nat) (a : Assign) (sym : Nat) :
    TableFrame a.huf (assignSymbol l a sym).huf := by
  unfold assignSymbol
  split
  · exact ⟨rfl⟩
  · exact .refl _

theorem foldl_assignSymbol_frame (l : Nat) (syms : List Nat) (a : Assign) :
    TableFrame a.huf (syms.foldl (assignSymbol l) a).huf := by
  induction syms generalizing a with
  | nil => exact .refl _
  | cons y ys ih => exact (assignSymbol_frame l a y).trans (ih _)

theorem fillLength_frame (l : Nat) (a : Assign) : TableFrame a.huf (a.fillLength l).huf :=
  foldl_assignSymbol_frame l a.huf.symbols a

/-- However AssignCodes ends, it changes nothing but the lookup structure. -/
theorem assignLengths_frame (ls : List Nat) (a : Assign) :
    match assignLengths ls a with
    | .ok b => TableFrame a.huf b.huf
    | .error h => TableFrame a.huf h := by
  induction ls generalizing a with
  | nil => exact .refl _
  | cons l ls ih =>
    by_cases ho : 2 ^ l < a.code + (a.huf.count.read l).toNat
    · rw [assignLengths, if_pos ho]
      exact ⟨rfl⟩
    · rw [assignLengths, if_neg ho]
      have h1 : TableFrame a.huf (a.startLength l).huf := ⟨rfl⟩
      have h2 := ih ((a.startLength l).fillLength l)
      have h3 := h1.trans (fillLength_frame l (a.startLength l))
      generalize assignLengths ls ((a.startLength l).fillLength l) = r at h2
      cases r <;> exact h3.trans h2

/-- One turn of DecodeSym's loop (R160). -/
theorem decodeFrom_cons (l : Nat) (ls : List Nat) (code : Nat) (s : State) :
    decodeFrom (l :: ls) code s = (getBit s).bind fun b t =>
      if t.huf.inClass l (2 * code + b.toNat) then
        .ok (t.huf.symbolAt l (2 * code + b.toNat)) t
      else decodeFrom ls (2 * code + b.toNat) t := rfl

theorem decodeFrom_moves (ls : List Nat) (code : Nat) (s : State) :
    (decodeFrom ls code s).moves ReadEffect s := by
  induction ls generalizing code s with
  | nil => exact ReadEffect.refl s
  | cons l ls ih =>
    rw [decodeFrom_cons]
    refine readEffect_bind (getBit_moves s) fun b t _ _ => ?_
    split
    · exact ReadEffect.refl t
    · exact ih _ t

theorem decodeSym_moves (s : State) : (decodeSym s).moves ReadEffect s := by
  unfold decodeSym
  split
  · exact ReadEffect.refl s
  · exact decodeFrom_moves _ _ s

theorem putSym_moves (sym : Nat) (s : State) : (putSym sym s).moves WriteEffect s :=
  writeEffect_bind (putBits_moves _ s) fun _ t _ _ => WriteEffect.refl t

end Sys2Proof.Machine
end

