-- ==== Sys2Proof/Laws/PerInstr.lean ====
section
/-! SUPPORT. Statements made per command. `EncodeSelectsRow`: the beat that encodes a command selects
the command's own row of the opcode map (R95, R102), whatever its operands. -/

namespace Sys2Proof.Laws

open Sys2Proof

/-- The beat of the command selects the command's row of R95. -/
def EncodeSelectsRow.Statement (i : Instr) : Prop := i.row.selects (cmdOf (encode i)) = true

/-- CMD of an encoded beat. -/
theorem cmdOf_beatOf (unit op : BitVec 4) (imm : BitVec 24) (arg : Word) :
    cmdOf (beatOf unit op imm arg) = unit ++ op ++ imm := by
  unfold cmdOf beatOf
  exact BitVec.extractLsb'_append_eq_right

/-- ARG of an encoded beat. -/
theorem argOf_beatOf (unit op : BitVec 4) (imm : BitVec 24) (arg : Word) :
    argOf (beatOf unit op imm arg) = arg := by
  unfold argOf beatOf
  exact BitVec.extractLsb'_append_eq_left

theorem EncodeSelectsRow.sysNop : EncodeSelectsRow.Statement .sysNop := by
  unfold EncodeSelectsRow.Statement
  decide

theorem EncodeSelectsRow.sysReset : EncodeSelectsRow.Statement .sysReset := by
  unfold EncodeSelectsRow.Statement
  decide

theorem EncodeSelectsRow.sysRdsr (r : BitVec 8) :
    EncodeSelectsRow.Statement (.sysRdsr r) := by
  unfold EncodeSelectsRow.Statement OpcodeRow.selects encode
  rw [cmdOf_beatOf, beq_iff_eq]
  show ((0#4 ++ 2#4 ++ (0#16 ++ r) : Word) &&& 0xFFFFFF00#32) = 0x02000000#32
  ext k hk
  simp only [BitVec.getElem_and, BitVec.getElem_append]
  interval_cases k <;> simp

theorem EncodeSelectsRow.brInit (mode : BitOrder) :
    EncodeSelectsRow.Statement (.brInit mode) := by
  unfold EncodeSelectsRow.Statement
  cases mode <;> decide

theorem EncodeSelectsRow.brGetbit : EncodeSelectsRow.Statement .brGetbit := by
  unfold EncodeSelectsRow.Statement
  decide

theorem EncodeSelectsRow.brRead (n : BitVec 6) :
    EncodeSelectsRow.Statement (.brRead n) := by
  unfold EncodeSelectsRow.Statement OpcodeRow.selects encode
  rw [cmdOf_beatOf, beq_iff_eq]
  show ((1#4 ++ 2#4 ++ (0#18 ++ n) : Word) &&& 0xFFFFFFC0#32) = 0x12000000#32
  ext k hk
  simp only [BitVec.getElem_and, BitVec.getElem_append]
  interval_cases k <;> simp

theorem EncodeSelectsRow.bwInit (mode : BitOrder) :
    EncodeSelectsRow.Statement (.bwInit mode) := by
  unfold EncodeSelectsRow.Statement
  cases mode <;> decide

theorem EncodeSelectsRow.bwPutbit (b : Bool) :
    EncodeSelectsRow.Statement (.bwPutbit b) := by
  unfold EncodeSelectsRow.Statement
  cases b <;> decide

theorem EncodeSelectsRow.bwWrite (n : BitVec 6) (v : Word) :
    EncodeSelectsRow.Statement (.bwWrite n v) := by
  unfold EncodeSelectsRow.Statement OpcodeRow.selects encode
  rw [cmdOf_beatOf, beq_iff_eq]
  show ((2#4 ++ 2#4 ++ (0#18 ++ n) : Word) &&& 0xFFFFFFC0#32) = 0x22000000#32
  ext k hk
  simp only [BitVec.getElem_and, BitVec.getElem_append]
  interval_cases k <;> simp

theorem EncodeSelectsRow.bwFlush : EncodeSelectsRow.Statement .bwFlush := by
  unfold EncodeSelectsRow.Statement
  decide

theorem EncodeSelectsRow.hufClear : EncodeSelectsRow.Statement .hufClear := by
  unfold EncodeSelectsRow.Statement
  decide

theorem EncodeSelectsRow.hufPush (len : BitVec 8) :
    EncodeSelectsRow.Statement (.hufPush len) := by
  unfold EncodeSelectsRow.Statement OpcodeRow.selects encode
  rw [cmdOf_beatOf, beq_iff_eq]
  show ((3#4 ++ 1#4 ++ (0#16 ++ len) : Word) &&& 0xFFFFFF00#32) = 0x31000000#32
  ext k hk
  simp only [BitVec.getElem_and, BitVec.getElem_append]
  interval_cases k <;> simp

theorem EncodeSelectsRow.hufBuild : EncodeSelectsRow.Statement .hufBuild := by
  unfold EncodeSelectsRow.Statement
  decide

theorem EncodeSelectsRow.hufGetsym : EncodeSelectsRow.Statement .hufGetsym := by
  unfold EncodeSelectsRow.Statement
  decide

theorem EncodeSelectsRow.hufFpush (freq : Word) :
    EncodeSelectsRow.Statement (.hufFpush freq) := by
  unfold EncodeSelectsRow.Statement OpcodeRow.selects encode
  rw [cmdOf_beatOf]
  show ((3#4 ++ 4#4 ++ 0#24 : Word) &&& 0xFFFFFFFF#32 == 0x34000000#32) = true
  decide

theorem EncodeSelectsRow.hufMkenc : EncodeSelectsRow.Statement .hufMkenc := by
  unfold EncodeSelectsRow.Statement
  decide

theorem EncodeSelectsRow.hufPutsym (sym : BitVec 16) :
    EncodeSelectsRow.Statement (.hufPutsym sym) := by
  unfold EncodeSelectsRow.Statement OpcodeRow.selects encode
  rw [cmdOf_beatOf, beq_iff_eq]
  show ((3#4 ++ 6#4 ++ (0#8 ++ sym) : Word) &&& 0xFFFF0000#32) = 0x36000000#32
  ext k hk
  simp only [BitVec.getElem_and, BitVec.getElem_append]
  interval_cases k <;> simp

theorem EncodeSelectsRow.hufSetdef (sym : BitVec 16) :
    EncodeSelectsRow.Statement (.hufSetdef sym) := by
  unfold EncodeSelectsRow.Statement OpcodeRow.selects encode
  rw [cmdOf_beatOf, beq_iff_eq]
  show ((3#4 ++ 7#4 ++ (0#8 ++ sym) : Word) &&& 0xFFFF0000#32) = 0x37000000#32
  ext k hk
  simp only [BitVec.getElem_and, BitVec.getElem_append]
  interval_cases k <;> simp

theorem EncodeSelectsRow.hufRdlen (sym : BitVec 16) :
    EncodeSelectsRow.Statement (.hufRdlen sym) := by
  unfold EncodeSelectsRow.Statement OpcodeRow.selects encode
  rw [cmdOf_beatOf, beq_iff_eq]
  show ((3#4 ++ 8#4 ++ (0#8 ++ sym) : Word) &&& 0xFFFF0000#32) = 0x38000000#32
  ext k hk
  simp only [BitVec.getElem_and, BitVec.getElem_append]
  interval_cases k <;> simp

theorem EncodeSelectsRow.lzdInit (wb ob lb : BitVec 5) (min max : BitVec 16) :
    EncodeSelectsRow.Statement (.lzdInit wb ob lb min max) := by
  unfold EncodeSelectsRow.Statement OpcodeRow.selects encode
  rw [cmdOf_beatOf, beq_iff_eq]
  show ((4#4 ++ 0#4 ++ (cfgImm wb ob lb) : Word) &&& 0xFFFF8000#32) = 0x40000000#32
  unfold cfgImm
  ext k hk
  simp only [BitVec.getElem_and, BitVec.getElem_append]
  interval_cases k <;> simp

theorem EncodeSelectsRow.lzdLit (b : Byte) :
    EncodeSelectsRow.Statement (.lzdLit b) := by
  unfold EncodeSelectsRow.Statement OpcodeRow.selects encode
  rw [cmdOf_beatOf, beq_iff_eq]
  show ((4#4 ++ 1#4 ++ (0#16 ++ b) : Word) &&& 0xFFFFFF00#32) = 0x41000000#32
  ext k hk
  simp only [BitVec.getElem_and, BitVec.getElem_append]
  interval_cases k <;> simp

theorem EncodeSelectsRow.lzdRef (off len : BitVec 16) :
    EncodeSelectsRow.Statement (.lzdRef off len) := by
  unfold EncodeSelectsRow.Statement OpcodeRow.selects encode
  rw [cmdOf_beatOf]
  show ((4#4 ++ 2#4 ++ 0#24 : Word) &&& 0xFFFFFFFF#32 == 0x42000000#32) = true
  decide

theorem EncodeSelectsRow.lzdStep : EncodeSelectsRow.Statement .lzdStep := by
  unfold EncodeSelectsRow.Statement
  decide

theorem EncodeSelectsRow.lzdRun (n : Word) :
    EncodeSelectsRow.Statement (.lzdRun n) := by
  unfold EncodeSelectsRow.Statement OpcodeRow.selects encode
  rw [cmdOf_beatOf]
  show ((4#4 ++ 4#4 ++ 0#24 : Word) &&& 0xFFFFFFFF#32 == 0x44000000#32) = true
  decide

theorem EncodeSelectsRow.lzeInit (wb ob lb : BitVec 5) (min max : BitVec 16) :
    EncodeSelectsRow.Statement (.lzeInit wb ob lb min max) := by
  unfold EncodeSelectsRow.Statement OpcodeRow.selects encode
  rw [cmdOf_beatOf, beq_iff_eq]
  show ((5#4 ++ 0#4 ++ (cfgImm wb ob lb) : Word) &&& 0xFFFF8000#32) = 0x50000000#32
  unfold cfgImm
  ext k hk
  simp only [BitVec.getElem_and, BitVec.getElem_append]
  interval_cases k <;> simp

theorem EncodeSelectsRow.lzeLit (b : Byte) :
    EncodeSelectsRow.Statement (.lzeLit b) := by
  unfold EncodeSelectsRow.Statement OpcodeRow.selects encode
  rw [cmdOf_beatOf, beq_iff_eq]
  show ((5#4 ++ 1#4 ++ (0#16 ++ b) : Word) &&& 0xFFFFFF00#32) = 0x51000000#32
  ext k hk
  simp only [BitVec.getElem_and, BitVec.getElem_append]
  interval_cases k <;> simp

theorem EncodeSelectsRow.lzeRef (off len : BitVec 16) :
    EncodeSelectsRow.Statement (.lzeRef off len) := by
  unfold EncodeSelectsRow.Statement OpcodeRow.selects encode
  rw [cmdOf_beatOf]
  show ((5#4 ++ 2#4 ++ 0#24 : Word) &&& 0xFFFFFFFF#32 == 0x52000000#32) = true
  decide

theorem EncodeSelectsRow.lzeFlush : EncodeSelectsRow.Statement .lzeFlush := by
  unfold EncodeSelectsRow.Statement
  decide

end Sys2Proof.Laws
end

