-- ==== Sys2Proof/Laws/Tokens.lean ====
section
/-! SUPPORT. Token sequences: sizes, bits, expansions and moves of appended sequences, and what a pending
copy stands for. -/

namespace Sys2Proof.Machine

open Config

@[simp] theorem tokensSize_nil : tokensSize [] = 0 := rfl

@[simp] theorem tokensSize_cons (t : Token) (ts : List Token) :
    tokensSize (t :: ts) = t.size + tokensSize ts := by simp [tokensSize]

@[simp] theorem tokensSize_append (ts us : List Token) :
    tokensSize (ts ++ us) = tokensSize ts + tokensSize us := by simp [tokensSize]

@[simp] theorem tokensBits_nil (mode : BitOrder) (c : LzConfig) : tokensBits mode c [] = [] := rfl

@[simp] theorem tokensBits_cons (mode : BitOrder) (c : LzConfig) (t : Token) (ts : List Token) :
    tokensBits mode c (t :: ts) = tokenBits mode c t ++ tokensBits mode c ts := by
  simp [tokensBits]

@[simp] theorem tokensBits_append (mode : BitOrder) (c : LzConfig) (ts us : List Token) :
    tokensBits mode c (ts ++ us) = tokensBits mode c ts ++ tokensBits mode c us := by
  simp [tokensBits]

@[simp] theorem expandTokens_nil (c : LzConfig) (out : List Byte) : expandTokens c out [] = out := rfl

@[simp] theorem expandTokens_cons (c : LzConfig) (out : List Byte) (t : Token) (ts : List Token) :
    expandTokens c out (t :: ts) = expandTokens c (expandToken c out t) ts := rfl

theorem expandTokens_append (c : LzConfig) (out : List Byte) (ts us : List Token) :
    expandTokens c out (ts ++ us) = expandTokens c (expandTokens c out ts) us := by
  simp [expandTokens]

@[simp] theorem length_copyBack (d m : Nat) (out : List Byte) :
    (copyBack d m out).length = out.length + m := by
  induction m generalizing out with
  | zero => rfl
  | succ m ih => simp [copyBack, ih]; omega

/-- A token appends as many bytes as its size says. -/
@[simp] theorem length_expandToken (c : LzConfig) (out : List Byte) (t : Token) :
    (expandToken c out t).length = out.length + t.size := by
  cases t <;> simp [expandToken, Token.size]

@[simp] theorem length_expandTokens (c : LzConfig) (out : List Byte) (ts : List Token) :
    (expandTokens c out ts).length = out.length + tokensSize ts := by
  induction ts generalizing out with
  | nil => rfl
  | cons t ts ih => simp [ih]; omega

@[simp] theorem sourceAfter_nil (c : LzConfig) (wpos csrc : Nat) : sourceAfter c wpos csrc [] = csrc :=
  rfl

@[simp] theorem sourceAfter_cons (c : LzConfig) (wpos csrc : Nat) (t : Token) (ts : List Token) :
    sourceAfter c wpos csrc (t :: ts) =
      sourceAfter c (t.move c (wpos, csrc)).1 (t.move c (wpos, csrc)).2 ts := rfl

/-- A token advances WPOS by its size. -/
theorem move_wpos (c : LzConfig) (p : Nat × Nat) (t : Token) :
    (t.move c p).1 = (p.1 + t.size) % c.wsize := by cases t <;> rfl

/-- With nothing left to copy there is no pending copy. -/
theorem pendingCopy_none {s : State} (h : s.lzd.crem = 0) : s.pendingCopy = [] := by
  simp [State.pendingCopy, h]

/-- A pending copy emits the CREM bytes that are left. -/
@[simp] theorem tokensSize_pendingCopy (s : State) : tokensSize s.pendingCopy = s.lzd.crem := by
  unfold State.pendingCopy
  split <;> simp_all [Token.size]

/-- The reference a pending copy stands for begins its copy at CSRC. -/
theorem source_pendingOffset {c : LzConfig} {wpos csrc : Nat} (hw : wpos < c.wsize)
    (hc : csrc < c.wsize) :
    c.source wpos ((wpos + c.wsize - csrc) % c.wsize) = csrc := by
  unfold LzConfig.source
  generalize c.wsize = w at *
  rw [Nat.mod_mod]
  by_cases h : csrc ≤ wpos
  · have e : (wpos + w - csrc) % w = wpos - csrc := by
      rw [show wpos + w - csrc = (wpos - csrc) + w by omega, Nat.add_mod_right,
        Nat.mod_eq_of_lt (by omega)]
    rw [e, show wpos + (w - (wpos - csrc)) = csrc + w by omega, Nat.add_mod_right,
      Nat.mod_eq_of_lt hc]
  · have e : (wpos + w - csrc) % w = wpos + w - csrc := Nat.mod_eq_of_lt (by omega)
    rw [e, show wpos + (w - (wpos + w - csrc)) = csrc by omega, Nat.mod_eq_of_lt hc]

end Sys2Proof.Machine
end

