-- ==== Sys2Proof/Tests/Slice0.lean ====
section
/-! SUPPORT. The model's own tests: ill-formed commands are refused, each command's word written out
from the spec's encoding decodes to it, and single steps give the values of the spec's examples. -/

namespace Sys2Proof.Tests

open Sys2Proof Sys2Proof.Machine Sys2Proof.Config

/-! ## Helpers -/

/-- The state a command leaves. -/
def after (a : Answer) : State :=
  match a with
  | .next t => t
  | .fault _ => State.reset
  | .refused _ => State.reset

/-- STATUS and RESULT of the last response. -/
def reply (a : Answer) : Nat × Nat :=
  match (after a).responses.getLast? with
  | none => (255, 0)
  | some r => (r.status.toNat, r.result.toNat)

/-- The reset state with these bytes on SRC, in one chunk. -/
def source (bytes : List Byte) : State :=
  { State.reset with src := { State.reset.src with pending := [bytes] } }

/-- `source`, read and written in LSB-first mode. -/
def sourceLsb (bytes : List Byte) : State :=
  { source bytes with br := { Br.reset with mode := .lsb }, bw := { Bw.reset with mode := .lsb } }

/-- LEN = [2, 1, 3, 3], as four pushes leave it (R155). -/
def loaded : Huf :=
  { Huf.reset with len := ⟨[(0, 2#8), (1, 1#8), (2, 3#8), (3, 3#8)]⟩, nsym := 4 }

/-- The table of LEN = [2, 1, 3, 3] as R155 works it out. -/
def table : Huf :=
  { loaded with
    hstate := .built
    count := ⟨[(1, 1#10), (2, 1#10), (3, 2#10)]⟩
    first := ⟨[(2, 2#17), (3, 6#17), (4, 16#17), (5, 32#17), (6, 64#17), (7, 128#17), (8, 256#17),
      (9, 512#17), (10, 1024#17), (11, 2048#17), (12, 4096#17), (13, 8192#17), (14, 16384#17),
      (15, 32768#17), (16, 65536#17)]⟩
    base := ⟨[(2, 1#10), (3, 2#10), (4, 4#10), (5, 4#10), (6, 4#10), (7, 4#10), (8, 4#10),
      (9, 4#10), (10, 4#10), (11, 4#10), (12, 4#10), (13, 4#10), (14, 4#10), (15, 4#10),
      (16, 4#10)]⟩
    sorted := ⟨[(0, 1#16), (2, 2#16), (3, 3#16)]⟩
    code := ⟨[(0, 2#16), (2, 6#16), (3, 7#16)]⟩
    ncodes := 4
    lmax := 3 }

/-- A state with this table. -/
def withTable (h : Huf) (s : State) : State := { s with huf := h }

/-- The toy window of R181: 2, 2, 2, 2, 5. -/
def toy : LzConfig := { wb := 2#5, ob := 2#5, lb := 2#5, min := 2#16, max := 5#16 }

/-- The toy decompressor after the one literal 0x61. -/
def oneLiteral : State :=
  { State.reset with
    lzd := { Lzd.reset with
      cfg := toy, win := ⟨[(0, 0x61#8)]⟩, wpos := 1, filled := 1
      outcnt := 1#64 }
    dout := { bytes := [0x61#8], room := none } }

/-- The toy decompressor with five literals A to E in its window of four (R190). -/
def fiveLiterals : State :=
  { State.reset with
    lzd := { Lzd.reset with
      cfg := toy, win := ⟨[(0, 0x45#8), (1, 0x42#8), (2, 0x43#8), (3, 0x44#8)]⟩, wpos := 1
      filled := 4, outcnt := 5#64 }
    dout := { bytes := [0x41#8, 0x42#8, 0x43#8, 0x44#8, 0x45#8], room := none } }

/-! ## Ill-formed commands, one for each check of WellFormed -/

theorem test_rdsr_28_illFormed : WellFormed (.sysRdsr 28#8) = false := by decide
theorem test_read_33_illFormed : WellFormed (.brRead 33#6) = false := by decide
theorem test_write_33_illFormed : WellFormed (.bwWrite 33#6 0#32) = false := by decide
theorem test_lzdInit_wb0_illFormed : WellFormed (.lzdInit 0#5 1#5 4#5 3#16 18#16) = false := by
  decide
theorem test_lzdInit_wb17_illFormed : WellFormed (.lzdInit 17#5 1#5 4#5 3#16 18#16) = false := by
  decide
theorem test_lzdInit_ob0_illFormed : WellFormed (.lzdInit 12#5 0#5 4#5 3#16 18#16) = false := by
  decide
theorem test_lzdInit_ob_above_wb_illFormed :
    WellFormed (.lzdInit 12#5 13#5 4#5 3#16 18#16) = false := by decide
theorem test_lzeInit_lb17_illFormed : WellFormed (.lzeInit 12#5 12#5 17#5 3#16 18#16) = false := by
  decide
theorem test_lzeInit_min_above_max_illFormed :
    WellFormed (.lzeInit 12#5 12#5 4#5 19#16 18#16) = false := by decide
theorem test_lzeInit_span_illFormed : WellFormed (.lzeInit 12#5 12#5 4#5 3#16 19#16) = false := by
  decide
theorem test_wellFormed_edges :
    WellFormed (.sysRdsr 27#8) = true ∧ WellFormed (.brRead 32#6) = true ∧
      WellFormed (.lzdInit 16#5 16#5 16#5 0#16 65535#16) = true := by decide

/-! ## Words written out from R95: one for each command -/

theorem test_decode_sysNop : decode 0xDEADBEEF00000000#64 = .ok .sysNop := by decide
theorem test_decode_sysReset : decode 0x0000000001000000#64 = .ok .sysReset := by decide
theorem test_decode_sysRdsr : decode 0x0000000002000012#64 = .ok (.sysRdsr 18#8) := by decide
theorem test_decode_brInit : decode 0x0000000010000001#64 = .ok (.brInit .lsb) := by decide
theorem test_decode_brGetbit : decode 0x0000000011000000#64 = .ok .brGetbit := by decide
theorem test_decode_brRead : decode 0x0000000012000020#64 = .ok (.brRead 32#6) := by decide
theorem test_decode_bwInit : decode 0x0000000020000000#64 = .ok (.bwInit .msb) := by decide
theorem test_decode_bwPutbit : decode 0x0000000021000001#64 = .ok (.bwPutbit true) := by decide
theorem test_decode_bwWrite :
    decode 0x1234567822000020#64 = .ok (.bwWrite 32#6 0x12345678#32) := by decide
theorem test_decode_bwFlush : decode 0x0000000023000000#64 = .ok .bwFlush := by decide
theorem test_decode_hufClear : decode 0x0000000030000000#64 = .ok .hufClear := by decide
theorem test_decode_hufPush : decode 0x00000000310000FF#64 = .ok (.hufPush 255#8) := by decide
theorem test_decode_hufBuild : decode 0x0000000032000000#64 = .ok .hufBuild := by decide
theorem test_decode_hufGetsym : decode 0x0000000033000000#64 = .ok .hufGetsym := by decide
theorem test_decode_hufFpush : decode 0x8000000534000000#64 = .ok (.hufFpush 0x80000005#32) := by
  decide
theorem test_decode_hufMkenc : decode 0x0000000035000000#64 = .ok .hufMkenc := by decide
theorem test_decode_hufPutsym : decode 0x0000000036008001#64 = .ok (.hufPutsym 0x8001#16) := by
  decide
theorem test_decode_hufSetdef : decode 0x0000000037000002#64 = .ok (.hufSetdef 2#16) := by decide
theorem test_decode_hufRdlen : decode 0x0000000038000003#64 = .ok (.hufRdlen 3#16) := by decide
theorem test_decode_lzdInit :
    decode 0x0005000240000842#64 = .ok (.lzdInit 2#5 2#5 2#5 2#16 5#16) := by decide
theorem test_decode_lzdLit : decode 0x0000000041000061#64 = .ok (.lzdLit 0x61#8) := by decide
theorem test_decode_lzdRef : decode 0x0004000142000000#64 = .ok (.lzdRef 1#16 4#16) := by decide
theorem test_decode_lzdStep : decode 0x0000000043000000#64 = .ok .lzdStep := by decide
theorem test_decode_lzdRun : decode 0x0000000A44000000#64 = .ok (.lzdRun 10#32) := by decide
theorem test_decode_lzeInit :
    decode 0x001200035000118C#64 = .ok (.lzeInit 12#5 12#5 4#5 3#16 18#16) := by decide
theorem test_decode_lzeLit : decode 0x0000000051000061#64 = .ok (.lzeLit 0x61#8) := by decide
theorem test_decode_lzeRef : decode 0x0006000352000000#64 = .ok (.lzeRef 3#16 6#16) := by decide
theorem test_decode_lzeFlush : decode 0x0000000053000000#64 = .ok .lzeFlush := by decide
theorem test_decode_mustBeZero : decode 0x0000000012000100#64 = .error .mustBeZero := by decide
theorem test_decode_reservedOp : decode 0x0000000003000000#64 = .error .reservedOp := by decide
theorem test_decode_reservedUnit : decode 0x0000000060000000#64 = .error .reservedUnit := by decide

/-! ## Single steps (expected values: the examples of the command rules) -/

/-- R120. -/
theorem test_nop : reply (exec .sysNop State.reset) = (0, 0) := by decide
/-- R121: after BW.WRITE 8, 0xAB. -/
theorem test_reset_drops_pending_bytes :
    after (exec .sysReset { State.reset with bw := { Bw.reset with
      wlen := 1, wbuf := ⟨[(0, 0xAB#8)]⟩, wbits := 8#64 } }) =
    { State.reset with
      bw := { Bw.reset with wbuf := ⟨[(0, 0xAB#8)]⟩ }
      responses := [⟨0#32, 0#32⟩] } := by
  decide
/-- R122. -/
theorem test_rdsr : reply (exec (.sysRdsr 0#8) State.reset) = (0, 0x48424331) ∧
    reply (exec (.sysRdsr 18#8) State.reset) = (0, 0x118C) ∧
    reply (exec (.sysRdsr 28#8) State.reset) = (2, 0) := by decide
/-- R130: afterwards register 4 reads 1. -/
theorem test_brInit :
    statusRegister (after (exec (.brInit .lsb) (source [0xA5#8]))) 4 = 1#32 := by decide
/-- R133: SRC = 80 gives 1 MSB-first and 0 LSB-first. -/
theorem test_getbit : reply (exec .brGetbit (source [0x80#8])) = (0, 1) ∧
    reply (exec .brGetbit (sourceLsb [0x80#8])) = (0, 0) := by decide
/-- R133: an exhausted source faults E_EOS and sets REOF. -/
theorem test_getbit_eos : reply (exec .brGetbit State.reset) = (16, 0) ∧
    (after (exec .brGetbit State.reset)).br.reof = true := by decide
/-- R134. -/
theorem test_read : reply (exec (.brRead 32#6) (source [0x12#8, 0x34#8, 0x56#8, 0x78#8])) =
      (0, 0x12345678) ∧
    reply (exec (.brRead 32#6) (sourceLsb [0x12#8, 0x34#8, 0x56#8, 0x78#8])) = (0, 0x78563412) := by
  decide
/-- R136: SRC = FF, five bits read, five more asked. -/
theorem test_read_past_end :
    reply (exec (.brRead 5#6) { State.reset with br := { Br.reset with
      rbuf := ⟨[(0, 0xFF#8)]⟩, rlen := 1, rpos := 1, rcur := 0xE0#8, rcnt := 3, rbits := 5#64
      rpull := 1#64 } }) = (16, 0) ∧
    (after (exec (.brRead 5#6) { State.reset with br := { Br.reset with
      rbuf := ⟨[(0, 0xFF#8)]⟩, rlen := 1, rpos := 1, rcur := 0xE0#8, rcnt := 3, rbits := 5#64
      rpull := 1#64 } })).br.rbits = 8#64 := by decide
/-- R137: a sticky BW.ERR is cleared. -/
theorem test_bwInit : (after (exec (.bwInit .lsb)
    { State.reset with bw := { Bw.reset with err := some .snk, wlen := 9 } })).bw =
    { Bw.reset with mode := .lsb } := by decide
/-- R142. -/
theorem test_putbit :
    (after (exec (.bwPutbit true) State.reset)).bw.wcur = 0x80#8 ∧
    (after (exec (.bwPutbit true) (sourceLsb []))).bw.wcur = 0x01#8 ∧
    (after (exec (.bwPutbit true) State.reset)).bw.wcnt = 1 := by decide
/-- R142: the bit that fills the buffer when SNK answers Err faults, and is counted. -/
theorem test_putbit_snk_err :
    reply (exec (.bwPutbit true) { State.reset with
      bw := { Bw.reset with wlen := 4095, wcnt := 7 }
      snk := { State.reset.snk with otherwise := .err } }) = (18, 0) := by decide
/-- R143: BW.WRITE 3, 0xFD writes 1, 0, 1. -/
theorem test_write : (after (exec (.bwWrite 3#6 0xFD#32) State.reset)).bw.wcur = 0xA0#8 := by decide
/-- R143: one bit 1, then BW.WRITE 7, 0x55 completes a byte AB in LSB-first mode. -/
theorem test_write_completes_byte :
    (after (exec (.bwWrite 7#6 0x55#32) { State.reset with
      bw := { Bw.reset with mode := .lsb, wcur := 1#8, wcnt := 1 } })).bw.wbuf =
      ⟨[(0, 0xAB#8)]⟩ := by decide
/-- R141, R143: bits 1 010 1010101, then Flush delivers AA A0. -/
theorem test_flush : (after (exec .bwFlush { State.reset with bw := { Bw.reset with
    wbuf := ⟨[(0, 0xAA#8)]⟩, wlen := 1, wcur := 0xA0#8, wcnt := 3, wbits := 11#64 } })).snk.accepted =
    [[0xAA#8, 0xA0#8]] := by decide
/-- R144: an empty stream flushes to an empty SNK. -/
theorem test_flush_empty : (after (exec .bwFlush State.reset)).snk.calls = 0 := by decide
/-- R151: HUFSR reads 0 after a failed build and HUF.CLEAR. -/
theorem test_clear : statusRegister (after (exec .hufClear
    (withTable { loaded with err := some .hufOversub } State.reset))) 14 = 0#32 := by decide
/-- R152. -/
theorem test_push : reply (exec (.hufPush 2#8) State.reset) = (0, 0) ∧
    (after (exec (.hufPush 2#8) State.reset)).huf.nsym = 1 := by decide
/-- R226: HUF.PUSH in BUILT with NSYM = 512 answers 3. -/
theorem test_push_state_before_full :
    reply (exec (.hufPush 3#8) (withTable { table with nsym := 512 } State.reset)) = (3, 0) := by
  decide
/-- R153, R155: the worked table. -/
theorem test_build : (after (exec .hufBuild (withTable loaded State.reset))).huf = table := by
  decide
/-- R156: LEN = [1, 1, 2] is over-subscribed at length 2. -/
theorem test_build_oversub : reply (exec .hufBuild (withTable { loaded with
    len := ⟨[(0, 1#8), (1, 1#8), (2, 2#8)]⟩, nsym := 3 } State.reset)) = (20, 0) := by decide
/-- R159: SRC = 5B 80 MSB-first begins with the code of symbol 1, SRC = DA 01 LSB-first too. -/
theorem test_getsym :
    reply (exec .hufGetsym (withTable table (source [0x5B#8, 0x80#8]))) = (0, 1) ∧
    reply (exec .hufGetsym (withTable table (sourceLsb [0xDA#8, 0x01#8]))) = (0, 1) := by decide
/-- R161: a table with no codes decodes to DEFSYM and reads nothing. -/
theorem test_getsym_defsym : reply (exec .hufGetsym
    (withTable { Huf.reset with hstate := .built, nsym := 3, defsym := 2#16 } State.reset)) =
    (0, 2) := by decide
/-- R162. -/
theorem test_fpush : reply (exec (.hufFpush 5#32) State.reset) = (0, 0) ∧
    (after (exec (.hufFpush 5#32) State.reset)).huf.freq = ⟨[(0, 5#32)]⟩ := by decide
/-- R163: FREQ = [5, 1, 1, 2] gives LEN = [1, 3, 3, 2]. -/
theorem test_mkenc : reply (exec .hufMkenc (withTable { Huf.reset with
      freq := ⟨[(0, 5#32), (1, 1#32), (2, 1#32), (3, 2#32)]⟩, nfreq := 4 } State.reset)) = (0, 4) ∧
    (after (exec .hufMkenc (withTable { Huf.reset with
      freq := ⟨[(0, 5#32), (1, 1#32), (2, 1#32), (3, 2#32)]⟩, nfreq := 4 } State.reset))).huf.len =
      ⟨[(0, 1#8), (1, 3#8), (2, 3#8), (3, 2#8)]⟩ := by decide
/-- R165: FREQ = [1, 1, 2] gives LEN = [2, 2, 1]: the leaf before the node on the tie. -/
theorem test_mkenc_tie : (after (exec .hufMkenc (withTable { Huf.reset with
    freq := ⟨[(0, 1#32), (1, 1#32), (2, 2#32)]⟩, nfreq := 3 } State.reset))).huf.len =
    ⟨[(0, 2#8), (1, 2#8), (2, 1#8)]⟩ := by decide
/-- R169: symbol 2 is 110, in both modes the first bit first. -/
theorem test_putsym : reply (exec (.hufPutsym 2#16) (withTable table State.reset)) = (0, 3) ∧
    (after (exec (.hufPutsym 2#16) (withTable table State.reset))).bw.wcur = 0xC0#8 ∧
    (after (exec (.hufPutsym 2#16) (withTable table (sourceLsb [])))).bw.wcur = 0x03#8 := by decide
/-- R169: a symbol beyond the table. -/
theorem test_putsym_nosym :
    reply (exec (.hufPutsym 4#16) (withTable table State.reset)) = (4, 0) := by decide
/-- R161. -/
theorem test_setdef : (after (exec (.hufSetdef 0xFFFF#16) State.reset)).huf.defsym = 0xFFFF#16 := by
  decide
/-- R171. -/
theorem test_rdlen : reply (exec (.hufRdlen 0#16) (withTable table State.reset)) = (0, 0x202) ∧
    reply (exec (.hufRdlen 3#16) (withTable table State.reset)) = (0, 0x703) ∧
    reply (exec (.hufRdlen 4#16) (withTable table State.reset)) = (2, 0) := by decide
/-- R181: a rejected INIT changes nothing. -/
theorem test_lzdInit : (after (exec (.lzdInit 2#5 2#5 2#5 2#16 5#16) oneLiteral)).lzd =
      { Lzd.reset with cfg := toy, win := ⟨[(0, 0x61#8)]⟩ } ∧
    (after (exec (.lzdInit 0#5 0#5 2#5 2#16 5#16) oneLiteral)).lzd = oneLiteral.lzd := by decide
/-- R192. -/
theorem test_lzdLit : reply (exec (.lzdLit 0x61#8) State.reset) = (0, 1) ∧
    (after (exec (.lzdLit 0x61#8) State.reset)).dout.bytes = [0x61#8] := by decide
/-- R193: LZD.REF 1, 4 after one literal. -/
theorem test_lzdRef : reply (exec (.lzdRef 1#16 4#16) oneLiteral) = (0, 4) ∧
    (after (exec (.lzdRef 1#16 4#16) oneLiteral)).dout.bytes =
      [0x61#8, 0x61#8, 0x61#8, 0x61#8, 0x61#8] := by decide
/-- R190: offset 0 is the distance WSIZE; a distance beyond the data faults. -/
theorem test_lzdRef_distance :
    (after (exec (.lzdRef 0#16 3#16) fiveLiterals)).dout.bytes.drop 5 = [0x42#8, 0x43#8, 0x44#8] ∧
    reply (exec (.lzdRef 2#16 3#16) oneLiteral) = (23, 0) := by decide
/-- R194: the first token of 30 98 .. is the literal 0x61. -/
theorem test_lzdStep : reply (exec .lzdStep (source [0x30#8, 0x98#8])) = (0, 1) ∧
    (after (exec .lzdStep (source [0x30#8, 0x98#8]))).dout.bytes = [0x61#8] := by decide
/-- R195: configuration 4, 4, 3, 3, 8: a reference with L = 7 after one literal. -/
theorem test_lzdStep_range : reply (exec .lzdStep { source [0x8F#8, 0x00#8] with
    lzd := { Lzd.reset with cfg := { wb := 4#5, ob := 4#5, lb := 3#5, min := 3#16, max := 8#16 } } }) =
    (22, 0) := by decide
/-- R196: LZD.RUN 5 stops inside the reference with CSRC = 2 and CREM = 4. -/
theorem test_lzdRun : reply (exec (.lzdRun 5#32)
      (source [0x30#8, 0x98#8, 0x8C#8, 0x70#8, 0x03#8, 0x33#8, 0x20#8])) = (0, 5) ∧
    statusRegister (after (exec (.lzdRun 5#32)
      (source [0x30#8, 0x98#8, 0x8C#8, 0x70#8, 0x03#8, 0x33#8, 0x20#8]))) 22 =
      0x00040002#32 := by decide
/-- R196: LZD.RUN 10 ends at bit 53, before the padding. -/
theorem test_lzdRun_whole : (after (exec (.lzdRun 10#32)
    (source [0x30#8, 0x98#8, 0x8C#8, 0x70#8, 0x03#8, 0x33#8, 0x20#8]))).br.rbits =
    53#64 := by decide
/-- R199. -/
theorem test_lzeInit : (after (exec (.lzeInit 2#5 2#5 2#5 2#16 5#16)
    { State.reset with lze := { Lze.reset with err := some .snk, estate := .flushing } })).lze =
    { Lze.reset with cfg := toy } := by decide
/-- R200: LZE.LIT 0x61 writes 0 0110 0001. -/
theorem test_lzeLit : reply (exec (.lzeLit 0x61#8) State.reset) = (0, 9) ∧
    (after (exec (.lzeLit 0x61#8) State.reset)).bw.wbuf = ⟨[(0, 0x30#8)]⟩ ∧
    (after (exec (.lzeLit 0x61#8) State.reset)).bw.wcur = 0x80#8 := by decide
/-- R201: LZE.REF 3, 6 writes 1 000000000011 0011. -/
theorem test_lzeRef : reply (exec (.lzeRef 3#16 6#16) State.reset) = (0, 17) ∧
    (after (exec (.lzeRef 3#16 6#16) State.reset)).bw.wbuf = ⟨[(0, 0x80#8), (1, 0x19#8)]⟩ ∧
    (after (exec (.lzeRef 3#16 6#16) State.reset)).bw.wcur = 0x80#8 := by decide
/-- R201: a length below MIN. -/
theorem test_lzeRef_short : reply (exec (.lzeRef 3#16 2#16) State.reset) = (2, 0) := by decide
/-- R202, R203: a flush that faults leaves ESTATE Flushing and sets both ERR fields. -/
theorem test_lzeFlush_err :
    reply (exec .lzeFlush { State.reset with
      bw := { Bw.reset with wcnt := 5 }
      snk := { State.reset.snk with otherwise := .err } }) = (18, 0) ∧
    (after (exec .lzeFlush { State.reset with
      bw := { Bw.reset with wcnt := 5 }
      snk := { State.reset.snk with otherwise := .err } })).lze =
      { Lze.reset with estate := .flushing, err := some .snk } := by decide

/-! ## The step -/

/-- R97: an illegal beat is answered 1, a legal one is run, no beat leaves the state alone. -/
theorem test_step :
    reply (step { State.reset with cmds := [0x0000000060000000#64] }) = (1, 0) ∧
    reply (step (State.reset.withFetchWord 32 0x02000000)) = (0, 0x48424331) ∧
    after (step State.reset) = State.reset := by decide

end Sys2Proof.Tests
end

