-- ==== Sys2Proof/Tests/Witness.lean ====
section
/-! SUPPORT. For each statement of Certificates/Slice0/Obligations.lean that has hypotheses, concrete
states and operands that meet them together, clause by clause, at a boundary where there is one. -/

namespace Sys2Proof.Tests

open Sys2Proof Sys2Proof.Machine Sys2Proof.Config

/-! ## Concrete states with the invariants -/

theorem test_brInv_reset : Br.reset.Inv :=
  ⟨by decide, by decide, by decide, by decide, by decide, by decide, by decide, by decide⟩

/-- A reader in the middle of a byte: SRC = FF, five bits consumed (R136). -/
def midByte : State :=
  { State.reset with br := { Br.reset with
      rbuf := ⟨[(0, 0xFF#8)]⟩, rlen := 1, rpos := 1, rcur := 0xE0#8, rcnt := 3, rbits := 5#64
      rpull := 1#64 } }

theorem test_brInv_midByte : midByte.br.Inv :=
  ⟨by decide, by decide, by decide, by decide, by decide, by decide, by decide, by decide⟩

/-- The same reader, failed at the end of SRC. -/
def failedReader : State :=
  { midByte with br := { midByte.br with
      rcur := 0#8, rcnt := 0, rbits := 8#64, reof := true, err := some .eos } }

theorem test_brInv_failedReader : failedReader.br.Inv :=
  ⟨by decide, by decide, by decide, by decide, by decide, by decide, by decide, by decide⟩

theorem test_bwInv_reset : Bw.reset.Inv :=
  ⟨by decide, by decide, by decide, by decide, by decide, by decide⟩

/-- A writer one bit short of a full block. -/
def nearlyFull : State := { State.reset with bw := { Bw.reset with wlen := 4095, wcnt := 7 } }

theorem test_bwInv_nearlyFull : nearlyFull.bw.Inv :=
  ⟨by decide, by decide, by decide, by decide, by decide, by decide⟩

/-- A writer that holds one byte and three bits (R143). -/
def partlyWritten : State :=
  { State.reset with bw := { Bw.reset with
      wbuf := ⟨[(0, 0xAA#8)]⟩, wlen := 1, wcur := 0xA0#8, wcnt := 3, wbits := 11#64 } }

theorem test_bwInv_partlyWritten : partlyWritten.bw.Inv :=
  ⟨by decide, by decide, by decide, by decide, by decide, by decide⟩

/-- SNK answers this to every call. -/
def withSnk (a : SnkAnswer) (s : State) : State :=
  { s with snk := { State.reset.snk with otherwise := a } }

/-- SRC ends so. -/
def withEnding (e : SrcEnd) (s : State) : State := { s with src := { s.src with ending := e } }

theorem test_writerReady_full : (withSnk .ok nearlyFull).WriterReady 1 :=
  ⟨rfl, test_bwInv_nearlyFull, .inr rfl⟩

theorem test_writerReady_reset (n : Nat) (h : n < 8 * BUFSZ) : State.reset.WriterReady n :=
  ⟨rfl, test_bwInv_reset, .inl (by simpa [State.reset, Bw.reset] using h)⟩

theorem test_hufInv_loaded : loaded.Inv :=
  ⟨by decide, by decide, by decide, by decide, fun h => absurd h (by decide)⟩

theorem test_legal_loaded : loaded.LengthsLegal := by
  show ∀ sym < 4, loaded.lenOf sym ≤ 16
  decide

theorem test_notOversub_loaded : loaded.NotOversubscribed := by
  intro l h1 h2
  have h3 : l ≤ 16 := h2
  interval_cases l <;> decide

theorem test_canonical_table : table.Canonical where
  lengthsLegal := by show ∀ sym < 4, table.lenOf sym ≤ 16; decide
  notOversubscribed := by
    intro l h1 h2
    have h3 : l ≤ 16 := h2
    interval_cases l <;> decide
  count := by
    intro l h1 h2
    have h3 : l ≤ 16 := h2
    interval_cases l <;> decide
  first := by
    intro l h1 h2
    have h3 : l ≤ 16 := h2
    interval_cases l <;> decide
  base := by
    intro l h1 h2
    have h3 : l ≤ 16 := h2
    interval_cases l <;> decide
  code := by
    show ∀ sym < 4, 0 < table.lenOf sym → (table.code.read sym).toNat = table.canonicalCode sym
    decide
  sorted := by
    show ∀ sym < 4, 0 < table.lenOf sym →
      (table.sorted.read (table.baseOf (table.lenOf sym) + table.rank sym)).toNat = sym
    decide
  ncodes := by decide
  lmaxUpper := by show ∀ sym < 4, table.lenOf sym ≤ 3; decide
  lmaxReached := .inr ⟨2, by decide, by decide⟩

theorem test_hufInv_table : table.Inv :=
  ⟨by decide, by decide, by decide, fun h => absurd h (by decide), fun _ => test_canonical_table⟩

/-- Frequencies 5, 1, 1, 2 (R163). -/
def frequencies : Huf :=
  { Huf.reset with freq := ⟨[(0, 5#32), (1, 1#32), (2, 1#32), (3, 2#32)]⟩, nfreq := 4 }

theorem test_hufInv_frequencies : frequencies.Inv :=
  ⟨by decide, by decide, by decide, by decide, fun h => absurd h (by decide)⟩

/-- Frequencies 0, 7, 0 (R166). -/
def oneFrequency : Huf := { Huf.reset with freq := ⟨[(1, 7#32)]⟩, nfreq := 3 }

theorem test_hufInv_oneFrequency : oneFrequency.Inv :=
  ⟨by decide, by decide, by decide, by decide, fun h => absurd h (by decide)⟩

/-- The smallest case of R167: 18 frequencies 1, 1, 2, 3, .., 2584. -/
def deepFrequencies : Huf :=
  { Huf.reset with
    freq := ⟨[(0, 1#32), (1, 1#32), (2, 2#32), (3, 3#32), (4, 5#32), (5, 8#32), (6, 13#32),
      (7, 21#32), (8, 34#32), (9, 55#32), (10, 89#32), (11, 144#32), (12, 233#32), (13, 377#32),
      (14, 610#32), (15, 987#32), (16, 1597#32), (17, 2584#32)]⟩
    nfreq := 18 }

theorem test_hufInv_deepFrequencies : deepFrequencies.Inv :=
  ⟨by decide, by decide, by decide, by decide, fun h => absurd h (by decide)⟩

/-- R167: the deepest leaf of that case lies at depth 17. -/
theorem test_deepFrequencies : (0, 17) ∈ deepFrequencies.mergeDepths := by decide

theorem test_lzdInv_oneLiteral : oneLiteral.LzdInv where
  cfgOk := by decide
  canonical := by decide
  bounded := by decide
  wposEq := by decide
  filledEq := .inl (by decide)
  csrcLt := by decide
  cremLe := by decide
  copyIff := by decide
  copySource := by decide
  filledLe := by decide
  history := by
    intro k h1 h2
    have h3 : k ≤ 1 := h2
    interval_cases k; decide

/-- The toy decompressor with `Reference(1, 3)` started and nothing copied yet. -/
def copying : State :=
  { oneLiteral with lzd := { oneLiteral.lzd with csrc := 0, crem := 3, dstate := .copy } }

theorem test_lzdInv_copying : copying.LzdInv where
  cfgOk := by decide
  canonical := by decide
  bounded := by decide
  wposEq := by decide
  filledEq := .inl (by decide)
  csrcLt := by decide
  cremLe := by decide
  copyIff := by decide
  copySource := by decide
  filledLe := by decide
  history := by
    intro k h1 h2
    have h3 : k ≤ 1 := h2
    interval_cases k; decide

/-- The toy decompressor at its terminator. -/
def finished : State := { oneLiteral with lzd := { oneLiteral.lzd with dstate := .done } }

theorem test_lzdInv_finished : finished.LzdInv where
  cfgOk := by decide
  canonical := by decide
  bounded := by decide
  wposEq := by decide
  filledEq := .inl (by decide)
  csrcLt := by decide
  cremLe := by decide
  copyIff := by decide
  copySource := by decide
  filledLe := by decide
  history := by
    intro k h1 h2
    have h3 : k ≤ 1 := h2
    interval_cases k; decide

theorem test_lzdInv_reset : State.reset.LzdInv where
  cfgOk := by decide
  canonical := by decide
  bounded := by decide
  wposEq := by decide
  filledEq := .inl (by decide)
  csrcLt := by decide
  cremLe := by decide
  copyIff := by decide
  copySource := by decide
  filledLe := by decide
  history := by
    intro k h1 h2
    have h3 : k ≤ 0 := h2
    omega

/-- The toy decompressor after one literal, with these bytes on SRC. -/
def toySource (bytes : List Byte) : State := { oneLiteral with src := (source bytes).src }

/-- The decompressor's invariant reads LZD and DOUT alone. -/
theorem test_lzdInv_of {s t : State} (h : s.LzdInv) (hl : t.lzd = s.lzd) (hd : t.dout = s.dout) :
    t.LzdInv := by
  cases s; cases t; subst hl; subst hd
  exact ⟨h.1, h.2, h.3, h.4, h.5, h.6, h.7, h.8, h.9, h.10, h.11⟩

theorem test_lzdInv_toySource (bytes : List Byte) : (toySource bytes).LzdInv :=
  test_lzdInv_of test_lzdInv_oneLiteral rfl rfl

/-- `copying` with these bytes on SRC. -/
def copyingSource (bytes : List Byte) : State := { copying with src := (source bytes).src }

theorem test_lzdInv_copyingSource (bytes : List Byte) : (copyingSource bytes).LzdInv :=
  test_lzdInv_of test_lzdInv_copying rfl rfl

/-- The toy decompressor after one literal, with MAX cut to `max` and MIN set to `min`. -/
def bounded (min max : BitVec 16) (bytes : List Byte) : State :=
  { toySource bytes with lzd := { oneLiteral.lzd with cfg := { toy with min := min, max := max } } }

theorem test_lzdInv_bounded (min max : BitVec 16) (bytes : List Byte)
    (h : LzConfig.ok { toy with min := min, max := max } = true) :
    (bounded min max bytes).LzdInv :=
  ⟨h, test_lzdInv_oneLiteral.2, test_lzdInv_oneLiteral.3, test_lzdInv_oneLiteral.4,
    test_lzdInv_oneLiteral.5, test_lzdInv_oneLiteral.6, test_lzdInv_oneLiteral.7,
    test_lzdInv_oneLiteral.8, test_lzdInv_oneLiteral.9, test_lzdInv_oneLiteral.10,
    test_lzdInv_oneLiteral.11⟩

/-- BR has failed with E_SRC. -/
def readerFailed (s : State) : State := { s with br := { s.br with err := some .src } }

/-- BW has failed with E_SNK. -/
def writerFailed (s : State) : State := { s with bw := { s.bw with err := some .snk } }

theorem test_errInv_reset : State.reset.ErrInv := by
  intro u c h
  cases u <;> cases h

theorem test_lzeInv_reset : Lze.reset.Inv := ⟨by decide, fun h => absurd h (by decide)⟩

/-! ## The encoding and the step -/

theorem test_witness_StepRunsTheDecodedCommand :
    (source []).waiting = none ∧
      { State.reset with cmds := [0x0000000A44000000#64] }.cmds = 0x0000000A44000000#64 :: [] ∧
      decode 0x0000000A44000000#64 = .ok (.lzdRun 10#32) := by decide

theorem test_witness_IdleOrWaitingBlockKeepsItsState :
    State.reset.cmds = [] ∧ { State.reset with waiting := some Stream.src }.waiting ≠ none ∧
      oneLiteral.lzd.err = none ∧ oneLiteral.lzd.dstate = .ready ∧
      { oneLiteral with dout := { bytes := [0x61#8], room := some 0 } }.dout.takes 1 = false := by
  decide

theorem test_witness_IllegalBeatIsRejected :
    (∀ r ∈ opcodeMap, r.selects (cmdOf 0x0000000012000100#64) = false) ∧
      (∀ r ∈ opcodeMap, r.selects (cmdOf 0x0000000039000000#64) = false) ∧
      (∀ r ∈ opcodeMap, r.selects (cmdOf 0x0000000060000000#64) = false) ∧
      State.reset.waiting = none := by decide

theorem test_witness_EncodeDecodeRoundTrip :
    decode 0xDEADBEEF00000000#64 = .ok .sysNop ∧
      decode 0x0005000240000842#64 = .ok (.lzdInit 2#5 2#5 2#5 2#16 5#16) := by decide

theorem test_witness_DecodeFollowsTheOpcodeMap :
    decode 0x0000000038000003#64 = .ok (.hufRdlen 3#16) ∧
      cmdOf 0x0000000038000003#64 = cmdOf 0xFFFFFFFF38000003#64 ∧
      (Instr.hufRdlen 3#16).row ∈ opcodeMap ∧
      (Instr.hufRdlen 3#16).row.selects 0x38000003#32 = true := by decide

theorem test_witness_ArgIsIgnoredInFormatsNAndI :
    decode 0#64 = .ok .sysNop ∧ Instr.sysNop.row.format = .n ∧
      cmdOf 0xDEADBEEF00000000#64 = cmdOf 0#64 ∧
      decode 0x0000000012000020#64 = .ok (.brRead 32#6) ∧ (Instr.brRead 32#6).row.format = .i ∧
      cmdOf 0xDEADBEEF12000020#64 = cmdOf 0x0000000012000020#64 ∧
      State.reset.waiting = none := by decide

/-! ## The whole machine -/

theorem test_witness_StickyErrorFields :
    failedReader.err (Instr.brRead 0#6).unit = some .eos ∧ (Instr.brRead 0#6).isInit = false ∧
      ∃ t, exec .brGetbit State.reset = .next t ∧ t.err .br ≠ State.reset.err .br :=
  ⟨rfl, rfl, _, rfl, by decide⟩

theorem test_witness_RejectedCommandsChangeNothing :
    ∃ t, exec (.brRead 33#6) State.reset = .next t ∧
      t.responses = State.reset.responses ++ [⟨0#32, 2#32⟩] ∧ 2#32 = RejectCode.operand.num :=
  ⟨_, rfl, rfl, rfl⟩

theorem test_witness_FaultLatchesBothErrFields :
    (withTable table State.reset).ErrInv ∧
      (withTable table State.reset).err Instr.hufGetsym.unit = none ∧
      ∃ t, exec .hufGetsym (withTable table State.reset) = .next t ∧
        t.responses = (withTable table State.reset).responses ++ [⟨0#32, 16#32⟩] ∧
        16#32 = FaultCode.eos.num := by
  refine ⟨?_, rfl, _, rfl, rfl, rfl⟩
  intro u c h
  cases u <;> cases h

theorem test_witness_FaultLatchesBothErrFields_reader :
    (readerFailed (withTable table State.reset)).br.err = some .src ∧ table.err = none ∧
      table.hstate = .built ∧ table.Inv ∧ 0 < table.ncodes ∧
      (readerFailed oneLiteral).br.err = some .src ∧ (readerFailed oneLiteral).lzd.err = none ∧
      (readerFailed oneLiteral).lzd.dstate = .ready ∧ (readerFailed oneLiteral).LzdInv ∧
      (readerFailed oneLiteral).lzd.crem < (1#32).toNat ∧
      (readerFailed copying).lzd.dstate ≠ .done ∧ (readerFailed copying).LzdInv ∧
      (readerFailed copying).lzd.crem < (4#32).toNat ∧
      (readerFailed copying).dout.takes (readerFailed copying).lzd.crem = true :=
  ⟨rfl, rfl, rfl, test_hufInv_table, by decide, rfl, rfl, rfl,
    test_lzdInv_of test_lzdInv_oneLiteral rfl rfl, by decide, by decide,
    test_lzdInv_of test_lzdInv_copying rfl rfl, by decide, rfl⟩

theorem test_witness_FaultLatchesBothErrFields_writer :
    (writerFailed (withTable table State.reset)).bw.err = some .snk ∧
      (2#16).toNat < table.nsym ∧ 0 < table.lenOf (2#16).toNat ∧
      (writerFailed State.reset).lze.err = none ∧ (writerFailed State.reset).lze.estate = .idle ∧
      (4095#16).toNat < 2 ^ State.reset.lze.cfg.ob.toNat ∧
      State.reset.lze.cfg.min.toNat ≤ (3#16).toNat ∧
      (18#16).toNat ≤ State.reset.lze.cfg.max.toNat := by decide

theorem test_witness_OutOfRangeOperandsAreRejected :
    WellFormed (.sysRdsr 28#8) = false ∧ State.reset.err (Instr.sysRdsr 28#8).unit = none ∧
      WellFormed (.lzeInit 0#5 1#5 4#5 3#16 18#16) = false ∧
      (Instr.lzeInit 0#5 1#5 4#5 3#16 18#16).isInit = true := by decide

theorem test_witness_CommandsKeepToTheirUnits :
    (∃ t, exec (.lzdLit 0x61#8) State.reset = .next t) ∧ readsBits (.lzdLit 0x61#8) = false ∧
      resetsReader (.lzdLit 0x61#8) = false ∧ writesBits (.lzdLit 0x61#8) = false ∧
      resetsWriter (.lzdLit 0x61#8) = false ∧ (Instr.lzdLit 0x61#8).unit ≠ .huf ∧
      (Instr.lzdLit 0x61#8).unit ≠ .lze ∧ Instr.brGetbit.unit ≠ .lzd ∧
      Instr.brGetbit ≠ .sysReset := by
  refine ⟨⟨_, rfl⟩, ?_⟩
  decide

theorem test_witness_StreamsAreSequential :
    ∃ t, exec .brGetbit (source [0x80#8]) = .next t := ⟨_, rfl⟩

/-! ## Invariants -/

theorem test_witness_ReaderInvariantIsKept :
    (source [0x80#8]).br.Inv ∧
      (∃ t, step { source [0x80#8] with cmds := [0x0000000011000000#64] } = .next t) ∧
      failedReader.br.Inv ∧ failedReader.br.reof = true ∧ ∃ t, step failedReader = .next t :=
  ⟨test_brInv_reset, ⟨_, rfl⟩, test_brInv_failedReader, rfl, _, rfl⟩

theorem test_witness_WriterInvariantIsKept :
    nearlyFull.bw.Inv ∧ ∃ t, step { nearlyFull with cmds := [0x0000000021000001#64] } = .next t ∧
      t.waiting = none :=
  ⟨test_bwInv_nearlyFull, _, rfl, rfl⟩

theorem test_witness_HuffmanInvariantIsKept :
    (withTable loaded State.reset).huf.Inv ∧
      ∃ t, step { withTable loaded State.reset with cmds := [0x0000000032000000#64] } = .next t :=
  ⟨test_hufInv_loaded, _, rfl⟩

theorem test_witness_DecompressorInvariantIsKept :
    oneLiteral.LzdInv ∧
      (∃ t, step { oneLiteral with cmds := [0x0004000142000000#64] } = .next t ∧
        t.waiting = none) ∧
      finished.lzd.dstate = .done ∧ ∃ t, exec .lzdStep finished = .next t :=
  ⟨test_lzdInv_oneLiteral, ⟨_, rfl, rfl⟩, rfl, _, rfl⟩

theorem test_witness_ErrorAndCompressorInvariantsAreKept :
    State.reset.ErrInv ∧ State.reset.lze.Inv ∧
      ∃ t, step { State.reset with cmds := [0x0000000053000000#64] } = .next t ∧ t.waiting = none :=
  ⟨test_errInv_reset, test_lzeInv_reset, _, rfl, rfl⟩

/-! ## SYS -/

theorem test_witness_StatusRegistersAfterReset : ∃ t, exec .sysReset fiveLiterals = .next t :=
  ⟨_, rfl⟩

theorem test_witness_StatusRegistersShowTheState :
    midByte.br.rcnt < 16 ∧ midByte.br.rlen - midByte.br.rpos < 2 ^ 13 ∧ midByte.bw.wcnt < 8 ∧
      midByte.bw.wlen < 2 ^ 13 ∧ midByte.huf.nsym < 2 ^ 16 ∧ midByte.huf.ncodes < 2 ^ 16 ∧
      midByte.huf.nfreq < 2 ^ 16 ∧ midByte.huf.lmax < 2 ^ 5 ∧ midByte.lzd.wpos < 2 ^ 16 ∧
      midByte.lzd.filled < 2 ^ 17 ∧ midByte.lzd.csrc < 2 ^ 16 ∧ midByte.lzd.crem < 2 ^ 16 := by
  decide

/-! ## BR and BW -/

theorem test_witness_ValuesFollowTheBitOrder : 0 < [true].length := by decide

theorem test_witness_GetbitTakesTheNextBit :
    (source [0x80#8]).br.err = none ∧ (source [0x80#8]).br.Inv ∧
      (source [0x80#8]).readerBits =
        true :: [false, false, false, false, false, false, false] ∧
      midByte.br.Inv ∧ midByte.br.err = none ∧ midByte.readerBits = true :: [true, true] ∧
      (withEnding .eof (source [])).readerBits = [] ∧
      (withEnding .err (source [])).readerBits = [] ∧
      (withEnding .silent (source [])).readerBits = [] :=
  ⟨rfl, test_brInv_reset, by decide, test_brInv_midByte, rfl, by decide, by decide, by decide,
    by decide⟩

theorem test_witness_ReadPacksTheNextBits :
    (source [0x12#8, 0x34#8, 0x56#8, 0x78#8]).br.err = none ∧
      (source [0x12#8, 0x34#8, 0x56#8, 0x78#8]).br.Inv ∧ (32#6).toNat ≤ MAXN ∧
      (bytesBits .msb [0x12#8, 0x34#8, 0x56#8, 0x78#8]).length = (32#6).toNat ∧
      (source [0x12#8, 0x34#8, 0x56#8, 0x78#8]).readerBits =
        bytesBits .msb [0x12#8, 0x34#8, 0x56#8, 0x78#8] ++ [] ∧
      ([] : List Bool).length = (0#6).toNat :=
  ⟨rfl, test_brInv_reset, by decide, by decide, by decide, by decide⟩

theorem test_witness_ReadPastTheEndFaults :
    midByte.br.err = none ∧ midByte.br.Inv ∧ (4#6).toNat ≤ MAXN ∧
      midByte.readerBits.length < (4#6).toNat ∧ midByte.src.ending = .eof ∧
      (withEnding .err midByte).readerBits.length < (4#6).toNat ∧
      (withEnding .silent midByte).readerBits.length < (4#6).toNat :=
  ⟨rfl, test_brInv_midByte, by decide, by decide, rfl, by decide, by decide⟩

/-- The bytes of `source [0x12, 0x34]` in chunks of one. -/
def inTwoChunks : State :=
  { State.reset with src := { State.reset.src with pending := [[0x12#8], [], [0x34#8]] } }

theorem test_witness_ReadIsIndependentOfChunks :
    (source [0x12#8, 0x34#8]).br.Inv ∧ inTwoChunks.br.Inv ∧ inTwoChunks.br.err = none ∧
      (source [0x12#8, 0x34#8]).br.mode = inTwoChunks.br.mode ∧
      (source [0x12#8, 0x34#8]).br.rbits = inTwoChunks.br.rbits ∧
      (source [0x12#8, 0x34#8]).readerBits = inTwoChunks.readerBits ∧
      (source [0x12#8, 0x34#8]).src.ending = inTwoChunks.src.ending ∧
      (source [0x12#8, 0x34#8]).responses = inTwoChunks.responses ∧
      (source [0x12#8, 0x34#8]).waiting = inTwoChunks.waiting ∧
      (∃ t, exec (.brRead 12#6) (source [0x12#8, 0x34#8]) = .next t) ∧
      ∃ t, exec (.brRead 12#6) inTwoChunks = .next t :=
  ⟨test_brInv_reset, test_brInv_reset, rfl, rfl, rfl, by decide, rfl, rfl, rfl, ⟨_, rfl⟩, _, rfl⟩

theorem test_witness_PutbitAndWriteAppendTheirBits :
    (withSnk .ok nearlyFull).WriterReady 1 ∧ State.reset.WriterReady 1 ∧ (32#6).toNat ≤ MAXN ∧
      (withSnk .ok nearlyFull).WriterReady (32#6).toNat ∧ State.reset.WriterReady (0#6).toNat :=
  ⟨test_writerReady_full, test_writerReady_reset 1 (by decide), by decide,
    ⟨rfl, test_bwInv_nearlyFull, .inr rfl⟩, test_writerReady_reset 0 (by decide)⟩

theorem test_witness_FlushDeliversEverything :
    State.reset.bw.err = none ∧ State.reset.bw.Inv ∧ State.reset.bw.flushBytes = [] ∧
      partlyWritten.bw.err = none ∧ partlyWritten.bw.Inv ∧ partlyWritten.bw.flushBytes ≠ [] ∧
      (withSnk .ok partlyWritten).snk.answer = .ok ∧
      (withSnk .err partlyWritten).snk.answer = .err :=
  ⟨rfl, test_bwInv_reset, by decide, rfl, test_bwInv_partlyWritten, by decide, rfl, rfl⟩

theorem test_sinkFails {s : State} {n : Nat} (hb : s.bw = nearlyFull.bw) (hs : s.snk.answer = .err)
    (h : 1 ≤ n) : s.SinkFails n :=
  ⟨by rw [hb]; rfl, by rw [hb]; exact test_bwInv_nearlyFull,
    by rw [hb]; show 8 * 4096 ≤ 8 * 4095 + 7 + n; omega, hs⟩

theorem test_witness_SinkErrorKeepsTheBytes :
    (withSnk .err nearlyFull).SinkFails 1 ∧ (32#6).toNat ≤ MAXN ∧
      (withSnk .err nearlyFull).SinkFails (32#6).toNat ∧
      (withTable table (withSnk .err nearlyFull)).huf.err = none ∧
      (withTable table (withSnk .err nearlyFull)).huf.hstate = .built ∧ table.Inv ∧
      (2#16).toNat < table.nsym ∧ 0 < table.lenOf (2#16).toNat ∧
      (withTable table (withSnk .err nearlyFull)).SinkFails (table.lenOf (2#16).toNat) ∧
      (withSnk .err nearlyFull).lze.err = none ∧ (withSnk .err nearlyFull).lze.estate = .idle ∧
      (withSnk .err nearlyFull).SinkFails 9 ∧
      (4095#16).toNat < 2 ^ nearlyFull.lze.cfg.ob.toNat ∧
      nearlyFull.lze.cfg.min.toNat ≤ (3#16).toNat ∧
      (3#16).toNat ≤ nearlyFull.lze.cfg.max.toNat ∧
      (withSnk .err nearlyFull).SinkFails
        (1 + nearlyFull.lze.cfg.ob.toNat + nearlyFull.lze.cfg.lb.toNat) :=
  ⟨test_sinkFails rfl rfl (by decide), by decide, test_sinkFails rfl rfl (by decide), rfl, rfl,
    test_hufInv_table, by decide, by decide, test_sinkFails rfl rfl (by decide), rfl, rfl,
    test_sinkFails rfl rfl (by decide), by decide, by decide, by decide,
    test_sinkFails rfl rfl (by decide)⟩

/-! ## HUF -/

theorem test_witness_ClearSetdefPushAndFpush :
    State.reset.huf.err = none ∧ table.err = none ∧ table.hstate = .built ∧
      { Huf.reset with nsym := 512 }.nsym = HUF_NSYM_MAX ∧ State.reset.huf.hstate ≠ .built ∧
      State.reset.huf.nsym ≠ HUF_NSYM_MAX ∧ State.reset.huf.nfreq ≠ HUF_NSYM_MAX ∧
      State.reset.huf.len.wf = true ∧ State.reset.huf.freq.wf = true := by decide

theorem test_witness_BuildMakesTheCanonicalTable :
    (withTable loaded State.reset).huf.err = none ∧
      (withTable loaded State.reset).huf.hstate = .loading ∧
      (withTable loaded State.reset).huf.Inv ∧
      (withTable loaded State.reset).huf.LengthsLegal ∧
      (withTable loaded State.reset).huf.NotOversubscribed :=
  ⟨rfl, rfl, test_hufInv_loaded, test_legal_loaded, test_notOversub_loaded⟩

/-- LEN = [17]. -/
def tooLong : Huf := { Huf.reset with len := ⟨[(0, 17#8)]⟩, nsym := 1 }

/-- LEN = [1, 1, 1] (R156). -/
def oversubscribed : Huf :=
  { Huf.reset with len := ⟨[(0, 1#8), (1, 1#8), (2, 1#8)]⟩, nsym := 3 }

theorem test_witness_BuildFaultsOnBadLengths :
    table.err = none ∧ table.Inv ∧ table.hstate = .built ∧
      tooLong.err = none ∧ tooLong.Inv ∧ tooLong.hstate = .loading ∧ ¬ tooLong.LengthsLegal ∧
      oversubscribed.err = none ∧ oversubscribed.Inv ∧ oversubscribed.hstate = .loading ∧
      oversubscribed.LengthsLegal ∧ ¬ oversubscribed.NotOversubscribed := by
  refine ⟨rfl, test_hufInv_table, rfl, rfl, ?_, rfl, ?_, rfl, ?_, rfl, ?_, ?_⟩
  · exact ⟨by decide, by decide, by decide, by decide, fun h => absurd h (by decide)⟩
  · intro h
    exact absurd (h 0 (by decide)) (by decide)
  · exact ⟨by decide, by decide, by decide, by decide, fun h => absurd h (by decide)⟩
  · show ∀ sym < 3, oversubscribed.lenOf sym ≤ 16
    decide
  · intro h
    exact absurd (h 1 (by decide) (by decide)) (by decide)

theorem test_witness_BuiltTableIsAPrefixCode : table.Inv ∧ table.hstate = .built :=
  ⟨test_hufInv_table, rfl⟩

theorem test_witness_GetsymDecodesItsCode :
    (withTable table (source [0x5B#8, 0x80#8])).huf.err = none ∧
      (withTable table (source [0x5B#8, 0x80#8])).huf.hstate = .built ∧
      (withTable table (source [0x5B#8, 0x80#8])).huf.Inv ∧
      (withTable table (source [0x5B#8, 0x80#8])).br.err = none ∧
      (withTable table (source [0x5B#8, 0x80#8])).br.Inv ∧ 1 < table.nsym ∧ 0 < table.lenOf 1 ∧
      (withTable table (source [0x5B#8, 0x80#8])).readerBits = table.wireCode 1 ++
        (withTable table (source [0x5B#8, 0x80#8])).readerBits.drop 1 :=
  ⟨rfl, rfl, test_hufInv_table, rfl, test_brInv_reset, by decide, by decide, by decide⟩

theorem test_witness_SymbolsWithoutACode :
    loaded.err = none ∧ loaded.hstate = .loading ∧
      { Huf.reset with hstate := .built }.hstate = .built ∧
      { Huf.reset with hstate := .built }.ncodes = 0 ∧
      { Huf.reset with hstate := .built }.err = none ∧ table.err = none ∧
      table.hstate = .built ∧ 0 < table.ncodes ∧ table.nsym ≤ (4#16).toNat := by decide

/-- LEN = [1], an incomplete code (R157, R160). -/
def incomplete : Huf :=
  { Huf.reset with
    hstate := .built, len := ⟨[(0, 1#8)]⟩, nsym := 1, count := ⟨[(1, 1#10)]⟩
    first := ⟨[(2, 2#17), (3, 4#17), (4, 8#17), (5, 16#17), (6, 32#17), (7, 64#17), (8, 128#17),
      (9, 256#17), (10, 512#17), (11, 1024#17), (12, 2048#17), (13, 4096#17), (14, 8192#17),
      (15, 16384#17), (16, 32768#17)]⟩
    base := ⟨[(2, 1#10), (3, 1#10), (4, 1#10), (5, 1#10), (6, 1#10), (7, 1#10), (8, 1#10),
      (9, 1#10), (10, 1#10), (11, 1#10), (12, 1#10), (13, 1#10), (14, 1#10), (15, 1#10),
      (16, 1#10)]⟩
    ncodes := 1, lmax := 1 }

theorem test_canonical_incomplete : incomplete.Canonical where
  lengthsLegal := by show ∀ sym < 1, incomplete.lenOf sym ≤ 16; decide
  notOversubscribed := by
    intro l h1 h2
    have h3 : l ≤ 16 := h2
    interval_cases l <;> decide
  count := by
    intro l h1 h2
    have h3 : l ≤ 16 := h2
    interval_cases l <;> decide
  first := by
    intro l h1 h2
    have h3 : l ≤ 16 := h2
    interval_cases l <;> decide
  base := by
    intro l h1 h2
    have h3 : l ≤ 16 := h2
    interval_cases l <;> decide
  code := by
    show ∀ sym < 1, 0 < incomplete.lenOf sym →
      (incomplete.code.read sym).toNat = incomplete.canonicalCode sym
    decide
  sorted := by
    show ∀ sym < 1, 0 < incomplete.lenOf sym →
      (incomplete.sorted.read (incomplete.baseOf (incomplete.lenOf sym) +
        incomplete.rank sym)).toNat = sym
    decide
  ncodes := by decide
  lmaxUpper := by show ∀ sym < 1, incomplete.lenOf sym ≤ 1; decide
  lmaxReached := .inr ⟨0, by decide, by decide⟩

theorem test_hufInv_incomplete : incomplete.Inv :=
  ⟨by decide, by decide, by decide, fun h => absurd h (by decide),
    fun _ => test_canonical_incomplete⟩

theorem test_witness_GetsymFaults :
    incomplete.err = none ∧ incomplete.hstate = .built ∧ incomplete.Inv ∧ 0 < incomplete.ncodes ∧
      (withTable incomplete (source [0x80#8])).br.Inv ∧
      (withTable incomplete (source [0x80#8])).readerBits =
        [true] ++ [false, false, false, false, false, false, false] ∧
      (∀ sym < incomplete.nsym, 0 < incomplete.lenOf sym →
        ¬ incomplete.wireCode sym <+: [true]) ∧
      [true].length = incomplete.lmax ∧
      (withTable incomplete (source [])).readerBits = [] ++ [] ∧
      (∀ sym < incomplete.nsym, 0 < incomplete.lenOf sym → ¬ incomplete.wireCode sym <+: []) ∧
      ([] : List Bool).length < incomplete.lmax ∧
      (withTable incomplete (source [])).src.ending = .eof ∧
      (withEnding .err (withTable incomplete (source []))).readerBits = [] ++ [] ∧
      (withEnding .silent (withTable incomplete (source []))).readerBits = [] ++ [] :=
  ⟨rfl, rfl, test_hufInv_incomplete, by decide, test_brInv_reset, by decide,
    by show ∀ sym < 1, _; decide, rfl, by decide, by show ∀ sym < 1, _; decide, by decide, rfl,
    by decide, by decide⟩

theorem test_witness_MkencBuildsTheMergeTable :
    frequencies.err = none ∧ frequencies.hstate = .loading ∧ frequencies.Inv ∧
      2 ≤ frequencies.active.length ∧ (∀ d ∈ frequencies.mergeDepths, d.2 ≤ HUF_MAXLEN) :=
  ⟨rfl, rfl, test_hufInv_frequencies, by decide, by decide⟩

/-- A coder with these frequencies pushed. -/
def pushed (freqs : List Word) : Huf :=
  { Huf.reset with freq := Memory.empty.writeList 0 freqs, nfreq := freqs.length }

theorem test_witness_MkencBuildsTheMergeTable_examples :
    (List.range frequencies.nfreq).map frequencies.freqOf = [5, 1, 1, 2] ∧
      (List.range 4).map (pushed [1#32, 1#32, 1#32, 1#32]).freqOf = [1, 1, 1, 1] ∧
      (List.range 3).map (pushed [1#32, 1#32, 2#32]).freqOf = [1, 1, 2] ∧
      (List.range 3).map (pushed [2#32, 1#32, 1#32]).freqOf = [2, 1, 1] ∧
      (List.range 4).map (pushed [1#32, 1#32, 2#32, 2#32]).freqOf = [1, 1, 2, 2] ∧
      (pushed [1#32, 1#32, 2#32, 2#32]).nfreq = 4 := by decide

theorem test_witness_MergeDepthsAreCompleteAndMonotone :
    2 ≤ frequencies.active.length ∧ (0, 1) ∈ frequencies.mergeDepths ∧
      (3, 2) ∈ frequencies.mergeDepths ∧ frequencies.freqOf 3 < frequencies.freqOf 0 := by decide

theorem test_witness_MkencCornerCases :
    table.err = none ∧ table.Inv ∧ table.hstate = .built ∧
      Huf.reset.err = none ∧ Huf.reset.active = [] ∧ Huf.reset.hstate = .loading ∧
      oneFrequency.err = none ∧ oneFrequency.Inv ∧ oneFrequency.hstate = .loading ∧
      oneFrequency.active = [1] ∧
      deepFrequencies.err = none ∧ deepFrequencies.Inv ∧ deepFrequencies.hstate = .loading ∧
      2 ≤ deepFrequencies.active.length ∧
      ∃ d ∈ deepFrequencies.mergeDepths, HUF_MAXLEN < d.2 :=
  ⟨rfl, test_hufInv_table, rfl, rfl, by decide, rfl, rfl, test_hufInv_oneFrequency, rfl, by decide,
    rfl, test_hufInv_deepFrequencies, rfl, by decide, (0, 17), test_deepFrequencies, by decide⟩

theorem test_witness_PutsymWritesItsCode :
    (withTable table State.reset).huf.err = none ∧
      (withTable table State.reset).huf.hstate = .built ∧
      (withTable table State.reset).huf.Inv ∧ (2#16).toNat < table.nsym ∧
      0 < table.lenOf (2#16).toNat ∧
      (withTable table State.reset).WriterReady (table.lenOf (2#16).toNat) :=
  ⟨rfl, rfl, test_hufInv_table, by decide, by decide, rfl, test_bwInv_reset, .inl (by decide)⟩

theorem test_witness_RdlenReadsOneRow :
    loaded.err = none ∧ loaded.hstate = .loading ∧ table.err = none ∧ table.hstate = .built ∧
      table.nsym ≤ (4#16).toNat ∧ (3#16).toNat < table.nsym := by decide

/-! ## LZD -/

theorem test_witness_LzInitChecksTheConfiguration :
    (1 ≤ (16#5).toNat ∧ (16#5).toNat ≤ 16 ∧ 1 ≤ (1#5).toNat ∧ (1#5).toNat ≤ (16#5).toNat ∧
      1 ≤ (16#5).toNat ∧ (16#5).toNat ≤ 16 ∧ (0#16).toNat ≤ (65535#16).toNat ∧
      (65535#16).toNat - (0#16).toNat ≤ 2 ^ (16#5).toNat - 1) ∧
      ¬ (1 ≤ (12#5).toNat ∧ (12#5).toNat ≤ 16 ∧ 1 ≤ (12#5).toNat ∧ (12#5).toNat ≤ (12#5).toNat ∧
        1 ≤ (4#5).toNat ∧ (4#5).toNat ≤ 16 ∧ (3#16).toNat ≤ (19#16).toNat ∧
        (19#16).toNat - (3#16).toNat ≤ 2 ^ (4#5).toNat - 1) := by decide

theorem test_witness_LiteralIsInsertedAndEmitted :
    oneLiteral.lzd.err = none ∧ oneLiteral.lzd.dstate = .ready ∧ oneLiteral.dout.takes 1 = true ∧
      oneLiteral.LzdInv ∧ (∃ t, exec (.lzdLit 0x62#8) oneLiteral = .next t) ∧
      finished.lzd.err = none ∧ finished.lzd.dstate ≠ .ready :=
  ⟨rfl, rfl, rfl, test_lzdInv_oneLiteral, ⟨_, rfl⟩, rfl, by decide⟩

theorem test_witness_OverlappingCopyIsPeriodic : 1 ≤ 1 ∧ 1 ≤ [0x61#8].length := by decide

theorem test_witness_ReferenceCopiesFromItsDistance :
    oneLiteral.lzd.err = none ∧ oneLiteral.lzd.dstate = .ready ∧ oneLiteral.LzdInv ∧
      (1#16).toNat < oneLiteral.lzd.cfg.wsize ∧ 5#16 ≠ 0#16 ∧
      oneLiteral.lzd.cfg.min.toNat ≤ (5#16).toNat ∧ (5#16).toNat ≤ oneLiteral.lzd.cfg.max.toNat ∧
      oneLiteral.lzd.cfg.distance (1#16).toNat ≤ oneLiteral.lzd.filled ∧
      oneLiteral.dout.takes (5#16).toNat = true :=
  ⟨rfl, rfl, test_lzdInv_oneLiteral, by decide, by decide, by decide, by decide, by decide, rfl⟩

theorem test_witness_ReferenceCornerCases :
    finished.lzd.err = none ∧ finished.lzd.dstate ≠ .ready ∧ oneLiteral.lzd.err = none ∧
      oneLiteral.lzd.dstate = .ready ∧ oneLiteral.lzd.cfg.wsize ≤ (4#16).toNat ∧
      (3#16).toNat < oneLiteral.lzd.cfg.wsize ∧
      ((1#16).toNat < oneLiteral.lzd.cfg.min.toNat) ∧
      (oneLiteral.lzd.cfg.max.toNat < (6#16).toNat) ∧
      oneLiteral.lzd.cfg.min.toNat ≤ (2#16).toNat ∧ (5#16).toNat ≤ oneLiteral.lzd.cfg.max.toNat ∧
      oneLiteral.lzd.filled < oneLiteral.lzd.cfg.distance (2#16).toNat := by decide

theorem test_witness_StepExecutesOneToken :
    (toySource [0x30#8, 0x80#8]).lzd.err = none ∧
      (toySource [0x30#8, 0x80#8]).lzd.dstate = .ready ∧ (toySource [0x30#8, 0x80#8]).LzdInv ∧
      (toySource [0x30#8, 0x80#8]).br.err = none ∧ (toySource [0x30#8, 0x80#8]).br.Inv ∧
      (Token.literal 0x61#8).valid toy 1 = true ∧
      (toySource [0x30#8, 0x80#8]).readerBits = tokenBits .msb toy (.literal 0x61#8) ++
        (toySource [0x30#8, 0x80#8]).readerBits.drop 9 ∧
      (toySource [0x30#8, 0x80#8]).dout.takes (Token.literal 0x61#8).size = true ∧
      (Token.reference 1 3).valid toy 1 = true ∧
      (toySource [0xA8#8]).readerBits = tokenBits .msb toy (.reference 1 3) ++
        (toySource [0xA8#8]).readerBits.drop 5 ∧
      (toySource [0xA8#8]).dout.takes (Token.reference 1 3).size = true :=
  ⟨rfl, rfl, test_lzdInv_toySource _, rfl, test_brInv_reset, by decide, by decide, rfl, by decide,
    by decide, rfl⟩

theorem test_witness_StepCornerCases :
    (bounded 2#16 4#16 [0xB8#8]).lzd.err = none ∧
      (bounded 2#16 4#16 [0xB8#8]).lzd.dstate = .ready ∧
      (bounded 2#16 4#16 [0xB8#8]).br.err = none ∧ (bounded 2#16 4#16 [0xB8#8]).br.Inv ∧
      1 < 2 ^ toy.ob.toNat ∧ 3 < 2 ^ toy.lb.toNat ∧
      (bounded 2#16 4#16 [0xB8#8]).readerBits =
        true :: (bitsOf .msb 2 1 ++ bitsOf .msb 2 3) ++ [false, false, false] ∧
      (4#16).toNat < 3 + (2#16).toNat ∧
      (bounded 0#16 3#16 [0xA0#8]).readerBits =
        true :: (bitsOf .msb 2 1 ++ bitsOf .msb 2 0) ++ [false, false, false] ∧
      0 + (0#16).toNat = 0 ∧
      (bounded 2#16 5#16 [0xC0#8]).readerBits =
        true :: (bitsOf .msb 2 2 ++ bitsOf .msb 2 0) ++ [false, false, false] ∧
      (bounded 2#16 5#16 [0xC0#8]).lzd.filled < toy.distance 2 :=
  ⟨rfl, rfl, rfl, test_brInv_reset, by decide, by decide, by decide, by decide, by decide,
    by decide, by decide, by decide⟩

theorem test_witness_StepAtTheEndFaults :
    finished.lzd.err = none ∧ finished.lzd.dstate ≠ .ready ∧ oneLiteral.lzd.dstate = .ready ∧
      (toySource []).br.err = none ∧ (toySource []).br.Inv ∧ (toySource []).src.ending = .eof ∧
      (toySource []).readerBits = [] ∧ (withEnding .err (toySource [])).readerBits = [] ∧
      (withEnding .silent (toySource [])).readerBits = [] ∧
      (toySource [0x30#8]).readerBits = false :: (toySource [0x30#8]).readerBits.drop 1 ∧
      ((toySource [0x30#8]).readerBits.drop 1).length < LITBITS ∧
      { oneLiteral with br := midByte.br }.readerBits = true :: [true, true] ∧
      [true, true].length < toy.ob.toNat + toy.lb.toNat :=
  ⟨rfl, by decide, rfl, rfl, test_brInv_reset, rfl, by decide, by decide, by decide, by decide,
    by decide, by decide, by decide⟩

/-- Literal 0x61, then Reference(1, 3): 14 bits. -/
def tokens : List Token := [.literal 0x61#8, .reference 1 3]

theorem test_witness_RunEmitsExactlyItsBudget :
    (toySource [0x30#8, 0xD4#8]).lzd.err = none ∧
      (toySource [0x30#8, 0xD4#8]).lzd.dstate ≠ .done ∧ (toySource [0x30#8, 0xD4#8]).LzdInv ∧
      (toySource [0x30#8, 0xD4#8]).br.err = none ∧ (toySource [0x30#8, 0xD4#8]).br.Inv ∧
      validTokens toy (min (1 + 0) toy.wsize) tokens = true ∧
      (4#32).toNat ≤ tokensSize ((toySource [0x30#8, 0xD4#8]).pendingCopy ++ tokens) ∧
      (2#32).toNat ≤ tokensSize ((toySource [0x30#8, 0xD4#8]).pendingCopy ++ tokens) ∧
      (toySource [0x30#8, 0xD4#8]).readerBits =
        tokensBits .msb toy tokens ++ [false, false] ∧
      (toySource [0x30#8, 0xD4#8]).dout.takes (4#32).toNat = true ∧
      (copyingSource [0x30#8, 0xD4#8]).lzd.err = none ∧
      (copyingSource [0x30#8, 0xD4#8]).lzd.dstate ≠ .done ∧
      (copyingSource [0x30#8, 0xD4#8]).LzdInv ∧
      validTokens toy (min (1 + 3) toy.wsize) tokens = true ∧
      (7#32).toNat ≤ tokensSize ((copyingSource [0x30#8, 0xD4#8]).pendingCopy ++ tokens) ∧
      (copyingSource [0x30#8, 0xD4#8]).readerBits =
        tokensBits .msb toy tokens ++ [false, false] :=
  ⟨rfl, by decide, test_lzdInv_toySource _, rfl, test_brInv_reset, by decide, by decide, by decide,
    by decide, rfl, rfl, by decide, test_lzdInv_copyingSource _, by decide, by decide, by decide⟩

/-- MIN = 0, a literal, then the terminator. -/
theorem test_witness_RunEmitsExactlyItsBudget_terminator :
    (bounded 0#16 3#16 [0x30#8, 0xD0#8]).lzd.err = none ∧
      (bounded 0#16 3#16 [0x30#8, 0xD0#8]).lzd.dstate ≠ .done ∧
      (bounded 0#16 3#16 [0x30#8, 0xD0#8]).LzdInv ∧
      (bounded 0#16 3#16 [0x30#8, 0xD0#8]).br.err = none ∧
      (bounded 0#16 3#16 [0x30#8, 0xD0#8]).br.Inv ∧
      validTokens (bounded 0#16 3#16 []).lzd.cfg (min (1 + 0) toy.wsize) [.literal 0x61#8] = true ∧
      (bounded 0#16 3#16 [0x30#8, 0xD0#8]).readerBits =
        tokensBits .msb (bounded 0#16 3#16 []).lzd.cfg [.literal 0x61#8] ++
          (tokenBits .msb (bounded 0#16 3#16 []).lzd.cfg (.reference 1 0) ++ [false, false]) ∧
      1 < 2 ^ toy.ob.toNat ∧
      tokensSize ((bounded 0#16 3#16 [0x30#8, 0xD0#8]).pendingCopy ++ [.literal 0x61#8]) <
        (2#32).toNat ∧
      (bounded 0#16 3#16 [0x30#8, 0xD0#8]).dout.takes 1 = true :=
  ⟨rfl, by decide, test_lzdInv_bounded _ _ _ (by decide), rfl, test_brInv_reset, by decide,
    by decide, by decide, by decide, rfl⟩

theorem test_witness_RunContinuesThePendingCopy :
    oneLiteral.lzd.err = none ∧ oneLiteral.LzdInv ∧ finished.lzd.err = none ∧ finished.LzdInv ∧
      finished.lzd.dstate = .done ∧ copying.lzd.err = none ∧ copying.LzdInv ∧
      copying.lzd.dstate = .copy ∧ (2#32).toNat ≤ copying.lzd.crem ∧
      (3#32).toNat ≤ copying.lzd.crem ∧ copying.dout.takes (3#32).toNat = true :=
  ⟨rfl, test_lzdInv_oneLiteral, rfl, test_lzdInv_finished, rfl, rfl, test_lzdInv_copying, rfl,
    by decide, by decide, rfl⟩

theorem test_witness_RunFaultsAtTheTokenThatFaults_end :
    (toySource []).lzd.err = none ∧ (toySource []).lzd.dstate ≠ .done ∧ (toySource []).LzdInv ∧
      (toySource []).br.err = none ∧ (toySource []).br.Inv ∧
      validTokens toy (min (1 + 0) toy.wsize) [] = true ∧
      (toySource []).readerBits = tokensBits .msb toy [] ++ [] ∧
      tokensSize ((toySource []).pendingCopy ++ []) < (1#32).toNat ∧
      (toySource []).dout.takes 0 = true ∧
      validTokens toy (min (1 + 3) toy.wsize) tokens = true ∧
      (copyingSource [0x30#8, 0xD4#8]).LzdInv ∧
      (copyingSource [0x30#8, 0xD4#8]).readerBits =
        tokensBits .msb toy tokens ++ false :: [false] ∧
      [false].length < LITBITS ∧
      tokensSize ((copyingSource [0x30#8, 0xD4#8]).pendingCopy ++ tokens) < (8#32).toNat ∧
      (copyingSource [0x30#8, 0xD4#8]).dout.takes 7 = true ∧
      { copying with br := midByte.br }.LzdInv ∧
      { copying with br := midByte.br }.readerBits =
        tokensBits .msb toy [] ++ true :: [true, true] ∧
      [true, true].length < toy.ob.toNat + toy.lb.toNat ∧
      tokensSize ({ copying with br := midByte.br }.pendingCopy ++ []) < (4#32).toNat :=
  ⟨rfl, by decide, test_lzdInv_toySource _, rfl, test_brInv_reset, by decide, by decide, by decide,
    rfl, by decide, test_lzdInv_copyingSource _, by decide, by decide, by decide, rfl,
    test_lzdInv_of test_lzdInv_copying rfl rfl, by decide, by decide, by decide⟩

theorem test_witness_RunFaultsAtTheTokenThatFaults_reference :
    (bounded 2#16 4#16 [0xB8#8]).lzd.err = none ∧
      (bounded 2#16 4#16 [0xB8#8]).lzd.dstate ≠ .done ∧ (bounded 2#16 4#16 [0xB8#8]).LzdInv ∧
      (bounded 2#16 4#16 [0xB8#8]).br.err = none ∧ (bounded 2#16 4#16 [0xB8#8]).br.Inv ∧
      1 < 2 ^ toy.ob.toNat ∧ 3 < 2 ^ toy.lb.toNat ∧
      (bounded 2#16 4#16 [0xB8#8]).readerBits = tokensBits .msb toy [] ++
        (true :: (bitsOf .msb 2 1 ++ bitsOf .msb 2 3) ++ [false, false, false]) ∧
      tokensSize ((bounded 2#16 4#16 [0xB8#8]).pendingCopy ++ []) < (1#32).toNat ∧
      (4#16).toNat < 3 + (2#16).toNat ∧
      (toySource [0xC0#8]).LzdInv ∧
      (toySource [0xC0#8]).readerBits = tokensBits .msb toy [] ++
        (true :: (bitsOf .msb 2 2 ++ bitsOf .msb 2 0) ++ [false, false, false]) ∧
      0 + toy.min.toNat ≠ 0 ∧
      min ((toySource [0xC0#8]).lzd.filled +
        tokensSize ((toySource [0xC0#8]).pendingCopy ++ [])) toy.wsize < toy.distance 2 :=
  ⟨rfl, by decide, test_lzdInv_bounded _ _ _ (by decide), rfl, test_brInv_reset, by decide,
    by decide, by decide, by decide, by decide, test_lzdInv_toySource _, by decide, by decide,
    by decide⟩

/-! ## LZE -/

theorem test_witness_LzeWritesItsTokens :
    State.reset.lze.err = none ∧ { Lze.reset with estate := .flushing }.err = none ∧
      { Lze.reset with estate := .flushing }.estate ≠ .idle ∧ State.reset.lze.estate = .idle ∧
      State.reset.WriterReady 9 ∧ 2 ^ State.reset.lze.cfg.ob.toNat ≤ (4096#16).toNat ∧
      (2#16).toNat < State.reset.lze.cfg.min.toNat ∧
      State.reset.lze.cfg.max.toNat < (19#16).toNat ∧
      (4095#16).toNat < 2 ^ State.reset.lze.cfg.ob.toNat ∧
      State.reset.lze.cfg.min.toNat ≤ (3#16).toNat ∧
      (18#16).toNat ≤ State.reset.lze.cfg.max.toNat ∧
      State.reset.WriterReady
        (1 + State.reset.lze.cfg.ob.toNat + State.reset.lze.cfg.lb.toNat) :=
  ⟨rfl, rfl, by decide, rfl, test_writerReady_reset 9 (by decide), by decide, by decide, by decide,
    by decide, by decide, by decide, test_writerReady_reset _ (by decide)⟩

theorem test_witness_LzeFlushDeliversEverything :
    State.reset.lze.err = none ∧ State.reset.bw.err = none ∧ State.reset.bw.Inv ∧
      State.reset.bw.flushBytes = [] ∧ partlyWritten.lze.err = none ∧
      partlyWritten.bw.Inv ∧ partlyWritten.bw.flushBytes ≠ [] ∧
      (withSnk .ok partlyWritten).snk.answer = .ok ∧
      (withSnk .err partlyWritten).snk.answer = .err :=
  ⟨rfl, rfl, test_bwInv_reset, by decide, rfl, test_bwInv_partlyWritten, by decide, rfl, rfl⟩

end Sys2Proof.Tests
end

/-! PROOF. What every command can do, said once: how it ends (R221 to R223), which units and streams
it reaches (R20, R215) and in which unit it can detect a fault (R222). -/

namespace Sys2Proof.Machine

open Config

/-! ## A command that runs primitives -/

/-- Everything the primitives of a command can do to the state before the command ends: it reaches
the reader, the writer and its own unit only as far as R20, R198 and R215 allow, moves the streams
forward (R71, R74), and touches no ERR field and no port. -/
structure CommandEffect (i : Instr) (s t : State) : Prop where
  br : readsBits i = false → t.br = s.br
  src : readsBits i = false → t.src = s.src
  bw : writesBits i = false → t.bw = s.bw
  snk : writesBits i = false → t.snk = s.snk
  huf : i.unit ≠ .huf → t.huf = s.huf
  lzd : i.unit ≠ .lzd → t.lzd = s.lzd
  dout : i.unit ≠ .lzd → t.dout = s.dout
  lze : i.unit ≠ .lze → t.lze = s.lze
  err : ∀ u, t.err u = s.err u
  content : t.src.content = s.src.content
  delivered : s.src.delivered <+: t.src.delivered
  ending : t.src.ending = s.src.ending
  accepted : s.snk.accepted <+: t.snk.accepted
  bytes : s.dout.bytes <+: t.dout.bytes
  cmds : t.cmds = s.cmds
  responses : t.responses = s.responses
  waiting : t.waiting = s.waiting

theorem CommandEffect.trans {i : Instr} {s t u : State} (h : CommandEffect i s t)
    (k : CommandEffect i t u) : CommandEffect i s u where
  br hi := (k.br hi).trans (h.br hi)
  src hi := (k.src hi).trans (h.src hi)
  bw hi := (k.bw hi).trans (h.bw hi)
  snk hi := (k.snk hi).trans (h.snk hi)
  huf hi := (k.huf hi).trans (h.huf hi)
  lzd hi := (k.lzd hi).trans (h.lzd hi)
  dout hi := (k.dout hi).trans (h.dout hi)
  lze hi := (k.lze hi).trans (h.lze hi)
  err u := (k.err u).trans (h.err u)
  content := k.content.trans h.content
  delivered := h.delivered.trans k.delivered
  ending := k.ending.trans h.ending
  accepted := h.accepted.trans k.accepted
  bytes := h.bytes.trans k.bytes
  cmds := k.cmds.trans h.cmds
  responses := k.responses.trans h.responses
  waiting := k.waiting.trans h.waiting

/-- A command of HUF may change HUF, but for its ERR. -/
theorem commandEffect_huf {i : Instr} {s : State} {h : Huf} (hi : i.unit = .huf)
    (he : h.err = s.huf.err) : CommandEffect i s { s with huf := h } := by
  constructor
  case huf => exact fun hn => absurd hi hn
  case err =>
    intro u
    cases u with
    | huf => exact he
    | _ => rfl
  all_goals (intros; rfl)

/-- A command of LZE may change LZE, but for its ERR. -/
theorem commandEffect_lze {i : Instr} {s : State} {e : Lze} (hi : i.unit = .lze)
    (he : e.err = s.lze.err) : CommandEffect i s { s with lze := e } := by
  constructor
  case lze => exact fun hn => absurd hi hn
  case err =>
    intro u
    cases u with
    | lze => exact he
    | _ => rfl
  all_goals (intros; rfl)

theorem ReadEffect.command {i : Instr} {s t : State} (hi : readsBits i = true)
    (h : ReadEffect s t) : CommandEffect i s t := by
  constructor
  case br | src => exact fun hn => absurd (hi.symm.trans hn) (by decide)
  case content => exact h.content
  case delivered => exact h.delivered
  case ending => exact h.ending
  case err =>
    intro u
    cases u with
    | br => exact h.err
    | _ => rw [h.rest]; rfl
  all_goals rw [h.rest]
  all_goals exact fun _ => rfl

theorem WriteEffect.command {i : Instr} {s t : State} (hi : writesBits i = true)
    (h : WriteEffect s t) : CommandEffect i s t := by
  constructor
  case bw | snk => exact fun hn => absurd (hi.symm.trans hn) (by decide)
  case accepted => exact h.accepted
  case err =>
    intro u
    cases u with
    | bw => exact h.err
    | _ => rw [h.rest]; rfl
  all_goals rw [h.rest]
  all_goals exact fun _ => rfl

theorem EmitEffect.command {i : Instr} {s t : State} (hi : i.unit = .lzd)
    (h : EmitEffect s t) : CommandEffect i s t := by
  constructor
  case lzd | dout => exact fun hn => absurd hi hn
  case bytes => exact h.bytes
  case err =>
    intro u
    cases u with
    | lzd => exact h.err
    | _ => rw [h.rest]; rfl
  all_goals rw [h.rest]
  all_goals exact fun _ => rfl

/-- The faults a command can end with (R222): those of GetBit or the sticky code of BR, E_SNK or the
sticky code of BW, and those its own unit detects. -/
inductive Detects (i : Instr) (s : State) : CodecUnit → FaultCode → Prop
  | reader {v : CodecUnit} {c : FaultCode} : readsBits i = true → readFaults s.br.err v c →
      Detects i s v c
  | writer {v : CodecUnit} {c : FaultCode} : writesBits i = true → writeFaults s.bw.err v c →
      Detects i s v c
  | own {v : CodecUnit} {c : FaultCode} : v = i.unit → c.detector = v → v = .huf ∨ v = .lzd →
      Detects i s v c

/-- What a primitive does as part of the command `i`, started in `s`. -/
structure Runs {α : Type} (i : Instr) (s : State) (r : Res α) : Prop where
  moves : r.moves (CommandEffect i) s
  detects : r.faultsOnly (Detects i s)

section Runs
variable {α β : Type} {i : Instr} {s : State}

theorem moves_mono {R Q : State → State → Prop} {r : Res α} (h : r.moves R s)
    (hRQ : ∀ t, R s t → Q s t) : r.moves Q s := by
  cases r <;> exact hRQ _ h

theorem faultsOnly_mono {P Q : CodecUnit → FaultCode → Prop} {r : Res α} (h : r.faultsOnly P)
    (hPQ : ∀ v c, P v c → Q v c) : r.faultsOnly Q := by
  cases r with
  | ok => trivial
  | faulted v c t => exact hPQ v c h
  | waits => trivial

theorem Detects.of_effect {t : State} (h : CommandEffect i s t) {v : CodecUnit} {c : FaultCode}
    (hd : Detects i t v c) : Detects i s v c := by
  have hbr : t.br.err = s.br.err := h.err .br
  have hbw : t.bw.err = s.bw.err := h.err .bw
  cases hd with
  | reader hi hf => exact .reader hi (hbr ▸ hf)
  | writer hi hf => exact .writer hi (hbw ▸ hf)
  | own hv hc hu => exact .own hv hc hu

theorem runs_ok {t : State} (a : α) (h : CommandEffect i s t) : Runs i s (Res.ok a t) :=
  ⟨h, trivial⟩

theorem runs_bind {r : Res α} {f : α → State → Res β} (h : Runs i s r)
    (hf : ∀ a t, r = .ok a t → CommandEffect i s t → Runs i t (f a t)) : Runs i s (r.bind f) where
  moves := moves_bind (fun _ _ _ => .trans) h.moves fun a t hr ht => (hf a t hr ht).moves
  detects := faultsOnly_bind h.detects fun a t hr => by
    have ht : CommandEffect i s t := by
      have := h.moves
      rw [hr] at this
      exact this
    exact faultsOnly_mono (hf a t hr ht).detects fun _ _ => .of_effect ht

theorem runs_from {t : State} {r : Res α} (ht : CommandEffect i s t) (h : Runs i t r) :
    Runs i s r := by
  have := runs_bind (r := Res.ok () t) (f := fun _ _ => r) (runs_ok () ht) fun _ _ hr _ => by
    cases hr
    exact h
  exact this

theorem CommandEffect.refl (i : Instr) (s : State) : CommandEffect i s s := by
  constructor <;> intros <;> rfl

/-- Answering a value ends a command without a further effect. -/
theorem runs_pure (a : α) : Runs i s (Res.ok a s) := runs_ok a (.refl i s)

/-! ### The primitives -/

theorem runs_read {r : Res α} (hi : readsBits i = true) (hm : r.moves ReadEffect s)
    (hf : r.faultsOnly (readFaults s.br.err)) : Runs i s r :=
  ⟨moves_mono hm fun _ h => h.command hi, faultsOnly_mono hf fun _ _ => .reader hi⟩

theorem runs_getBit (hi : readsBits i = true) : Runs i s (getBit s) :=
  runs_read hi (getBit_moves s) (getBit_faultsOnly s)

theorem runs_readBits (hi : readsBits i = true) (n : Nat) : Runs i s (readBits n s) :=
  runs_read hi (readBits_moves n s) (readBits_faultsOnly n s)

theorem runs_putBit (hi : writesBits i = true) (b : Bool) : Runs i s (putBit b s) :=
  ⟨moves_mono (putBit_moves b s) fun _ h => h.command hi,
    faultsOnly_mono (putBit_faultsOnly b s) fun _ _ => .writer hi⟩

theorem runs_putBits (hi : writesBits i = true) (bs : List Bool) : Runs i s (putBits bs s) :=
  ⟨moves_mono (putBits_moves bs s) fun _ h => h.command hi,
    faultsOnly_mono (putBits_faultsOnly bs s) fun _ _ => .writer hi⟩

theorem emitByte_faultsOnly {s : State} (he : s.bw.err = none) :
    (emitByte s).faultsOnly (writeFaults s.bw.err) := by
  unfold emitByte
  split
  · exact drain_faultsOnly (s := appendCur s) he
  · trivial

/-- The faults of Flush: E_SNK, or the sticky code of BW (R141). -/
theorem flush_faultsOnly (s : State) : (flush s).faultsOnly (writeFaults s.bw.err) := by
  unfold flush
  split
  · rename_i c he
    exact ⟨rfl, .inl he⟩
  · rename_i he
    split
    · refine faultsOnly_bind (emitByte_faultsOnly he) fun _ t ht => ?_
      have hm : WriteEffect s t := by simpa [ht, Res.moves] using emitByte_moves s
      rw [← hm.err]
      exact drain_faultsOnly (hm.err.trans he)
    · exact drain_faultsOnly he

theorem runs_flush (hi : writesBits i = true) : Runs i s (flush s) :=
  ⟨moves_mono (flush_moves s) fun _ h => h.command hi,
    faultsOnly_mono (flush_faultsOnly s) fun _ _ => .writer hi⟩

theorem runs_emit {r : Res α} (hi : i.unit = .lzd) (hm : r.moves EmitEffect s)
    (hf : r.faultsOnly fun v c => v = .lzd ∧ c = .lzBadref) : Runs i s r :=
  ⟨moves_mono hm fun _ h => h.command hi, faultsOnly_mono hf fun _ _ hc =>
    .own (hc.1.trans hi.symm) (by rw [hc.1, hc.2]; rfl) (.inr hc.1)⟩

/-- PutByte never faults (R185). -/
theorem putByte_faultsOnly (b : Byte) (s : State) (P : CodecUnit → FaultCode → Prop) :
    (putByte b s).faultsOnly P := by
  have hcase := putByte_cases b s
  generalize putByte b s = r at hcase
  cases hcase <;> trivial

/-- The copy loop never faults (R189). -/
theorem copyTurns_faultsOnly (m : Nat) (s : State) (P : CodecUnit → FaultCode → Prop) :
    (copyTurns m s).faultsOnly P := by
  induction m generalizing s with
  | zero => trivial
  | succ m ih =>
    exact faultsOnly_bind (faultsOnly_bind (putByte_faultsOnly _ _ P) fun _ _ _ => trivial)
      fun _ t _ => ih t

theorem continueCopy_faultsOnly (k : Nat) (s : State) (P : CodecUnit → FaultCode → Prop) :
    (continueCopy k s).faultsOnly P := by
  unfold continueCopy
  split
  · exact faultsOnly_bind (copyTurns_faultsOnly _ s P) fun _ _ _ => trivial
  · trivial

theorem runs_putByte (hi : i.unit = .lzd) (b : Byte) : Runs i s (putByte b s) :=
  runs_emit hi (putByte_moves b s) (putByte_faultsOnly b s _)

theorem runs_continueCopy (hi : i.unit = .lzd) (k : Nat) : Runs i s (continueCopy k s) :=
  runs_emit hi (continueCopy_moves k s) (continueCopy_faultsOnly k s _)

/-- StartRef faults with E_LZ_BADREF only (R187). -/
theorem startRef_faultsOnly (off len : Nat) (s : State) :
    (startRef off len s).faultsOnly fun v c => v = .lzd ∧ c = .lzBadref := by
  have hcase := startRef_cases off len s
  generalize startRef off len s = r at hcase
  cases hcase with
  | badref => exact ⟨rfl, rfl⟩
  | terminator | started => trivial

theorem runRef_faultsOnly (off len : Nat) (s : State) :
    (runRef off len s).faultsOnly fun v c => v = .lzd ∧ c = .lzBadref :=
  faultsOnly_bind (startRef_faultsOnly off len s) fun _ _ _ =>
    faultsOnly_bind (continueCopy_faultsOnly _ _ _) fun _ _ _ => trivial

theorem runs_startRef (hi : i.unit = .lzd) (off len : Nat) : Runs i s (startRef off len s) :=
  runs_emit hi (startRef_moves off len s) (startRef_faultsOnly off len s)

theorem runs_runRef (hi : i.unit = .lzd) (off len : Nat) : Runs i s (runRef off len s) :=
  runs_emit hi (runRef_moves off len s) (runRef_faultsOnly off len s)

theorem commandEffect_lzd {d : Lzd} (hi : i.unit = .lzd) (he : d.err = s.lzd.err) :
    CommandEffect i s { s with lzd := d } := by
  constructor
  case lzd => exact fun hn => absurd hi hn
  case err =>
    intro u
    cases u with
    | lzd => exact he
    | _ => rfl
  all_goals (intros; rfl)

theorem runs_readLiteral (hr : readsBits i = true) (hi : i.unit = .lzd) :
    Runs i s (readLiteral s) :=
  runs_bind (runs_readBits hr _) fun _ _ _ _ => runs_ok _ (commandEffect_lzd hi rfl)

theorem runs_readReference (hr : readsBits i = true) (hi : i.unit = .lzd) :
    Runs i s (readReference s) :=
  runs_bind (runs_readBits hr _) fun _ _ _ _ => runs_bind (runs_readBits hr _) fun _ _ _ _ => by
    split
    · exact ⟨commandEffect_lzd hi rfl, .own hi.symm rfl (.inr rfl)⟩
    · exact runs_ok _ (commandEffect_lzd hi rfl)

theorem runs_readToken (hr : readsBits i = true) (hi : i.unit = .lzd) : Runs i s (readToken s) :=
  runs_bind (runs_getBit hr) fun _ t _ _ => by
    have htok : ∀ b, CommandEffect i t (setTokphase b t) := fun b => commandEffect_lzd hi rfl
    split
    · exact runs_from (htok true) (runs_readReference hr hi)
    · exact runs_from (htok true) (runs_readLiteral hr hi)

theorem runs_runToken (hi : i.unit = .lzd) (t : Token) : Runs i s (runToken t s) := by
  cases t with
  | literal b => exact runs_bind (runs_putByte hi b) fun _ _ _ _ => runs_pure _
  | reference off len => exact runs_runRef hi off len

theorem runs_startToken (hi : i.unit = .lzd) (e : Nat) (t : Token) :
    Runs i s (startToken e t s) := by
  cases t with
  | literal b => exact runs_bind (runs_putByte hi b) fun _ _ _ _ => runs_pure _
  | reference off len => exact runs_bind (runs_startRef hi off len) fun _ _ _ _ => runs_pure _

theorem runs_runLoop (hr : readsBits i = true) (hi : i.unit = .lzd) (n turns e : Nat) :
    Runs i s (runLoop n turns e s) := by
  induction turns generalizing e s with
  | zero => exact runs_pure _
  | succ turns ih =>
    unfold runLoop
    split
    · exact runs_pure _
    · refine runs_bind (runs_continueCopy hi _) fun c t _ _ => ?_
      split
      · exact runs_pure _
      · exact runs_bind (runs_readToken hr hi) fun _ _ _ _ =>
          runs_bind (runs_startToken hi _ _) fun _ _ _ _ => ih _

/-- What BuildTable leaves alone, whether it succeeds or finds the code over-subscribed: everything
of HUF but the tables, NCODES, LMAX and HSTATE (R154, R155). -/
structure BuildFrame (h k : Huf) : Prop where
  len : k.len = h.len
  nsym : k.nsym = h.nsym
  freq : k.freq = h.freq
  nfreq : k.nfreq = h.nfreq
  count : k.count = h.withCounts.count
  defsym : k.defsym = h.defsym
  err : k.err = h.err
  hstate : k.hstate = h.hstate
  ncodes : k.ncodes = h.ncodes
  lmax : k.lmax = h.lmax

@[simp] theorem withCounts_len (h : Huf) : h.withCounts.len = h.len := by
  unfold Huf.withCounts; rfl
@[simp] theorem withCounts_nsym (h : Huf) : h.withCounts.nsym = h.nsym := by
  unfold Huf.withCounts; rfl
@[simp] theorem withCounts_freq (h : Huf) : h.withCounts.freq = h.freq := by
  unfold Huf.withCounts; rfl
@[simp] theorem withCounts_nfreq (h : Huf) : h.withCounts.nfreq = h.nfreq := by
  unfold Huf.withCounts; rfl
@[simp] theorem withCounts_defsym (h : Huf) : h.withCounts.defsym = h.defsym := by
  unfold Huf.withCounts; rfl
@[simp] theorem withCounts_err (h : Huf) : h.withCounts.err = h.err := by
  unfold Huf.withCounts; rfl
@[simp] theorem withCounts_hstate (h : Huf) : h.withCounts.hstate = h.hstate := by
  unfold Huf.withCounts; rfl
@[simp] theorem withCounts_ncodes (h : Huf) : h.withCounts.ncodes = h.ncodes := by
  unfold Huf.withCounts; rfl
@[simp] theorem withCounts_lmax (h : Huf) : h.withCounts.lmax = h.lmax := by
  unfold Huf.withCounts; rfl

theorem TableFrame.build {h k : Huf} (hk : TableFrame h.withCounts k) : BuildFrame h k := by
  obtain ⟨rest⟩ := hk
  rw [rest]
  constructor <;> simp only [withCounts_len, withCounts_nsym, withCounts_freq, withCounts_nfreq,
    withCounts_defsym, withCounts_err, withCounts_hstate, withCounts_ncodes, withCounts_lmax]

theorem buildFrame_error {h k : Huf} {ls : List Nat}
    (ha : assignLengths ls { code := 0, idx := 0, huf := h.withCounts } = .error k) :
    BuildFrame h k := by
  have hframe := assignLengths_frame ls { code := 0, idx := 0, huf := h.withCounts }
  rw [ha] at hframe
  exact hframe.build

theorem buildFrame_ok {h : Huf} {a : Assign} {ls : List Nat}
    (ha : assignLengths ls { code := 0, idx := 0, huf := h.withCounts } = .ok a) :
    BuildFrame h a.huf := by
  have hframe := assignLengths_frame ls { code := 0, idx := 0, huf := h.withCounts }
  rw [ha] at hframe
  exact hframe.build

theorem runs_buildTable (hi : i.unit = .huf) : Runs i s (buildTable s) := by
  have hcase := buildTable_cases s
  generalize buildTable s = r at hcase
  have hown : ∀ c : FaultCode, c.detector = .huf → Detects i s .huf c :=
    fun c hc => .own hi.symm hc (.inl rfl)
  cases hcase with
  | tooLong => exact ⟨.refl i s, hown _ rfl⟩
  | oversub h _ ha => exact ⟨commandEffect_huf hi (buildFrame_error ha).err, hown _ rfl⟩
  | built a _ ha => exact runs_ok _ (commandEffect_huf hi (buildFrame_ok ha).err)

theorem runs_makeEncoder (hi : i.unit = .huf) : Runs i s (makeEncoder s) := by
  have built : ∀ h : Huf, h.err = s.huf.err →
      Runs i s ((buildTable { s with huf := h }).bind fun _ s => .ok s.huf.ncodes s) :=
    fun h he => runs_from (commandEffect_huf hi he)
      (runs_bind (runs_buildTable hi) fun _ _ _ _ => runs_pure _)
  unfold makeEncoder
  split
  · exact built _ rfl
  · split
    · exact ⟨commandEffect_huf hi rfl, .own hi.symm rfl (.inl rfl)⟩
    · exact built _ rfl

theorem runs_decodeFrom (hr : readsBits i = true) (hi : i.unit = .huf) (ls : List Nat)
    (code : Nat) : Runs i s (decodeFrom ls code s) := by
  induction ls generalizing code s with
  | nil => exact ⟨.refl i s, .own hi.symm rfl (.inl rfl)⟩
  | cons l ls ih =>
    rw [decodeFrom_cons]
    refine runs_bind (runs_getBit hr) fun b t _ _ => ?_
    split
    · exact runs_pure _
    · exact ih _

theorem runs_decodeSym (hr : readsBits i = true) (hi : i.unit = .huf) : Runs i s (decodeSym s) := by
  unfold decodeSym
  split
  · exact runs_pure _
  · exact runs_decodeFrom hr hi _ _

end Runs

end Sys2Proof.Machine

/-! PROOF. Every way a command can end (R93, R104, R121 to R123), and what follows of the ERR fields
(R32) and of the units a command reaches (R20). -/

namespace Sys2Proof.Machine

open Config

/-- Everything a command can do, over all 28 commands. -/
inductive ExecCase (i : Instr) (s : State) : Answer → Prop
  | answers (result : Word) : s.err i.unit = none → ExecCase i s (.next (s.answer result 0#32))
  | rejects (c : RejectCode) : s.err i.unit = none ∨ i.isInit = true → ExecCase i s (reject c s)
  | sticky (c : FaultCode) : s.err i.unit = some c → i.isInit = false →
      ExecCase i s (.next (s.answer 0#32 c.num))
  | resets : i = .sysReset → ExecCase i s (.next (s.resetUnits.respond 0))
  | initsReader (mode : BitOrder) : i = .brInit mode →
      ExecCase i s (.next (State.respond { s with br := s.br.initialised mode } 0))
  | initsWriter (mode : BitOrder) : i = .bwInit mode →
      ExecCase i s (.next (State.respond { s with bw := s.bw.initialised mode } 0))
  | clearsHuf : i = .hufClear →
      ExecCase i s (.next (State.respond { s with huf := s.huf.cleared } 0))
  | setsHuf (h : Huf) (r : Nat) : s.err i.unit = none → i.unit = .huf → h.err = s.huf.err →
      ExecCase i s (.next (State.respond { s with huf := h } r))
  | initsLzd (wb ob lb : BitVec 5) (min max : BitVec 16) : i = .lzdInit wb ob lb min max →
      (LzConfig.mk wb ob lb min max).ok = true →
      ExecCase i s (.next (State.respond
        { s with lzd := s.lzd.initialised ⟨wb, ob, lb, min, max⟩ } 0))
  | initsLze (wb ob lb : BitVec 5) (min max : BitVec 16) : i = .lzeInit wb ob lb min max →
      (LzConfig.mk wb ob lb min max).ok = true →
      ExecCase i s (.next (State.respond
        { s with lze := Lze.initialised ⟨wb, ob, lb, min, max⟩ } 0))
  | runs (r : Res Nat) : s.err i.unit = none → Runs i s r → ExecCase i s (r.finish i.unit)

/-- The sticky check of the common prologue (R223, R225). -/
theorem execCase_unlessSticky {i : Instr} {s : State} {run : State → Answer}
    (hi : i.isInit = false) (h : s.err i.unit = none → ExecCase i s (run s)) :
    ExecCase i s (unlessSticky i.unit s run) := by
  cases he : s.err i.unit with
  | some c => rw [unlessSticky_some he]; exact .sticky c he hi
  | none => rw [unlessSticky_none he]; exact h he

/-- A check of the command that rejects it (R225 to R227). -/
theorem execCase_rejectIf {i : Instr} {s : State} {p : Prop} [Decidable p] {c : RejectCode}
    {a : Answer} (he : s.err i.unit = none) (h : ExecCase i s a) :
    ExecCase i s (if p then reject c s else a) := by
  split
  · exact .rejects c (.inl he)
  · exact h

theorem exec_cases (i : Instr) (s : State) : ExecCase i s (exec i s) := by
  cases i with
  | sysNop =>
    exact .answers _ rfl
  | sysReset =>
    rw [exec, execSysReset]
    exact .resets rfl
  | sysRdsr r =>
    rw [exec, execSysRdsr]
    exact execCase_rejectIf rfl (.answers _ rfl)
  | brInit mode =>
    rw [exec, execBrInit]
    exact .initsReader mode rfl
  | brGetbit =>
    rw [exec, execBrGetbit]
    exact execCase_unlessSticky rfl fun he => .runs _ he
      (runs_bind (runs_getBit rfl) fun _ _ _ _ => runs_pure _)
  | brRead n =>
    rw [exec, execBrRead]
    exact execCase_unlessSticky rfl fun he => execCase_rejectIf he <|
      .runs _ he (runs_readBits rfl _)
  | bwInit mode =>
    rw [exec, execBwInit]
    exact .initsWriter mode rfl
  | bwPutbit b =>
    rw [exec, execBwPutbit]
    exact execCase_unlessSticky rfl fun he => .runs _ he
      (runs_bind (runs_putBit rfl b) fun _ _ _ _ => runs_pure _)
  | bwWrite n v =>
    rw [exec, execBwWrite]
    exact execCase_unlessSticky rfl fun he => execCase_rejectIf he <| .runs _ he
      (runs_bind (runs_putBits rfl _) fun _ _ _ _ => runs_pure _)
  | bwFlush =>
    rw [exec, execBwFlush]
    exact execCase_unlessSticky rfl fun he => .runs _ he
      (runs_bind (runs_flush rfl) fun _ _ _ _ => runs_pure _)
  | hufClear =>
    rw [exec, execHufClear]
    exact .clearsHuf rfl
  | hufPush len =>
    rw [exec, execHufPush]
    exact execCase_unlessSticky rfl fun he => execCase_rejectIf he <| execCase_rejectIf he <|
      .setsHuf _ _ he rfl rfl
  | hufBuild =>
    rw [exec, execHufBuild]
    exact execCase_unlessSticky rfl fun he => execCase_rejectIf he <| .runs _ he
      (runs_bind (runs_buildTable rfl) fun _ _ _ _ => runs_pure _)
  | hufGetsym =>
    rw [exec, execHufGetsym]
    exact execCase_unlessSticky rfl fun he => execCase_rejectIf he <|
      .runs _ he (runs_decodeSym rfl rfl)
  | hufFpush freq =>
    rw [exec, execHufFpush]
    exact execCase_unlessSticky rfl fun he => execCase_rejectIf he <| execCase_rejectIf he <|
      .setsHuf _ _ he rfl rfl
  | hufMkenc =>
    rw [exec, execHufMkenc]
    exact execCase_unlessSticky rfl fun he => execCase_rejectIf he <| execCase_rejectIf he <|
      .runs _ he (runs_makeEncoder rfl)
  | hufPutsym sym =>
    rw [exec, execHufPutsym]
    refine execCase_unlessSticky rfl fun he => execCase_rejectIf he ?_
    split
    · exact execCase_rejectIf he <| .answers _ he
    · exact execCase_rejectIf he <| .runs _ he
        (runs_bind (runs_putBits rfl _) fun _ _ _ _ => runs_pure _)
  | hufSetdef sym =>
    rw [exec, execHufSetdef]
    exact execCase_unlessSticky rfl fun he => .setsHuf _ _ he rfl rfl
  | hufRdlen sym =>
    rw [exec, execHufRdlen]
    exact execCase_unlessSticky rfl fun he => execCase_rejectIf he <| execCase_rejectIf he <|
      .answers _ he
  | lzdInit wb ob lb min max =>
    rw [exec, execLzdInit]
    split
    · exact .initsLzd wb ob lb min max rfl ‹_›
    · exact .rejects _ (.inr rfl)
  | lzdLit b =>
    rw [exec, execLzdLit]
    exact execCase_unlessSticky rfl fun he => execCase_rejectIf he <| .runs _ he
      (runs_bind (runs_putByte rfl b) fun _ _ _ _ => runs_pure _)
  | lzdRef off len =>
    rw [exec, execLzdRef]
    exact execCase_unlessSticky rfl fun he => execCase_rejectIf he <| execCase_rejectIf he <|
      execCase_rejectIf he <| .runs _ he (runs_runRef rfl _ _)
  | lzdStep =>
    rw [exec, execLzdStep]
    exact execCase_unlessSticky rfl fun he => execCase_rejectIf he <| .runs _ he
      (runs_bind (runs_readToken rfl rfl) fun t _ _ _ => runs_runToken rfl t)
  | lzdRun n =>
    rw [exec, execLzdRun]
    exact execCase_unlessSticky rfl fun he => .runs _ he (runs_runLoop rfl rfl _ _ _)
  | lzeInit wb ob lb min max =>
    rw [exec, execLzeInit]
    split
    · exact .initsLze wb ob lb min max rfl ‹_›
    · exact .rejects _ (.inr rfl)
  | lzeLit b =>
    rw [exec, execLzeLit]
    exact execCase_unlessSticky rfl fun he => execCase_rejectIf he <| .runs _ he
      (runs_bind (runs_putBits rfl _) fun _ _ _ _ => runs_pure _)
  | lzeRef off len =>
    rw [exec, execLzeRef]
    exact execCase_unlessSticky rfl fun he => execCase_rejectIf he <| execCase_rejectIf he <|
      execCase_rejectIf he <| .runs _ he
        (runs_bind (runs_putBits rfl _) fun _ _ _ _ => runs_pure _)
  | lzeFlush =>
    rw [exec, execLzeFlush]
    have hset : ∀ e (s : State), CommandEffect .lzeFlush s (setEstate e s) :=
      fun e s => commandEffect_lze rfl rfl
    exact execCase_unlessSticky rfl fun he => .runs _ he (runs_from (hset _ _)
      (runs_bind (runs_flush rfl) fun _ _ _ _ => runs_ok _ (hset _ _)))

/-- The three ends of a command that runs primitives: the value, the fault taken in both units, or
waiting without end (R80, R93, R222). -/
inductive FinishCase (i : Instr) (s : State) : State → Prop
  | responds (r : Nat) (t : State) : CommandEffect i s t → FinishCase i s (t.respond r)
  | faults (v : CodecUnit) (c : FaultCode) (t : State) : CommandEffect i s t → Detects i s v c →
      FinishCase i s (t.takeFault i.unit v c)
  | waits (d : Stream) (t : State) : CommandEffect i s t →
      FinishCase i s { t with waiting := some d }

theorem Runs.finish_cases {i : Instr} {s t : State} {r : Res Nat} (h : Runs i s r)
    (ht : r.finish i.unit = .next t) : FinishCase i s t := by
  obtain ⟨hm, hd⟩ := h
  cases r with
  | ok a u => cases ht; exact .responds a u hm
  | faulted v c u => cases ht; exact .faults v c u hm hd
  | waits d u => cases ht; exact .waits d u hm

/-! ## R32 -/

/-- SYS.RESET clears every ERR field (R121). -/
theorem err_resetUnits (s : State) (u : CodecUnit) : s.resetUnits.err u = none := by
  cases u <;> rfl

/-- A fault is detected where no ERR stands, or is the sticky code itself (R222, R223). -/
theorem Detects.err_before {i : Instr} {s : State} {v : CodecUnit} {c : FaultCode}
    (h : Detects i s v c) (he : s.err i.unit = none) : s.err v = some c ∨ s.err v = none := by
  cases h with
  | reader _ hf =>
    obtain ⟨rfl, hsticky | ⟨hnone, -⟩⟩ := hf
    · exact .inl hsticky
    · exact .inr hnone
  | writer _ hf =>
    obtain ⟨rfl, hsticky | ⟨hnone, -⟩⟩ := hf
    · exact .inl hsticky
    · exact .inr hnone
  | own hv _ _ => exact .inr (hv ▸ he)

/-- What a command leaves in an ERR field: what stood there, the code of the fault it answers, or
nothing, when it initialises that unit (R32). -/
theorem err_exec {i : Instr} {s t : State} (h : exec i s = .next t) (u : CodecUnit) :
    t.err u = s.err u ∨
    (s.err u = none ∧ ∃ c : FaultCode, t.err u = some c ∧
      t.responses = s.responses ++ [⟨0#32, c.num⟩]) ∨
    (t.err u = none ∧ (i = .sysReset ∨ (i.isInit = true ∧ i.unit = u))) := by
  have hcase := exec_cases i s
  rw [h] at hcase
  generalize ha : (Host.Outcome.next t : Answer) = a at hcase
  cases hcase with
  | answers | rejects | sticky => cases ha; exact .inl (err_answer ..)
  | resets hi => cases ha; exact .inr (.inr ⟨by simp [err_resetUnits], .inl hi⟩)
  | initsReader _ hi | initsWriter _ hi | clearsHuf hi | initsLzd _ _ _ _ _ hi _
  | initsLze _ _ _ _ _ hi _ =>
    cases ha
    subst hi
    cases u <;> first | exact .inl rfl | exact .inr (.inr ⟨rfl, .inr ⟨rfl, rfl⟩⟩)
  | setsHuf k r _ _ hk =>
    cases ha
    left
    cases u with
    | huf => exact hk
    | _ => rfl
  | runs r he hr =>
    cases hr.finish_cases ha.symm with
    | responds _ t ht => exact .inl ((err_respond ..).trans (ht.err u))
    | waits _ t ht => exact .inl (ht.err u)
    | faults v c t ht hd =>
      have hresp : (t.takeFault i.unit v c).responses = s.responses ++ [⟨0#32, c.num⟩] := by
        rw [takeFault_responses, ht.responses]
      rw [takeFault_err]
      split
      · rename_i hu
        obtain ⟨-, rfl | rfl⟩ := hu
        · exact .inr (.inl ⟨he, c, rfl, hresp⟩)
        · rcases hd.err_before he with hsticky | hnone
          · exact .inl hsticky.symm
          · exact .inr (.inl ⟨hnone, c, rfl, hresp⟩)
      · exact .inl (ht.err u)

/-- While its unit's ERR is set, a command that does not initialise the unit is refused (R223). -/
theorem exec_sticky {i : Instr} {s : State} {c : FaultCode} (he : s.err i.unit = some c)
    (hi : i.isInit = false) : exec i s = .next (s.answer 0#32 c.num) := by
  have hcase := exec_cases i s
  generalize exec i s = a at hcase ⊢
  cases hcase with
  | sticky d hd _ => rw [Option.some.inj (he.symm.trans hd)]
  | answers _ hn | setsHuf _ _ hn _ _ | runs _ hn _ => rw [he] at hn; cases hn
  | rejects _ hr =>
    rcases hr with hn | hinit
    · rw [he] at hn; cases hn
    · rw [hi] at hinit; cases hinit
  | resets h => subst h; cases he
  | initsReader _ h | initsWriter _ h | clearsHuf h | initsLzd _ _ _ _ _ h _
  | initsLze _ _ _ _ _ h _ => subst h; cases hi

/-- Settles O10: by the ways a command can end, `exec_cases`. -/
theorem stickyErrorFields : Obligations.StickyErrorFields :=
  ⟨fun u => by cases u <;> rfl, fun _ _ _ he hi => exec_sticky he hi, fun _ _ _ h u => err_exec h u⟩

/-! ## R20 -/

section Other
variable {u v : CodecUnit} {c : FaultCode} {t : State}

/-! A fault leaves a unit alone that neither detects it nor runs the command (R222). -/

theorem takeFault_br_other (hu : u ≠ .br) (hv : v ≠ .br) : (t.takeFault u v c).br = t.br := by
  simp [State.takeFault, setErr_br, hu, hv]

theorem takeFault_bw_other (hu : u ≠ .bw) (hv : v ≠ .bw) : (t.takeFault u v c).bw = t.bw := by
  simp [State.takeFault, setErr_bw, hu, hv]

theorem takeFault_huf_other (hu : u ≠ .huf) (hv : v ≠ .huf) : (t.takeFault u v c).huf = t.huf := by
  simp [State.takeFault, setErr_huf, hu, hv]

theorem takeFault_lzd_other (hu : u ≠ .lzd) (hv : v ≠ .lzd) : (t.takeFault u v c).lzd = t.lzd := by
  simp [State.takeFault, setErr_lzd, hu, hv]

theorem takeFault_lze_other (hu : u ≠ .lze) (hv : v ≠ .lze) : (t.takeFault u v c).lze = t.lze := by
  simp [State.takeFault, setErr_lze, hu, hv]

variable {i : Instr} {s : State}

theorem Detects.unit_cases (h : Detects i s v c) :
    (v = .br ∧ readsBits i = true) ∨ (v = .bw ∧ writesBits i = true) ∨
      (v = i.unit ∧ (v = .huf ∨ v = .lzd)) := by
  cases h with
  | reader hi hf => exact .inl ⟨hf.1, hi⟩
  | writer hi hf => exact .inr (.inl ⟨hf.1, hi⟩)
  | own hv _ hu => exact .inr (.inr ⟨hv, hu⟩)

theorem Detects.ne_br (h : Detects i s v c) (hi : readsBits i = false) : v ≠ .br := by
  rcases h.unit_cases with ⟨-, h⟩ | ⟨rfl, -⟩ | ⟨-, rfl | rfl⟩ <;> simp_all

theorem Detects.ne_bw (h : Detects i s v c) (hi : writesBits i = false) : v ≠ .bw := by
  rcases h.unit_cases with ⟨rfl, -⟩ | ⟨-, h⟩ | ⟨-, rfl | rfl⟩ <;> simp_all

theorem Detects.ne_huf (h : Detects i s v c) (hu : i.unit ≠ .huf) : v ≠ .huf := by
  rcases h.unit_cases with ⟨rfl, -⟩ | ⟨rfl, -⟩ | ⟨rfl, -⟩ <;> simp_all

theorem Detects.ne_lzd (h : Detects i s v c) (hu : i.unit ≠ .lzd) : v ≠ .lzd := by
  rcases h.unit_cases with ⟨rfl, -⟩ | ⟨rfl, -⟩ | ⟨rfl, -⟩ <;> simp_all

theorem Detects.ne_lze (h : Detects i s v c) : v ≠ .lze := by
  rcases h.unit_cases with ⟨rfl, -⟩ | ⟨rfl, -⟩ | ⟨-, rfl | rfl⟩ <;> simp

/-- The commands of BR read bits or reset BR (R130, R133, R134). -/
theorem unit_ne_br (hr : readsBits i = false) (hi : resetsReader i = false) : i.unit ≠ .br := by
  cases i <;> simp_all [readsBits, resetsReader, Instr.unit]

/-- The commands of BW write bits or reset BW (R137, R142 to R144). -/
theorem unit_ne_bw (hw : writesBits i = false) (hi : resetsWriter i = false) : i.unit ≠ .bw := by
  cases i <;> simp_all [writesBits, resetsWriter, Instr.unit]

end Other

/-- Settles O14: by the ways a command can end, `exec_cases`; a fault writes the ERR fields of the
detecting unit and of the command's own unit only. -/
theorem commandsKeepToTheirUnits : Obligations.CommandsKeepToTheirUnits := by
  intro i s t h
  have hcase := exec_cases i s
  rw [h] at hcase
  generalize ha : (Host.Outcome.next t : Answer) = a at hcase
  cases hcase with
  | answers | rejects | sticky => cases ha; simp
  | resets hi => cases ha; subst hi; simp [resetsReader, resetsWriter]
  | initsReader _ hi | initsWriter _ hi | clearsHuf hi | initsLzd _ _ _ _ _ hi _
  | initsLze _ _ _ _ _ hi _ =>
    cases ha; subst hi; simp [Instr.unit, resetsReader, resetsWriter]
  | setsHuf k r _ hu _ => cases ha; simp [hu]
  | runs r he hr =>
    cases hr.finish_cases ha.symm with
    | responds _ t ht | waits _ t ht =>
      exact ⟨fun hi _ => ht.br hi, ht.src, fun hi _ => ht.bw hi, ht.snk, fun hu _ => ht.huf hu,
        fun hu _ => ht.lzd hu, ht.dout, fun hu _ => ht.lze hu⟩
    | faults v c t ht hd =>
      simp only [takeFault_src, takeFault_snk, takeFault_dout]
      refine ⟨fun hi hn => ?_, ht.src, fun hi hn => ?_, ht.snk, fun hu _ => ?_, fun hu _ => ?_,
        ht.dout, fun hu _ => ?_⟩
      · rw [takeFault_br_other (unit_ne_br hi hn) (hd.ne_br hi), ht.br hi]
      · rw [takeFault_bw_other (unit_ne_bw hi hn) (hd.ne_bw hi), ht.bw hi]
      · rw [takeFault_huf_other hu (hd.ne_huf hu), ht.huf hu]
      · rw [takeFault_lzd_other hu (hd.ne_lzd hu), ht.lzd hu]
      · rw [takeFault_lze_other hu hd.ne_lze, ht.lze hu]

end Sys2Proof.Machine

/-! PROOF. How an invariant is carried through a command and through a step, and the invariant of
the reader (R24). -/

namespace Sys2Proof.Machine

open Config

/-! ## Steps -/

/-- Everything a step can do (R80, R97, R104, R236). -/
inductive StepCase (s : State) : State → Prop
  | stays : s.waiting ≠ none ∨ s.cmds = [] → StepCase s s
  | illegal (b : Beat) (rest : List Beat) : s.waiting = none → s.cmds = b :: rest →
      StepCase s (State.answer { s with cmds := rest } 0#32 1#32)
  | runs (b : Beat) (rest : List Beat) (i : Instr) (t : State) : s.waiting = none →
      s.cmds = b :: rest → decode b = .ok i → exec i { s with cmds := rest } = .next t →
      StepCase s t

theorem step_cases {s t : State} (h : step s = .next t) : StepCase s t := by
  obtain ⟨_, _, _, _, _, _, _, _, cmds, _, waiting⟩ := s
  cases waiting with
  | some d => cases h; exact .stays (.inl (by simp))
  | none =>
    cases cmds with
    | nil => cases h; exact .stays (.inr rfl)
    | cons b rest =>
      simp only [step, State.takeBeat] at h
      cases hd : decode b with
      | error e => rw [hd] at h; cases h; exact .illegal b rest rfl rfl
      | ok i => rw [hd] at h; exact .runs b rest i t rfl rfl hd h

/-! ## Carrying a property through a command -/

/-- The property holds of the next state, if there is one. -/
def Keeps (J : State → Prop) (a : Answer) : Prop := ∀ t, a = .next t → J t

/-- However the primitive ends, the state that follows has the property: `I` after a value and after
the fault has been taken for a command of `u`, `W` while it waits. -/
def Res.ends {α : Type} (I W : State → Prop) (u : CodecUnit) : Res α → Prop
  | .ok _ t => I t
  | .faulted v c t => I (t.takeFault u v c)
  | .waits _ t => W t

section Keeps
variable {α β : Type} {I W J : State → Prop} {u : CodecUnit} {s : State}

theorem ends_bind {r : Res α} {f : α → State → Res β} (h : r.ends I W u)
    (hf : ∀ a t, r = .ok a t → I t → (f a t).ends I W u) : (r.bind f).ends I W u := by
  cases r with
  | ok a t => exact hf a t rfl h
  | faulted v c t => exact h
  | waits d t => exact h

theorem keeps_next {t : State} (h : J t) : Keeps J (.next t) := by
  intro t' ht
  cases ht
  exact h

theorem keeps_finish {r : Res Nat} (h : r.ends I W u) (hr : ∀ n t, I t → J (t.respond n))
    (hf : ∀ t, I t → J t) (hw : ∀ d t, W t → J { t with waiting := some d }) :
    Keeps J (r.finish u) := by
  cases r with
  | ok n t => exact keeps_next (hr n t h)
  | faulted v c t => exact keeps_next (hf _ h)
  | waits d t => exact keeps_next (hw d t h)

theorem keeps_unlessSticky {run : State → Answer} (h0 : ∀ r st, J (s.answer r st))
    (h : s.err u = none → Keeps J (run s)) : Keeps J (unlessSticky u s run) := by
  cases he : s.err u with
  | some c => rw [unlessSticky_some he]; exact keeps_next (h0 _ _)
  | none => rw [unlessSticky_none he]; exact h he

theorem keeps_rejectIf {p : Prop} [Decidable p] {c : RejectCode} {a : Answer}
    (h0 : ∀ r st, J (s.answer r st)) (h : ¬p → Keeps J a) :
    Keeps J (if p then reject c s else a) := by
  split
  · exact keeps_next (h0 _ _)
  · exact h ‹_›

end Keeps

/-! ## The reader (R24) -/

/-- R24 holds in `t`, and when SRC had ended in `s` it has not been asked again. -/
structure ReaderKept (s t : State) : Prop where
  inv : t.br.Inv
  stopped : s.br.reof = true → t.src = s.src ∧ t.br.reof = true

theorem ReaderKept.refl {s : State} (h : s.br.Inv) : ReaderKept s s := ⟨h, fun hr => ⟨rfl, hr⟩⟩

theorem ReaderKept.of_eq {s t u : State} (h : ReaderKept s t) (hbr : u.br = t.br)
    (hsrc : u.src = t.src) : ReaderKept s u := by
  obtain ⟨hinv, hstop⟩ := h
  exact ⟨hbr ▸ hinv, fun hr => by rw [hbr, hsrc]; exact hstop hr⟩

/-- A reader that has ended is sticky, so reading on leaves SRC alone. -/
theorem ReaderKept.stopped_read {s t u : State} (h : ReaderKept s t) (hm : ReadEffect t u) :
    s.br.reof = true → u.src = s.src ∧ u.br.reof = true := by
  intro hr
  obtain ⟨hsrc, hreof⟩ := h.stopped hr
  refine ⟨?_, hm.flagged hreof⟩
  rcases hm.stopped hreof with hu | hn
  · exact hu.trans hsrc
  · rw [h.inv.eofFailed hreof] at hn
    cases hn

theorem takeFault_br_self (t : State) (u : CodecUnit) (c : FaultCode) :
    (t.takeFault u .br c).br = { t.br with err := some c } := by
  cases u <;> rfl

section Reader
variable {α : Type} {s t : State} {u : CodecUnit}

/-- A GetBit keeps R24, whatever unit's command calls it. -/
theorem getBit_keepsReader (h : ReaderKept s t) (u : CodecUnit) :
    (getBit t).ends (ReaderKept s) (ReaderKept s) u := by
  have hinv := getBit_inv h.inv
  have hmoves := getBit_moves t
  have hfaults := getBit_faultsOnly t
  generalize getBit t = r at hinv hmoves hfaults
  cases r with
  | ok b t' => exact ⟨hinv, h.stopped_read hmoves⟩
  | faulted v c t' =>
    obtain ⟨rfl, -⟩ := hfaults
    refine ⟨?_, fun hr => ?_⟩
    · rw [takeFault_br_self]; exact hinv
    · rw [takeFault_src, takeFault_br_self]
      exact h.stopped_read hmoves hr
  | waits d t' => exact ⟨hinv, h.stopped_read hmoves⟩

theorem getBits_keepsReader (h : ReaderKept s t) (u : CodecUnit) (n : Nat) :
    (getBits n t).ends (ReaderKept s) (ReaderKept s) u := by
  induction n generalizing t with
  | zero => exact h
  | succ n ih =>
    exact ends_bind (getBit_keepsReader h u) fun _ _ _ h' => ends_bind (ih h') fun _ _ _ h'' => h''

theorem readBits_keepsReader (h : ReaderKept s t) (u : CodecUnit) (n : Nat) :
    (readBits n t).ends (ReaderKept s) (ReaderKept s) u :=
  ends_bind (getBits_keepsReader h u n) fun _ _ _ h' => h'

theorem decodeSym_keepsReader (h : ReaderKept s t) :
    (decodeSym t).ends (ReaderKept s) (ReaderKept s) .huf := by
  have loop : ∀ ls code t, ReaderKept s t →
      (decodeFrom ls code t).ends (ReaderKept s) (ReaderKept s) .huf := by
    intro ls
    induction ls with
    | nil => exact fun _ t ht => ht.of_eq (takeFault_br_other (by simp) (by simp)) (by simp)
    | cons l ls ih =>
      intro code t ht
      rw [decodeFrom_cons]
      refine ends_bind (getBit_keepsReader ht _) fun b t' _ ht' => ?_
      split
      · exact ht'
      · exact ih _ _ ht'
  unfold decodeSym
  split
  · exact h
  · exact loop _ _ _ h

/-- Emitting leaves the reader alone (R185). -/
theorem emit_keepsReader {r : Res α} (h : ReaderKept s t) (hm : r.moves EmitEffect t)
    (hf : r.faultsOnly fun v c => v = .lzd ∧ c = .lzBadref) :
    r.ends (ReaderKept s) (ReaderKept s) .lzd := by
  have hframe : ∀ t', EmitEffect t t' → ReaderKept s t' := fun t' hm' =>
    h.of_eq (by rw [hm'.rest]) (by rw [hm'.rest])
  cases r with
  | ok a t' => exact hframe t' hm
  | faulted v c t' =>
    obtain ⟨rfl, -⟩ := hf
    exact (hframe t' hm).of_eq (takeFault_br_other (by simp) (by simp)) (by simp)
  | waits d t' => exact hframe t' hm

theorem readToken_keepsReader (h : ReaderKept s t) :
    (readToken t).ends (ReaderKept s) (ReaderKept s) .lzd := by
  refine ends_bind (getBit_keepsReader h _) fun flag t' _ ht' => ?_
  have htok : ReaderKept s (setTokphase true t') := ht'.of_eq rfl rfl
  split
  · refine ends_bind (readBits_keepsReader htok _ _) fun off t₁ _ h₁ => ?_
    refine ends_bind (readBits_keepsReader h₁ _ _) fun l t₂ _ h₂ => ?_
    split
    · exact h₂.of_eq rfl rfl
    · exact h₂.of_eq rfl rfl
  · exact ends_bind (readBits_keepsReader htok _ _) fun v t₁ _ h₁ => h₁.of_eq rfl rfl

theorem putByte_keepsReader (h : ReaderKept s t) (b : Byte) :
    (putByte b t).ends (ReaderKept s) (ReaderKept s) .lzd :=
  emit_keepsReader h (putByte_moves b t) (putByte_faultsOnly b t _)

theorem runToken_keepsReader (h : ReaderKept s t) (tok : Token) :
    (runToken tok t).ends (ReaderKept s) (ReaderKept s) .lzd := by
  cases tok with
  | literal b => exact ends_bind (putByte_keepsReader h b) fun _ _ _ h' => h'
  | reference off len =>
    exact emit_keepsReader h (runRef_moves off len t) (runRef_faultsOnly off len t)

theorem startToken_keepsReader (h : ReaderKept s t) (e : Nat) (tok : Token) :
    (startToken e tok t).ends (ReaderKept s) (ReaderKept s) .lzd := by
  cases tok with
  | literal b => exact ends_bind (putByte_keepsReader h b) fun _ _ _ h' => h'
  | reference off len =>
    exact ends_bind (emit_keepsReader h (startRef_moves off len t) (startRef_faultsOnly off len t))
      fun _ _ _ h' => h'

theorem runLoop_keepsReader (h : ReaderKept s t) (n turns e : Nat) :
    (runLoop n turns e t).ends (ReaderKept s) (ReaderKept s) .lzd := by
  induction turns generalizing e t with
  | zero => exact h
  | succ turns ih =>
    unfold runLoop
    split
    · exact h
    · refine ends_bind (emit_keepsReader h (continueCopy_moves _ t) (continueCopy_faultsOnly _ t _))
        fun c t₁ _ h₁ => ?_
      split
      · exact h₁
      · exact ends_bind (readToken_keepsReader h₁) fun tok t₂ _ h₂ =>
          ends_bind (startToken_keepsReader h₂ _ tok) fun e' t₃ _ h₃ => ih h₃ e'

/-- A command of unit `u` that reads through `r` keeps R24. -/
theorem finish_keepsReader {r : Res Nat} (h : r.ends (ReaderKept s) (ReaderKept s) u) :
    Keeps (ReaderKept s) (r.finish u) :=
  keeps_finish h (fun _ _ h => h.of_eq rfl rfl) (fun _ h => h) fun _ _ h => h.of_eq rfl rfl

/-- The commands that read bits keep R24. -/
theorem exec_keepsReader_of_reads {i : Instr} (hi : readsBits i = true) (h : s.br.Inv) :
    Keeps (ReaderKept s) (exec i s) := by
  have h0 := ReaderKept.refl h
  have hans : ∀ r st, ReaderKept s (s.answer r st) := fun _ _ => h0.of_eq rfl rfl
  cases i with
  | brGetbit =>
    rw [exec, execBrGetbit]
    exact keeps_unlessSticky hans fun _ =>
      finish_keepsReader (ends_bind (getBit_keepsReader h0 _) fun _ _ _ h' => h')
  | brRead n =>
    rw [exec, execBrRead]
    exact keeps_unlessSticky hans fun _ => keeps_rejectIf hans fun _ =>
      finish_keepsReader (readBits_keepsReader h0 _ _)
  | hufGetsym =>
    rw [exec, execHufGetsym]
    exact keeps_unlessSticky hans fun _ => keeps_rejectIf hans fun _ =>
      finish_keepsReader (decodeSym_keepsReader h0)
  | lzdStep =>
    rw [exec, execLzdStep]
    exact keeps_unlessSticky hans fun _ => keeps_rejectIf hans fun _ =>
      finish_keepsReader (ends_bind (readToken_keepsReader h0) fun tok _ _ h' =>
        runToken_keepsReader h' tok)
  | lzdRun n =>
    rw [exec, execLzdRun]
    exact keeps_unlessSticky hans fun _ => finish_keepsReader (runLoop_keepsReader h0 _ _ _)
  | _ => cases hi

/-- BR as BR.INIT and SYS.RESET leave it has the invariant (R130, R250). -/
theorem brInv_initialised {b : Br} (mode : BitOrder) (hw : b.rbuf.wf = true)
    (hb : b.rbuf.below BUFSZ = true) : (b.initialised mode).Inv where
  canonical := hw
  bounded := hb
  posLe := Nat.le_refl 0
  lenLe := Nat.zero_le _
  cntLe := Nat.zero_le _
  spentZero k _ _ := streamBit_zero mode k
  balance := by simp [Br.initialised, Br.reset]
  eofFailed hr := by cases hr

/-- The commands that reset the reader leave it with the invariant. -/
theorem exec_inv_of_resetsReader {i : Instr} (hi : resetsReader i = true) (h : s.br.Inv)
    (ht : exec i s = .next t) : t.br.Inv := by
  cases i with
  | brInit mode => cases ht; exact brInv_initialised mode h.canonical h.bounded
  | sysReset => cases ht; exact brInv_initialised .msb h.canonical h.bounded
  | _ => cases hi

/-- Every command that does not reset the reader keeps R24 and leaves an ended SRC alone. -/
theorem exec_keepsReader {i : Instr} (hi : resetsReader i = false) (h : s.br.Inv)
    (ht : exec i s = .next t) : ReaderKept s t := by
  cases hr : readsBits i with
  | true => exact exec_keepsReader_of_reads hr h t ht
  | false =>
    obtain ⟨hbr, hsrc, -⟩ := commandsKeepToTheirUnits i s t ht
    exact (ReaderKept.refl h).of_eq (hbr hr hi) (hsrc hr)

end Reader

/-- Settles O17, by `getBit_keepsReader` along the commands that read bits and by the frame of O14
for the others. -/
theorem readerInvariantIsKept : Obligations.ReaderInvariantIsKept := by
  refine ⟨brInv_initialised (b := Br.reset) .msb rfl rfl, fun s t h hstep => ?_⟩
  have hkept : ReaderKept s t →
      t.br.Inv ∧ (s.br.reof = true → t.src = s.src ∧ (t.br.reof = true ∨
        ∃ (b : Beat) (rest : List Beat) (i : Instr), s.waiting = none ∧ s.cmds = b :: rest ∧
          decode b = .ok i ∧ resetsReader i = true)) :=
    fun hk => ⟨hk.inv, fun hr => ⟨(hk.stopped hr).1, .inl (hk.stopped hr).2⟩⟩
  cases step_cases hstep with
  | stays => exact hkept (.refl h)
  | illegal => exact hkept ((ReaderKept.refl h).of_eq rfl rfl)
  | runs b rest i _ hw hc hd hexec =>
    cases hi : resetsReader i with
    | false =>
      have hk := exec_keepsReader (s := { s with cmds := rest }) hi h hexec
      exact hkept ⟨hk.inv, hk.stopped⟩
    | true =>
      have hsrc : readsBits i = false := by
        cases i with
        | brInit | sysReset => rfl
        | _ => cases hi
      obtain ⟨-, hframe, -⟩ := commandsKeepToTheirUnits i _ t hexec
      exact ⟨exec_inv_of_resetsReader (s := { s with cmds := rest }) hi h hexec,
        fun _ => ⟨hframe hsrc, .inr ⟨b, rest, i, hw, hc, hd, hi⟩⟩⟩

end Sys2Proof.Machine

/-! PROOF. The invariant of the writer (R26). -/

namespace Sys2Proof.Machine

open Config

/-- R26 of the state's writer. -/
def State.WriterInv (s : State) : Prop := s.bw.Inv

/-- Nothing is claimed while SNK has not answered (R80). -/
def Unclaimed (_ : State) : Prop := True

section Writer
variable {α : Type} {s t : State} {u : CodecUnit}

/-- A sticky code leaves R26 as it is: what it says of a full buffer holds without one only. -/
theorem Bw.Inv.latched {w : Bw} (h : w.Inv) (c : FaultCode) : ({ w with err := some c } : Bw).Inv :=
  { h with room := fun he => by cases he }

theorem takeFault_bw_self (t : State) (u : CodecUnit) (c : FaultCode) :
    (t.takeFault u .bw c).bw = { t.bw with err := some c } := by
  cases u <;> rfl

/-- A Drain keeps R26, also of a buffer that has just filled (R140). -/
theorem drain_keepsWriter (h : ({ s.bw with err := some .snk } : Bw).Inv)
    (h0 : s.bw.wlen = 0 → s.bw.Inv) (u : CodecUnit) :
    (drain s).ends State.WriterInv Unclaimed u := by
  have hcase := drain_cases s
  generalize drain s = r at hcase
  cases hcase with
  | empty hl => exact h0 hl
  | ok => exact bwInv_drained h.canonical h.bounded h.cntLe h.blankZero
  | err =>
    show (State.takeFault (offered s) u .bw .snk).bw.Inv
    rw [takeFault_bw_self]
    exact h
  | silent => trivial

/-- An EmitByte keeps R26 (R140). -/
theorem emitByte_keepsWriter (h : s.bw.Inv) (he : s.bw.err = none) (u : CodecUnit) :
    (emitByte s).ends State.WriterInv Unclaimed u := by
  unfold emitByte
  split
  · refine drain_keepsWriter ?_ (fun h0 => absurd h0 (Nat.succ_ne_zero _)) u
    exact bwInv_appendCur (s := { s with bw := { s.bw with err := some .snk } }) h.canonical
      h.bounded (h.room he) fun hn => by cases hn
  · exact bwInv_appendCur h.canonical h.bounded (h.room he) fun _ => ‹_›

theorem putBit_keepsWriter (h : s.bw.Inv) (b : Bool) (u : CodecUnit) :
    (putBit b s).ends State.WriterInv Unclaimed u := by
  have hinv := putBit_inv (b := b) h
  have hfaults := putBit_faultsOnly b s
  generalize putBit b s = r at hinv hfaults
  cases r with
  | ok _ t => exact hinv
  | faulted v c t =>
    obtain ⟨rfl, -⟩ := hfaults
    show (t.takeFault u .bw c).bw.Inv
    rw [takeFault_bw_self]
    exact hinv
  | waits d t => trivial

theorem putBits_keepsWriter (h : s.bw.Inv) (bs : List Bool) (u : CodecUnit) :
    (putBits bs s).ends State.WriterInv Unclaimed u := by
  induction bs generalizing s with
  | nil => exact h
  | cons b bs ih => exact ends_bind (putBit_keepsWriter h b u) fun _ _ _ h' => ih h'

theorem flush_keepsWriter (h : s.bw.Inv) (u : CodecUnit) :
    (flush s).ends State.WriterInv Unclaimed u := by
  unfold flush
  split
  · show (s.takeFault u .bw _).bw.Inv
    rw [takeFault_bw_self]
    exact h.latched _
  · refine ends_bind ?_ fun _ t _ ht => drain_keepsWriter (Bw.Inv.latched ht _) (fun _ => ht) u
    split
    · exact emitByte_keepsWriter h ‹_› u
    · exact h

/-- R26 of a state that does not wait. -/
def State.WriterInvWhenIdle (s : State) : Prop := s.waiting = none → s.bw.Inv

/-- A command of unit `u` that writes through `r` keeps R26. -/
theorem finish_keepsWriter {r : Res Nat} (h : r.ends State.WriterInv Unclaimed u) :
    Keeps State.WriterInvWhenIdle (r.finish u) :=
  keeps_finish h (fun _ _ h _ => h) (fun _ h _ => h) fun _ _ _ hw => by cases hw

/-- A command that only writes a list of bits keeps R26. -/
theorem finish_putBits_keepsWriter (h : s.bw.Inv) (bs : List Bool) (n : Nat) :
    Keeps State.WriterInvWhenIdle (((putBits bs s).bind fun _ t => Res.ok n t).finish u) :=
  finish_keepsWriter (ends_bind (putBits_keepsWriter h bs u) fun _ _ _ h' => h')

/-- The commands that write bits keep R26. -/
theorem exec_keepsWriter_of_writes {i : Instr} (hi : writesBits i = true) (h : s.bw.Inv) :
    Keeps State.WriterInvWhenIdle (exec i s) := by
  have hans : ∀ r st, (s.answer r st).WriterInvWhenIdle := fun _ _ _ => h
  cases i with
  | bwPutbit b =>
    rw [exec, execBwPutbit]
    exact keeps_unlessSticky hans fun _ =>
      finish_keepsWriter (ends_bind (putBit_keepsWriter h b _) fun _ _ _ h' => h')
  | bwWrite n v =>
    rw [exec, execBwWrite]
    exact keeps_unlessSticky hans fun _ => keeps_rejectIf hans fun _ =>
      finish_putBits_keepsWriter h _ _
  | bwFlush =>
    rw [exec, execBwFlush]
    exact keeps_unlessSticky hans fun _ =>
      finish_keepsWriter (ends_bind (flush_keepsWriter h _) fun _ _ _ h' => h')
  | hufPutsym sym =>
    rw [exec, execHufPutsym]
    refine keeps_unlessSticky hans fun _ => keeps_rejectIf hans fun _ => ?_
    split
    · exact keeps_rejectIf hans fun _ => keeps_next (hans _ _)
    · exact keeps_rejectIf hans fun _ => finish_putBits_keepsWriter h _ _
  | lzeLit b =>
    rw [exec, execLzeLit]
    exact keeps_unlessSticky hans fun _ => keeps_rejectIf hans fun _ =>
      finish_putBits_keepsWriter h _ _
  | lzeRef off len =>
    rw [exec, execLzeRef]
    exact keeps_unlessSticky hans fun _ => keeps_rejectIf hans fun _ => keeps_rejectIf hans fun _ =>
      keeps_rejectIf hans fun _ => finish_putBits_keepsWriter h _ _
  | lzeFlush =>
    rw [exec, execLzeFlush]
    exact keeps_unlessSticky hans fun _ => finish_keepsWriter
      (ends_bind (flush_keepsWriter (s := setEstate .flushing s) h _) fun _ _ _ h' => h')
  | _ => cases hi

/-- BW as BW.INIT and SYS.RESET leave it has the invariant (R137, R250). -/
theorem bwInv_initialised {w : Bw} (mode : BitOrder) (hw : w.wbuf.wf = true)
    (hb : w.wbuf.below BUFSZ = true) : (w.initialised mode).Inv where
  canonical := hw
  bounded := hb
  cntLe := Nat.zero_le _
  lenLe := Nat.zero_le _
  room _ := Nat.zero_lt_succ _
  blankZero k _ _ := streamBit_zero mode k

/-- Every command that ends keeps R26. -/
theorem exec_keepsWriter {i : Instr} (h : s.bw.Inv) : Keeps State.WriterInvWhenIdle (exec i s) := by
  intro t ht
  cases hw : writesBits i with
  | true => exact exec_keepsWriter_of_writes hw h t ht
  | false =>
    cases hi : resetsWriter i with
    | false =>
      obtain ⟨-, -, hbw, -⟩ := commandsKeepToTheirUnits i s t ht
      exact fun _ => hbw hw hi ▸ h
    | true =>
      cases i with
      | bwInit mode => cases ht; exact fun _ => bwInv_initialised mode h.canonical h.bounded
      | sysReset => cases ht; exact fun _ => bwInv_initialised .msb h.canonical h.bounded
      | _ => cases hi

end Writer

/-- Settles O18, by `putBit_keepsWriter` and `flush_keepsWriter` along the commands that write bits
and by the frame of O14 for the others. -/
theorem writerInvariantIsKept : Obligations.WriterInvariantIsKept := by
  intro s t h hstep
  cases step_cases hstep with
  | stays => exact h
  | illegal b rest hw hc => exact fun _ => h hw
  | runs b rest i _ hw hc hd hexec =>
    exact exec_keepsWriter (s := { s with cmds := rest }) (h hw) t hexec

end Sys2Proof.Machine

/-! PROOF. The invariant of the decompressor (R30): the window holds the most recent bytes of DOUT.
-/

namespace Sys2Proof.Machine

open Config

/-! ## Sizes and places in the window -/

/-- What ConfigOk says of the window's size (R182). -/
theorem LzConfig.wb_bounds {c : LzConfig} (h : c.ok = true) :
    1 ≤ c.wb.toNat ∧ c.wb.toNat ≤ WB_MAX := by
  obtain ⟨h1, h2, -⟩ := of_decide_eq_true h
  exact ⟨h1, h2⟩

theorem LzConfig.wsize_pos (c : LzConfig) : 0 < c.wsize := Nat.two_pow_pos _

theorem LzConfig.wsize_le {c : LzConfig} (h : c.ok = true) : c.wsize ≤ 2 ^ WB_MAX :=
  Nat.pow_le_pow_right (by decide) (c.wb_bounds h).2

theorem LzConfig.wsize_dvd {c : LzConfig} (h : c.ok = true) : c.wsize ∣ 2 ^ 64 :=
  Nat.pow_dvd_pow 2 (Nat.le_trans (c.wb_bounds h).2 (by decide))

section Ring
variable {w : Nat}

/-- Going back from a place that has wrapped around. -/
theorem back_of_mod (a : Nat) {k : Nat} (hk : k ≤ w) : (a % w + w - k) % w = (a + w - k) % w := by
  rw [Nat.add_sub_assoc hk, Nat.mod_add_mod, ← Nat.add_sub_assoc hk]

/-- The place just written lies one step back. -/
theorem back_one {p : Nat} (hp : p < w) : ((p + 1) % w + w - 1) % w = p := by
  rw [back_of_mod _ (by omega), Nat.add_right_comm, Nat.add_sub_cancel, Nat.add_mod_right,
    Nat.mod_eq_of_lt hp]

/-- Every other place lies one step further back than before. -/
theorem back_succ (p : Nat) {k : Nat} (hk : k < w) :
    ((p + 1) % w + w - (k + 1)) % w = (p + w - k) % w := by
  rw [back_of_mod _ hk, Nat.add_right_comm, Nat.add_sub_add_right]

/-- Fewer than `w` steps back is another place. -/
theorem back_ne {p k : Nat} (hp : p < w) (h0 : 0 < k) (hk : k < w) : (p + w - k) % w ≠ p := by
  by_cases h : k ≤ p
  · rw [show p + w - k = (p - k) + w by omega, Nat.add_mod_right, Nat.mod_eq_of_lt (by omega)]
    omega
  · rw [Nat.mod_eq_of_lt (by omega)]
    omega

/-- Two places that advance together keep their distance (R189). -/
theorem gap_advance {p c : Nat} (hc : c < w) :
    ((p + 1) % w + w - (c + 1) % w) % w = (p + w - c) % w := by
  by_cases h : c + 1 = w
  · rw [h, Nat.mod_self, Nat.sub_zero, Nat.add_mod_right, Nat.mod_mod,
      show p + w - c = p + 1 by omega]
  · rw [Nat.mod_eq_of_lt (show c + 1 < w by omega)]
    exact back_succ p hc

end Ring

/-- The way from the source of a reference to WPOS is its offset (R187). -/
theorem gap_source (c : LzConfig) {wpos off : Nat} (hw : wpos < c.wsize) :
    (wpos + c.wsize - c.source wpos off) % c.wsize = off % c.wsize := by
  unfold LzConfig.source
  have hlt := Nat.mod_lt off c.wsize_pos
  generalize c.wsize = w at *
  generalize off % w = o at *
  by_cases ho : o ≤ wpos
  · rw [show wpos + (w - o) = (wpos - o) + w by omega, Nat.add_mod_right,
      Nat.mod_eq_of_lt (show wpos - o < w by omega), show wpos + w - (wpos - o) = o + w by omega,
      Nat.add_mod_right, Nat.mod_eq_of_lt hlt]
  · rw [Nat.mod_eq_of_lt (show wpos + (w - o) < w by omega),
      show wpos + w - (wpos + (w - o)) = o by omega, Nat.mod_eq_of_lt hlt]

/-- An offset and its remainder stand for the same distance, as long as it lies in the window
(R190). -/
theorem distance_mod {c : LzConfig} {off : Nat} (h : c.distance off ≤ c.wsize) :
    c.distance (off % c.wsize) = c.distance off := by
  have hpos := c.wsize_pos
  unfold LzConfig.distance at *
  by_cases h0 : off = 0
  · simp [h0]
  · rw [if_neg h0] at h ⊢
    rcases Nat.lt_or_eq_of_le h with hlt | heq
    · rw [Nat.mod_eq_of_lt hlt, if_neg h0]
    · rw [heq, Nat.mod_self, if_pos rfl]

/-! ## The window (R185) -/

/-- The part of R30 that speaks of the window: it holds the FILLED most recent bytes of DOUT. -/
structure State.WindowInv (s : State) : Prop where
  cfgOk : s.lzd.cfg.ok = true
  canonical : s.lzd.win.wf = true
  bounded : s.lzd.win.below (2 ^ WB_MAX) = true
  wposEq : s.lzd.wpos = s.lzd.outcnt.toNat % s.lzd.cfg.wsize
  filledEq : s.lzd.filled = min s.lzd.outcnt.toNat s.lzd.cfg.wsize ∨
    s.lzd.filled = s.lzd.cfg.wsize
  csrcLt : s.lzd.csrc < s.lzd.cfg.wsize
  filledLe : s.lzd.filled ≤ s.dout.bytes.length
  history : ∀ k, 1 ≤ k → k ≤ s.lzd.filled →
    s.lzd.win.read ((s.lzd.wpos + s.lzd.cfg.wsize - k) % s.lzd.cfg.wsize) =
      s.dout.bytes.getD (s.dout.bytes.length - k) 0#8

/-- The distance of the pending copy lies in the window (R187, R189). -/
def State.CopyInWindow (s : State) : Prop :=
  s.lzd.cfg.distance ((s.lzd.wpos + s.lzd.cfg.wsize - s.lzd.csrc) % s.lzd.cfg.wsize) ≤ s.lzd.filled

section Window
variable {s : State}

theorem State.LzdInv.window (h : s.LzdInv) : s.WindowInv :=
  ⟨h.cfgOk, h.canonical, h.bounded, h.wposEq, h.filledEq, h.csrcLt, h.filledLe, h.history⟩

theorem State.WindowInv.lzdInv (h : s.WindowInv) (hc : s.lzd.crem ≤ 65535)
    (hi : s.lzd.dstate = .copy ↔ 0 < s.lzd.crem) (hs : s.lzd.dstate = .copy → s.CopyInWindow) :
    s.LzdInv :=
  ⟨h.cfgOk, h.canonical, h.bounded, h.wposEq, h.filledEq, h.csrcLt, hc, hi, hs, h.filledLe,
    h.history⟩

theorem State.WindowInv.wpos_lt (h : s.WindowInv) : s.lzd.wpos < s.lzd.cfg.wsize :=
  h.wposEq ▸ Nat.mod_lt _ s.lzd.cfg.wsize_pos

theorem State.WindowInv.filled_le (h : s.WindowInv) : s.lzd.filled ≤ s.lzd.cfg.wsize := by
  rcases h.filledEq with hf | hf <;> omega

/-- OUTCNT counts past 2^64, which every window size divides. -/
theorem outcnt_succ_mod {c : LzConfig} (hc : c.ok = true) (n : BitVec 64) :
    (n + 1#64).toNat % c.wsize = (n.toNat % c.wsize + 1) % c.wsize := by
  rw [BitVec.toNat_add, Nat.mod_mod_of_dvd _ (c.wsize_dvd hc), Nat.mod_add_mod]
  rfl

/-- PutByte keeps the window (R185). -/
theorem State.WindowInv.emitted (h : s.WindowInv) (b : Byte) : (emitted b s).WindowInv where
  cfgOk := h.cfgOk
  canonical := wf_write h.canonical
  bounded := below_write h.bounded (Nat.lt_of_lt_of_le h.wpos_lt (LzConfig.wsize_le h.cfgOk))
  wposEq := by
    show (s.lzd.wpos + 1) % s.lzd.cfg.wsize = (s.lzd.outcnt + 1#64).toNat % s.lzd.cfg.wsize
    rw [outcnt_succ_mod h.cfgOk, ← h.wposEq]
  filledEq := by
    show min (s.lzd.filled + 1) s.lzd.cfg.wsize =
        min (s.lzd.outcnt + 1#64).toNat s.lzd.cfg.wsize ∨
      min (s.lzd.filled + 1) s.lzd.cfg.wsize = s.lzd.cfg.wsize
    have hle : s.lzd.cfg.wsize ≤ 2 ^ 16 := LzConfig.wsize_le h.cfgOk
    have hfilled := h.filledEq
    rw [BitVec.toNat_add]
    simp only [BitVec.toNat_ofNat]
    omega
  csrcLt := h.csrcLt
  filledLe := by
    have := h.filledLe
    show min (s.lzd.filled + 1) s.lzd.cfg.wsize ≤ (s.dout.bytes ++ [b]).length
    rw [List.length_append, List.length_singleton]
    omega
  history := by
    intro k h1 hk
    have hpos := h.wpos_lt
    obtain ⟨j, rfl⟩ : ∃ j, k = j + 1 := ⟨k - 1, by omega⟩
    have hj : j ≤ s.lzd.filled ∧ j < s.lzd.cfg.wsize := by
      have : j + 1 ≤ min (s.lzd.filled + 1) s.lzd.cfg.wsize := hk
      omega
    show (s.lzd.win.write s.lzd.wpos b).read
        (((s.lzd.wpos + 1) % s.lzd.cfg.wsize + s.lzd.cfg.wsize - (j + 1)) % s.lzd.cfg.wsize) =
      (s.dout.bytes ++ [b]).getD ((s.dout.bytes ++ [b]).length - (j + 1)) 0#8
    rw [List.length_append, List.length_singleton, Nat.add_sub_add_right]
    cases j with
    | zero => rw [back_one hpos, read_write_same h.canonical]; simp
    | succ j =>
      have hlen := h.filledLe
      rw [back_succ _ hj.2, read_write_other h.canonical _ (back_ne hpos (Nat.succ_pos j) hj.2),
        h.history (j + 1) (Nat.succ_pos j) hj.1]
      simp only [List.getD_eq_getElem?_getD]
      rw [List.getElem?_append_left (by omega)]

/-- PutByte outside a copy keeps R30. -/
theorem State.LzdInv.emitted (h : s.LzdInv) (hd : s.lzd.dstate ≠ .copy) (b : Byte) :
    (emitted b s).LzdInv :=
  (h.window.emitted b).lzdInv h.cremLe h.copyIff fun hc => absurd hc hd

/-- R30 reads neither TOKPHASE nor LZD.ERR, and of the streams DOUT alone. -/
theorem State.LzdInv.of_eq {t : State} (h : s.LzdInv) {e : Option FaultCode} {p : Bool}
    (hl : t.lzd = { s.lzd with err := e, tokphase := p }) (hd : t.dout = s.dout) : t.LzdInv := by
  cases t
  subst hl
  subst hd
  exact ⟨h.cfgOk, h.canonical, h.bounded, h.wposEq, h.filledEq, h.csrcLt, h.cremLe, h.copyIff,
    h.copySource, h.filledLe, h.history⟩

theorem State.LzdInv.takeFault (h : s.LzdInv) (u v : CodecUnit) (c : FaultCode) :
    (s.takeFault u v c).LzdInv :=
  h.of_eq (takeFault_lzd s u v c) (takeFault_dout s u v c)

end Window

/-! ## Results of primitives -/

/-- Whenever the primitive answers a value, the value and the state are so related. -/
def Res.yields {α : Type} (P : α → State → Prop) (r : Res α) : Prop := ∀ a t, r = .ok a t → P a t

theorem yields_bind {α β : Type} {P : β → State → Prop} {r : Res α} {f : α → State → Res β}
    (h : ∀ a t, r = .ok a t → (f a t).yields P) : (r.bind f).yields P := by
  intro b u hb
  cases r with
  | ok a t => exact h a t rfl b u hb
  | faulted v c t => cases hb
  | waits d t => cases hb

theorem yields_ok {α : Type} {P : α → State → Prop} {a : α} {t : State} (h : P a t) :
    (Res.ok a t).yields P := by
  intro b u hb
  cases hb
  exact h

/-! ## Copying (R189) -/

/-- Between the turns of CopyBytes: R30, but that CREM may have reached 0 while DSTATE is still
COPY. -/
structure State.Copying (s : State) : Prop where
  window : s.WindowInv
  cremLe : s.lzd.crem ≤ 65535
  source : s.CopyInWindow
  dstate : s.lzd.dstate = .copy

section Copying
variable {s : State} {u : CodecUnit}

theorem State.LzdInv.copying (h : s.LzdInv) (hd : s.lzd.dstate = .copy) : s.Copying :=
  ⟨h.window, h.cremLe, h.copySource hd, hd⟩

/-- The last line of CopyBytes restores R30. -/
theorem State.Copying.settle (h : s.Copying) : (settleCopy s).LzdInv := by
  unfold settleCopy
  split
  · rename_i h0
    exact State.WindowInv.lzdInv
      ⟨h.window.cfgOk, h.window.canonical, h.window.bounded, h.window.wposEq, h.window.filledEq,
        h.window.csrcLt, h.window.filledLe, h.window.history⟩
      h.cremLe (by simp [h0]) (fun hc => by cases hc)
  · exact h.window.lzdInv h.cremLe (by simp [h.dstate]; omega) fun _ => h.source

/-- The state after one turn of CopyBytes. -/
def copied (s : State) : State :=
  countCopied (emitted (s.lzd.win.read s.lzd.csrc) (advanceSource s))

/-- One turn of CopyBytes: the byte is copied, or DOUT never takes it (R80, R189). -/
inductive CopyByteCase (s : State) : Res Unit → Prop
  | copied : CopyByteCase s (.ok () (copied s))
  | blocked (t : State) : CopyByteCase s (.waits .dout t)

theorem copyByte_cases (s : State) : CopyByteCase s (copyByte s) := by
  unfold copyByte
  have hcase := putByte_cases (s.lzd.win.read s.lzd.csrc) (advanceSource s)
  generalize putByte (s.lzd.win.read s.lzd.csrc) (advanceSource s) = r at hcase
  cases hcase with
  | taken => exact .copied
  | blocked => exact .blocked _

theorem State.Copying.copied (h : s.Copying) : (copied s).Copying := by
  have hadv : (advanceSource s).WindowInv :=
    ⟨h.window.cfgOk, h.window.canonical, h.window.bounded, h.window.wposEq, h.window.filledEq,
      Nat.mod_lt _ s.lzd.cfg.wsize_pos, h.window.filledLe, h.window.history⟩
  have hemit := hadv.emitted (s.lzd.win.read s.lzd.csrc)
  refine ⟨⟨hemit.cfgOk, hemit.canonical, hemit.bounded, hemit.wposEq, hemit.filledEq, hemit.csrcLt,
    hemit.filledLe, hemit.history⟩, Nat.le_trans (Nat.sub_le _ _) h.cremLe, ?_, h.dstate⟩
  have hsource := h.source
  have hfilled := h.window.filled_le
  show s.lzd.cfg.distance (((s.lzd.wpos + 1) % s.lzd.cfg.wsize + s.lzd.cfg.wsize -
    (s.lzd.csrc + 1) % s.lzd.cfg.wsize) % s.lzd.cfg.wsize) ≤
      min (s.lzd.filled + 1) s.lzd.cfg.wsize
  rw [gap_advance h.window.csrcLt]
  unfold State.CopyInWindow at hsource
  omega

theorem copyTurns_keepsCopying (h : s.Copying) (m : Nat) :
    (copyTurns m s).ends State.Copying Unclaimed u := by
  induction m generalizing s with
  | zero => exact h
  | succ m ih =>
    have hcase := copyByte_cases s
    unfold copyTurns
    generalize copyByte s = r at hcase
    cases hcase with
    | copied => exact ih h.copied
    | blocked t => trivial

/-- Each turn counts CREM down by one and leaves DSTATE (R189). -/
theorem copyTurns_yields (m : Nat) (s : State) :
    (copyTurns m s).yields fun _ t =>
      t.lzd.crem = s.lzd.crem - m ∧ t.lzd.dstate = s.lzd.dstate := by
  induction m generalizing s with
  | zero => exact yields_ok ⟨rfl, rfl⟩
  | succ m ih =>
    have hcase := copyByte_cases s
    unfold copyTurns
    generalize copyByte s = r at hcase
    cases hcase with
    | copied =>
      intro _ t ht
      obtain ⟨hcrem, hdstate⟩ := ih (Machine.copied s) _ t ht
      refine ⟨hcrem.trans ?_, hdstate⟩
      show s.lzd.crem - 1 - m = s.lzd.crem - (m + 1)
      omega
    | blocked t => exact fun _ _ ht => by cases ht

/-- `if DSTATE = COPY: CopyBytes(k)` keeps R30. -/
theorem continueCopy_keepsLzd (h : s.LzdInv) (k : Nat) (u : CodecUnit) :
    (continueCopy k s).ends State.LzdInv Unclaimed u := by
  unfold continueCopy
  split
  · rename_i hd
    have hturns := copyTurns_keepsCopying (u := u) (h.copying hd) (min k s.lzd.crem)
    have hfaults := copyTurns_faultsOnly (min k s.lzd.crem) s fun _ _ => False
    unfold copyBytes
    generalize copyTurns (min k s.lzd.crem) s = r at hturns hfaults
    cases r with
    | ok _ t => exact State.Copying.settle hturns
    | faulted v c t => exact hfaults.elim
    | waits d t => trivial
  · exact h

/-- A copy with budget `k` either uses it up or ends the copy (R189). -/
theorem continueCopy_yields (k : Nat) (s : State) :
    (continueCopy k s).yields fun c t => c ≤ k ∧ (c = k ∨ t.lzd.dstate ≠ .copy) := by
  unfold continueCopy
  split
  · refine yields_bind fun _ t ht => yields_ok ⟨Nat.min_le_left _ _, ?_⟩
    obtain ⟨hcrem, -⟩ := copyTurns_yields _ s _ t ht
    by_cases hk : k ≤ s.lzd.crem
    · exact .inl (Nat.min_eq_left hk)
    · right
      rw [settleCopy_lzd, if_pos (by omega)]
      simp
  · exact yields_ok ⟨Nat.zero_le _, .inr ‹_›⟩

end Copying

/-! ## References (R187, R188) -/

section References
variable {s : State}

/-- StartRef keeps R30, unless a copy is pending. -/
theorem startRef_keepsLzd (h : s.LzdInv) (hd : s.lzd.dstate ≠ .copy) {off len : Nat}
    (hl : len ≤ 65535) (u : CodecUnit) : (startRef off len s).ends State.LzdInv Unclaimed u := by
  have hcrem : s.lzd.crem = 0 := by
    by_contra hn
    exact hd (h.copyIff.2 (Nat.pos_of_ne_zero hn))
  have hcase := startRef_cases off len s
  generalize startRef off len s = r at hcase
  cases hcase with
  | terminator =>
    exact State.WindowInv.lzdInv
      ⟨h.cfgOk, h.canonical, h.bounded, h.wposEq, h.filledEq, h.csrcLt, h.filledLe, h.history⟩
      h.cremLe (by simp [hcrem]) (fun hc => by cases hc)
  | badref => exact h.takeFault u _ _
  | started h0 hf =>
    refine State.WindowInv.lzdInv
      ⟨h.cfgOk, h.canonical, h.bounded, h.wposEq, h.filledEq,
        Nat.mod_lt _ s.lzd.cfg.wsize_pos, h.filledLe, h.history⟩
      hl (by simp; omega) fun _ => ?_
    show s.lzd.cfg.distance ((s.lzd.wpos + s.lzd.cfg.wsize - s.lzd.cfg.source s.lzd.wpos off) %
      s.lzd.cfg.wsize) ≤ s.lzd.filled
    rw [gap_source _ h.window.wpos_lt, distance_mod (Nat.le_trans hf h.window.filled_le)]
    exact hf

theorem runRef_keepsLzd (h : s.LzdInv) (hd : s.lzd.dstate ≠ .copy) {off len : Nat}
    (hl : len ≤ 65535) (u : CodecUnit) : (runRef off len s).ends State.LzdInv Unclaimed u :=
  ends_bind (startRef_keepsLzd h hd hl u) fun _ _ _ h₁ =>
    ends_bind (continueCopy_keepsLzd h₁ _ u) fun _ _ _ h₂ => h₂

theorem putByte_keepsLzd (h : s.LzdInv) (hd : s.lzd.dstate ≠ .copy) (b : Byte) (u : CodecUnit) :
    (putByte b s).ends State.LzdInv Unclaimed u := by
  have hcase := putByte_cases b s
  generalize putByte b s = r at hcase
  cases hcase with
  | taken => exact h.emitted hd b
  | blocked => trivial

/-! ## Reading tokens (R184) -/

/-- Reading a token changes the reader and TOKPHASE only. -/
structure TokenEffect (s t : State) : Prop where
  lzd : ∃ p, t.lzd = { s.lzd with tokphase := p }
  dout : t.dout = s.dout

theorem TokenEffect.trans {t u : State} (h : TokenEffect s t) (k : TokenEffect t u) :
    TokenEffect s u := by
  obtain ⟨p, hp⟩ := h.lzd
  obtain ⟨q, hq⟩ := k.lzd
  exact ⟨⟨q, by rw [hq, hp]⟩, k.dout.trans h.dout⟩

theorem ReadEffect.token {t : State} (h : ReadEffect s t) : TokenEffect s t :=
  ⟨⟨s.lzd.tokphase, by rw [h.rest]⟩, by rw [h.rest]⟩

theorem tokenEffect_setTokphase (b : Bool) (s : State) : TokenEffect s (setTokphase b s) :=
  ⟨⟨b, rfl⟩, rfl⟩

theorem tokenEffect_bind {α β : Type} {r : Res α} {f : α → State → Res β}
    (h : r.moves TokenEffect s) (hf : ∀ a t, (f a t).moves TokenEffect t) :
    (r.bind f).moves TokenEffect s :=
  moves_bind (fun _ _ _ => .trans) h fun a t _ _ => hf a t

theorem tokenEffect_from {α : Type} {t : State} {r : Res α} (h : TokenEffect s t)
    (hr : r.moves TokenEffect t) : r.moves TokenEffect s := by
  cases r <;> exact h.trans hr

theorem readBits_tokenEffect (n : Nat) (s : State) : (readBits n s).moves TokenEffect s :=
  moves_mono (readBits_moves n s) fun _ => ReadEffect.token

theorem readToken_moves (s : State) : (readToken s).moves TokenEffect s := by
  refine tokenEffect_bind (moves_mono (getBit_moves s) fun _ => ReadEffect.token) fun flag t => ?_
  split
  · refine tokenEffect_from (tokenEffect_setTokphase true t) ?_
    refine tokenEffect_bind (readBits_tokenEffect _ _) fun off t₁ => ?_
    refine tokenEffect_bind (readBits_tokenEffect _ _) fun l t₂ => ?_
    split
    · exact tokenEffect_setTokphase false t₂
    · exact tokenEffect_setTokphase false t₂
  · refine tokenEffect_from (tokenEffect_setTokphase true t) ?_
    exact tokenEffect_bind (readBits_tokenEffect _ _) fun v t₁ => tokenEffect_setTokphase false t₁

/-- The length of a token fits in 16 bits (R29). -/
def Token.short : Token → Prop
  | .literal _ => True
  | .reference _ len => len ≤ 65535

/-- The range check of R195 bounds the length of a reference. -/
theorem readToken_yields (s : State) : (readToken s).yields fun tok _ => tok.short := by
  refine yields_bind fun flag t _ => ?_
  split
  · refine yields_bind fun off t₁ _ => yields_bind fun l t₂ _ => ?_
    split
    · exact fun _ _ h => by cases h
    · refine yields_ok ?_
      have hmax := t₂.lzd.cfg.max.isLt
      show l + t₂.lzd.cfg.min.toNat ≤ 65535
      omega
  · exact yields_bind fun v t₁ _ => yields_ok trivial

theorem TokenEffect.lzdInv {t : State} (h : TokenEffect s t) (hi : s.LzdInv) : t.LzdInv := by
  obtain ⟨⟨p, hp⟩, hd⟩ := h
  exact hi.of_eq hp hd

theorem TokenEffect.dstate {t : State} (h : TokenEffect s t) : t.lzd.dstate = s.lzd.dstate := by
  obtain ⟨⟨p, hp⟩, -⟩ := h
  rw [hp]

/-- Reading a token and going on with it keeps R30, if going on with a short token does. -/
theorem readToken_bind_keepsLzd {β : Type} {f : Token → State → Res β} {u : CodecUnit}
    (h : s.LzdInv)
    (hf : ∀ tok t, tok.short → t.LzdInv → t.lzd.dstate = s.lzd.dstate →
      (f tok t).ends State.LzdInv Unclaimed u) :
    ((readToken s).bind f).ends State.LzdInv Unclaimed u := by
  have hmoves := readToken_moves s
  have hshort := readToken_yields s
  generalize readToken s = r at hmoves hshort
  cases r with
  | ok tok t => exact hf tok t (hshort tok t rfl) (hmoves.lzdInv h) hmoves.dstate
  | faulted v c t => exact (hmoves.lzdInv h).takeFault u v c
  | waits d t => trivial

theorem runToken_keepsLzd (h : s.LzdInv) (hd : s.lzd.dstate ≠ .copy) {tok : Token}
    (ht : tok.short) (u : CodecUnit) : (runToken tok s).ends State.LzdInv Unclaimed u := by
  cases tok with
  | literal b => exact ends_bind (putByte_keepsLzd h hd b u) fun _ _ _ h' => h'
  | reference off len => exact runRef_keepsLzd h hd ht u

theorem startToken_keepsLzd (h : s.LzdInv) (hd : s.lzd.dstate ≠ .copy) {tok : Token}
    (ht : tok.short) (e : Nat) (u : CodecUnit) :
    (startToken e tok s).ends State.LzdInv Unclaimed u := by
  cases tok with
  | literal b => exact ends_bind (putByte_keepsLzd h hd b u) fun _ _ _ h' => h'
  | reference off len => exact ends_bind (startRef_keepsLzd h hd ht u) fun _ _ _ h' => h'

/-- A token started by LZD.RUN emits at most one byte. -/
theorem startToken_yields (e : Nat) (tok : Token) (s : State) :
    (startToken e tok s).yields fun e' _ => e' ≤ e + 1 := by
  cases tok with
  | literal b => exact yields_bind fun _ _ _ => yields_ok (Nat.le_refl _)
  | reference off len => exact yields_bind fun _ _ _ => yields_ok (Nat.le_succ _)

/-- The loop of LZD.RUN keeps R30: it reads a token only after the pending copy has ended. -/
theorem runLoop_keepsLzd (h : s.LzdInv) {n e : Nat} (he : e ≤ n) (turns : Nat) (u : CodecUnit) :
    (runLoop n turns e s).ends State.LzdInv Unclaimed u := by
  induction turns generalizing e s with
  | zero => exact h
  | succ turns ih =>
    unfold runLoop
    split
    · exact h
    · refine ends_bind (continueCopy_keepsLzd h _ u) fun c t hc ht => ?_
      obtain ⟨hle, hcopy⟩ := continueCopy_yields _ s c t hc
      split
      · exact ht
      · have hd : t.lzd.dstate ≠ .copy := hcopy.resolve_left (by omega)
        refine readToken_bind_keepsLzd ht fun tok t₁ hshort h₁ hd₁ => ?_
        refine ends_bind (startToken_keepsLzd h₁ (hd₁ ▸ hd) hshort _ u) fun e' t₂ he' h₂ => ?_
        have hbound := startToken_yields _ _ _ e' t₂ he'
        exact ih h₂ (by omega)

end References

/-! ## Commands -/

section Commands
variable {s t : State}

/-- LZD as LZD.INIT and SYS.RESET leave it has the invariant (R181, R250). -/
theorem lzdInv_initialised {c : LzConfig} (hc : c.ok = true) (hw : s.lzd.win.wf = true)
    (hb : s.lzd.win.below (2 ^ WB_MAX) = true) :
    ({ s with lzd := s.lzd.initialised c } : State).LzdInv where
  cfgOk := hc
  canonical := hw
  bounded := hb
  wposEq := (Nat.zero_mod _).symm
  filledEq := .inl (Nat.zero_min _).symm
  csrcLt := c.wsize_pos
  cremLe := Nat.zero_le _
  copyIff := by simp [Lzd.initialised, Lzd.reset]
  copySource := fun h => by cases h
  filledLe := Nat.zero_le _
  history k h1 hk := absurd (Nat.le_trans h1 hk) (Nat.not_succ_le_zero 0)

/-- R30 of a state that does not wait. -/
def State.LzdInvWhenIdle (s : State) : Prop := s.waiting = none → s.LzdInv

theorem State.LzdInv.respond (h : s.LzdInv) (n : Nat) : (s.respond n).LzdInv := h.of_eq rfl rfl

/-- A command of LZD that runs through `r` keeps R30. -/
theorem finish_keepsLzd {r : Res Nat} (h : r.ends State.LzdInv Unclaimed .lzd) :
    Keeps State.LzdInvWhenIdle (r.finish .lzd) :=
  keeps_finish h (fun n _ h _ => h.respond n) (fun _ h _ => h) fun _ _ _ hw => by cases hw

/-- The commands of LZD keep R30. -/
theorem exec_keepsLzd_of_lzd {i : Instr} (hi : i.unit = .lzd) (h : s.LzdInv) :
    Keeps State.LzdInvWhenIdle (exec i s) := by
  have hans : ∀ r st, (s.answer r st).LzdInvWhenIdle := fun _ _ _ => h.of_eq rfl rfl
  have notCopy : ¬s.lzd.dstate ≠ .ready → s.lzd.dstate ≠ .copy := fun hr => by
    rw [not_not.1 hr]; decide
  cases i with
  | lzdInit wb ob lb min max =>
    rw [exec, execLzdInit]
    split
    · exact keeps_next fun _ => (lzdInv_initialised ‹_› h.canonical h.bounded).respond 0
    · exact keeps_next (hans _ _)
  | lzdLit b =>
    rw [exec, execLzdLit]
    exact keeps_unlessSticky hans fun _ => keeps_rejectIf hans fun hr =>
      finish_keepsLzd (ends_bind (putByte_keepsLzd h (notCopy hr) b _) fun _ _ _ h' => h')
  | lzdRef off len =>
    rw [exec, execLzdRef]
    exact keeps_unlessSticky hans fun _ => keeps_rejectIf hans fun hr =>
      keeps_rejectIf hans fun _ =>
      keeps_rejectIf hans fun _ =>
        finish_keepsLzd (runRef_keepsLzd h (notCopy hr) (Nat.le_of_lt_succ len.isLt) _)
  | lzdStep =>
    rw [exec, execLzdStep]
    exact keeps_unlessSticky hans fun _ => keeps_rejectIf hans fun hr =>
      finish_keepsLzd (readToken_bind_keepsLzd h fun _ _ hshort h' hd =>
        runToken_keepsLzd h' (hd ▸ notCopy hr) hshort _)
  | lzdRun n =>
    rw [exec, execLzdRun]
    exact keeps_unlessSticky hans fun _ => finish_keepsLzd (runLoop_keepsLzd h (Nat.zero_le _) _ _)
  | _ => cases hi

/-- Every command that ends keeps R30. -/
theorem exec_keepsLzd {i : Instr} (h : s.LzdInv) : Keeps State.LzdInvWhenIdle (exec i s) := by
  by_cases hi : i.unit = .lzd
  · exact exec_keepsLzd_of_lzd hi h
  · intro t ht
    by_cases hr : i = .sysReset
    · subst hr
      cases ht
      have hreset := lzdInv_initialised (c := LzConfig.reset) (by decide) h.canonical h.bounded
      exact fun _ => hreset.of_eq rfl rfl
    · obtain ⟨-, -, -, -, -, hlzd, hdout, -⟩ := commandsKeepToTheirUnits i s t ht
      exact fun _ => h.of_eq (hlzd hi hr) (hdout hi)

/-- In DONE every command of LZD but LZD.INIT leaves DONE. -/
theorem exec_keepsDone_of_lzd {i : Instr} (hi : i.unit = .lzd) (hinit : i.isInit = false)
    (hd : s.lzd.dstate = .done) : Keeps (fun t => t.lzd.dstate = .done) (exec i s) := by
  have hans : ∀ r st, (s.answer r st).lzd.dstate = .done := fun _ _ => hd
  have notReady : s.lzd.dstate ≠ .ready := by rw [hd]; decide
  cases i with
  | lzdLit b =>
    rw [exec, execLzdLit]
    exact keeps_unlessSticky hans fun _ => keeps_rejectIf hans fun hr => absurd notReady hr
  | lzdRef off len =>
    rw [exec, execLzdRef]
    exact keeps_unlessSticky hans fun _ => keeps_rejectIf hans fun hr => absurd notReady hr
  | lzdStep =>
    rw [exec, execLzdStep]
    exact keeps_unlessSticky hans fun _ => keeps_rejectIf hans fun hr => absurd notReady hr
  | lzdRun n =>
    rw [exec, execLzdRun]
    refine keeps_unlessSticky hans fun _ => ?_
    rw [runLoop, if_pos hd]
    exact keeps_next hd
  | lzdInit => cases hinit
  | _ => cases hi

/-- DONE is left only by LZD.INIT and SYS.RESET (R30). -/
theorem done_final {i : Instr} (hd : s.lzd.dstate = .done) (ht : exec i s = .next t) :
    t.lzd.dstate = .done ∨ i = .sysReset ∨ ∃ wb ob lb min max, i = .lzdInit wb ob lb min max := by
  by_cases hr : i = .sysReset
  · exact .inr (.inl hr)
  · by_cases hi : i.unit = .lzd
    · cases hinit : i.isInit with
      | false => exact .inl (exec_keepsDone_of_lzd hi hinit hd t ht)
      | true =>
        cases i with
        | lzdInit wb ob lb min max => exact .inr (.inr ⟨wb, ob, lb, min, max, rfl⟩)
        | brInit | bwInit | hufClear | lzeInit => cases hi
        | _ => cases hinit
    · obtain ⟨-, -, -, -, -, hlzd, -⟩ := commandsKeepToTheirUnits i s t ht
      exact .inl (hlzd hi hr ▸ hd)

end Commands

/-- Settles O20, by `State.WindowInv.emitted` for each byte put out, and `runLoop_keepsLzd` for the
loop of LZD.RUN. -/
theorem decompressorInvariantIsKept : Obligations.DecompressorInvariantIsKept := by
  refine ⟨fun s t h hstep => ?_, fun i s t hd ht => done_final hd ht⟩
  cases step_cases hstep with
  | stays => exact h
  | illegal b rest hw hc => exact fun _ => (h hw).of_eq rfl rfl
  | runs b rest i _ hw hc hd hexec =>
    have hrest : ({ s with cmds := rest } : State).LzdInv := (h hw).of_eq rfl rfl
    exact exec_keepsLzd hrest t hexec

end Sys2Proof.Machine

/-! PROOF. The reset state has every invariant (R44), and the status registers show the state (R34
to R40). -/

namespace Sys2Proof.Machine

open Config

/-! ## Reset (R44) -/

theorem hufInv_reset : Huf.reset.Inv :=
  ⟨by decide, by decide, by decide, fun _ => ⟨rfl, rfl⟩, fun h => by cases h⟩

/-- Settles O16, by the invariants that the initialising commands establish. -/
theorem resetHasTheInvariants : Obligations.ResetHasTheInvariants :=
  ⟨brInv_initialised (b := Br.reset) .msb rfl rfl, bwInv_initialised (w := Bw.reset) .msb rfl rfl,
    hufInv_reset, lzdInv_initialised (s := State.reset) (c := LzConfig.reset) (by decide) rfl rfl,
    ⟨by decide, fun h => by cases h⟩, fun u _ h => by cases u <;> cases h⟩

/-! ## Fields of a status register (R34) -/

section Fields
variable {a b : Word} {lo w v : Nat}

/-- Two fields, one below bit `lo` and one from there up, stand side by side. -/
theorem toNat_or (ha : a.toNat < 2 ^ lo) (hb : b.toNat = 2 ^ lo * v) :
    (a ||| b).toNat = a.toNat + 2 ^ lo * v := by
  rw [BitVec.toNat_or, hb, Nat.or_comm, ← Nat.two_pow_add_eq_or_of_lt ha, Nat.add_comm]

/-- A shifted field that still fits in the register. -/
theorem toNat_shiftLeft_of_lt (h : a.toNat < 2 ^ w) (hw : lo + w ≤ 32) :
    (a <<< lo).toNat = 2 ^ lo * a.toNat := by
  have hlt : 2 ^ lo * a.toNat < 2 ^ 32 := calc
    2 ^ lo * a.toNat < 2 ^ lo * 2 ^ w := Nat.mul_lt_mul_of_pos_left h (Nat.two_pow_pos lo)
    _ = 2 ^ (lo + w) := (Nat.pow_add 2 lo w).symm
    _ ≤ 2 ^ 32 := Nat.pow_le_pow_right (by decide) hw
  rw [BitVec.toNat_shiftLeft, Nat.shiftLeft_eq, Nat.mul_comm, Nat.mod_eq_of_lt hlt]

theorem toNat_setWidth_shift (x : BitVec w) (hw : lo + w ≤ 32) :
    (BitVec.setWidth 32 x <<< lo).toNat = 2 ^ lo * x.toNat := by
  have hx : (BitVec.setWidth 32 x).toNat = x.toNat :=
    BitVec.toNat_setWidth_of_le (by omega)
  rw [toNat_shiftLeft_of_lt (w := w) (by rw [hx]; exact x.isLt) hw, hx]

theorem toNat_fieldAt (h : v < 2 ^ w) (hw : lo + w ≤ 32) : (fieldAt lo w v).toNat = 2 ^ lo * v := by
  rw [fieldAt, toNat_setWidth_shift _ hw, BitVec.toNat_ofNat, Nat.mod_eq_of_lt h]

theorem toNat_flagBit (f : Bool) : (flagBit f).toNat = f.toNat := by cases f <;> rfl

theorem toNat_flagBit_shift (f : Bool) (h : lo < 32) :
    (flagBit f <<< lo).toNat = 2 ^ lo * f.toNat := by
  rw [toNat_shiftLeft_of_lt (w := 1) (by cases f <;> decide) h, toNat_flagBit]

/-- The codes of R220 that an ERR field holds fit in five bits. -/
theorem errNum_lt (e : Option FaultCode) : (errNum e).toNat < 2 ^ 5 := by
  cases e with
  | none => decide
  | some c => cases c <;> decide

theorem toNat_errNum_shift (e : Option FaultCode) :
    (errNum e <<< 8).toNat = 2 ^ 8 * (errNum e).toNat :=
  toNat_shiftLeft_of_lt (errNum_lt e) (by decide)

theorem toNat_loHalf (c : BitVec 64) : (loHalf c).toNat = c.toNat % 2 ^ 32 := by
  simp [loHalf]

theorem toNat_hiHalf (c : BitVec 64) : (hiHalf c).toNat = c.toNat / 2 ^ 32 := by
  rw [hiHalf, BitVec.extractLsb'_toNat, Nat.shiftRight_eq_div_pow]
  have := c.isLt
  omega

theorem modeBit_lt (m : BitOrder) : (modeBit m).toNat < 2 := by cases m <;> decide

theorem hstateBit_lt (h : HufState) : (hstateBit h).toNat < 2 := by cases h <;> decide

theorem dstateBits_lt (d : LzdState) : (dstateBits d).toNat < 4 := by cases d <;> decide

theorem estateBit_lt (e : LzeState) : (estateBit e).toNat < 2 := by cases e <;> decide

end Fields

/-! ## The registers of the units (R36 to R40) -/

/-- BRSR (R36). -/
theorem Br.toNat_sr {b : Br} (hc : b.rcnt < 16) (hl : b.rlen - b.rpos < 2 ^ 13) :
    b.sr.toNat = (modeBit b.mode).toNat + 2 * b.reof.toNat + 2 ^ 4 * b.rcnt +
      2 ^ 8 * (errNum b.err).toNat + 2 ^ 16 * (b.rlen - b.rpos) := by
  have hmode := modeBit_lt b.mode
  have hreof := b.reof.toNat_le
  have herr := errNum_lt b.err
  have h1 := toNat_or (a := modeBit b.mode) (lo := 1) hmode (toNat_flagBit_shift b.reof (by decide))
  have h2 := toNat_or (lo := 4) (by rw [h1]; omega) (toNat_fieldAt (w := 4) hc (by decide))
  have h3 := toNat_or (lo := 8) (by rw [h2, h1]; omega) (toNat_errNum_shift b.err)
  have h4 := toNat_or (lo := 16) (by rw [h3, h2, h1]; omega)
    (toNat_fieldAt (w := 13) hl (by decide))
  rw [Br.sr, h4, h3, h2, h1, Nat.pow_one]

/-- BWSR (R37). -/
theorem Bw.toNat_sr {w : Bw} (hc : w.wcnt < 8) (hl : w.wlen < 2 ^ 13) :
    w.sr.toNat = (modeBit w.mode).toNat + 2 ^ 4 * w.wcnt + 2 ^ 8 * (errNum w.err).toNat +
      2 ^ 16 * w.wlen := by
  have hmode := modeBit_lt w.mode
  have herr := errNum_lt w.err
  have h1 := toNat_or (a := modeBit w.mode) (lo := 4) (by omega)
    (toNat_fieldAt (w := 3) hc (by decide))
  have h2 := toNat_or (lo := 8) (by rw [h1]; omega) (toNat_errNum_shift w.err)
  have h3 := toNat_or (lo := 16) (by rw [h2, h1]; omega) (toNat_fieldAt (w := 13) hl (by decide))
  rw [Bw.sr, h3, h2, h1]

/-- HUFSR (R38). -/
theorem Huf.toNat_sr {h : Huf} (hn : h.nsym < 2 ^ 16) :
    h.sr.toNat = (hstateBit h.hstate).toNat + 2 ^ 8 * (errNum h.err).toNat + 2 ^ 16 * h.nsym := by
  have hstate := hstateBit_lt h.hstate
  have herr := errNum_lt h.err
  have h1 := toNat_or (a := hstateBit h.hstate) (lo := 8) (by omega) (toNat_errNum_shift h.err)
  have h2 := toNat_or (lo := 16) (by rw [h1]; omega) (toNat_fieldAt (w := 16) hn (by decide))
  rw [Huf.sr, h2, h1]

/-- HUFSR2 (R38). -/
theorem Huf.toNat_sr2 {h : Huf} (hn : h.ncodes < 2 ^ 16) :
    h.sr2.toNat = h.defsym.toNat + 2 ^ 16 * h.ncodes := by
  have hdef : (BitVec.setWidth 32 h.defsym).toNat = h.defsym.toNat :=
    BitVec.toNat_setWidth_of_le (by decide)
  have h1 := toNat_or (lo := 16) (by rw [hdef]; exact h.defsym.isLt)
    (toNat_fieldAt (w := 16) hn (by decide))
  rw [Huf.sr2, h1, hdef]

/-- HUFSR3 (R38). -/
theorem Huf.toNat_sr3 {h : Huf} (hn : h.nfreq < 2 ^ 16) (hl : h.lmax < 2 ^ 5) :
    h.sr3.toNat = h.nfreq + 2 ^ 16 * h.lmax := by
  have h0 := toNat_fieldAt (lo := 0) (w := 16) hn (by decide)
  have h1 := toNat_or (lo := 16) (by rw [h0]; omega) (toNat_fieldAt (w := 5) hl (by decide))
  rw [Huf.sr3, h1, h0, Nat.pow_zero, Nat.one_mul]

/-- LZDCFG0 and LZECFG0 (R39, R40). -/
theorem LzConfig.toNat_sr0 (c : LzConfig) :
    c.sr0.toNat = c.wb.toNat + 2 ^ 5 * c.ob.toNat + 2 ^ 10 * c.lb.toNat := by
  have hwb : (BitVec.setWidth 32 c.wb).toNat = c.wb.toNat := BitVec.toNat_setWidth_of_le (by decide)
  have h1 := toNat_or (lo := 5) (by rw [hwb]; exact c.wb.isLt)
    (toNat_setWidth_shift c.ob (by decide))
  have h2 := toNat_or (lo := 10) (by rw [h1, hwb]; omega) (toNat_setWidth_shift c.lb (by decide))
  rw [LzConfig.sr0, h2, h1, hwb]

/-- LZDCFG1 and LZECFG1 (R39, R40). -/
theorem LzConfig.toNat_sr1 (c : LzConfig) : c.sr1.toNat = c.min.toNat + 2 ^ 16 * c.max.toNat := by
  rw [LzConfig.sr1, BitVec.toNat_append, ← Nat.shiftLeft_add_eq_or_of_lt c.min.isLt,
    Nat.shiftLeft_eq, Nat.mul_comm, Nat.add_comm]

/-- LZDSR (R39). -/
theorem Lzd.toNat_sr (d : Lzd) :
    d.sr.toNat = (dstateBits d.dstate).toNat + 2 ^ 2 * d.tokphase.toNat +
      2 ^ 8 * (errNum d.err).toNat := by
  have hstate := dstateBits_lt d.dstate
  have hphase := d.tokphase.toNat_le
  have h1 := toNat_or (a := dstateBits d.dstate) (lo := 2) hstate
    (toNat_flagBit_shift d.tokphase (by decide))
  have h2 := toNat_or (lo := 8) (by rw [h1]; omega) (toNat_errNum_shift d.err)
  rw [Lzd.sr, h2, h1]

/-- LZESR (R40). -/
theorem Lze.toNat_sr (e : Lze) :
    e.sr.toNat = (estateBit e.estate).toNat + 2 ^ 8 * (errNum e.err).toNat := by
  have hstate := estateBit_lt e.estate
  have h1 := toNat_or (a := estateBit e.estate) (lo := 8) (by omega) (toNat_errNum_shift e.err)
  rw [Lze.sr, h1]

/-- CSRC and CREM in one register (R39). -/
theorem toNat_copyRegister {csrc crem : Nat} (hs : csrc < 2 ^ 16) (hr : crem < 2 ^ 16) :
    (fieldAt 0 16 csrc ||| fieldAt 16 16 crem).toNat = csrc + 2 ^ 16 * crem := by
  have h0 := toNat_fieldAt (lo := 0) (w := 16) hs (by decide)
  have h1 := toNat_or (lo := 16) (by rw [h0]; omega) (toNat_fieldAt (w := 16) hr (by decide))
  rw [h1, h0, Nat.pow_zero, Nat.one_mul]

/-- A register that holds one count from bit 0 on. -/
theorem toNat_countRegister {w v : Nat} (h : v < 2 ^ w) (hw : w ≤ 32) :
    (fieldAt 0 w v).toNat = v := by
  rw [toNat_fieldAt h (by omega), Nat.pow_zero, Nat.one_mul]

/-- Settles O25, register by register. -/
theorem statusRegistersShowTheState : Obligations.StatusRegistersShowTheState := by
  intro s hrcnt hahead hwcnt hwlen hnsym hncodes hnfreq hlmax hwpos hfilled hcsrc hcrem
  refine ⟨(Br.toNat_sr hrcnt hahead).trans ?_, toNat_loHalf _, toNat_hiHalf _, toNat_loHalf _,
    toNat_hiHalf _, (Bw.toNat_sr hwcnt hwlen).trans ?_, toNat_loHalf _, toNat_hiHalf _,
    toNat_loHalf _, toNat_hiHalf _, (Huf.toNat_sr hnsym).trans ?_, Huf.toNat_sr2 hncodes,
    Huf.toNat_sr3 hnfreq hlmax, s.lzd.toNat_sr.trans ?_, LzConfig.toNat_sr0 _,
    LzConfig.toNat_sr1 _, toNat_countRegister hwpos (by decide),
    toNat_countRegister hfilled (by decide), toNat_copyRegister hcsrc hcrem, toNat_loHalf _,
    toNat_hiHalf _, s.lze.toNat_sr.trans ?_, LzConfig.toNat_sr0 _, LzConfig.toNat_sr1 _⟩
  · cases s.br.mode <;> rfl
  · cases s.bw.mode <;> rfl
  · cases s.huf.hstate <;> rfl
  · cases s.lzd.dstate <;> rfl
  · cases s.lze.estate <;> rfl

end Sys2Proof.Machine

/-! PROOF. The canonical assignment as a matter of the lengths alone (R28, R155): the symbols of
each length are counted, every symbol with a code has a place in SORTED, and the codes form a code
in which none begins another. -/

namespace Sys2Proof.Machine

open Config

/-! ## Counting symbols by length -/

/-- How many of two kinds there are in a list that no element is of both. -/
theorem length_filter_or {α : Type} (xs : List α) (p q r : α → Bool)
    (hr : ∀ x, r x = (p x || q x)) (hd : ∀ x, p x = true → q x = false) :
    (xs.filter r).length = (xs.filter p).length + (xs.filter q).length := by
  induction xs with
  | nil => rfl
  | cons x xs ih =>
    have hdx := hd x
    simp only [List.filter_cons, hr x]
    cases hp : p x
    · cases q x <;> simp [ih, Nat.add_assoc]
    · rw [hdx hp]; simp [ih, Nat.add_right_comm]

/-- How many of the symbols below `m` have length `l`. -/
def Huf.countBelow (h : Huf) (l m : Nat) : Nat :=
  ((List.range m).filter fun s => h.lenOf s == l).length

section Lengths
variable {h : Huf}

theorem countOf_eq (h : Huf) (l : Nat) : h.countOf l = h.countBelow l h.nsym := rfl

theorem rank_eq (h : Huf) (sym : Nat) : h.rank sym = h.countBelow (h.lenOf sym) sym := rfl

theorem countBelow_succ (h : Huf) (l m : Nat) :
    h.countBelow l (m + 1) = h.countBelow l m + if h.lenOf m = l then 1 else 0 := by
  unfold Huf.countBelow
  rw [List.range_succ, List.filter_append, List.length_append, List.filter_singleton]
  by_cases hm : h.lenOf m = l
  · simp [hm]
  · rw [if_neg hm, show (h.lenOf m == l) = false from beq_eq_false_iff_ne.2 hm]; rfl

theorem countBelow_le (h : Huf) (l : Nat) {m n : Nat} (hmn : m ≤ n) :
    h.countBelow l m ≤ h.countBelow l n := by
  induction hmn with
  | refl => exact Nat.le_refl _
  | step _ ih => rw [countBelow_succ]; omega

theorem countOf_le (h : Huf) (l : Nat) : h.countOf l ≤ h.nsym :=
  Nat.le_trans (List.length_filter_le _ _) (by simp [Huf.symbols])

theorem baseOf_le (h : Huf) (l : Nat) : h.baseOf l ≤ h.nsym :=
  Nat.le_trans (List.length_filter_le _ _) (by simp [Huf.symbols])

/-- Symbols of one length are ranked by their numbers. -/
theorem rank_lt_rank {a b : Nat} (hl : h.lenOf a = h.lenOf b) (hab : a < b) :
    h.rank a < h.rank b := by
  have hle := countBelow_le h (h.lenOf b) (show a + 1 ≤ b from hab)
  rw [countBelow_succ, if_pos hl] at hle
  rw [rank_eq, rank_eq, hl]
  omega

theorem rank_lt_countOf {sym : Nat} (hs : sym < h.nsym) : h.rank sym < h.countOf (h.lenOf sym) := by
  have hle := countBelow_le h (h.lenOf sym) (show sym + 1 ≤ h.nsym from hs)
  rw [countBelow_succ, if_pos rfl] at hle
  rw [rank_eq, countOf_eq]
  omega

theorem baseOf_one (h : Huf) : h.baseOf 1 = 0 := by
  unfold Huf.baseOf
  rw [List.length_eq_zero_iff, List.filter_eq_nil_iff]
  intro s _ hs
  have := of_decide_eq_true hs
  omega

theorem baseOf_succ (h : Huf) {l : Nat} (hl : 1 ≤ l) :
    h.baseOf (l + 1) = h.baseOf l + h.countOf l := by
  refine length_filter_or _ _ _ _ (fun s => ?_) fun s hs => ?_
  · rw [Bool.eq_iff_iff]
    simp
    omega
  · have := of_decide_eq_true hs
    simp
    omega

theorem baseOf_mono (h : Huf) {l k : Nat} (hl : 1 ≤ l) (hk : l ≤ k) : h.baseOf l ≤ h.baseOf k := by
  induction hk with
  | refl => exact Nat.le_refl _
  | step hlk ih => rw [Nat.succ_eq_add_one, baseOf_succ h (Nat.le_trans hl hlk)]; omega

/-- The symbols with a code are those of the legal lengths. -/
theorem length_coded (hl : h.LengthsLegal) : h.coded.length = h.baseOf (HUF_MAXLEN + 1) := by
  unfold Huf.coded Huf.baseOf
  congr 1
  refine List.filter_congr fun s hs => ?_
  have hle := hl s (List.mem_range.1 hs)
  rw [Bool.eq_iff_iff]
  simp
  omega

/-- NCODES is the sum of the counts (R28). -/
theorem sum_countOf (h : Huf) (n : Nat) :
    ((List.range' 1 n).map h.countOf).sum = h.baseOf (n + 1) := by
  induction n with
  | zero => exact (baseOf_one h).symm
  | succ n ih =>
    rw [List.range'_1_concat, List.map_append, List.sum_append, ih, Nat.add_comm 1 n,
      baseOf_succ h (Nat.le_add_left 1 n)]
    simp

/-! ## Places in SORTED -/

/-- The place of a symbol with a code in SORTED (R155). -/
def Huf.place (h : Huf) (sym : Nat) : Nat := h.baseOf (h.lenOf sym) + h.rank sym

/-- The places of one length end where those of the next begin. -/
theorem place_lt_baseOf {sym l : Nat} (hs : sym < h.nsym) (h0 : 0 < h.lenOf sym)
    (hl : h.lenOf sym < l) : h.place sym < h.baseOf l := by
  have hmono := baseOf_mono h (Nat.succ_pos _) (show h.lenOf sym + 1 ≤ l from hl)
  have hrank := rank_lt_countOf hs
  rw [baseOf_succ h h0] at hmono
  unfold Huf.place
  omega

theorem place_lt_coded {sym : Nat} (hl : h.LengthsLegal) (hs : sym < h.nsym)
    (h0 : 0 < h.lenOf sym) : h.place sym < h.coded.length := by
  rw [length_coded hl]
  exact place_lt_baseOf hs h0 (Nat.lt_succ_of_le (hl sym hs))

theorem place_injective {a b : Nat} (ha : a < h.nsym) (hb : b < h.nsym) (ha0 : 0 < h.lenOf a)
    (hb0 : 0 < h.lenOf b) (hp : h.place a = h.place b) : a = b := by
  rcases Nat.lt_trichotomy (h.lenOf a) (h.lenOf b) with hlt | heq | hgt
  · have := place_lt_baseOf ha ha0 hlt
    unfold Huf.place at *
    omega
  · unfold Huf.place at hp
    rw [heq] at hp
    rcases Nat.lt_trichotomy a b with hab | hab | hab
    · have := rank_lt_rank heq hab; omega
    · exact hab
    · have := rank_lt_rank heq.symm hab; omega
  · have := place_lt_baseOf hb hb0 hgt
    unfold Huf.place at *
    omega

theorem mem_coded {sym : Nat} : sym ∈ h.coded ↔ sym < h.nsym ∧ 0 < h.lenOf sym := by
  simp [Huf.coded, Huf.symbols]

/-- Every place below NCODES is the place of a symbol: there are as many symbols as places. -/
theorem exists_place (hl : h.LengthsLegal) {k : Nat} (hk : k < h.coded.length) :
    ∃ sym < h.nsym, 0 < h.lenOf sym ∧ h.place sym = k := by
  have hnodup : (h.coded.map h.place).Nodup := by
    refine List.Nodup.map_on (fun a ha b hb hp => ?_) (List.nodup_range.filter _)
    obtain ⟨ha, ha0⟩ := mem_coded.1 ha
    obtain ⟨hb, hb0⟩ := mem_coded.1 hb
    exact place_injective ha hb ha0 hb0 hp
  have hsubset : h.coded.map h.place ⊆ List.range h.coded.length := by
    intro p hp
    obtain ⟨sym, hs, rfl⟩ := List.mem_map.1 hp
    obtain ⟨hs, h0⟩ := mem_coded.1 hs
    exact List.mem_range.2 (place_lt_coded hl hs h0)
  have hperm := (List.subperm_of_subset hnodup hsubset).perm_of_length_le (by simp)
  obtain ⟨sym, hs, hp⟩ := List.mem_map.1 (hperm.mem_iff.2 (List.mem_range.2 hk))
  obtain ⟨hs, h0⟩ := mem_coded.1 hs
  exact ⟨sym, hs, h0, hp⟩

/-! ## Codes -/

theorem firstCode_one (h : Huf) : h.firstCode 1 = 0 := rfl

theorem firstCode_succ (h : Huf) {l : Nat} (hl : 1 ≤ l) :
    h.firstCode (l + 1) = 2 * (h.firstCode l + h.countOf l) := by
  rw [Huf.firstCode, if_neg (by omega)]

/-- A longer code lies beyond every shorter one (R155). -/
theorem firstCode_add (h : Huf) {l : Nat} (hl : 1 ≤ l) (d : Nat) :
    (h.firstCode l + h.countOf l) * 2 ^ (d + 1) ≤ h.firstCode (l + (d + 1)) := by
  induction d with
  | zero => rw [Nat.zero_add, firstCode_succ h hl, Nat.pow_one, Nat.mul_comm]
  | succ d ih =>
    rw [← Nat.add_assoc l (d + 1) 1, firstCode_succ h (by omega), Nat.pow_succ 2 (d + 1),
      ← Nat.mul_assoc]
    omega

/-- A code fits in its length (R156). -/
theorem canonicalCode_lt (ho : h.NotOversubscribed) (hl : h.LengthsLegal) {sym : Nat}
    (hs : sym < h.nsym) (h0 : 0 < h.lenOf sym) : h.canonicalCode sym < 2 ^ h.lenOf sym := by
  have hrank := rank_lt_countOf hs
  have hfits := ho (h.lenOf sym) h0 (hl sym hs)
  unfold Huf.canonicalCode
  omega

@[simp] theorem length_codeBits (l code : Nat) : (codeBits l code).length = l := by
  simp [codeBits, bitsOf]

theorem getElem_codeBits {l code k : Nat} (hk : k < (codeBits l code).length) :
    (codeBits l code)[k] = code.testBit (l - 1 - k) := by
  simp [codeBits, bitsOf]

/-- Bits that begin a code are the code's high part. -/
theorem div_of_codeBits_begin {l m x y : Nat} (hx : x < 2 ^ l) (hy : y < 2 ^ m)
    (hp : codeBits l x <+: codeBits m y) : l ≤ m ∧ y / 2 ^ (m - l) = x := by
  have hle : l ≤ m := by simpa using hp.length_le
  refine ⟨hle, Nat.eq_of_testBit_eq fun j => ?_⟩
  rw [Nat.testBit_div_two_pow]
  by_cases hj : j < l
  · have hget := hp.getElem (i := l - 1 - j) (by simp; omega)
    rw [getElem_codeBits, getElem_codeBits, show l - 1 - (l - 1 - j) = j by omega,
      show m - 1 - (l - 1 - j) = j + (m - l) by omega] at hget
    exact hget.symm
  · have hx' : x < 2 ^ j := Nat.lt_of_lt_of_le hx (Nat.pow_le_pow_right (by decide) (by omega))
    have hy' : y < 2 ^ (j + (m - l)) :=
      Nat.lt_of_lt_of_le hy (Nat.pow_le_pow_right (by decide) (by omega))
    rw [Nat.testBit_lt_two_pow hx', Nat.testBit_lt_two_pow hy']

/-- No canonical code begins another (R28). -/
theorem canonicalCode_not_begin (ho : h.NotOversubscribed) (hl : h.LengthsLegal) {a b : Nat}
    (ha : a < h.nsym) (hb : b < h.nsym) (ha0 : 0 < h.lenOf a) (hb0 : 0 < h.lenOf b) (hab : a ≠ b) :
    ¬ codeBits (h.lenOf a) (h.canonicalCode a) <+: codeBits (h.lenOf b) (h.canonicalCode b) := by
  intro hp
  obtain ⟨hle, hdiv⟩ := div_of_codeBits_begin (canonicalCode_lt ho hl ha ha0)
    (canonicalCode_lt ho hl hb hb0) hp
  rcases Nat.lt_or_eq_of_le hle with hlt | heq
  · obtain ⟨d, hd⟩ : ∃ d, h.lenOf b = h.lenOf a + (d + 1) := ⟨h.lenOf b - h.lenOf a - 1, by omega⟩
    have hbeyond := firstCode_add h ha0 d
    have hrank := rank_lt_countOf ha
    rw [show h.lenOf b - h.lenOf a = d + 1 by omega] at hdiv
    have hge : (h.canonicalCode a + 1) * 2 ^ (d + 1) ≤ h.canonicalCode b := calc
      _ ≤ (h.firstCode (h.lenOf a) + h.countOf (h.lenOf a)) * 2 ^ (d + 1) :=
        Nat.mul_le_mul_right _ (by unfold Huf.canonicalCode; omega)
      _ ≤ h.firstCode (h.lenOf b) := hd ▸ hbeyond
      _ ≤ h.canonicalCode b := Nat.le_add_right _ _
    have := (Nat.le_div_iff_mul_le (Nat.two_pow_pos (d + 1))).2 hge
    omega
  · rw [heq, Nat.sub_self, Nat.pow_zero, Nat.div_one] at hdiv
    unfold Huf.canonicalCode at hdiv
    rw [heq] at hdiv
    rcases Nat.lt_or_gt_of_ne hab with hlt | hgt
    · have := rank_lt_rank heq hlt; omega
    · have := rank_lt_rank heq.symm hgt; omega

end Lengths

/-! ## The built table -/

section Canonical
variable {h : Huf}

theorem Huf.Canonical.wireCode_eq (hc : h.Canonical) {sym : Nat} (hs : sym < h.nsym)
    (h0 : 0 < h.lenOf sym) : h.wireCode sym = codeBits (h.lenOf sym) (h.canonicalCode sym) := by
  rw [Huf.wireCode, hc.code sym hs h0]

/-- SORTED holds every symbol at its place. -/
theorem Huf.Canonical.sorted_place (hc : h.Canonical) {sym : Nat} (hs : sym < h.nsym)
    (h0 : 0 < h.lenOf sym) : (h.sorted.read (h.place sym)).toNat = sym := hc.sorted sym hs h0

/-- Every entry of SORTED below NCODES is a symbol with a code, at its own place. -/
theorem Huf.Canonical.sorted_entry (hc : h.Canonical) {k : Nat} (hk : k < h.ncodes) :
    ∃ sym < h.nsym, 0 < h.lenOf sym ∧ h.place sym = k ∧ (h.sorted.read k).toNat = sym := by
  obtain ⟨sym, hs, h0, rfl⟩ := exists_place hc.lengthsLegal (hc.ncodes ▸ hk)
  exact ⟨sym, hs, h0, rfl, hc.sorted_place hs h0⟩

theorem Huf.Canonical.ncodes_eq_sum (hc : h.Canonical) :
    h.ncodes = (codeLengths.map fun l => (h.count.read l).toNat).sum := by
  have hmap : (codeLengths.map fun l => (h.count.read l).toNat) = codeLengths.map h.countOf := by
    refine List.map_congr_left fun l hl => ?_
    obtain ⟨h1, h2⟩ := List.mem_range'_1.1 hl
    exact hc.count l h1 (by omega)
  rw [hmap, hc.ncodes, length_coded hc.lengthsLegal, ← sum_countOf]
  rfl

end Canonical

/-- Settles O38, from the canonical table that the invariant of R28 gives in BUILT. -/
theorem builtTableIsAPrefixCode : Obligations.BuiltTableIsAPrefixCode := by
  intro h hinv hbuilt
  have hc := hinv.table hbuilt
  refine ⟨hc.lengthsLegal, hc.ncodes_eq_sum, fun l h1 h2 => ?_, fun a ha b hb ha0 hb0 hab => ?_,
    fun sym hs h0 => ⟨h.place sym, ?_, hc.sorted_place hs h0, fun j hj hsym => ?_⟩, fun k hk => ?_⟩
  · rw [hc.first l h1 h2, hc.count l h1 h2]
    exact hc.notOversubscribed l h1 h2
  · rw [hc.wireCode_eq ha ha0, hc.wireCode_eq hb hb0]
    exact canonicalCode_not_begin hc.notOversubscribed hc.lengthsLegal ha hb ha0 hb0 hab
  · rw [hc.ncodes]
    exact place_lt_coded hc.lengthsLegal hs h0
  · obtain ⟨other, -, -, hplace, hother⟩ := hc.sorted_entry hj
    rw [← hplace, ← hother, hsym]
  · obtain ⟨sym, hs, h0, -, hsym⟩ := hc.sorted_entry hk
    rw [hsym]
    exact ⟨hs, h0⟩

end Sys2Proof.Machine

/-! PROOF. The table builder makes the canonical table (R154, R155), and the invariant of the coder
(R28). -/

namespace Sys2Proof.Machine

open Config

/-! ## Tables written in a loop -/

section Loops
variable {w : Nat} {β : Type}

theorem wf_foldl_write (key : β → Nat) (val : β → BitVec w) (xs : List β) {m : Memory w}
    (hm : m.wf = true) : (xs.foldl (fun m x => m.write (key x) (val x)) m).wf = true := by
  induction xs generalizing m with
  | nil => exact hm
  | cons x xs ih => exact ih (wf_write hm)

theorem read_foldl_write (val : Nat → BitVec w) (xs : List Nat) {m : Memory w} (hm : m.wf = true)
    (k : Nat) : (xs.foldl (fun m x => m.write x (val x)) m).read k =
      if k ∈ xs then val k else m.read k := by
  induction xs generalizing m with
  | nil => simp
  | cons x xs ih =>
    rw [List.foldl_cons, ih (wf_write hm), read_write hm]
    by_cases hk : k ∈ xs
    · simp [hk]
    · by_cases hx : k = x
      · simp [hx]
      · simp [hk, hx]

end Loops

/-- The lookup tables are in canonical form. -/
structure Huf.TablesWf (h : Huf) : Prop where
  first : h.first.wf = true
  base : h.base.wf = true
  sorted : h.sorted.wf = true
  code : h.code.wf = true

theorem assignSymbol_wf {a : Assign} (h : a.huf.TablesWf) (l sym : Nat) :
    (assignSymbol l a sym).huf.TablesWf := by
  unfold assignSymbol
  split
  · exact ⟨h.first, h.base, wf_write h.sorted, wf_write h.code⟩
  · exact h

theorem startLength_wf {a : Assign} (h : a.huf.TablesWf) (l : Nat) :
    (a.startLength l).huf.TablesWf :=
  ⟨wf_write h.first, wf_write h.base, h.sorted, h.code⟩

theorem fillLength_wf {a : Assign} (h : a.huf.TablesWf) (l : Nat) :
    (a.fillLength l).huf.TablesWf := by
  have loop : ∀ (syms : List Nat) (b : Assign), b.huf.TablesWf →
      (syms.foldl (assignSymbol l) b).huf.TablesWf := by
    intro syms
    induction syms with
    | nil => exact fun _ hb => hb
    | cons x xs ih => exact fun b hb => ih _ (assignSymbol_wf hb l x)
  exact loop a.huf.symbols a h

/-- However AssignCodes ends, the tables are in canonical form. -/
theorem assignLengths_wf (ls : List Nat) {a : Assign} (h : a.huf.TablesWf) :
    match assignLengths ls a with
    | .ok b => b.huf.TablesWf
    | .error k => k.TablesWf := by
  induction ls generalizing a with
  | nil => exact h
  | cons l ls ih =>
    by_cases ho : 2 ^ l < a.code + (a.huf.count.read l).toNat
    · rw [assignLengths, if_pos ho]
      exact startLength_wf h l
    · rw [assignLengths, if_neg ho]
      exact ih (fillLength_wf (startLength_wf h l) l)

theorem tablesWf_ok {ls : List Nat} {a b : Assign} (hb : assignLengths ls a = .ok b)
    (h : a.huf.TablesWf) : b.huf.TablesWf := by
  have hwf := assignLengths_wf ls h
  rw [hb] at hwf
  exact hwf

theorem tablesWf_error {ls : List Nat} {a : Assign} {k : Huf} (hk : assignLengths ls a = .error k)
    (h : a.huf.TablesWf) : k.TablesWf := by
  have hwf := assignLengths_wf ls h
  rw [hk] at hwf
  exact hwf

/-! ## Lengths that two states share -/

section SameLengths
variable {h k : Huf}

/-- Two states of HUF with the same lengths. -/
structure Huf.SameLengths (h k : Huf) : Prop where
  len : k.len = h.len
  nsym : k.nsym = h.nsym

theorem BuildFrame.sameLengths (hf : BuildFrame h k) : h.SameLengths k := ⟨hf.len, hf.nsym⟩

theorem Huf.SameLengths.lenOf (hs : h.SameLengths k) (sym : Nat) : k.lenOf sym = h.lenOf sym := by
  rw [Huf.lenOf, hs.len]; rfl

theorem Huf.SameLengths.symbols (hs : h.SameLengths k) : k.symbols = h.symbols := by
  rw [Huf.symbols, hs.nsym]; rfl

theorem Huf.SameLengths.countOf (hs : h.SameLengths k) (l : Nat) : k.countOf l = h.countOf l := by
  simp only [Huf.countOf, hs.symbols, hs.lenOf]

theorem Huf.SameLengths.baseOf (hs : h.SameLengths k) (l : Nat) : k.baseOf l = h.baseOf l := by
  simp only [Huf.baseOf, hs.symbols, hs.lenOf]

theorem Huf.SameLengths.rank (hs : h.SameLengths k) (sym : Nat) : k.rank sym = h.rank sym := by
  simp only [Huf.rank, hs.lenOf]

theorem Huf.SameLengths.firstCode (hs : h.SameLengths k) (l : Nat) :
    k.firstCode l = h.firstCode l := by
  induction l with
  | zero => rfl
  | succ l ih => rw [Huf.firstCode, ih, hs.countOf, Huf.firstCode]

theorem Huf.SameLengths.canonicalCode (hs : h.SameLengths k) (sym : Nat) :
    k.canonicalCode sym = h.canonicalCode sym := by
  rw [Huf.canonicalCode, hs.lenOf, hs.firstCode, hs.rank, Huf.canonicalCode]

theorem Huf.SameLengths.coded (hs : h.SameLengths k) : k.coded = h.coded := by
  simp only [Huf.coded, hs.symbols, hs.lenOf]

/-- The table speaks of the lengths and of the lookup structure only. -/
theorem Huf.Canonical.of_eq (hc : h.Canonical) (hs : h.SameLengths k) (hcount : k.count = h.count)
    (hfirst : k.first = h.first) (hbase : k.base = h.base) (hcode : k.code = h.code)
    (hsorted : k.sorted = h.sorted) (hncodes : k.ncodes = h.ncodes) (hlmax : k.lmax = h.lmax) :
    k.Canonical where
  lengthsLegal sym hn := by rw [hs.lenOf]; exact hc.lengthsLegal sym (hs.nsym ▸ hn)
  notOversubscribed l h1 h2 := by
    rw [hs.firstCode, hs.countOf]; exact hc.notOversubscribed l h1 h2
  count l h1 h2 := by rw [hcount, hs.countOf]; exact hc.count l h1 h2
  first l h1 h2 := by rw [hfirst, hs.firstCode]; exact hc.first l h1 h2
  base l h1 h2 := by rw [hbase, hs.baseOf]; exact hc.base l h1 h2
  code sym hn h0 := by
    rw [hcode, hs.canonicalCode]; exact hc.code sym (hs.nsym ▸ hn) (hs.lenOf sym ▸ h0)
  sorted sym hn h0 := by
    rw [hsorted, hs.lenOf, hs.baseOf, hs.rank]
    exact hc.sorted sym (hs.nsym ▸ hn) (hs.lenOf sym ▸ h0)
  ncodes := by rw [hncodes, hs.coded]; exact hc.ncodes
  lmaxUpper sym hn := by rw [hlmax, hs.lenOf]; exact hc.lmaxUpper sym (hs.nsym ▸ hn)
  lmaxReached := by
    rw [hlmax, hs.nsym]
    refine hc.lmaxReached.imp id fun ⟨sym, hn, hl⟩ => ⟨sym, hn, ?_⟩
    rw [hs.lenOf]; exact hl

end SameLengths

/-! ## AssignCodes (R155) -/

/-- The symbols whose codes stand when AssignCodes has treated all lengths below `l` and, of length
`l`, the symbols below `m`. -/
def Huf.Treated (h : Huf) (l m sym : Nat) : Prop :=
  sym < h.nsym ∧ 0 < h.lenOf sym ∧ (h.lenOf sym < l ∨ (h.lenOf sym = l ∧ sym < m))

/-- The running variables of AssignCodes on the lengths of `h`, at length `l` before symbol `m`. -/
structure Filling (h : Huf) (l m : Nat) (a : Assign) : Prop where
  frame : BuildFrame h a.huf
  wf : a.huf.TablesWf
  code : a.code = h.firstCode l + h.countBelow l m
  idx : a.idx = h.baseOf l + h.countBelow l m
  codes : ∀ sym, h.Treated l m sym → (a.huf.code.read sym).toNat = h.canonicalCode sym
  sorted : ∀ sym, h.Treated l m sym → (a.huf.sorted.read (h.place sym)).toNat = sym

section Assign
variable {h : Huf} {a : Assign} {l m : Nat}

theorem countBelow_zero (h : Huf) (l : Nat) : h.countBelow l 0 = 0 := rfl

/-- A treated symbol has its place before the running index. -/
theorem Huf.Treated.place_lt {sym : Nat} (ht : h.Treated l m sym) :
    h.place sym < h.baseOf l + h.countBelow l m := by
  obtain ⟨hn, h0, hlt | ⟨heq, hm⟩⟩ := ht
  · have := place_lt_baseOf hn h0 hlt
    omega
  · have hle := countBelow_le h (h.lenOf sym) (show sym + 1 ≤ m from hm)
    rw [countBelow_succ, if_pos rfl, heq] at hle
    unfold Huf.place
    rw [rank_eq, heq]
    omega

/-- The next symbol to be treated, or one treated before. -/
theorem Huf.Treated.succ_cases {sym : Nat} (ht : h.Treated l (m + 1) sym) :
    h.Treated l m sym ∨ (sym = m ∧ h.lenOf m = l) := by
  obtain ⟨hn, h0, hlt | ⟨heq, hm⟩⟩ := ht
  · exact .inl ⟨hn, h0, .inl hlt⟩
  · rcases Nat.lt_succ_iff_lt_or_eq.1 hm with hlt | rfl
    · exact .inl ⟨hn, h0, .inr ⟨heq, hlt⟩⟩
    · exact .inr ⟨rfl, heq⟩

/-- One symbol of AssignCodes' inner loop. -/
theorem Filling.symbol (hf : Filling h l m a) (hn : h.nsym ≤ HUF_NSYM_MAX) (hl : l ≤ HUF_MAXLEN)
    (hfits : h.firstCode l + h.countOf l ≤ 2 ^ l) (hm : m < h.nsym) :
    Filling h l (m + 1) (assignSymbol l a m) := by
  have hframe := hf.frame.sameLengths
  unfold assignSymbol
  rw [hframe.lenOf]
  split
  · rename_i hlm
    have hsub : h.countBelow l m < h.countOf l := by
      have hlt := rank_lt_countOf hm
      rw [rank_eq, hlm] at hlt
      exact hlt
    have hplace : h.place m = a.idx := by
      rw [hf.idx, Huf.place, rank_eq, hlm]
    have hcode : a.code < 2 ^ 16 := by
      have hle : 2 ^ l ≤ 2 ^ 16 := Nat.pow_le_pow_right (by decide) hl
      rw [hf.code]
      omega
    have hsym : m < 2 ^ 16 := Nat.lt_of_lt_of_le hm (Nat.le_trans hn (by decide))
    have hother : ∀ sym, h.Treated l m sym → sym ≠ m ∧ h.place sym ≠ a.idx := by
      intro sym ht
      have hlt := ht.place_lt
      rw [← hf.idx] at hlt
      exact ⟨fun he => by rw [he, hplace] at hlt; omega, Nat.ne_of_lt hlt⟩
    refine ⟨⟨hf.frame.len, hf.frame.nsym, hf.frame.freq, hf.frame.nfreq, hf.frame.count,
      hf.frame.defsym, hf.frame.err, hf.frame.hstate, hf.frame.ncodes, hf.frame.lmax⟩,
      ⟨hf.wf.first, hf.wf.base, wf_write hf.wf.sorted, wf_write hf.wf.code⟩, ?_, ?_,
      fun sym ht => ?_, fun sym ht => ?_⟩
    · rw [countBelow_succ, if_pos hlm, hf.code, Nat.add_assoc]
    · rw [countBelow_succ, if_pos hlm, hf.idx, Nat.add_assoc]
    · rcases ht.succ_cases with ht | ⟨rfl, -⟩
      · rw [read_write_other hf.wf.code _ (hother sym ht).1]
        exact hf.codes sym ht
      · rw [read_write_same hf.wf.code, BitVec.toNat_ofNat, Nat.mod_eq_of_lt hcode, hf.code,
          Huf.canonicalCode, rank_eq, hlm]
    · rcases ht.succ_cases with ht | ⟨rfl, -⟩
      · rw [read_write_other hf.wf.sorted _ (hother sym ht).2]
        exact hf.sorted sym ht
      · rw [hplace, read_write_same hf.wf.sorted, BitVec.toNat_ofNat, Nat.mod_eq_of_lt hsym]
  · rename_i hlm
    have hsame : ∀ sym, h.Treated l (m + 1) sym → h.Treated l m sym := fun sym ht =>
      ht.succ_cases.resolve_right fun hc => hlm hc.2
    refine ⟨hf.frame, hf.wf, ?_, ?_, fun sym ht => hf.codes sym (hsame sym ht),
      fun sym ht => hf.sorted sym (hsame sym ht)⟩
    · rw [countBelow_succ, if_neg hlm]; exact hf.code
    · rw [countBelow_succ, if_neg hlm]; exact hf.idx

/-- AssignCodes' inner loop over all symbols. -/
theorem Filling.symbols (hf : Filling h l 0 a) (hn : h.nsym ≤ HUF_NSYM_MAX) (hl : l ≤ HUF_MAXLEN)
    (hfits : h.firstCode l + h.countOf l ≤ 2 ^ l) :
    Filling h l h.nsym (a.huf.symbols.foldl (assignSymbol l) a) := by
  have loop : ∀ m ≤ h.nsym, Filling h l m ((List.range m).foldl (assignSymbol l) a) := by
    intro m
    induction m with
    | zero => exact fun _ => hf
    | succ m ih =>
      intro hm
      rw [List.range_succ, List.foldl_append]
      exact (ih (by omega)).symbol hn hl hfits hm
  rw [hf.frame.sameLengths.symbols]
  exact loop h.nsym (Nat.le_refl _)

/-- The running variables of AssignCodes at the head of the turn for length `l`: FIRST and BASE are
set for the lengths before, none of which is over-subscribed. -/
structure Assigned (h : Huf) (l : Nat) (a : Assign) : Prop where
  filling : Filling h l 0 a
  first : ∀ k, 1 ≤ k → k < l → (a.huf.first.read k).toNat = h.firstCode k
  base : ∀ k, 1 ≤ k → k < l → (a.huf.base.read k).toNat = h.baseOf k
  fits : ∀ k, 1 ≤ k → k < l → h.firstCode k + h.countOf k ≤ 2 ^ k

theorem foldl_assignSymbol_tables (l : Nat) (syms : List Nat) (a : Assign) :
    (syms.foldl (assignSymbol l) a).huf.first = a.huf.first ∧
      (syms.foldl (assignSymbol l) a).huf.base = a.huf.base := by
  induction syms generalizing a with
  | nil => exact ⟨rfl, rfl⟩
  | cons x xs ih =>
    obtain ⟨hfirst, hbase⟩ := ih (assignSymbol l a x)
    rw [List.foldl_cons, hfirst, hbase]
    unfold assignSymbol
    split <;> exact ⟨rfl, rfl⟩

/-- When all symbols of length `l` are treated, those treated are the ones of every length up to
`l`. -/
theorem Filling.double (hf : Filling h l h.nsym a) (h1 : 1 ≤ l) :
    Filling h (l + 1) 0 { a with code := 2 * a.code } := by
  have htreated : ∀ sym, h.Treated (l + 1) 0 sym → h.Treated l h.nsym sym := by
    rintro sym ⟨hn, h0, hlt | ⟨-, hlt⟩⟩
    · exact ⟨hn, h0, (Nat.lt_succ_iff_lt_or_eq.1 hlt).imp id fun he => ⟨he, hn⟩⟩
    · exact absurd hlt (Nat.not_lt_zero _)
  refine ⟨hf.frame, hf.wf, ?_, ?_, fun sym ht => hf.codes sym (htreated sym ht),
    fun sym ht => hf.sorted sym (htreated sym ht)⟩
  · rw [firstCode_succ h h1, countOf_eq, countBelow_zero, Nat.add_zero, ← hf.code]
  · rw [baseOf_succ h h1, countOf_eq, countBelow_zero, Nat.add_zero, ← hf.idx]

/-- One turn of AssignCodes' outer loop. -/
theorem Assigned.turn (ha : Assigned h l a) (hn : h.nsym ≤ HUF_NSYM_MAX) (h1 : 1 ≤ l)
    (hl : l ≤ HUF_MAXLEN) (hfits : h.firstCode l + h.countOf l ≤ 2 ^ l) :
    Assigned h (l + 1) ((a.startLength l).fillLength l) := by
  have hf := ha.filling
  have hcode : a.code = h.firstCode l := hf.code
  have hidx : a.idx = h.baseOf l := hf.idx
  have hstart : Filling h l 0 (a.startLength l) :=
    ⟨⟨hf.frame.len, hf.frame.nsym, hf.frame.freq, hf.frame.nfreq, hf.frame.count,
      hf.frame.defsym, hf.frame.err, hf.frame.hstate, hf.frame.ncodes, hf.frame.lmax⟩,
      startLength_wf hf.wf l, hf.code, hf.idx, hf.codes, hf.sorted⟩
  obtain ⟨hfirst, hbase⟩ := foldl_assignSymbol_tables l (a.startLength l).huf.symbols
    (a.startLength l)
  have hcode17 : h.firstCode l < 2 ^ 17 := by
    have hle : 2 ^ l ≤ 2 ^ 16 := Nat.pow_le_pow_right (by decide) hl
    omega
  have hidx10 : h.baseOf l < 2 ^ 10 := by
    have hle : h.nsym ≤ 512 := hn
    have := baseOf_le h l
    omega
  refine ⟨(hstart.symbols hn hl hfits).double h1, fun k hk1 hk => ?_, fun k hk1 hk => ?_,
    fun k hk1 hk => ?_⟩
  · show ((List.foldl (assignSymbol l) (a.startLength l) _).huf.first.read k).toNat = _
    rw [hfirst]
    show ((a.huf.first.write l (BitVec.ofNat 17 a.code)).read k).toNat = _
    rw [read_write hf.wf.first]
    split
    · rename_i he
      rw [he, hcode, BitVec.toNat_ofNat, Nat.mod_eq_of_lt hcode17]
    · exact ha.first k hk1 (by omega)
  · show ((List.foldl (assignSymbol l) (a.startLength l) _).huf.base.read k).toNat = _
    rw [hbase]
    show ((a.huf.base.write l (BitVec.ofNat 10 a.idx)).read k).toNat = _
    rw [read_write hf.wf.base]
    split
    · rename_i he
      rw [he, hidx, BitVec.toNat_ofNat, Nat.mod_eq_of_lt hidx10]
    · exact ha.base k hk1 (by omega)
  · rcases Nat.lt_succ_iff_lt_or_eq.1 hk with hlt | rfl
    · exact ha.fits k hk1 hlt
    · exact hfits

/-- The counts that BuildTable has written are those of R154. -/
theorem withCounts_count_read (h : Huf) (hw : h.count.wf = true) (hn : h.nsym ≤ HUF_NSYM_MAX)
    {l : Nat} (h1 : 1 ≤ l) (hl : l ≤ HUF_MAXLEN) :
    (h.withCounts.count.read l).toNat = h.countOf l := by
  have hlt : h.countOf l < 2 ^ 10 := by
    have hle : h.nsym ≤ 512 := hn
    have := countOf_le h l
    omega
  have hmem : l ∈ codeLengths := List.mem_range'_1.2 ⟨h1, by omega⟩
  unfold Huf.withCounts
  rw [read_foldl_write (fun l => BitVec.ofNat 10 (h.countOf l)) codeLengths hw, if_pos hmem,
    BitVec.toNat_ofNat, Nat.mod_eq_of_lt hlt]

/-- AssignCodes over the lengths from `l` up, when it succeeds. -/
theorem Assigned.lengths (hw : h.count.wf = true) (hn : h.nsym ≤ HUF_NSYM_MAX) {b : Assign}
    (n : Nat) (ha : Assigned h l a) (h1 : 1 ≤ l) (hl : l + n ≤ HUF_MAXLEN + 1)
    (hb : assignLengths (List.range' l n) a = .ok b) : Assigned h (l + n) b := by
  induction n generalizing l a with
  | zero => cases hb; exact ha
  | succ n ih =>
    rw [List.range'_succ, assignLengths] at hb
    split at hb
    · cases hb
    · rename_i hfits
      rw [ha.filling.frame.count, withCounts_count_read h hw hn h1 (by omega), ha.filling.code,
        countBelow_zero] at hfits
      have hturn := ha.turn hn h1 (by omega) (by omega)
      rw [show l + (n + 1) = l + 1 + n by omega]
      exact ih hturn (by omega) (by omega) hb

theorem withCounts_wf (hw : h.TablesWf) : h.withCounts.TablesWf := by
  unfold Huf.withCounts
  exact ⟨hw.first, hw.base, hw.sorted, hw.code⟩

/-- AssignCodes begins with no length treated. -/
theorem assigned_start (h : Huf) (hw : h.TablesWf) :
    Assigned h 1 { code := 0, idx := 0, huf := h.withCounts } := by
  have hnone : ∀ sym, ¬h.Treated 1 0 sym := by
    rintro sym ⟨-, h0, hlt | ⟨-, hlt⟩⟩ <;> omega
  refine ⟨⟨(TableFrame.refl _).build, withCounts_wf hw, ?_, ?_,
    fun sym ht => absurd ht (hnone sym), fun sym ht => absurd ht (hnone sym)⟩,
    fun k h1 hk => by omega, fun k h1 hk => by omega, fun k h1 hk => by omega⟩
  · rw [firstCode_one, countBelow_zero]
  · rw [baseOf_one, countBelow_zero]

end Assign

/-! ## LMAX (R155) -/

/-- The largest of the lengths 1 .. `n` that some symbol has, or 0. -/
theorem longest_upTo (count : Memory 10) (n : Nat) :
    let m := (List.range' 1 n).foldl (fun m l => if 0 < (count.read l).toNat then l else m) 0
    (∀ l, 1 ≤ l → l ≤ n → 0 < (count.read l).toNat → l ≤ m) ∧
      (m = 0 ∨ (1 ≤ m ∧ m ≤ n ∧ 0 < (count.read m).toNat)) := by
  induction n with
  | zero => exact ⟨fun l h1 h0 _ => by omega, .inl rfl⟩
  | succ n ih =>
    obtain ⟨hupper, hreached⟩ := ih
    rw [List.range'_1_concat, List.foldl_append, List.foldl_cons, List.foldl_nil, Nat.add_comm 1 n]
    split
    · rename_i hpos
      exact ⟨fun l _ hl _ => hl, .inr ⟨Nat.le_add_left 1 n, Nat.le_refl _, hpos⟩⟩
    · rename_i hzero
      refine ⟨fun l h1 hl hpos => ?_, hreached.imp id fun ⟨h1, hle, hpos⟩ =>
        ⟨h1, Nat.le_succ_of_le hle, hpos⟩⟩
      rcases Nat.lt_succ_iff_lt_or_eq.1 (Nat.lt_succ_of_le hl) with hlt | rfl
      · exact hupper l h1 (by omega) hpos
      · exact absurd hpos hzero

/-! ## BuildTable -/

/-- Some symbol has length `l` exactly when `l` is counted. -/
theorem countOf_pos {h : Huf} {l : Nat} : 0 < h.countOf l ↔ ∃ sym < h.nsym, h.lenOf sym = l := by
  simp [Huf.countOf, Huf.symbols, List.length_pos_iff_exists_mem]

/-- A table that BuildTable completes is the canonical one (R154, R155). -/
theorem canonical_of_assignLengths {h : Huf} {a : Assign} (hw : h.TablesWf)
    (hcw : h.count.wf = true) (hn : h.nsym ≤ HUF_NSYM_MAX) (hlegal : h.LengthsLegal)
    (ha : assignLengths codeLengths { code := 0, idx := 0, huf := h.withCounts } = .ok a) :
    ({ a.huf with ncodes := a.idx, lmax := a.huf.longest, hstate := .built } : Huf).Canonical := by
  have hdone : Assigned h (1 + HUF_MAXLEN) a :=
    (assigned_start h hw).lengths hcw hn HUF_MAXLEN (Nat.le_refl 1) (by omega) ha
  have hf := hdone.filling
  have hs : h.SameLengths { a.huf with ncodes := a.idx, lmax := a.huf.longest, hstate := .built } :=
    ⟨hf.frame.len, hf.frame.nsym⟩
  have hcount : ∀ l, 1 ≤ l → l ≤ HUF_MAXLEN → (a.huf.count.read l).toNat = h.countOf l := by
    intro l h1 hl
    rw [hf.frame.count]
    exact withCounts_count_read h hcw hn h1 hl
  have htreated : ∀ sym < h.nsym, 0 < h.lenOf sym → h.Treated (1 + HUF_MAXLEN) 0 sym :=
    fun sym hn h0 => ⟨hn, h0, .inl (by have := hlegal sym hn; omega)⟩
  obtain ⟨hupper, hreached⟩ := longest_upTo a.huf.count HUF_MAXLEN
  refine
    { lengthsLegal := fun sym hn => by rw [hs.lenOf]; exact hlegal sym (hs.nsym ▸ hn)
      notOversubscribed := fun l h1 hl => by
        rw [hs.firstCode, hs.countOf]; exact hdone.fits l h1 (by omega)
      count := fun l h1 hl => (hcount l h1 hl).trans (hs.countOf l).symm
      first := fun l h1 hl => (hdone.first l h1 (by omega)).trans (hs.firstCode l).symm
      base := fun l h1 hl => (hdone.base l h1 (by omega)).trans (hs.baseOf l).symm
      code := fun sym hn h0 => ?_
      sorted := fun sym hn h0 => ?_
      ncodes := ?_
      lmaxUpper := fun sym hn => ?_
      lmaxReached := ?_ }
  · rw [hs.canonicalCode]
    exact hf.codes sym (htreated sym (hs.nsym ▸ hn) (hs.lenOf sym ▸ h0))
  · rw [hs.lenOf, hs.baseOf, hs.rank]
    exact hf.sorted sym (htreated sym (hs.nsym ▸ hn) (hs.lenOf sym ▸ h0))
  · rw [hs.coded, length_coded hlegal, Nat.add_comm HUF_MAXLEN]
    exact hf.idx
  · rw [hs.lenOf]
    have hsym : sym < h.nsym := hs.nsym ▸ hn
    rcases Nat.eq_zero_or_pos (h.lenOf sym) with h0 | h0
    · rw [h0]; exact Nat.zero_le _
    · refine hupper _ h0 (hlegal sym hsym) ?_
      rw [hcount _ h0 (hlegal sym hsym)]
      exact countOf_pos.2 ⟨sym, hsym, rfl⟩
  · refine hreached.imp id fun ⟨h1, hle, hpos⟩ => ?_
    rw [hcount _ h1 hle] at hpos
    obtain ⟨sym, hsym, hlen⟩ := countOf_pos.1 hpos
    exact ⟨sym, hs.nsym.symm ▸ hsym, (hs.lenOf sym).trans hlen⟩

/-! ## The invariant of R28 -/

/-- R28 of the state's coder. -/
def State.HufInv (s : State) : Prop := s.huf.Inv

/-- Every memory of HUF is in canonical form. -/
def Huf.MemoriesWf (h : Huf) : Prop :=
  h.len.wf = true ∧ h.freq.wf = true ∧ h.count.wf = true ∧ h.first.wf = true ∧
    h.base.wf = true ∧ h.sorted.wf = true ∧ h.code.wf = true

/-- R28 in LOADING, where no table is claimed. -/
structure Huf.Loading (h : Huf) : Prop where
  memories : h.MemoriesWf
  nsymLe : h.nsym ≤ HUF_NSYM_MAX
  nfreqLe : h.nfreq ≤ HUF_NSYM_MAX
  hstate : h.hstate = .loading
  ncodes : h.ncodes = 0
  lmax : h.lmax = 0

section Coder
variable {h : Huf} {s : State}

theorem Huf.Loading.inv (hl : h.Loading) : h.Inv :=
  ⟨hl.memories, hl.nsymLe, hl.nfreqLe, fun _ => ⟨hl.ncodes, hl.lmax⟩,
    fun hb => by rw [hl.hstate] at hb; cases hb⟩

theorem Huf.Inv.loading (hi : h.Inv) (hl : h.hstate = .loading) : h.Loading :=
  ⟨hi.canonical, hi.nsymLe, hi.nfreqLe, hl, (hi.empty hl).1, (hi.empty hl).2⟩

/-- R28 reads neither DEFSYM nor HUF.ERR. -/
theorem Huf.Inv.of_eq {k : Huf} (hi : h.Inv) {e : Option FaultCode} {d : BitVec 16}
    (hk : k = { h with err := e, defsym := d }) : k.Inv := by
  subst hk
  exact ⟨hi.canonical, hi.nsymLe, hi.nfreqLe, hi.empty, fun hb =>
    (hi.table hb).of_eq ⟨rfl, rfl⟩ rfl rfl rfl rfl rfl rfl rfl⟩

theorem Huf.Inv.takeFault (hi : s.huf.Inv) (u v : CodecUnit) (c : FaultCode) :
    (s.takeFault u v c).huf.Inv :=
  hi.of_eq (takeFault_huf s u v c)

/-- The memories after AssignCodes, however it ends. -/
theorem BuildFrame.memoriesWf {k : Huf} (hf : BuildFrame h k) (hm : h.MemoriesWf)
    (ht : k.TablesWf) : k.MemoriesWf := by
  obtain ⟨hlen, hfreq, hcount, -⟩ := hm
  refine ⟨hf.len ▸ hlen, hf.freq ▸ hfreq, ?_, ht.first, ht.base, ht.sorted, ht.code⟩
  rw [hf.count]
  exact wf_foldl_write id (fun l => BitVec.ofNat 10 (h.countOf l)) codeLengths hcount

theorem Huf.MemoriesWf.tables (hm : h.MemoriesWf) : h.TablesWf := by
  obtain ⟨-, -, -, hfirst, hbase, hsorted, hcode⟩ := hm
  exact ⟨hfirst, hbase, hsorted, hcode⟩

/-- BuildTable in LOADING establishes R28: it completes the canonical table, or stays in LOADING. -/
theorem buildTable_keepsHuf (hl : s.huf.Loading) :
    (buildTable s).ends State.HufInv State.HufInv .huf := by
  have hcase := buildTable_cases s
  generalize buildTable s = r at hcase
  cases hcase with
  | tooLong => exact hl.inv.takeFault .huf .huf .hufLen
  | oversub k _ ha =>
    have hf := buildFrame_error ha
    have htables := tablesWf_error ha (withCounts_wf hl.memories.tables)
    have hk : k.Loading := ⟨hf.memoriesWf hl.memories htables, hf.nsym ▸ hl.nsymLe,
      hf.nfreq ▸ hl.nfreqLe, hf.hstate.trans hl.hstate, hf.ncodes.trans hl.ncodes,
      hf.lmax.trans hl.lmax⟩
    exact Huf.Inv.takeFault (s := { s with huf := k }) hk.inv .huf .huf .hufOversub
  | built a hlegal ha =>
    have hf := buildFrame_ok ha
    have htables := tablesWf_ok ha (withCounts_wf hl.memories.tables)
    obtain ⟨-, -, hcount, -⟩ := hl.memories
    exact ⟨hf.memoriesWf hl.memories htables, hf.nsym ▸ hl.nsymLe, hf.nfreq ▸ hl.nfreqLe,
      (fun hb => by cases hb), fun _ =>
        canonical_of_assignLengths hl.memories.tables hcount hl.nsymLe
          ((tooLong_eq_false _).1 hlegal) ha⟩

theorem wf_zeroLengths (hw : h.len.wf = true) : h.zeroLengths.len.wf = true :=
  wf_foldl_write id (fun _ => 0#8) (List.range h.nfreq) hw

/-- The lengths of HUF.MKENC are written in LOADING (R163, R164). -/
theorem Huf.Loading.zeroLengths (hl : h.Loading) : h.zeroLengths.Loading := by
  obtain ⟨hlen, hrest⟩ := hl.memories
  exact ⟨⟨wf_zeroLengths hlen, hrest⟩, hl.nfreqLe, hl.nfreqLe, hl.hstate, hl.ncodes, hl.lmax⟩

theorem Huf.Loading.writeDepths (hl : h.Loading) (ds : List (Nat × Nat)) :
    (h.writeDepths ds).Loading := by
  obtain ⟨hlen, hrest⟩ := hl.memories
  exact ⟨⟨wf_foldl_write Prod.fst (fun d => BitVec.ofNat 8 d.2) ds hlen, hrest⟩, hl.nsymLe,
    hl.nfreqLe, hl.hstate, hl.ncodes, hl.lmax⟩

theorem makeEncoder_keepsHuf (hl : s.huf.Loading) :
    (makeEncoder s).ends State.HufInv State.HufInv .huf := by
  have hbuild : ∀ k : Huf, k.Loading →
      ((buildTable { s with huf := k }).bind fun _ s => Res.ok s.huf.ncodes s).ends State.HufInv
        State.HufInv .huf :=
    fun k hk => ends_bind (buildTable_keepsHuf (s := { s with huf := k }) hk) fun _ _ _ ht => ht
  have hzero := hl.zeroLengths
  have hmerge : s.huf.mergeLengths.Loading := hzero.writeDepths _
  unfold makeEncoder
  split
  · exact hbuild _ ⟨hzero.memories, hzero.nsymLe, hzero.nfreqLe, hzero.hstate, hzero.ncodes,
      hzero.lmax⟩
  · split
    · exact Huf.Inv.takeFault (s := { s with huf := s.huf.mergeLengths }) hmerge.inv .huf .huf
        .hufLen
    · exact hbuild _ hmerge

/-- Reading and writing bits leave HUF alone, but for HUF.ERR when they fault. -/
theorem ends_of_huf_same {r : Res Nat} (hi : s.huf.Inv) (hm : r.moves (fun s t => t.huf = s.huf) s)
    (u : CodecUnit) : r.ends State.HufInv State.HufInv u := by
  cases r with
  | ok n t => exact Eq.subst (motive := Huf.Inv) hm.symm hi
  | faulted v c t => exact Huf.Inv.takeFault (Eq.subst (motive := Huf.Inv) hm.symm hi) u v c
  | waits d t => exact Eq.subst (motive := Huf.Inv) hm.symm hi

/-- A command of HUF that runs through `r` keeps R28. -/
theorem finish_keepsHuf {r : Res Nat} {u : CodecUnit} (h : r.ends State.HufInv State.HufInv u) :
    Keeps State.HufInv (r.finish u) :=
  keeps_finish h (fun _ _ h => h) (fun _ h => h) fun _ _ h => h

/-- HUF as HUF.CLEAR and SYS.RESET leave it is in LOADING (R151, R250). -/
theorem loading_cleared (hm : h.MemoriesWf) : h.cleared.Loading :=
  ⟨hm, Nat.zero_le _, Nat.zero_le _, rfl, rfl, rfl⟩

/-- The commands of HUF keep R28. -/
theorem exec_keepsHuf_of_huf {i : Instr} (hu : i.unit = .huf) (hi : s.huf.Inv) :
    Keeps State.HufInv (exec i s) := by
  have hans : ∀ r st, (s.answer r st).HufInv := fun _ _ => hi
  have hload : ¬s.huf.hstate ≠ .loading → s.huf.Loading := fun hn => hi.loading (not_not.1 hn)
  cases i with
  | hufClear =>
    rw [exec, execHufClear]
    exact keeps_next (loading_cleared hi.canonical).inv
  | hufPush len =>
    rw [exec, execHufPush]
    refine keeps_unlessSticky hans fun _ => keeps_rejectIf hans fun hn => keeps_rejectIf hans
      fun hfull => keeps_next ?_
    have hl := hload hn
    obtain ⟨hlen, hrest⟩ := hl.memories
    have hle := hl.nsymLe
    exact Huf.Loading.inv ⟨⟨wf_write hlen, hrest⟩, Nat.lt_of_le_of_ne hle hfull, hl.nfreqLe,
      hl.hstate, hl.ncodes, hl.lmax⟩
  | hufBuild =>
    rw [exec, execHufBuild]
    exact keeps_unlessSticky hans fun _ => keeps_rejectIf hans fun hn =>
      finish_keepsHuf (ends_bind (buildTable_keepsHuf (hload hn)) fun _ _ _ ht => ht)
  | hufGetsym =>
    rw [exec, execHufGetsym]
    exact keeps_unlessSticky hans fun _ => keeps_rejectIf hans fun _ => finish_keepsHuf
      (ends_of_huf_same hi (moves_mono (decodeSym_moves s) fun t ht => by rw [ht.rest]) _)
  | hufFpush freq =>
    rw [exec, execHufFpush]
    refine keeps_unlessSticky hans fun _ => keeps_rejectIf hans fun hn => keeps_rejectIf hans
      fun hfull => keeps_next ?_
    have hl := hload hn
    obtain ⟨hlen, hfreq, hrest⟩ := hl.memories
    exact Huf.Loading.inv ⟨⟨hlen, wf_write hfreq, hrest⟩, hl.nsymLe,
      Nat.lt_of_le_of_ne hl.nfreqLe hfull, hl.hstate, hl.ncodes, hl.lmax⟩
  | hufMkenc =>
    rw [exec, execHufMkenc]
    exact keeps_unlessSticky hans fun _ => keeps_rejectIf hans fun hn =>
      keeps_rejectIf hans fun _ => finish_keepsHuf (makeEncoder_keepsHuf (hload hn))
  | hufPutsym sym =>
    rw [exec, execHufPutsym]
    refine keeps_unlessSticky hans fun _ => keeps_rejectIf hans fun _ => ?_
    split
    · exact keeps_rejectIf hans fun _ => keeps_next (hans _ _)
    · exact keeps_rejectIf hans fun _ => finish_keepsHuf
        (ends_of_huf_same hi (moves_mono (putSym_moves _ s) fun t ht => by rw [ht.rest]) _)
  | hufSetdef sym =>
    rw [exec, execHufSetdef]
    exact keeps_unlessSticky hans fun _ => keeps_next (hi.of_eq rfl)
  | hufRdlen sym =>
    rw [exec, execHufRdlen]
    exact keeps_unlessSticky hans fun _ => keeps_rejectIf hans fun _ => keeps_rejectIf hans fun _ =>
      keeps_next (hans _ _)
  | _ => cases hu

/-- Every command keeps R28. -/
theorem exec_keepsHuf {i : Instr} (hi : s.huf.Inv) : Keeps State.HufInv (exec i s) := by
  by_cases hu : i.unit = .huf
  · exact exec_keepsHuf_of_huf hu hi
  · intro t ht
    by_cases hr : i = .sysReset
    · subst hr
      cases ht
      exact (loading_cleared hi.canonical).inv
    · obtain ⟨-, -, -, -, hhuf, -⟩ := commandsKeepToTheirUnits i s t ht
      exact Eq.subst (motive := Huf.Inv) (hhuf hu hr).symm hi

end Coder

/-- Settles O19: BUILT is entered by BuildTable alone, which completes the canonical table
(`canonical_of_assignLengths`), and left by HUF.CLEAR and SYS.RESET. -/
theorem huffmanInvariantIsKept : Obligations.HuffmanInvariantIsKept := by
  intro s t h hstep
  cases step_cases hstep with
  | stays => exact h
  | illegal => exact h
  | runs b rest i _ hw hc hd hexec => exact exec_keepsHuf (s := { s with cmds := rest }) h t hexec

end Sys2Proof.Machine

/-! PROOF. The streams along a command (R71, R74), a block that has nothing to do (R80, R236), and
the order in which the bits of a value travel (R67). -/

namespace Sys2Proof.Machine

/-! ## R71, R74 -/

/-- How far a command may take the streams: SRC forward, SNK and DOUT longer (R71, R74). -/
structure StreamsForward (s t : State) : Prop where
  content : t.src.content = s.src.content
  delivered : s.src.delivered <+: t.src.delivered
  ending : t.src.ending = s.src.ending
  accepted : s.snk.accepted <+: t.snk.accepted
  bytes : s.dout.bytes <+: t.dout.bytes

/-- A command that leaves the streams alone. -/
theorem StreamsForward.of_eq {s t : State} (hsrc : t.src = s.src) (hsnk : t.snk = s.snk)
    (hdout : t.dout = s.dout) : StreamsForward s t := by
  constructor <;> simp [hsrc, hsnk, hdout]

theorem CommandEffect.streamsForward {i : Instr} {s t : State} (h : CommandEffect i s t) :
    StreamsForward s t :=
  ⟨h.content, h.delivered, h.ending, h.accepted, h.bytes⟩

/-- Ending a command, by its value, by a fault or by waiting, leaves the streams alone. -/
theorem FinishCase.streamsForward {i : Instr} {s t : State} (h : FinishCase i s t) :
    StreamsForward s t := by
  cases h with
  | responds _ t ht | waits _ t ht =>
    obtain ⟨hc, hd, he, ha, hb⟩ := ht.streamsForward
    exact ⟨hc, hd, he, ha, hb⟩
  | faults v c t ht _ =>
    obtain ⟨hc, hd, he, ha, hb⟩ := ht.streamsForward
    constructor <;> simpa only [takeFault_src, takeFault_snk, takeFault_dout]

theorem exec_streamsForward {i : Instr} {s t : State} (h : exec i s = .next t) :
    StreamsForward s t := by
  have hcase := exec_cases i s
  rw [h] at hcase
  generalize ha : (Host.Outcome.next t : Answer) = a at hcase
  cases hcase with
  | answers | rejects | sticky | resets | initsReader | initsWriter | clearsHuf | setsHuf | initsLzd
  | initsLze => cases ha; exact .of_eq rfl rfl rfl
  | runs r _ hr => exact (hr.finish_cases ha.symm).streamsForward

/-- Settles O15: by the ways a command can end, `exec_cases`; only the primitives of a command touch
a stream, and they take it forward (`CommandEffect`). -/
theorem streamsAreSequential : Obligations.StreamsAreSequential := by
  intro i s t h
  obtain ⟨hc, hd, he, ha, hb⟩ := exec_streamsForward h
  exact ⟨hc, hd, he, ha, hb⟩

/-! ## R80, R236 -/

theorem step_of_waiting {s : State} (h : s.waiting ≠ none) : step s = .next s := by
  unfold step
  cases hw : s.waiting with
  | none => exact absurd hw h
  | some d => rfl

theorem step_of_no_beat {s : State} (h : s.cmds = []) : step s = .next s := by
  unfold step State.takeBeat
  rw [h]
  cases s.waiting <;> rfl

/-- A DOUT that takes no byte leaves PutByte waiting, with the byte in the window (R80, R185). -/
theorem putByte_blocked {s : State} (h : s.dout.takes 1 = false) (b : Byte) :
    putByte b s = .waits .dout { s with lzd := s.lzd.insert b } := by
  have hcase := putByte_cases b s
  generalize putByte b s = r at hcase
  cases hcase with
  | taken ht => rw [h] at ht; cases ht
  | blocked => rfl

/-- LZD.LIT in READY, with no sticky error, is one PutByte (R192). -/
theorem exec_lzdLit_ready {s : State} (b : Byte) (he : s.lzd.err = none)
    (hd : s.lzd.dstate = .ready) :
    exec (.lzdLit b) s = ((putByte b s).bind fun _ s => Res.ok 1 s).finish .lzd := by
  rw [exec, execLzdLit, unlessSticky_none (u := .lzd) he, if_neg (not_not.2 hd)]

/-- Settles O2: a step looks at `waiting` and at the port before anything else, and LZD.LIT is one
PutByte, which here waits. -/
theorem idleOrWaitingBlockKeepsItsState : Obligations.IdleOrWaitingBlockKeepsItsState := by
  refine ⟨fun s h => h.elim step_of_waiting step_of_no_beat, fun s b he hd hroom => ?_⟩
  rw [exec_lzdLit_ready b he hd, putByte_blocked hroom]
  rfl

/-! ## R67 -/

@[simp] theorem length_bitsOf (mode : BitOrder) (n v : Nat) : (bitsOf mode n v).length = n := by
  cases mode <;> simp [bitsOf]

/-- A byte travels as the value of eight bits that it is. -/
theorem byteBits_eq_bitsOf (mode : BitOrder) (b : Byte) :
    byteBits mode b = bitsOf mode 8 b.toNat := by
  cases mode with
  | msb =>
    rw [byteBits, bitsOf]
    refine List.map_congr_left fun k hk => ?_
    simp [streamBit, BitVec.getMsbD, BitVec.testBit_toNat, List.mem_range.1 hk]
  | lsb => exact List.map_congr_left fun k _ => (BitVec.testBit_toNat b).symm

/-! ### LSB-first -/

theorem packLsb_lt (bs : List Bool) : packLsb bs < 2 ^ bs.length := by
  induction bs with
  | nil => exact Nat.one_pos
  | cons b bs ih =>
    have hb := Bool.toNat_le b
    rw [packLsb, List.length_cons, Nat.pow_succ]
    omega

theorem testBit_packLsb (bs : List Bool) (k : Nat) :
    (packLsb bs).testBit k = bs.getD k false := by
  induction bs generalizing k with
  | nil => simp [packLsb]
  | cons b bs ih =>
    cases k with
    | zero => cases b <;> simp [packLsb, Nat.add_mod]
    | succ k =>
      have hhalf : packLsb (b :: bs) / 2 = packLsb bs := by
        have hb := Bool.toNat_lt b
        rw [packLsb]
        omega
      rw [Nat.testBit_succ, hhalf, ih, List.getD_cons_succ]

theorem packLsb_eq_foldr (bs : List Bool) :
    packLsb bs = bs.foldr (fun b v => 2 * v + b.toNat) 0 := by
  induction bs with
  | nil => rfl
  | cons b bs ih => rw [packLsb, ih, List.foldr_cons, Nat.add_comm]

theorem packLsb_append (as bs : List Bool) :
    packLsb (as ++ bs) = packLsb as + 2 ^ as.length * packLsb bs := by
  induction as with
  | nil => simp [packLsb]
  | cons a as ih =>
    rw [List.cons_append, packLsb, packLsb, ih, List.length_cons]
    ring

theorem getD_bitsOf_lsb (n v k : Nat) :
    (bitsOf .lsb n v).getD k false = (decide (k < n) && v.testBit k) := by
  by_cases hk : k < n <;> simp [bitsOf, hk]

theorem packLsb_bitsOf (n v : Nat) : packLsb (bitsOf .lsb n v) = v % 2 ^ n := by
  refine Nat.eq_of_testBit_eq fun k => ?_
  rw [testBit_packLsb, getD_bitsOf_lsb, Nat.testBit_mod_two_pow]

theorem bitsOf_packLsb (bs : List Bool) : bitsOf .lsb bs.length (packLsb bs) = bs := by
  refine List.ext_getElem (length_bitsOf ..) fun k _ hk => ?_
  simp [bitsOf, testBit_packLsb, hk]

theorem packLsb_bytesBits (bytes : List Byte) :
    packLsb (bytesBits .lsb bytes) = bytes.foldr (fun b v => b.toNat + 256 * v) 0 := by
  induction bytes with
  | nil => rfl
  | cons b bytes ih =>
    rw [bytesBits_cons, packLsb_append, ih, length_byteBits, byteBits_eq_bitsOf, packLsb_bitsOf,
      Nat.mod_eq_of_lt b.isLt, List.foldr_cons]
    rfl

/-! ### MSB-first is LSB-first read backwards -/

theorem packMsb_eq_packLsb_reverse (bs : List Bool) : packMsb bs = packLsb bs.reverse := by
  rw [packLsb_eq_foldr, List.foldr_reverse]
  rfl

theorem bitsOf_msb_eq_reverse (n v : Nat) : bitsOf .msb n v = (bitsOf .lsb n v).reverse := by
  refine List.ext_getElem (by simp) fun k _ _ => ?_
  simp [bitsOf]

theorem bytesBits_msb_eq_reverse (bytes : List Byte) :
    bytesBits .msb bytes = (bytesBits .lsb bytes.reverse).reverse := by
  induction bytes with
  | nil => rfl
  | cons b bytes ih =>
    simp [ih, byteBits_eq_bitsOf, bitsOf_msb_eq_reverse]

theorem testBit_packMsb {bs : List Bool} {k : Nat} (hk : k < bs.length) :
    (packMsb bs).testBit (bs.length - 1 - k) = bs.getD k false := by
  rw [packMsb_eq_packLsb_reverse, testBit_packLsb, List.getD_reverse _ (by omega)]
  congr 1
  omega

/-! ### Both modes -/

theorem packBits_lt (mode : BitOrder) (bs : List Bool) : packBits mode bs < 2 ^ bs.length := by
  cases mode with
  | msb =>
    rw [packBits, packMsb_eq_packLsb_reverse, ← List.length_reverse]
    exact packLsb_lt _
  | lsb => exact packLsb_lt bs

/-- What is written is read back, as far as n bits hold it. -/
theorem packBits_bitsOf (mode : BitOrder) (n v : Nat) :
    packBits mode (bitsOf mode n v) = v % 2 ^ n := by
  cases mode with
  | msb =>
    rw [packBits, packMsb_eq_packLsb_reverse, bitsOf_msb_eq_reverse, List.reverse_reverse,
      packLsb_bitsOf]
  | lsb => exact packLsb_bitsOf n v

/-- The writer gives back the bits that the reader has packed. -/
theorem bitsOf_packBits (mode : BitOrder) (bs : List Bool) :
    bitsOf mode bs.length (packBits mode bs) = bs := by
  cases mode with
  | msb =>
    rw [packBits, packMsb_eq_packLsb_reverse, bitsOf_msb_eq_reverse, ← List.length_reverse,
      bitsOf_packLsb, List.reverse_reverse]
  | lsb => exact bitsOf_packLsb bs

/-- Whole bytes are read big-endian in MSB-first mode. -/
theorem packMsb_bytesBits (bytes : List Byte) :
    packMsb (bytesBits .msb bytes) = bytes.foldl (fun v b => 256 * v + b.toNat) 0 := by
  rw [packMsb_eq_packLsb_reverse, bytesBits_msb_eq_reverse, List.reverse_reverse, packLsb_bytesBits,
    List.foldr_reverse]
  simp only [Nat.add_comm]

/-- Settles O26: by induction on the bits and the bytes in LSB-first mode, of which MSB-first mode is
the reverse (`packMsb_eq_packLsb_reverse`, `bitsOf_msb_eq_reverse`). -/
theorem valuesFollowTheBitOrder : Obligations.ValuesFollowTheBitOrder :=
  ⟨fun bs k hk => ⟨testBit_packMsb hk, testBit_packLsb bs k⟩, packBits_lt,
    fun mode n v => ⟨length_bitsOf mode n v, packBits_bitsOf mode n v⟩, bitsOf_packBits,
    fun bytes => ⟨packMsb_bytesBits bytes, packLsb_bytesBits bytes⟩⟩

end Sys2Proof.Machine

/-! PROOF. The fields of a beat (R91), and that the decoder undoes the encoder (R95, R96, R102). -/

namespace Sys2Proof

open Laws

/-! ## Fields (R91) -/

theorem unitField_append (unit op : BitVec 4) (imm : BitVec 24) :
    unitField (unit ++ op ++ imm) = unit := by
  unfold unitField
  rw [BitVec.extractLsb'_append_eq_of_le (by decide)]
  exact BitVec.extractLsb'_append_eq_left

theorem opField_append (unit op : BitVec 4) (imm : BitVec 24) :
    opField (unit ++ op ++ imm) = op := by
  unfold opField
  rw [BitVec.extractLsb'_append_eq_of_le (by decide)]
  exact BitVec.extractLsb'_append_eq_right

theorem immField_append (unit op : BitVec 4) (imm : BitVec 24) :
    immField (unit ++ op ++ imm) = imm :=
  BitVec.extractLsb'_append_eq_right

/-- CMD is its three fields (R91). -/
theorem append_fields (c : Word) : unitField c ++ opField c ++ immField c = c := by
  have hunitop : unitField c ++ opField c = c.extractLsb' 24 8 :=
    BitVec.extractLsb'_append_extractLsb'_eq_extractLsb' rfl
  have hall : c.extractLsb' 24 8 ++ immField c = c.extractLsb' 0 32 :=
    BitVec.extractLsb'_append_extractLsb'_eq_extractLsb' rfl
  rw [hunitop, hall, BitVec.extractLsb'_eq_self]

/-- A beat is its four fields (R90, R91). -/
theorem beatOf_fields (b : Beat) :
    beatOf (unitField (cmdOf b)) (opField (cmdOf b)) (immField (cmdOf b)) (argOf b) = b := by
  have hb : argOf b ++ cmdOf b = b.extractLsb' 0 64 :=
    BitVec.extractLsb'_append_extractLsb'_eq_extractLsb' rfl
  rw [beatOf, append_fields, hb]
  exact BitVec.extractLsb'_eq_self

/-- Two beats with the same CMD and the same ARG are one beat (R90). -/
theorem beat_ext {b b' : Beat} (hcmd : cmdOf b = cmdOf b') (harg : argOf b = argOf b') :
    b = b' := by
  rw [← beatOf_fields b, ← beatOf_fields b', hcmd, harg]

/-! ## The unit of a beat (R94) -/

section Units
variable (op : BitVec 4) (imm : BitVec 24) (arg : Word)

theorem decode_sys : decode (beatOf 0 op imm arg) = decodeSys op.toNat imm := by
  rw [decode, cmdOf_beatOf, unitField_append, opField_append, immField_append]; rfl

theorem decode_br : decode (beatOf 1 op imm arg) = decodeBr op.toNat imm := by
  rw [decode, cmdOf_beatOf, unitField_append, opField_append, immField_append]; rfl

theorem decode_bw : decode (beatOf 2 op imm arg) = decodeBw op.toNat imm arg := by
  rw [decode, cmdOf_beatOf, argOf_beatOf, unitField_append, opField_append, immField_append]; rfl

theorem decode_huf : decode (beatOf 3 op imm arg) = decodeHuf op.toNat imm arg := by
  rw [decode, cmdOf_beatOf, argOf_beatOf, unitField_append, opField_append, immField_append]; rfl

theorem decode_lzd : decode (beatOf 4 op imm arg) = decodeLzd op.toNat imm arg := by
  rw [decode, cmdOf_beatOf, argOf_beatOf, unitField_append, opField_append, immField_append]; rfl

theorem decode_lze : decode (beatOf 5 op imm arg) = decodeLze op.toNat imm arg := by
  rw [decode, cmdOf_beatOf, argOf_beatOf, unitField_append, opField_append, immField_append]; rfl

end Units

/-! ## Operands (R96) -/

section Operands
variable {k m : Nat}

/-- The must-be-zero check passes exactly when the bits it checks are zero (R92). -/
theorem needZero_eq_ok {high : BitVec k} {i j : Instr} :
    needZero high i = .ok j ↔ high = 0#k ∧ i = j := by
  unfold needZero
  split <;> simp_all

/-- An operand in the low bits of IMM, zeros above it, is read back (R92, R96). -/
theorem needZero_operand (x : BitVec k) (f : BitVec k → Instr) :
    needZero ((0#m ++ x).extractLsb' k m) (f ((0#m ++ x).extractLsb' 0 k)) = .ok (f x) := by
  rw [BitVec.extractLsb'_append_eq_left, BitVec.extractLsb'_append_eq_right]
  exact needZero_eq_ok.mpr ⟨rfl, rfl⟩

/-- The fields of IMM of an LZD.INIT or an LZE.INIT: the zeros, lb, ob and wb (R96). -/
theorem extract_cfgImm (wb ob lb : BitVec 5) :
    (cfgImm wb ob lb).extractLsb' 15 9 = 0#9 ∧ (cfgImm wb ob lb).extractLsb' 10 5 = lb ∧
      (cfgImm wb ob lb).extractLsb' 5 5 = ob ∧ (cfgImm wb ob lb).extractLsb' 0 5 = wb := by
  unfold cfgImm
  refine ⟨?zeros, ?lb, ?ob, BitVec.extractLsb'_append_eq_right⟩
  case ob =>
    rw [BitVec.extractLsb'_append_eq_of_le (by decide)]
    exact BitVec.extractLsb'_append_eq_right
  case lb =>
    rw [BitVec.extractLsb'_append_eq_of_le (by decide),
      BitVec.extractLsb'_append_eq_of_le (by decide)]
    exact BitVec.extractLsb'_append_eq_right
  case zeros =>
    rw [BitVec.extractLsb'_append_eq_of_le (by decide),
      BitVec.extractLsb'_append_eq_of_le (by decide)]
    exact BitVec.extractLsb'_append_eq_left

/-- The configuration of an LZD.INIT or an LZE.INIT is read back from its beat (R96). -/
theorem needZero_config (f : BitVec 5 → BitVec 5 → BitVec 5 → BitVec 16 → BitVec 16 → Instr)
    (wb ob lb : BitVec 5) (min max : BitVec 16) :
    needZero ((cfgImm wb ob lb).extractLsb' 15 9)
      (f ((cfgImm wb ob lb).extractLsb' 0 5) ((cfgImm wb ob lb).extractLsb' 5 5)
        ((cfgImm wb ob lb).extractLsb' 10 5)
        ((max ++ min : Word).extractLsb' 0 16) ((max ++ min : Word).extractLsb' 16 16)) =
      .ok (f wb ob lb min max) := by
  obtain ⟨hzeros, hlb, hob, hwb⟩ := extract_cfgImm wb ob lb
  rw [hzeros, hlb, hob, hwb, BitVec.extractLsb'_append_eq_left, BitVec.extractLsb'_append_eq_right]
  exact needZero_eq_ok.mpr ⟨rfl, rfl⟩

/-- The offset and the length of a reference are read back from ARG (R96). -/
theorem needZero_reference (f : BitVec 16 → BitVec 16 → Instr) (off len : BitVec 16) :
    needZero 0#24
      (f ((len ++ off : Word).extractLsb' 0 16) ((len ++ off : Word).extractLsb' 16 16)) =
      .ok (f off len) := by
  rw [BitVec.extractLsb'_append_eq_left, BitVec.extractLsb'_append_eq_right]
  exact needZero_eq_ok.mpr ⟨rfl, rfl⟩

end Operands

theorem decode_encode (i : Instr) : decode (encode i) = .ok i := by
  cases i with
  | sysNop | sysReset | brGetbit | bwFlush | hufClear | hufBuild | hufGetsym | hufMkenc | lzdStep
  | lzeFlush => rfl
  | brInit mode | bwInit mode => cases mode <;> rfl
  | bwPutbit b => cases b <;> rfl
  | sysRdsr r => exact (decode_sys ..).trans (needZero_operand r .sysRdsr)
  | brRead n => exact (decode_br ..).trans (needZero_operand n .brRead)
  | bwWrite n v => exact (decode_bw ..).trans (needZero_operand n (.bwWrite · v))
  | hufPush len => exact (decode_huf ..).trans (needZero_operand len .hufPush)
  | hufPutsym sym => exact (decode_huf ..).trans (needZero_operand sym .hufPutsym)
  | hufSetdef sym => exact (decode_huf ..).trans (needZero_operand sym .hufSetdef)
  | hufRdlen sym => exact (decode_huf ..).trans (needZero_operand sym .hufRdlen)
  | hufFpush freq => exact (decode_huf ..).trans (needZero_eq_ok.mpr ⟨rfl, rfl⟩)
  | lzdInit wb ob lb min max =>
    exact (decode_lzd ..).trans (needZero_config .lzdInit wb ob lb min max)
  | lzdLit b => exact (decode_lzd ..).trans (needZero_operand b .lzdLit)
  | lzdRef off len => exact (decode_lzd ..).trans (needZero_reference .lzdRef off len)
  | lzdRun n => exact (decode_lzd ..).trans (needZero_eq_ok.mpr ⟨rfl, rfl⟩)
  | lzeInit wb ob lb min max =>
    exact (decode_lze ..).trans (needZero_config .lzeInit wb ob lb min max)
  | lzeLit b => exact (decode_lze ..).trans (needZero_operand b .lzeLit)
  | lzeRef off len => exact (decode_lze ..).trans (needZero_reference .lzeRef off len)

/-- Settles O4: row by row, each operand is read back from where its format puts it. -/
theorem decodeEncodeRoundTrip : Obligations.DecodeEncodeRoundTrip := decode_encode

/-! ## From a beat to its command and back (R92, R96, R99) -/

/-- The part of ARG a command reads: none in the formats N and I (R99). -/
def Instr.argRead (i : Instr) (arg : Word) : Word :=
  if i.row.format = .n ∨ i.row.format = .i then 0#32 else arg

/-- The low bits of IMM under zeros are all of IMM, when the bits above them are zero (R92). -/
theorem zero_append_low {k m : Nat} {x : BitVec (m + k)} (h : x.extractLsb' k m = 0#m) :
    0#m ++ x.extractLsb' 0 k = x := by
  rw [← h, BitVec.extractLsb'_append_extractLsb'_eq_extractLsb' (Nat.zero_add k).symm,
    BitVec.extractLsb'_eq_self]

/-- IMM of a BR.INIT or a BW.INIT is its mode operand (R130, R137). -/
theorem mode_low {imm : BitVec 24} (h : imm.extractLsb' 1 23 = 0#23) :
    0#23 ++ bitOfMode (modeOfBit (imm.extractLsb' 0 1)) = imm := by
  have hmode : ∀ b : BitVec 1, bitOfMode (modeOfBit b) = b := by decide
  rw [hmode]
  exact zero_append_low h

/-- IMM of a BW.PUTBIT is its bit operand (R142). -/
theorem bit_low {imm : BitVec 24} (h : imm.extractLsb' 1 23 = 0#23) :
    0#23 ++ BitVec.ofBool (imm.getLsbD 0) = imm := by
  have hbit : BitVec.ofBool (imm.getLsbD 0) = imm.extractLsb' 0 1 := by
    ext k hk
    simp [Nat.lt_one_iff.mp hk]
  rw [hbit]
  exact zero_append_low h

/-- IMM of an LZD.INIT or an LZE.INIT is its three operands (R96). -/
theorem cfgImm_extract {imm : BitVec 24} (h : imm.extractLsb' 15 9 = 0#9) :
    cfgImm (imm.extractLsb' 0 5) (imm.extractLsb' 5 5) (imm.extractLsb' 10 5) = imm := by
  have hlb : 0#9 ++ imm.extractLsb' 10 5 = imm.extractLsb' 10 14 :=
    h ▸ BitVec.extractLsb'_append_extractLsb'_eq_extractLsb' rfl
  have hob : imm.extractLsb' 10 14 ++ imm.extractLsb' 5 5 = imm.extractLsb' 5 19 :=
    BitVec.extractLsb'_append_extractLsb'_eq_extractLsb' rfl
  have hwb : imm.extractLsb' 5 19 ++ imm.extractLsb' 0 5 = imm.extractLsb' 0 24 :=
    BitVec.extractLsb'_append_extractLsb'_eq_extractLsb' rfl
  rw [cfgImm, hlb, hob, hwb, BitVec.extractLsb'_eq_self]

/-- ARG is its two 16-bit operands (R96). -/
theorem halves_append (arg : Word) : arg.extractLsb' 16 16 ++ arg.extractLsb' 0 16 = arg := by
  have h : arg.extractLsb' 16 16 ++ arg.extractLsb' 0 16 = arg.extractLsb' 0 32 :=
    BitVec.extractLsb'_append_extractLsb'_eq_extractLsb' rfl
  rw [h, BitVec.extractLsb'_eq_self]

section Inversion
variable {op : Nat} {imm : BitVec 24} {arg : Word} {i : Instr}

/-- A row whose command is encoded by the beat, once the must-be-zero bits are zero, answers such a
command only. -/
theorem encode_of_needZero {k : Nat} {high : BitVec k} {j : Instr} {unit op : BitVec 4}
    (h : needZero high j = .ok i)
    (hj : high = 0#k → encode j = beatOf unit op imm (j.argRead arg)) :
    encode i = beatOf unit op imm (i.argRead arg) := by
  obtain ⟨hzero, rfl⟩ := needZero_eq_ok.mp h
  exact hj hzero

theorem encode_of_decodeSys (h : decodeSys op imm = .ok i) :
    encode i = beatOf 0 (.ofNat 4 op) imm (i.argRead arg) :=
  match op, h with
  | 0, h | 1, h => encode_of_needZero h fun hz => congrArg (beatOf 0 _ · 0) hz.symm
  | 2, h => encode_of_needZero h fun hz => congrArg (beatOf 0 2 · 0) (zero_append_low hz)

theorem encode_of_decodeBr (h : decodeBr op imm = .ok i) :
    encode i = beatOf 1 (.ofNat 4 op) imm (i.argRead arg) :=
  match op, h with
  | 0, h => encode_of_needZero h fun hz => congrArg (beatOf 1 0 · 0) (mode_low hz)
  | 1, h => encode_of_needZero h fun hz => congrArg (beatOf 1 1 · 0) hz.symm
  | 2, h => encode_of_needZero h fun hz => congrArg (beatOf 1 2 · 0) (zero_append_low hz)

theorem encode_of_decodeBw (h : decodeBw op imm arg = .ok i) :
    encode i = beatOf 2 (.ofNat 4 op) imm (i.argRead arg) :=
  match op, h with
  | 0, h => encode_of_needZero h fun hz => congrArg (beatOf 2 0 · 0) (mode_low hz)
  | 1, h => encode_of_needZero h fun hz => congrArg (beatOf 2 1 · 0) (bit_low hz)
  | 2, h => encode_of_needZero h fun hz => congrArg (beatOf 2 2 · arg) (zero_append_low hz)
  | 3, h => encode_of_needZero h fun hz => congrArg (beatOf 2 3 · 0) hz.symm

theorem encode_of_decodeHuf (h : decodeHuf op imm arg = .ok i) :
    encode i = beatOf 3 (.ofNat 4 op) imm (i.argRead arg) :=
  match op, h with
  | 0, h | 2, h | 3, h | 5, h => encode_of_needZero h fun hz => congrArg (beatOf 3 _ · 0) hz.symm
  | 1, h => encode_of_needZero h fun hz => congrArg (beatOf 3 1 · 0) (zero_append_low hz)
  | 4, h => encode_of_needZero h fun hz => congrArg (beatOf 3 4 · arg) hz.symm
  | 6, h | 7, h | 8, h =>
    encode_of_needZero h fun hz => congrArg (beatOf 3 _ · 0) (zero_append_low hz)

theorem encode_of_decodeLzd (h : decodeLzd op imm arg = .ok i) :
    encode i = beatOf 4 (.ofNat 4 op) imm (i.argRead arg) :=
  match op, h with
  | 0, h =>
    encode_of_needZero h fun hz => congrArg₂ (beatOf 4 0) (cfgImm_extract hz) (halves_append arg)
  | 1, h => encode_of_needZero h fun hz => congrArg (beatOf 4 1 · 0) (zero_append_low hz)
  | 2, h => encode_of_needZero h fun hz => congrArg₂ (beatOf 4 2) hz.symm (halves_append arg)
  | 3, h => encode_of_needZero h fun hz => congrArg (beatOf 4 3 · 0) hz.symm
  | 4, h => encode_of_needZero h fun hz => congrArg (beatOf 4 4 · arg) hz.symm

theorem encode_of_decodeLze (h : decodeLze op imm arg = .ok i) :
    encode i = beatOf 5 (.ofNat 4 op) imm (i.argRead arg) :=
  match op, h with
  | 0, h =>
    encode_of_needZero h fun hz => congrArg₂ (beatOf 5 0) (cfgImm_extract hz) (halves_append arg)
  | 1, h => encode_of_needZero h fun hz => congrArg (beatOf 5 1 · 0) (zero_append_low hz)
  | 2, h => encode_of_needZero h fun hz => congrArg₂ (beatOf 5 2) hz.symm (halves_append arg)
  | 3, h => encode_of_needZero h fun hz => congrArg (beatOf 5 3 · 0) hz.symm

end Inversion

/-- A beat's command is encoded by the beat itself, but for an ARG the command does not read. -/
theorem encode_of_decode {b : Beat} {i : Instr} (h : decode b = .ok i) :
    encode i = beatOf (unitField (cmdOf b)) (opField (cmdOf b)) (immField (cmdOf b))
      (i.argRead (argOf b)) := by
  unfold decode at h
  have hself : ∀ x : BitVec 4, x = BitVec.ofNat 4 x.toNat := by decide
  rw [hself (unitField (cmdOf b)), hself (opField (cmdOf b))]
  generalize (unitField (cmdOf b)).toNat = unit at h ⊢
  exact match unit, h with
    | 0, h => encode_of_decodeSys h
    | 1, h => encode_of_decodeBr h
    | 2, h => encode_of_decodeBw h
    | 3, h => encode_of_decodeHuf h
    | 4, h => encode_of_decodeLzd h
    | 5, h => encode_of_decodeLze h

theorem cmdOf_encode {b : Beat} {i : Instr} (h : decode b = .ok i) :
    cmdOf (encode i) = cmdOf b := by
  rw [encode_of_decode h, cmdOf_beatOf, append_fields]

theorem argOf_encode {b : Beat} {i : Instr} (h : decode b = .ok i) :
    argOf (encode i) = i.argRead (argOf b) := by
  rw [encode_of_decode h, argOf_beatOf]

/-- Settles O5: row by row, each operand is put back where it was read from (`encode_of_decode`). -/
theorem encodeDecodeRoundTrip : Obligations.EncodeDecodeRoundTrip :=
  fun _ _ h => ⟨cmdOf_encode h, argOf_encode h⟩

end Sys2Proof

/-! PROOF. The decoder follows the opcode map (R95, R97, R98): which beats are legal, the row each
of them selects, and what a step makes of a beat. -/

namespace Sys2Proof

open Laws

/-! ## Rows (R95) -/

/-- Every row fixes UNIT and OP, and its pattern has no IMM bit (R95). -/
theorem row_fields : ∀ r ∈ opcodeMap, unitField r.mask = .allOnes 4 ∧ opField r.mask = .allOnes 4 ∧
    immField r.pattern = 0#24 := by decide

/-- A row selects a CMD that has its UNIT and its OP and zeros where the row demands them (R92,
R95). -/
theorem selects_iff {r : OpcodeRow} (hr : r ∈ opcodeMap) (c : Word) :
    r.selects c = true ↔ unitField c = unitField r.pattern ∧ opField c = opField r.pattern ∧
      immField c &&& immField r.mask = 0#24 := by
  obtain ⟨hunit, hop, himm⟩ := row_fields r hr
  have hu : unitField (c &&& r.mask) = unitField c := by
    rw [unitField, BitVec.extractLsb'_and, ← unitField, ← unitField, hunit, BitVec.and_allOnes]
  have ho : opField (c &&& r.mask) = opField c := by
    rw [opField, BitVec.extractLsb'_and, ← opField, ← opField, hop, BitVec.and_allOnes]
  have hi : immField (c &&& r.mask) = immField c &&& immField r.mask := BitVec.extractLsb'_and
  rw [OpcodeRow.selects, beq_iff_eq, ← hu, ← ho, ← hi]
  constructor
  · intro h
    simp [h, himm]
  · rintro ⟨hunit', hop', himm'⟩
    rw [← append_fields (c &&& r.mask), ← append_fields r.pattern, hunit', hop', himm', himm]

/-- UNIT and OP tell the rows apart (R95). -/
theorem row_ext {r r' : OpcodeRow} (hr : r ∈ opcodeMap) (hr' : r' ∈ opcodeMap)
    (hunit : unitField r.pattern = unitField r'.pattern)
    (hop : opField r.pattern = opField r'.pattern) : r = r' := by
  have hnodup : (opcodeMap.map fun r => (unitField r.pattern, opField r.pattern)).Nodup := by decide
  exact List.inj_on_of_nodup_map hnodup hr hr' (Prod.ext hunit hop)

/-- At most one row selects a CMD (R95, R98). -/
theorem row_unique {c : Word} {r r' : OpcodeRow} (hr : r ∈ opcodeMap) (hr' : r' ∈ opcodeMap)
    (h : r.selects c = true) (h' : r'.selects c = true) : r = r' := by
  obtain ⟨hunit, hop, -⟩ := (selects_iff hr c).mp h
  obtain ⟨hunit', hop', -⟩ := (selects_iff hr' c).mp h'
  exact row_ext hr hr' (hunit.symm.trans hunit') (hop.symm.trans hop')

theorem row_mem (i : Instr) : i.row ∈ opcodeMap := by
  have hlt : i.rowIndex < 28 := by cases i <;> simp [Instr.rowIndex]
  rw [Instr.row, List.getD_eq_getElem _ _ hlt]
  exact List.getElem_mem hlt

theorem row_selects_encode (i : Instr) : i.row.selects (cmdOf (encode i)) = true := by
  cases i with
  | sysNop => exact EncodeSelectsRow.sysNop
  | sysReset => exact EncodeSelectsRow.sysReset
  | sysRdsr r => exact EncodeSelectsRow.sysRdsr r
  | brInit mode => exact EncodeSelectsRow.brInit mode
  | brGetbit => exact EncodeSelectsRow.brGetbit
  | brRead n => exact EncodeSelectsRow.brRead n
  | bwInit mode => exact EncodeSelectsRow.bwInit mode
  | bwPutbit b => exact EncodeSelectsRow.bwPutbit b
  | bwWrite n v => exact EncodeSelectsRow.bwWrite n v
  | bwFlush => exact EncodeSelectsRow.bwFlush
  | hufClear => exact EncodeSelectsRow.hufClear
  | hufPush len => exact EncodeSelectsRow.hufPush len
  | hufBuild => exact EncodeSelectsRow.hufBuild
  | hufGetsym => exact EncodeSelectsRow.hufGetsym
  | hufFpush freq => exact EncodeSelectsRow.hufFpush freq
  | hufMkenc => exact EncodeSelectsRow.hufMkenc
  | hufPutsym sym => exact EncodeSelectsRow.hufPutsym sym
  | hufSetdef sym => exact EncodeSelectsRow.hufSetdef sym
  | hufRdlen sym => exact EncodeSelectsRow.hufRdlen sym
  | lzdInit wb ob lb min max => exact EncodeSelectsRow.lzdInit wb ob lb min max
  | lzdLit b => exact EncodeSelectsRow.lzdLit b
  | lzdRef off len => exact EncodeSelectsRow.lzdRef off len
  | lzdStep => exact EncodeSelectsRow.lzdStep
  | lzdRun n => exact EncodeSelectsRow.lzdRun n
  | lzeInit wb ob lb min max => exact EncodeSelectsRow.lzeInit wb ob lb min max
  | lzeLit b => exact EncodeSelectsRow.lzeLit b
  | lzeRef off len => exact EncodeSelectsRow.lzeRef off len
  | lzeFlush => exact EncodeSelectsRow.lzeFlush

/-- The decoder answers a command of the row that the beat selects (R98). -/
theorem row_selects_of_decode {b : Beat} {i : Instr} (h : decode b = .ok i) :
    i.row.selects (cmdOf b) = true :=
  cmdOf_encode h ▸ row_selects_encode i

/-! ## Legality (R97, R98) -/

/-- A row whose mask keeps the bits from `k` up asks for zeros there (R92). -/
theorem extract_high_eq_zero {m k : Nat} {x : BitVec (m + k)}
    (h : x &&& (BitVec.allOnes m ++ 0#k) = 0#(m + k)) : x.extractLsb' k m = 0#m := by
  have hhigh := congrArg (BitVec.extractLsb' k m) h
  rwa [BitVec.extractLsb'_and, BitVec.extractLsb'_append_eq_left, BitVec.and_allOnes,
    BitVec.extractLsb'_zero] at hhigh

/-- The rows one by one: zeros where the mask demands them are all the decoder checks of IMM. -/
theorem decode_ok_of_zeros (imm : BitVec 24) (arg : Word) : ∀ r ∈ opcodeMap,
    imm &&& immField r.mask = 0#24 →
      ∃ i, decode (beatOf (unitField r.pattern) (opField r.pattern) imm arg) = .ok i := by
  have whole {b : Beat} {i : Instr} (hd : decode b = needZero imm i)
      (hz : imm &&& BitVec.allOnes 24 = 0#24) : ∃ j, decode b = .ok j :=
    ⟨i, hd.trans (needZero_eq_ok.mpr ⟨BitVec.and_allOnes.symm.trans hz, rfl⟩)⟩
  have low (m k : Nat) {x : BitVec (m + k)} {b : Beat} {i : Instr}
      (hd : decode b = needZero (x.extractLsb' k m) i)
      (hz : x &&& (BitVec.allOnes m ++ 0#k) = 0#(m + k)) : ∃ j, decode b = .ok j :=
    ⟨i, hd.trans (needZero_eq_ok.mpr ⟨extract_high_eq_zero hz, rfl⟩)⟩
  simp only [opcodeMap, List.forall_mem_cons]
  exact ⟨
    whole (decode_sys ..), whole (decode_sys ..), low 16 8 (decode_sys ..),
    low 23 1 (decode_br ..), whole (decode_br ..), low 18 6 (decode_br ..),
    low 23 1 (decode_bw ..), low 23 1 (decode_bw ..), low 18 6 (decode_bw ..),
    whole (decode_bw ..),
    whole (decode_huf ..), low 16 8 (decode_huf ..), whole (decode_huf ..), whole (decode_huf ..),
    whole (decode_huf ..), whole (decode_huf ..), low 8 16 (decode_huf ..),
    low 8 16 (decode_huf ..), low 8 16 (decode_huf ..),
    low 9 15 (decode_lzd ..), low 16 8 (decode_lzd ..), whole (decode_lzd ..),
    whole (decode_lzd ..), whole (decode_lzd ..),
    low 9 15 (decode_lze ..), low 16 8 (decode_lze ..), whole (decode_lze ..),
    whole (decode_lze ..),
    List.forall_mem_nil _⟩

/-- A beat is legal exactly when a row selects its CMD (R97, R98). -/
theorem decode_ok_iff (b : Beat) :
    (∃ i, decode b = .ok i) ↔ ∃ r ∈ opcodeMap, r.selects (cmdOf b) = true := by
  constructor
  · rintro ⟨i, h⟩
    exact ⟨i.row, row_mem i, row_selects_of_decode h⟩
  · rintro ⟨r, hr, h⟩
    obtain ⟨hunit, hop, himm⟩ := (selects_iff hr _).mp h
    rw [← beatOf_fields b, hunit, hop]
    exact decode_ok_of_zeros _ _ r hr himm

/-- Settles O6: the decoder and the opcode map ask the same of a CMD (`decode_ok_iff`). -/
theorem decodeFollowsTheOpcodeMap : Obligations.DecodeFollowsTheOpcodeMap :=
  ⟨decode_ok_iff, fun _ i h => ⟨row_mem i, row_selects_of_decode h⟩,
    fun b b' h => by rw [decode_ok_iff, decode_ok_iff, h],
    fun _ _ hr _ hr' h h' => row_unique hr hr' h h', rfl⟩

/-! ## A step with a beat at the port (R104) -/

section Step
open Machine
variable {s : State} {b : Beat} {rest : List Beat}

theorem step_of_legal {i : Instr} (hw : s.waiting = none) (hc : s.cmds = b :: rest)
    (hd : decode b = .ok i) : step s = exec i { s with cmds := rest } := by
  simp only [step, State.takeBeat, hw, hc, hd]

theorem step_of_presented {i : Instr} (hw : s.waiting = none) (hd : decode b = .ok i) :
    step { s with cmds := b :: rest } = exec i { s with cmds := rest } :=
  step_of_legal (s := { s with cmds := b :: rest }) hw rfl hd

theorem step_of_illegal {e : Illegal} (hw : s.waiting = none) (hc : s.cmds = b :: rest)
    (hd : decode b = .error e) : step s = reject .illegal { s with cmds := rest } := by
  simp only [step, State.takeBeat, hw, hc, hd]

end Step

/-- Settles O1: the two matches of `step` take their branches for a beat and for a command. -/
theorem stepRunsTheDecodedCommand : Obligations.StepRunsTheDecodedCommand :=
  fun _ _ _ _ hw hc hd => step_of_legal hw hc hd

/-- The ARG of a format-N or format-I command does not reach the decoder's answer (R99). -/
theorem decode_ignores_arg {b b' : Beat} {i : Instr} (hd : decode b = .ok i)
    (hf : i.row.format = .n ∨ i.row.format = .i) (hcmd : cmdOf b' = cmdOf b) :
    decode b' = .ok i := by
  obtain ⟨i', hd'⟩ : ∃ i', decode b' = .ok i' :=
    (decode_ok_iff b').mpr ⟨i.row, row_mem i, hcmd ▸ row_selects_of_decode hd⟩
  have hrow : i'.row = i.row :=
    row_unique (row_mem i') (row_mem i) (hcmd ▸ row_selects_of_decode hd')
      (row_selects_of_decode hd)
  have hbeat : encode i' = encode i := by
    apply beat_ext
    · rw [cmdOf_encode hd', cmdOf_encode hd, hcmd]
    · rw [argOf_encode hd', argOf_encode hd, Instr.argRead, Instr.argRead, hrow, if_pos hf,
        if_pos hf]
  rw [hd', ← decode_encode i', hbeat, decode_encode]

/-- Settles O7: beats that differ in an ARG no command reads are decoded alike. -/
theorem argIsIgnoredInFormatsNAndI : Obligations.ArgIsIgnoredInFormatsNAndI := by
  intro b b' i hd hf hcmd
  have hd' := decode_ignores_arg hd hf hcmd
  exact ⟨hd', fun s rest hw => (step_of_presented hw hd').trans (step_of_presented hw hd).symm⟩

/-! ## The three kinds of illegal CMD (R97) -/

/-- How many OPs R95 defines for a UNIT; they are the lowest. -/
def opCount (unit : BitVec 4) : Nat :=
  match unit.toNat with
  | 0 | 1 => 3
  | 2 | 5 => 4
  | 3 => 9
  | 4 => 5
  | _ => 0

/-- A row stands for each of those OPs (R95). -/
theorem row_of_opcode : ∀ unit op : BitVec 4, op.toNat < opCount unit →
    ∃ r ∈ opcodeMap, unit = unitField r.pattern ∧ op = opField r.pattern := by decide

/-- No row stands for another OP (R95). -/
theorem opcode_of_row : ∀ r ∈ opcodeMap,
    (opField r.pattern).toNat < opCount (unitField r.pattern) := by decide

/-- The first two kinds of R97: a reserved UNIT, or an OP its unit does not define. -/
theorem reserved_iff : ∀ unit op : BitVec 4,
    (6 ≤ unit.toNat ∨ (unit.toNat = 0 ∧ 3 ≤ op.toNat) ∨ (unit.toNat = 1 ∧ 3 ≤ op.toNat) ∨
      (unit.toNat = 2 ∧ 4 ≤ op.toNat) ∨ (unit.toNat = 3 ∧ 9 ≤ op.toNat) ∨
      (unit.toNat = 4 ∧ 5 ≤ op.toNat) ∨ (unit.toNat = 5 ∧ 4 ≤ op.toNat)) ↔
    opCount unit ≤ op.toNat := by decide

/-- No row selects a CMD exactly when its UNIT and OP are reserved, or its own row does not match
(R97). -/
theorem no_row_selects_iff (c : Word) :
    (opCount (unitField c) ≤ (opField c).toNat ∨
      ∃ r ∈ opcodeMap, unitField c = unitField r.pattern ∧ opField c = opField r.pattern ∧
        c &&& r.mask ≠ r.pattern) ↔
    ∀ r ∈ opcodeMap, r.selects c = false := by
  constructor
  · intro h r hr
    rw [← Bool.not_eq_true]
    intro hsel
    obtain ⟨hunit, hop, -⟩ := (selects_iff hr c).mp hsel
    rcases h with hreserved | ⟨r', hr', hunit', hop', hne⟩
    · exact absurd (opcode_of_row r hr) (by rw [← hunit, ← hop]; omega)
    · obtain rfl : r = r' := row_ext hr hr' (hunit.symm.trans hunit') (hop.symm.trans hop')
      exact hne (beq_iff_eq.mp hsel)
  · intro h
    rcases Nat.lt_or_ge (opField c).toNat (opCount (unitField c)) with hdef | hreserved
    · obtain ⟨r, hr, hunit, hop⟩ := row_of_opcode _ _ hdef
      exact .inr ⟨r, hr, hunit, hop, fun heq => absurd (h r hr) (by simp [OpcodeRow.selects, heq])⟩
    · exact .inl hreserved

theorem decode_error_of_no_row {b : Beat} (h : ∀ r ∈ opcodeMap, r.selects (cmdOf b) = false) :
    ∃ e, decode b = .error e := by
  cases hd : decode b with
  | error e => exact ⟨e, rfl⟩
  | ok i => exact absurd (row_selects_of_decode hd) (by simp [h i.row (row_mem i)])

/-- Settles O3: a CMD no row selects is not decoded, and UNIT, OP and the row they name decide
whether a row selects it. -/
theorem illegalBeatIsRejected : Obligations.IllegalBeatIsRejected := by
  refine ⟨fun s b rest hw hc hno => ?_, fun c => ?_⟩
  · obtain ⟨e, hd⟩ := decode_error_of_no_row hno
    exact step_of_illegal hw hc hd
  · rw [← no_row_selects_iff, ← reserved_iff]
    simp only [or_assoc]

/-- Settles O8: by evaluating the decoder on the eleven beats. -/
theorem writtenOutBeatsDecode : Obligations.WrittenOutBeatsDecode := by
  exact ⟨rfl, rfl, rfl, rfl, rfl, rfl, rfl, rfl, rfl, rfl, rfl⟩

end Sys2Proof

/-! PROOF. What every command answers (R93, R228), and the operand checks that read the operands
alone (R225, R227). -/

namespace Sys2Proof.Machine

open Config

/-! ## One response, or waiting (R80, R93, R228) -/

/-- The STATUS codes of R220. -/
def IsStatus (w : Word) : Prop :=
  w = 0#32 ∨ (∃ c : RejectCode, w = c.num) ∨ ∃ c : FaultCode, w = c.num

/-- What the ports show of a command that has ended or waits: no beat taken, and one response, or
none while the command waits (R80, R93). -/
def AnswersOnceOrWaits (s t : State) : Prop :=
  t.cmds = s.cmds ∧
    ((t.waiting = s.waiting ∧ ∃ r : Response, t.responses = s.responses ++ [r] ∧
        (r.status ≠ 0#32 → r.result = 0#32) ∧ IsStatus r.status) ∨
      ((∃ d, t.waiting = some d) ∧ t.responses = s.responses))

section Ports
variable {s t : State}

/-- A command that succeeds may answer any RESULT (R93). -/
theorem answersOnce_of_success {r : Word} (hc : t.cmds = s.cmds) (hw : t.waiting = s.waiting)
    (hr : t.responses = s.responses ++ [⟨r, 0#32⟩]) : AnswersOnceOrWaits s t :=
  ⟨hc, .inl ⟨hw, _, hr, fun h => absurd rfl h, .inl rfl⟩⟩

/-- A reject or a fault answers RESULT 0 (R221, R222). -/
theorem answersOnce_of_error {code : Word} (hc : t.cmds = s.cmds) (hw : t.waiting = s.waiting)
    (hr : t.responses = s.responses ++ [⟨0#32, code⟩]) (hcode : IsStatus code) :
    AnswersOnceOrWaits s t :=
  ⟨hc, .inl ⟨hw, _, hr, fun _ => rfl, hcode⟩⟩

theorem isStatus_reject (c : RejectCode) : IsStatus c.num := .inr (.inl ⟨c, rfl⟩)

theorem isStatus_fault (c : FaultCode) : IsStatus c.num := .inr (.inr ⟨c, rfl⟩)

theorem FinishCase.answersOnceOrWaits {i : Instr} (h : FinishCase i s t) :
    AnswersOnceOrWaits s t := by
  cases h with
  | responds r t ht =>
    exact answersOnce_of_success ht.cmds ht.waiting (by rw [respond_responses, ht.responses])
  | faults v c t ht _ =>
    exact answersOnce_of_error (by rw [takeFault_cmds, ht.cmds])
      (by rw [takeFault_waiting, ht.waiting]) (by rw [takeFault_responses, ht.responses])
      (isStatus_fault c)
  | waits d t ht => exact ⟨ht.cmds, .inr ⟨⟨d, rfl⟩, ht.responses⟩⟩

end Ports

/-- Settles O9: by the ways a command can end, `exec_cases`. -/
theorem everyCommandAnswersOnceOrWaits : Obligations.EveryCommandAnswersOnceOrWaits := by
  intro i s
  have hcase := exec_cases i s
  generalize exec i s = a at hcase ⊢
  cases hcase with
  | answers | resets | initsReader | initsWriter | clearsHuf | setsHuf | initsLzd | initsLze =>
    exact ⟨_, rfl, answersOnce_of_success rfl rfl rfl⟩
  | rejects c => exact ⟨_, rfl, answersOnce_of_error rfl rfl rfl (isStatus_reject c)⟩
  | sticky c => exact ⟨_, rfl, answersOnce_of_error rfl rfl rfl (isStatus_fault c)⟩
  | runs r _ hr =>
    obtain ⟨t, ht⟩ := finish_next i.unit r
    exact ⟨t, ht, (hr.finish_cases ht).answersOnceOrWaits⟩

/-! ## Operands out of range (R225, R227) -/

section Operands
variable {s : State}

/-- MAXN bounds the bit count of BR.READ (R134). -/
theorem exec_brRead_above {n : BitVec 6} (he : s.err .br = none) (hn : MAXN < n.toNat) :
    exec (.brRead n) s = reject .operand s := by
  rw [exec, execBrRead, unlessSticky_none he, if_pos hn]

/-- MAXN bounds the bit count of BW.WRITE (R143). -/
theorem exec_bwWrite_above {n : BitVec 6} {v : Word} (he : s.err .bw = none) (hn : MAXN < n.toNat) :
    exec (.bwWrite n v) s = reject .operand s := by
  rw [exec, execBwWrite, unlessSticky_none he, if_pos hn]

/-- There are 28 status registers (R122). -/
theorem exec_sysRdsr_above {r : BitVec 8} (hr : 27 < r.toNat) :
    exec (.sysRdsr r) s = reject .operand s := by
  rw [exec, execSysRdsr, if_pos hr]

variable {wb ob lb : BitVec 5} {min max : BitVec 16}

/-- The operand check of the two LZ INITs is ConfigOk (R182). -/
theorem config_not_ok (h : configOkFields wb ob lb min max = false) :
    ¬ (LzConfig.mk wb ob lb min max).ok = true :=
  Bool.not_eq_true _ ▸ h

theorem exec_lzdInit_notOk (h : configOkFields wb ob lb min max = false) :
    exec (.lzdInit wb ob lb min max) s = reject .operand s := by
  rw [exec, execLzdInit, if_neg (config_not_ok h)]

theorem exec_lzeInit_notOk (h : configOkFields wb ob lb min max = false) :
    exec (.lzeInit wb ob lb min max) s = reject .operand s := by
  rw [exec, execLzeInit, if_neg (config_not_ok h)]

end Operands

/-- Settles O13: five commands have an operand check that reads no state, and it comes right after
the sticky check. -/
theorem outOfRangeOperandsAreRejected : Obligations.OutOfRangeOperandsAreRejected := by
  intro i s hwf he
  cases i with
  | sysRdsr r => exact exec_sysRdsr_above (by simpa [WellFormed] using hwf)
  | brRead n =>
    exact exec_brRead_above (he.resolve_right Bool.false_ne_true) (by simpa [WellFormed] using hwf)
  | bwWrite n v =>
    exact exec_bwWrite_above (he.resolve_right Bool.false_ne_true)
      (by simpa [WellFormed] using hwf)
  | lzdInit => exact exec_lzdInit_notOk hwf
  | lzeInit => exact exec_lzeInit_notOk hwf
  | _ => cases hwf

end Sys2Proof.Machine

/-! PROOF. SYS.NOP and SYS.RDSR (R120, R122): SYS has no ERR field (R34), so neither command has a
sticky check before it. -/

namespace Sys2Proof.Machine

section Sys
variable {s : State}

theorem exec_sysNop : exec .sysNop s = .next (s.respond 0) := by
  rw [exec, execSysNop]

/-- A register that exists is answered (R122); the other numbers are `exec_sysRdsr_above`. -/
theorem exec_sysRdsr_of_le {r : BitVec 8} (hr : r.toNat ≤ 27) :
    exec (.sysRdsr r) s = .next (s.answer (statusRegister s r.toNat) 0#32) := by
  rw [exec, execSysRdsr, if_neg (Nat.not_lt.mpr hr)]

/-- E_OPERAND is code 2 (R220). -/
theorem reject_operand : reject .operand s = .next (s.answer 0#32 2#32) := rfl

end Sys

/-- Settles O22: SYS.RDSR has two cases, the register that exists and the one that does not. -/
theorem nopAndRdsrOnlyAnswer : Obligations.NopAndRdsrOnlyAnswer := by
  intro s
  refine ⟨exec_sysNop, fun r => ?_⟩
  split
  case isTrue hr => exact exec_sysRdsr_of_le hr
  case isFalse hr => exact (exec_sysRdsr_above (Nat.not_le.mp hr)).trans reject_operand

end Sys2Proof.Machine

/-! PROOF. BR.INIT and BW.INIT (R130, R137). -/

namespace Sys2Proof.Machine

theorem exec_brInit (mode : BitOrder) (s : State) :
    exec (.brInit mode) s = .next (State.respond { s with br := s.br.initialised mode } 0) := by
  rw [exec, execBrInit]

theorem exec_bwInit (mode : BitOrder) (s : State) :
    exec (.bwInit mode) s = .next (State.respond { s with bw := s.bw.initialised mode } 0) := by
  rw [exec, execBwInit]

/-- Settles O27: neither command has a sticky check before it (R223). -/
theorem readerAndWriterInit : Obligations.ReaderAndWriterInit :=
  fun mode s => ⟨exec_brInit mode s, exec_bwInit mode s⟩

end Sys2Proof.Machine

/-! PROOF. BR.GETBIT and BR.READ (R131 to R136): what a value takes from the stream, where it stops when
the source ends, and why the chunks of SRC do not show. -/

namespace Sys2Proof.Machine

open Config

/-! ## Bits that have been read -/

/-- How many bits BR can answer without asking SRC: those of RCUR and of the bytes ahead in RBUF
(R42). -/
def Br.held (b : Br) : Nat := b.rcnt + 8 * (b.rlen - b.rpos)

/-- Reading has gone from `s` to `t` and answered the bits `bs`. It is `State.Consumed` with
the count of the bits held, so that reads compose. -/
structure State.Reads (s : State) (bs : List Bool) (t : State) : Prop where
  frame : ReadFrame s t
  bits : s.readerBits = bs ++ t.readerBits
  rbits : t.br.rbits = s.br.rbits + BitVec.ofNat 64 bs.length
  inv : t.br.Inv
  held : bs.length ≤ s.br.held → t.src = s.src ∧ t.br.held + bs.length = s.br.held
  untouched : bs = [] → t.br = s.br

section Reads
variable {s t u : State} {bs cs : List Bool}

theorem State.Reads.refl (hi : s.br.Inv) : s.Reads [] s :=
  ⟨.refl s, rfl, by simp, hi, fun _ => ⟨rfl, rfl⟩, fun _ => rfl⟩

theorem State.Reads.append (h : s.Reads bs t) (k : t.Reads cs u) : s.Reads (bs ++ cs) u where
  frame := h.frame.trans k.frame
  bits := by rw [h.bits, k.bits, List.append_assoc]
  rbits := by rw [k.rbits, h.rbits, List.length_append, ofNat64_add, BitVec.add_assoc]
  inv := k.inv
  held hle := by
    rw [List.length_append] at hle ⊢
    obtain ⟨hsrc, hheld⟩ := h.held (by omega)
    obtain ⟨ksrc, kheld⟩ := k.held (by omega)
    exact ⟨ksrc.trans hsrc, by omega⟩
  untouched hnil := by
    obtain ⟨hbs, hcs⟩ := List.append_eq_nil_iff.mp hnil
    exact (k.untouched hcs).trans (h.untouched hbs)

theorem State.Reads.consumed (h : s.Reads bs t) : s.Consumed bs t.br t.src where
  bits := h.bits
  rbits := h.rbits
  mode := h.frame.mode
  reof := h.frame.reof
  err := h.frame.err
  inv := h.inv
  content := h.frame.content
  delivered := h.frame.delivered
  ending := h.frame.ending
  lazy hle := (h.held hle).1
  untouched := h.untouched

theorem State.Reads.rest_eq (h : s.Reads s.readerBits t) : t.readerBits = [] := by
  simpa using h.bits

/-- A GetBit that answers asks SRC once when no bit is held, and otherwise takes one of the bits held
(R131). -/
theorem getBit_source (hi : s.br.Inv) : (getBit s).yields fun _ t =>
    t.src.calls = s.src.calls + (if s.br.rcnt = 0 ∧ s.br.rpos = s.br.rlen then 1 else 0) ∧
    (1 ≤ s.br.held → t.src = s.src ∧ t.br.held + 1 = s.br.held) := by
  intro b t ht
  have hcase := getBit_cases s
  rw [ht] at hcase
  cases hcase with
  | atHand _ hc =>
    rw [if_neg fun h => hc h.1]
    refine ⟨rfl, fun _ => ⟨rfl, ?_⟩⟩
    simp only [Br.held, taken, shifted_rcnt, shifted_rlen, shifted_rpos]
    omega
  | loaded _ hc hp =>
    rw [if_neg fun h => hp h.2]
    refine ⟨rfl, fun _ => ⟨rfl, ?_⟩⟩
    have hle := hi.posLe
    simp only [Br.held, taken, loadCur_br, shifted_rcnt, shifted_rlen, shifted_rpos]
    omega
  | refill bs rest _ hc hp =>
    rw [if_pos ⟨hc, hp⟩]
    exact ⟨rfl, fun hle => absurd hle (by simp [Br.held, hc, hp])⟩

theorem getBit_reads (hi : s.br.Inv) : (getBit s).yields fun b t => s.Reads [b] t := by
  intro b t ht
  obtain ⟨-, hframe, hbits, hrbits⟩ := getBit_ok hi.canonical hi.posLe ht
  obtain ⟨-, hheld⟩ := getBit_source hi b t ht
  have hinv := getBit_inv hi
  rw [ht] at hinv
  exact ⟨hframe, hbits, hrbits, hinv, hheld, fun hnil => by cases hnil⟩

theorem getBits_reads (n : Nat) (hi : s.br.Inv) : (getBits n s).yields fun bs t => s.Reads bs t := by
  induction n generalizing s with
  | zero => exact yields_ok (.refl hi)
  | succ n ih =>
    refine yields_bind fun b t ht => yields_bind fun bs u hu => yields_ok ?_
    have hb := getBit_reads hi b t ht
    exact hb.append (ih hb.inv bs u hu)

end Reads

/-! ## The end of the source -/

/-- How a primitive ends that needs a bit when none is left: SRC is asked once more and says how the
stream ends (R131, R80). -/
def endOfStream {α : Type} (s : State) : Res α :=
  match s.src.ending with
  | .eof => .faulted .br .eos { asked s with br := { s.br with reof := true } }
  | .err => .faulted .br .src (asked s)
  | .silent => .waits .src (asked s)

/-- BR once the stream has ended so, and the fault is latched (R131, R222). -/
def Br.ended (b : Br) (e : SrcEnd) : Br := { b with reof := decide (e = .eof), err := e.fault }

section End
variable {α β : Type} {s t : State} {bs : List Bool}

@[simp] theorem endOfStream_bind (f : α → State → Res β) :
    (endOfStream s).bind f = endOfStream s := by
  unfold endOfStream
  cases s.src.ending <;> rfl

theorem Br.ended_err {b : Br} (hr : b.reof = false) : b.ended .err = { b with err := some .src } := by
  cases b; cases hr; rfl

theorem Br.ended_silent {b : Br} (hr : b.reof = false) (he : b.err = none) : b.ended .silent = b := by
  cases b; cases hr; cases he; rfl

/-- Without a sticky error SRC has not ended (R24). -/
theorem reof_of_no_error {b : Br} (he : b.err = none) (hi : b.Inv) : b.reof = false := by
  cases hr : b.reof with
  | false => rfl
  | true => rw [hi.eofFailed hr] at he; cases he

theorem getBit_end (he : s.br.err = none) (hi : s.br.Inv) (h : s.readerBits = []) :
    getBit s = endOfStream s := by
  have hok : ∀ b t, getBit s ≠ .ok b t := fun b t ht => by
    have hbits := (getBit_reads hi b t ht).bits
    rw [h] at hbits
    cases hbits
  have hcase := getBit_cases s
  generalize getBit s = r at hcase hok
  unfold endOfStream
  cases hcase with
  | sticky c he' => rw [he] at he'; cases he'
  | ended _ _ _ hr => rw [reof_of_no_error he hi] at hr; cases hr
  | atHand | loaded | refill => exact absurd rfl (hok _ _)
  | eof _ _ _ _ _ hg => rw [hg]
  | err _ _ _ _ _ hg => rw [hg]
  | silent _ _ _ _ _ hg => rw [hg]

/-- A value cut by the end of the source has read every bit there was (R136). -/
theorem getBits_end {n : Nat} (he : s.br.err = none) (hi : s.br.Inv)
    (hn : s.readerBits.length < n) :
    ∃ t, s.Reads s.readerBits t ∧ getBits n s = endOfStream t := by
  induction n generalizing s with
  | zero => cases hn
  | succ n ih =>
    cases hbits : s.readerBits with
    | nil => exact ⟨s, .refl hi, by rw [getBits, getBit_end he hi hbits, endOfStream_bind]⟩
    | cons b rest =>
      obtain ⟨t, ht, hframe, hrest, hinv, -⟩ := getBit_next he hi hbits
      rw [hbits, List.length_cons] at hn
      obtain ⟨u, hu, hend⟩ := ih (hframe.err.trans he) hinv (by rw [hrest]; omega)
      refine ⟨u, ?_, by rw [getBits, ht, bind_ok, hend, endOfStream_bind]⟩
      rw [hrest] at hu
      exact (getBit_reads hi b t ht).append hu

theorem readBits_end {n : Nat} (he : s.br.err = none) (hi : s.br.Inv)
    (hn : s.readerBits.length < n) :
    ∃ t, s.Reads s.readerBits t ∧ readBits n s = endOfStream t := by
  obtain ⟨t, ht, hend⟩ := getBits_end he hi hn
  exact ⟨t, ht, by rw [readBits, hend, endOfStream_bind]⟩

/-- When no bit is left and SRC has not ended, RCUR, RBUF and SRC are used up. -/
theorem spent_of_readerBits_nil (hr : s.br.reof = false) (h : s.readerBits = []) :
    s.br.curBits = [] ∧ s.br.aheadBytes = [] ∧ s.src.pending.flatten = [] := by
  have hlen := congrArg List.length h
  simp only [State.readerBits, State.unreadBytes, hr, Bool.false_eq_true, if_false,
    List.length_append, length_bytesBits, List.length_nil] at hlen
  refine ⟨?_, ?_, ?_⟩ <;> apply List.eq_nil_of_length_eq_zero <;> omega

/-- A reader that has read every bit and asked once more is exhausted (R136). -/
theorem State.Reads.exhausted (h : s.Reads s.readerBits t) (he : s.br.err = none) (hi : s.br.Inv) :
    s.Exhausted (t.br.ended s.src.ending) (asked t).src where
  rbits := h.rbits
  mode := h.frame.mode
  inv := { h.inv with
    eofFailed := fun hr => congrArg SrcEnd.fault (of_decide_eq_true hr : s.src.ending = .eof) }
  spent := spent_of_readerBits_nil (h.frame.reof.trans (reof_of_no_error he hi)) h.rest_eq
  content := h.frame.content
  ending := h.frame.ending
  reof := rfl
  err := rfl

/-- How a command of unit `u` ends that the end of the stream has cut (R222, R80). -/
theorem State.Reads.finish_endOfStream (h : s.Reads bs t) (he : s.br.err = none) (hi : s.br.Inv)
    (u : CodecUnit) : (endOfStream t).finish u =
      s.src.ending.ends u { s with br := t.br.ended s.src.ending, src := (asked t).src } := by
  have hte := h.frame.err.trans he
  have htr := h.frame.reof.trans (reof_of_no_error he hi)
  rw [endOfStream, h.frame.ending, asked, h.frame.rest]
  cases s.src.ending with
  | eof => rfl
  | err => rw [Br.ended_err htr]; rfl
  | silent => rw [Br.ended_silent htr hte]; rfl

end End

/-! ## The commands -/

section Commands
variable {s t : State} {n : BitVec 6}

theorem exec_brGetbit (he : s.err .br = none) :
    exec .brGetbit s = ((getBit s).bind fun b t => Res.ok b.toNat t).finish .br := by
  rw [exec, execBrGetbit, unlessSticky_none he]

theorem exec_brRead_of_le (he : s.err .br = none) (hn : n.toNat ≤ MAXN) :
    exec (.brRead n) s = (readBits n.toNat s).finish .br := by
  rw [exec, execBrRead, unlessSticky_none he, if_neg (Nat.not_lt.mpr hn)]

/-- The response to a read, with the frame written out. -/
theorem State.Reads.respond {bs : List Bool} (h : s.Reads bs t) (r : Nat) :
    t.respond r = State.respond { s with br := t.br, src := t.src } r :=
  congrArg (State.respond · r) h.frame.rest

/-- A value whose bits are all there is packed from them (R132). -/
theorem readBits_reads {bs rest : List Bool} (he : s.br.err = none) (hi : s.br.Inv)
    (h : s.readerBits = bs ++ rest) :
    ∃ t, readBits bs.length s = .ok (packBits s.br.mode bs) t ∧ s.Reads bs t := by
  obtain ⟨t, ht, -⟩ := getBits_next he hi h
  exact ⟨t, by rw [readBits, ht, bind_ok], getBits_reads _ hi bs t ht⟩

/-- BR.READ with all its bits there (R132, R134). -/
theorem exec_brRead_reads {bs rest : List Bool} (he : s.br.err = none) (hi : s.br.Inv)
    (hn : n.toNat ≤ MAXN) (hlen : bs.length = n.toNat) (h : s.readerBits = bs ++ rest) :
    ∃ t, exec (.brRead n) s = .next (t.respond (packBits s.br.mode bs)) ∧ s.Reads bs t := by
  obtain ⟨t, ht, hreads⟩ := readBits_reads he hi h
  refine ⟨t, ?_, hreads⟩
  rw [exec_brRead_of_le he hn, ← hlen, ht, finish_ok]

/-- BR.READ with too few bits left (R136): `Reads.exhausted` says what its reader is then. -/
theorem exec_brRead_end (he : s.br.err = none) (hi : s.br.Inv) (hn : n.toNat ≤ MAXN)
    (hlen : s.readerBits.length < n.toNat) :
    ∃ t, s.Reads s.readerBits t ∧ readBits n.toNat s = endOfStream t ∧
      exec (.brRead n) s =
        s.src.ending.ends .br { s with br := t.br.ended s.src.ending, src := (asked t).src } := by
  obtain ⟨t, ht, hend⟩ := readBits_end he hi hlen
  exact ⟨t, ht, hend, by rw [exec_brRead_of_le he hn, hend, ht.finish_endOfStream he hi]⟩

end Commands

/-- Settles O28: a bit left is read by `getBit_next`, and `getBit_source` counts the call of SRC; with
none left `getBit_end` applies. -/
theorem getbitTakesTheNextBit : Obligations.GetbitTakesTheNextBit := by
  intro s he hi
  refine ⟨fun b rest h => ?_, fun h => ?_⟩
  · obtain ⟨t, ht, -⟩ := getBit_next he hi h
    have hreads := getBit_reads hi b t ht
    refine ⟨t.br, t.src, ?_, hreads.consumed, (getBit_source hi b t ht).1⟩
    rw [exec_brGetbit he, ht, bind_ok, finish_ok, hreads.respond]
  · have hend : exec .brGetbit s =
        s.src.ending.ends .br { s with br := s.br.ended s.src.ending, src := (asked s).src } := by
      rw [exec_brGetbit he, getBit_end he hi h, endOfStream_bind,
        (State.Reads.refl hi).finish_endOfStream he hi]
    have hr := reof_of_no_error he hi
    refine ⟨fun hg => ?_, fun hg => ?_, fun hg => ?_⟩ <;> rw [hend, hg]
    · rfl
    · rw [Br.ended_err hr]; rfl
    · rw [Br.ended_silent hr he]; rfl

/-- Settles O29: by `exec_brRead_reads`. -/
theorem readPacksTheNextBits : Obligations.ReadPacksTheNextBits := by
  intro s n bs rest he hi hn hlen h
  obtain ⟨t, ht, hreads⟩ := exec_brRead_reads he hi hn hlen h
  exact ⟨t.br, t.src, by rw [ht, hreads.respond], hreads.consumed⟩

/-- Settles O30: by `exec_brRead_end`, for each of the three ends of SRC. -/
theorem readPastTheEndFaults : Obligations.ReadPastTheEndFaults := by
  intro s n he hi hn hlen
  obtain ⟨t, ht, hread, hexec⟩ := exec_brRead_end he hi hn hlen
  have hx := ht.exhausted he hi
  obtain ⟨hcur, hahead, hpending⟩ := hx.spent
  refine ⟨_, _, hx.rbits, hx.mode, hx.inv, hcur, hahead, hpending, hx.content, ?_⟩
  have hte := ht.frame.err.trans he
  have hreof := hx.reof
  have herr := hx.err
  rw [hexec]
  cases hg : s.src.ending with
  | eof =>
    refine ⟨rfl, rfl, ?_, rfl⟩
    rw [hread, endOfStream, ht.frame.ending, hg, asked, ht.frame.rest, ← hte]
    rfl
  | err => exact ⟨rfl, rfl, rfl⟩
  | silent => exact ⟨rfl, rfl, rfl⟩

/-! ## Chunks do not show (R135) -/

/-- What the host can learn of the reader, and the bits still to come. -/
structure Shown where
  responses : List Response
  waiting : Option Stream
  err : Option FaultCode
  reof : Bool
  rbits : BitVec 64
  bits : List Bool

/-- What a state shows. -/
def State.shown (s : State) : Shown :=
  { responses := s.responses, waiting := s.waiting, err := s.br.err, reof := s.br.reof,
    rbits := s.br.rbits, bits := s.readerBits }

/-- What BR.READ n shows when the source ends first (R136). -/
def SrcEnd.cutShown (e : SrcEnd) (v : Shown) : Shown :=
  { responses := v.responses ++ (e.fault.map fun c => ⟨0#32, c.num⟩).toList
    waiting := if e = .silent then some .src else v.waiting
    err := e.fault
    reof := decide (e = .eof)
    rbits := v.rbits + BitVec.ofNat 64 v.bits.length
    bits := [] }

/-- What BR.READ n shows, from the bits of the stream, the mode and how the stream ends (R134 to
R136). -/
def readShown (n : Nat) (mode : BitOrder) (e : SrcEnd) (v : Shown) : Shown :=
  if MAXN < n then { v with responses := v.responses ++ [⟨0#32, RejectCode.operand.num⟩] }
  else if v.bits.length < n then e.cutShown v
  else { v with
    responses := v.responses ++ [⟨BitVec.ofNat 32 (packBits mode (v.bits.take n)), 0#32⟩]
    rbits := v.rbits + BitVec.ofNat 64 n
    bits := v.bits.drop n }

section Chunks
variable {s t : State} {n : BitVec 6}

/-- An exhausted reader shows no bits (R136). -/
theorem State.Exhausted.readerBits_eq {br : Br} {src : Src} (h : s.Exhausted br src) :
    ({ s with br := br, src := src } : State).readerBits = [] := by
  obtain ⟨hcur, hahead, hpending⟩ := h.spent
  simp [State.readerBits, State.unreadBytes, hcur, hahead, hpending]

theorem shown_exhausted {br : Br} {src : Src} (h : s.Exhausted br src) :
    ({ s with br := br, src := src } : State).shown =
      { s.shown with
        err := s.src.ending.fault
        reof := decide (s.src.ending = .eof)
        rbits := s.br.rbits + BitVec.ofNat 64 s.readerBits.length
        bits := [] } := by
  rw [State.shown, h.readerBits_eq, h.rbits, h.reof, h.err]
  rfl

theorem shown_ends {br : Br} {src : Src} (h : s.Exhausted br src)
    (ht : s.src.ending.ends .br { s with br := br, src := src } = .next t) :
    t.shown = s.src.ending.cutShown s.shown := by
  have hx := shown_exhausted h
  cases hg : s.src.ending with
  | eof =>
    rw [hg] at ht hx
    cases ht
    exact congrArg (fun v : Shown =>
      { v with responses := v.responses ++ [Response.mk 0#32 16#32], err := some .eos }) hx
  | err =>
    rw [hg] at ht hx
    cases ht
    exact congrArg (fun v : Shown =>
      { v with responses := v.responses ++ [Response.mk 0#32 17#32], err := some .src }) hx
  | silent =>
    rw [hg] at ht hx
    cases ht
    rw [SrcEnd.cutShown, SrcEnd.fault, Option.map_none, Option.toList_none, List.append_nil]
    exact congrArg (fun v : Shown => { v with waiting := some .src }) hx

theorem shown_respond {bs rest : List Bool} {u : State} (hu : s.Reads bs u) (r : Nat)
    (h : s.readerBits = bs ++ rest) :
    (u.respond r).shown =
      { s.shown with
        responses := s.responses ++ [⟨BitVec.ofNat 32 r, 0#32⟩]
        rbits := s.br.rbits + BitVec.ofNat 64 bs.length
        bits := rest } := by
  have hbits : u.readerBits = rest := List.append_cancel_left (hu.bits.symm.trans h)
  rw [hu.respond, State.shown, respond_br, hu.frame.err, hu.frame.reof, hu.rbits, ← hbits]
  rfl

theorem shown_exec_brRead (he : s.br.err = none) (hi : s.br.Inv)
    (ht : exec (.brRead n) s = .next t) :
    t.shown = readShown n.toNat s.br.mode s.src.ending s.shown := by
  unfold readShown
  split
  case isTrue hn =>
    rw [exec_brRead_above he hn] at ht
    cases ht
    rfl
  case isFalse hn =>
    have hle := Nat.not_lt.mp hn
    split
    case isTrue hlen =>
      obtain ⟨u, hu, -, hexec⟩ := exec_brRead_end he hi hle hlen
      exact shown_ends (hu.exhausted he hi) (hexec.symm.trans ht)
    case isFalse hlen =>
      have hbits : (s.readerBits.take n.toNat).length = n.toNat :=
        List.length_take_of_le (Nat.not_lt.mp hlen)
      obtain ⟨u, hexec, hu⟩ := exec_brRead_reads he hi hle hbits (List.take_append_drop _ _).symm
      rw [hexec] at ht
      cases ht
      rw [shown_respond hu _ (List.take_append_drop _ _).symm, hbits]
      rfl

/-- RCNT makes the bits consumed a whole number of bytes (R24), so RBITS determines it. -/
theorem rcnt_eq_of_rbits {b : Br} (hi : b.Inv) : b.rcnt = (8 - b.rbits.toNat % 8) % 8 := by
  have hb := congrArg BitVec.toNat hi.balance
  have hc := hi.cntLe
  simp only [BitVec.toNat_add, BitVec.toNat_mul, BitVec.toNat_ofNat] at hb
  omega

end Chunks

/-- Settles O31: what BR.READ shows is `readShown` of what the two states share, and RBITS then gives
RCNT. -/
theorem readIsIndependentOfChunks : Obligations.ReadIsIndependentOfChunks := by
  intro n s s' t t' hi hi' he he' hmode hrbits hbits hend hresp hwait ht ht'
  have hs : s.shown = s'.shown := by
    simp only [State.shown, he, he', reof_of_no_error he hi, reof_of_no_error he' hi', hrbits, hbits,
      hresp, hwait]
  have hshown : t.shown = t'.shown := by
    rw [shown_exec_brRead he hi ht, shown_exec_brRead he' hi' ht', hs, hmode, hend]
  have hinv := (exec_keepsReader rfl hi ht).inv
  have hinv' := (exec_keepsReader rfl hi' ht').inv
  obtain ⟨hresponses, hwaiting, herr, hreof, hrbits, hbits⟩ := Shown.mk.inj hshown
  refine ⟨hresponses, hwaiting, herr, hreof, hrbits, hbits, ?_⟩
  rw [rcnt_eq_of_rbits hinv, rcnt_eq_of_rbits hinv', hrbits]

end Sys2Proof.Machine

/-! PROOF. The commands that write bits (R138 to R144): what they append, the block SNK gets when the
buffer fills, what a Flush hands over, and what a refused block leaves. -/

namespace Sys2Proof.Machine

open Config

/-! ## Bits that wait in BW -/

/-- How many bits BW holds for SNK: those of WBUF and of WCUR (R43). -/
def Bw.load (w : Bw) : Nat := 8 * w.wlen + w.wcnt

/-- Writing has gone from `s` to `t` by taking the bits `bs` into BW, with no call of SNK. R26 is
stated of BW with an error latched, since the block buffer may just have filled. -/
structure State.Holds (s : State) (bs : List Bool) (t : State) : Prop where
  rest : t = { s with bw := t.bw }
  mode : t.bw.mode = s.bw.mode
  err : t.bw.err = s.bw.err
  wpush : t.bw.wpush = s.bw.wpush
  wbits : t.bw.wbits = s.bw.wbits + BitVec.ofNat 64 bs.length
  bits : t.writtenBits = s.writtenBits ++ bs
  load : t.bw.load = s.bw.load + bs.length
  latched : ({ t.bw with err := some .snk } : Bw).Inv

section Holds
variable {s t u : State} {bs cs : List Bool} {b : Bool}

theorem State.Holds.refl (h : s.bw.Inv) : s.Holds [] s :=
  ⟨rfl, rfl, rfl, rfl, by simp, by simp, rfl, h.latched _⟩

theorem State.Holds.append (h : s.Holds bs t) (k : t.Holds cs u) : s.Holds (bs ++ cs) u where
  rest := by rw [k.rest, h.rest]
  mode := k.mode.trans h.mode
  err := k.err.trans h.err
  wpush := k.wpush.trans h.wpush
  wbits := by rw [k.wbits, h.wbits, List.length_append, ofNat64_add, BitVec.add_assoc]
  bits := by rw [k.bits, h.bits, List.append_assoc]
  load := by rw [k.load, h.load, List.length_append, Nat.add_assoc]
  latched := k.latched

theorem State.Holds.snk (h : s.Holds bs t) : t.snk = s.snk := by rw [h.rest]

/-- Below the size of the block buffer R26 holds as it stands. -/
theorem State.Holds.inv (h : s.Holds bs t) (hl : t.bw.load < 8 * BUFSZ) : t.bw.Inv :=
  { h.latched with
    room := fun _ => by unfold Bw.load at hl; omega }

/-- A full block buffer: BUFSZ bytes and an empty WCUR. -/
theorem State.Holds.full (h : s.Holds bs t) (hl : t.bw.load = 8 * BUFSZ) :
    t.bw.wlen = BUFSZ ∧ t.bw.wcnt = 0 := by
  have hcnt := h.latched.cntLe
  have hlen := h.latched.lenLe
  simp only at hcnt hlen
  unfold Bw.load at hl
  omega

/-- Without a sticky error the block buffer is not full (R26). -/
theorem load_lt (he : s.bw.err = none) (h : s.bw.Inv) : s.bw.load < 8 * BUFSZ := by
  have hroom := h.room he
  have hcnt := h.cntLe
  unfold Bw.load
  omega

/-- The state after a bit has been taken, before SNK is called (R138, R140). -/
def holding (b : Bool) (s : State) : State :=
  if s.bw.wcnt + 1 = 8 then appendCur (placed b s) else placed b s

theorem writtenBits_placed (b : Bool) (h : s.bw.Inv) :
    (placed b s).writtenBits = s.writtenBits ++ [b] := by
  simp only [State.writtenBits, placed, curBits_withBit h.cntLe h.blankZero, ← List.append_assoc]
  rfl

theorem holds_holding (b : Bool) (he : s.bw.err = none) (h : s.bw.Inv) : s.Holds [b] (holding b s) := by
  unfold holding
  split
  case isTrue h8 =>
    refine ⟨rfl, rfl, rfl, rfl, rfl, ?_, ?_, ?_⟩
    · rw [writtenBits_appendCur (s := placed b s) h.canonical h8, writtenBits_placed b h]
    · simp only [Bw.load, appendCur_bw, placed, withBit_wlen, List.length_singleton]
      omega
    · exact bwInv_appendCur (s := { placed b s with bw := { s.bw.withBit b with err := some .snk } })
        h.canonical h.bounded (h.room he) fun hn => by cases hn
  case isFalse h8 =>
    exact ⟨rfl, rfl, rfl, rfl, rfl, writtenBits_placed b h, rfl, (bwInv_placed h h8).latched _⟩

/-- PutBit takes its bit, and hands the block to SNK when that fills it (R138, R140). -/
theorem putBit_eq (b : Bool) (he : s.bw.err = none) (h : s.bw.Inv) :
    putBit b s = if s.bw.load + 1 = 8 * BUFSZ then drain (holding b s) else .ok () (holding b s) := by
  have hcnt := h.cntLe
  unfold Bw.load holding
  by_cases h8 : s.bw.wcnt + 1 = 8
  · have hput : putBit b s = emitByte (placed b s) := by simp [putBit, he, h8, placed]
    have hemit : emitByte (placed b s) = if s.bw.wlen + 1 = BUFSZ then drain (appendCur (placed b s))
        else .ok () (appendCur (placed b s)) := rfl
    rw [hput, hemit, if_pos h8]
    by_cases hl : s.bw.wlen + 1 = BUFSZ
    · rw [if_pos hl, if_pos (by omega)]
    · rw [if_neg hl, if_neg (by omega)]
  · rw [if_neg h8, if_neg (by omega)]
    simp [putBit, he, h8, placed]

/-- Bits that do not fill the block buffer are held (R138). -/
theorem putBits_held (he : s.bw.err = none) (h : s.bw.Inv)
    (hl : s.bw.load + bs.length < 8 * BUFSZ) : ∃ t, putBits bs s = .ok () t ∧ s.Holds bs t := by
  induction bs generalizing s with
  | nil => exact ⟨s, rfl, .refl h⟩
  | cons b bs ih =>
    rw [List.length_cons] at hl
    have hb := holds_holding b he h
    have hload : (holding b s).bw.load = s.bw.load + 1 := hb.load
    obtain ⟨t, ht, hbs⟩ := ih (hb.err.trans he) (hb.inv (by omega)) (by omega)
    refine ⟨t, ?_, hb.append hbs⟩
    rw [putBits, putBit_eq b he h, if_neg (by omega), bind_ok, ht]

/-- Bits that just fill the block buffer are held, and then the block is handed to SNK (R140). -/
theorem putBits_fill (he : s.bw.err = none) (h : s.bw.Inv)
    (hl : s.bw.load + bs.length = 8 * BUFSZ) : ∃ t, s.Holds bs t ∧
      ∀ cs, putBits (bs ++ cs) s = (drain t).bind fun _ u => putBits cs u := by
  induction bs generalizing s with
  | nil => exact absurd hl (load_lt he h).ne
  | cons b bs ih =>
    rw [List.length_cons] at hl
    have hb := holds_holding b he h
    have hload : (holding b s).bw.load = s.bw.load + 1 := hb.load
    cases bs with
    | nil =>
      refine ⟨holding b s, hb, fun cs => ?_⟩
      have hl' : s.bw.load + 1 = 8 * BUFSZ := hl
      rw [List.singleton_append, putBits, putBit_eq b he h, if_pos hl']
    | cons c bs =>
      rw [List.length_cons] at hl ih
      obtain ⟨t, hbs, hput⟩ := ih (hb.err.trans he) (hb.inv (by omega)) (by omega)
      refine ⟨t, hb.append hbs, fun cs => ?_⟩
      rw [List.cons_append, putBits, putBit_eq b he h, if_neg (by omega), bind_ok, hput]

end Holds

/-! ## Handing bytes to SNK -/

section Drain
variable {s : State}

theorem drain_of_empty (hl : s.bw.wlen = 0) : drain s = .ok () s := by
  rw [drain, if_neg (by omega)]

theorem drain_of_ok (hl : 0 < s.bw.wlen) (ha : s.snk.answer = .ok) :
    drain s = .ok () (drained s) := by
  rw [drain, if_pos hl, snkWrite, ha]
  rfl

theorem drain_of_err (hl : 0 < s.bw.wlen) (ha : s.snk.answer = .err) :
    drain s = .faulted .bw .snk (offered s) := by
  rw [drain, if_pos hl, snkWrite, ha]
  rfl

/-- A second Drain finds nothing to hand over (R140). -/
theorem drain_bind_drain (s : State) : ((drain s).bind fun _ t => drain t) = drain s := by
  have hcase := drain_cases s
  generalize drain s = r at hcase
  cases hcase with
  | empty hl => exact drain_of_empty hl
  | ok => exact drain_of_empty rfl
  | err | silent => rfl

end Drain

/-! ## A value the writer accepts -/

section Accepted
variable {s t : State} {bs : List Bool}

/-- Bits that fit are accepted without SNK (R138). -/
theorem State.Holds.accepted (h : s.Holds bs t) (hl : t.bw.load < 8 * BUFSZ) :
    s.Accepted bs t.bw t.snk where
  bits := by rw [← h.bits, h.snk, ← h.rest]
  wbits := h.wbits
  mode := h.mode
  err := h.err
  inv := h.inv hl
  held _ := ⟨h.snk, h.wpush, h.load⟩
  block hb := by
    have hload := h.load
    unfold Bw.load at hl hload
    omega

/-- A block that SNK has taken leaves BW with R26 (R140). -/
theorem State.Holds.inv_drained (h : s.Holds bs t) : (drained t).bw.Inv :=
  bwInv_drained h.latched.canonical h.latched.bounded h.latched.cntLe h.latched.blankZero

/-- The frame of a value whose block SNK has taken. -/
theorem State.Holds.rest_drained {cs : List Bool} {u : State} (h : s.Holds bs t)
    (k : (drained t).Holds cs u) : u = { s with bw := u.bw, snk := u.snk } := by
  rw [k.rest, h.rest]
  rfl

/-- When SNK takes the block that fills the buffer, the bits before and after it are accepted
(R140). -/
theorem State.Holds.accepted_block {cs : List Bool} {u : State} (h : s.Holds bs t)
    (hfull : t.bw.load = 8 * BUFSZ) (k : (drained t).Holds cs u) (hl : u.bw.load < 8 * BUFSZ) :
    s.Accepted (bs ++ cs) u.bw u.snk := by
  obtain ⟨hlen, hcnt⟩ := h.full hfull
  have hload : s.bw.load + bs.length = 8 * BUFSZ := h.load.symm.trans hfull
  have hrest : u.bw.load = cs.length := by
    rw [k.load, Bw.load]
    simp [drained, hcnt]
  refine ⟨?_, ?_, k.mode.trans h.mode, k.err.trans h.err, k.inv hl, fun hlt => ?_, fun _ => ?_⟩
  · rw [← h.rest_drained k, k.bits, writtenBits_drained, h.bits, List.append_assoc]
  · rw [k.wbits, show (drained t).bw.wbits = t.bw.wbits from rfl, h.wbits, List.length_append,
      ofNat64_add, BitVec.add_assoc]
  · rw [List.length_append] at hlt
    unfold Bw.load at hload
    omega
  · refine ⟨?_, ?_, t.bw.heldBytes, ?_, ?_⟩
    · rw [k.wpush, show (drained t).bw.wpush = t.bw.wpush + BitVec.ofNat 64 t.bw.wlen from rfl,
        h.wpush, hlen]
    · rw [List.length_append]
      unfold Bw.load at hload hrest
      omega
    · rw [Bw.heldBytes, length_readList, hlen]
    · rw [k.snk, ← h.snk]
      rfl

/-- How many more bits fill the block buffer (R140). -/
def Bw.free (w : Bw) : Nat := 8 * BUFSZ - w.load

/-- A value that fills the block buffer: the bits up to the full buffer are held, the block is handed
to SNK, and the rest of the value follows (R139, R140). -/
theorem putBits_split (he : s.bw.err = none) (hi : s.bw.Inv)
    (hl : 8 * BUFSZ ≤ s.bw.load + bs.length) :
    ∃ t, s.Holds (bs.take s.bw.free) t ∧ t.bw.load = 8 * BUFSZ ∧
      putBits bs s = (drain t).bind fun _ u => putBits (bs.drop s.bw.free) u := by
  have hfree : s.bw.load + s.bw.free = 8 * BUFSZ := Nat.add_sub_of_le (load_lt he hi).le
  have htake : s.bw.load + (bs.take s.bw.free).length = 8 * BUFSZ := by
    rw [List.length_take_of_le (by omega), hfree]
  obtain ⟨t, hheld, hput⟩ := putBits_fill he hi htake
  refine ⟨t, hheld, hheld.load.trans htake, ?_⟩
  rw [← hput, List.take_append_drop]

/-- A writer that is ready for the bits accepts them (R138 to R140). -/
theorem putBits_accepted (hr : s.WriterReady bs.length) (hn : bs.length ≤ 8 * BUFSZ) :
    ∃ t, putBits bs s = .ok () t ∧ t = { s with bw := t.bw, snk := t.snk } ∧
      s.Accepted bs t.bw t.snk := by
  obtain ⟨he, hi, hsink⟩ := hr
  have hlt := load_lt he hi
  by_cases hl : s.bw.load + bs.length < 8 * BUFSZ
  · obtain ⟨t, ht, hheld⟩ := putBits_held he hi hl
    refine ⟨t, ht, ?_, hheld.accepted (hheld.load.trans_lt hl)⟩
    rw [hheld.rest]
  · have hok : s.snk.answer = .ok := hsink.resolve_left hl
    obtain ⟨t, hheld, hfull, hput⟩ := putBits_split he hi (Nat.not_lt.mp hl)
    obtain ⟨hlen, hcnt⟩ := hheld.full hfull
    have hdrain : drain t = .ok () (drained t) :=
      drain_of_ok (by rw [hlen]; decide) (by rw [hheld.snk]; exact hok)
    have hempty : (drained t).bw.load = 0 := by simp [Bw.load, drained, hcnt]
    have hdrop : (drained t).bw.load + (bs.drop s.bw.free).length < 8 * BUFSZ := by
      rw [hempty, List.length_drop, Bw.free]
      omega
    obtain ⟨u, hu, hrest⟩ := putBits_held (s := drained t) (hheld.err.trans he)
      hheld.inv_drained hdrop
    refine ⟨u, by rw [hput, hdrain, bind_ok, hu], hheld.rest_drained hrest, ?_⟩
    have hacc := hheld.accepted_block hfull hrest (hrest.load.trans_lt hdrop)
    rwa [List.take_append_drop] at hacc

/-- A value with the bit that fills the buffer SNK refuses stops at that bit (R139, R140, R222). -/
theorem putBits_refused (hf : s.SinkFails bs.length) :
    ∃ w snk, putBits bs s = .faulted .bw .snk { s with bw := w, snk := snk } ∧
      s.Refused bs { w with err := some .snk } snk := by
  obtain ⟨he, hi, hfills, herr⟩ := hf
  obtain ⟨t, hheld, hfull, hput⟩ := putBits_split he hi hfills
  have hsnk : offered t = { s with bw := t.bw, snk := s.snk.asked } := by
    rw [offered, hheld.snk, hheld.rest]
  have hdrain : drain t = .faulted .bw .snk (offered t) :=
    drain_of_err (by rw [(hheld.full hfull).1]; decide) (by rw [hheld.snk]; exact herr)
  refine ⟨t.bw, s.snk.asked, by rw [hput, hdrain, bind_faulted, hsnk], ?_⟩
  have hlen : (bs.take s.bw.free).length = s.bw.free :=
    List.length_take_of_le (Nat.sub_le_iff_le_add'.mpr hfills)
  refine ⟨?_, ?_, hheld.mode, rfl, hheld.latched, hheld.full hfull, hheld.wpush, rfl⟩
  · refine Eq.trans ?_ hheld.bits
    rw [hheld.rest]
    rfl
  · rw [hheld.wbits, hlen]
    rfl

end Accepted

/-! ## The commands that write a value -/

section Commands
variable {s : State} {bs : List Bool}

theorem putBits_singleton (b : Bool) (s : State) : putBits [b] s = putBit b s := by
  rw [putBits]
  cases putBit b s <;> rfl

theorem exec_bwPutbit (b : Bool) (he : s.err .bw = none) :
    exec (.bwPutbit b) s = ((putBits [b] s).bind fun _ t => Res.ok 0 t).finish .bw := by
  rw [exec, execBwPutbit, unlessSticky_none he, putBits_singleton]

theorem exec_bwWrite_of_le {n : BitVec 6} (v : Word) (he : s.err .bw = none) (hn : n.toNat ≤ MAXN) :
    exec (.bwWrite n v) s =
      ((putBits (bitsOf s.bw.mode n.toNat v.toNat) s).bind fun _ t => Res.ok 0 t).finish .bw := by
  rw [exec, execBwWrite, unlessSticky_none he, if_neg (Nat.not_lt.mpr hn), writeBits]

/-- A symbol with a length makes the table one with codes (R28). -/
theorem ncodes_ne_zero {h : Huf} {sym : Nat} (hi : h.Inv) (hb : h.hstate = .built)
    (hs : sym < h.nsym) (hl : 0 < h.lenOf sym) : h.ncodes ≠ 0 := by
  rw [(hi.table hb).ncodes]
  exact (List.length_pos_of_mem (mem_coded.mpr ⟨hs, hl⟩)).ne'

/-- HUF.PUTSYM of a symbol with a code (R169). -/
theorem exec_hufPutsym_coded {sym : BitVec 16} (he : s.err .huf = none) (hb : s.huf.hstate = .built)
    (hi : s.huf.Inv) (hs : sym.toNat < s.huf.nsym) (hl : 0 < s.huf.lenOf sym.toNat) :
    exec (.hufPutsym sym) s = ((putBits (s.huf.wireCode sym.toNat) s).bind fun _ t =>
      Res.ok (s.huf.lenOf sym.toNat) t).finish .huf := by
  rw [exec, execHufPutsym, unlessSticky_none he, if_neg (not_not.mpr hb),
    if_neg (ncodes_ne_zero hi hb hs hl), if_neg (by omega), putSym, Huf.wireCode]

/-- LZE.LIT in Idle (R200). -/
theorem exec_lzeLit_idle (b : Byte) (he : s.err .lze = none) (hd : s.lze.estate = .idle) :
    exec (.lzeLit b) s = (putToken (.literal b) s).finish .lze := by
  rw [exec, execLzeLit, unlessSticky_none he, if_neg (not_not.mpr hd)]

/-- LZE.REF in Idle with operands in range (R201). -/
theorem exec_lzeRef_idle {off len : BitVec 16} (he : s.err .lze = none) (hd : s.lze.estate = .idle)
    (ho : off.toNat < 2 ^ s.lze.cfg.ob.toNat) (hmin : s.lze.cfg.min.toNat ≤ len.toNat)
    (hmax : len.toNat ≤ s.lze.cfg.max.toNat) :
    exec (.lzeRef off len) s = (putToken (.reference off.toNat len.toNat) s).finish .lze := by
  rw [exec, execLzeRef, unlessSticky_none he, if_neg (not_not.mpr hd), if_neg (Nat.not_le.mpr ho),
    if_neg (by omega)]

/-- A command that writes bits the writer is ready for responds (R93). -/
theorem finish_accepted (hr : s.WriterReady bs.length) (hn : bs.length ≤ 8 * BUFSZ) (u : CodecUnit)
    (r : Nat) : ∃ bw snk, ((putBits bs s).bind fun _ t => Res.ok r t).finish u =
        .next (State.respond { s with bw := bw, snk := snk } r) ∧
      s.Accepted bs bw snk := by
  obtain ⟨t, ht, hrest, hacc⟩ := putBits_accepted hr hn
  refine ⟨t.bw, t.snk, ?_, hacc⟩
  rw [ht, bind_ok, finish_ok, ← hrest]

/-- A command that writes bits of which SNK refuses one ends in E_SNK, which its unit takes too
(R222). -/
theorem finish_refused (hf : s.SinkFails bs.length) (u : CodecUnit) (r : Nat) :
    ∃ bw snk, s.Refused bs bw snk ∧ ((putBits bs s).bind fun _ t => Res.ok r t).finish u =
      .next ((State.setErr { s with bw := bw, snk := snk } u .snk).answer 0#32 18#32) := by
  obtain ⟨w, snk, hput, href⟩ := putBits_refused hf
  refine ⟨_, snk, href, ?_⟩
  rw [hput, bind_faulted, finish_faulted]
  rfl

/-- Latching the code that BW holds already changes nothing (R222). -/
theorem setErr_bw_self {c : FaultCode} (h : s.bw.err = some c) : s.setErr .bw c = s := by
  rw [State.setErr, ← h]

/-- A BW command that SNK refuses ends in E_SNK (R222). -/
theorem finish_bw_refused (hf : s.SinkFails bs.length) :
    ∃ bw snk, s.Refused bs bw snk ∧ ((putBits bs s).bind fun _ t => Res.ok 0 t).finish .bw =
      .next (State.answer { s with bw := bw, snk := snk } 0#32 18#32) := by
  obtain ⟨bw, snk, href, hfin⟩ := finish_refused hf .bw 0
  exact ⟨bw, snk, href, by rw [hfin, setErr_bw_self href.err]⟩

end Commands

/-- Settles O32: both commands put a list of bits, which `putBits_accepted` says is accepted. -/
theorem putbitAndWriteAppendTheirBits : Obligations.PutbitAndWriteAppendTheirBits := by
  refine ⟨fun s b hr => ?_, fun s n v hn hr => ?_⟩
  · rw [exec_bwPutbit b hr.err]
    exact finish_accepted (bs := [b]) hr (by decide : 1 ≤ 8 * BUFSZ) .bw 0
  · have hlen := length_bitsOf s.bw.mode n.toNat v.toNat
    rw [exec_bwWrite_of_le v hr.err hn]
    exact finish_accepted (hlen.symm ▸ hr) (by rw [hlen]; exact hn.trans (by decide)) .bw 0

/-- Settles O34: the five commands put a list of bits, which `putBits_refused` says is cut at the bit
SNK refuses. -/
theorem sinkErrorKeepsTheBytes : Obligations.SinkErrorKeepsTheBytes := by
  refine ⟨fun s b hf => ?_, fun s n v hn hf => ?_, fun s sym he hb hi hs hl hf => ?_,
    fun s b he hd hf => ?_, fun s off len he hd ho hmin hmax hf => ?_⟩
  case refine_1 =>
    rw [exec_bwPutbit b hf.err]
    exact finish_bw_refused hf
  case refine_2 =>
    rw [exec_bwWrite_of_le v hf.err hn]
    exact finish_bw_refused (by rwa [length_bitsOf])
  case refine_3 =>
    rw [exec_hufPutsym_coded he hb hi hs hl]
    exact finish_refused (by rwa [Huf.wireCode, length_codeBits]) .huf _
  case refine_4 =>
    rw [exec_lzeLit_idle b he hd]
    exact finish_refused (by rwa [List.length_cons, length_bitsOf]) .lze _
  case refine_5 =>
    rw [exec_lzeRef_idle he hd ho hmin hmax]
    refine finish_refused ?_ .lze _
    rwa [List.length_cons, List.length_append, length_bitsOf, length_bitsOf, Nat.add_comm,
      ← Nat.add_assoc]

/-! ## BW.FLUSH -/

section Flush
variable {s : State}

/-- The state once Flush has padded the partial byte (R141). -/
def padded (s : State) : State := if 0 < s.bw.wcnt then appendCur s else s

/-- Flush pads and then hands everything over in one Drain, also when the padded byte fills the block
buffer, since then EmitByte has left nothing to hand over (R140, R141). -/
theorem flush_eq_drain (he : s.bw.err = none) : flush s = drain (padded s) := by
  unfold flush padded
  rw [he]
  show Res.bind _ _ = _
  split
  · unfold emitByte
    split
    · exact drain_bind_drain _
    · rfl
  · rfl

theorem heldBytes_padded (h : s.bw.Inv) : (padded s).bw.heldBytes = s.bw.flushBytes := by
  unfold padded Bw.flushBytes
  split
  · simp only [Bw.heldBytes, appendCur_bw, readList_succ_last, Nat.zero_add]
    rw [readList_write_other h.canonical _ (by omega), read_write_same h.canonical]
  · rw [List.append_nil]

theorem wcnt_padded (s : State) : (padded s).bw.wcnt = 0 := by
  unfold padded
  split
  · rfl
  · omega

/-- Padding reaches WBUF, WLEN, WCUR and WCNT only (R141). -/
structure PadFrame (s t : State) : Prop where
  rest : t = { s with bw := t.bw }
  mode : t.bw.mode = s.bw.mode
  err : t.bw.err = s.bw.err
  wbits : t.bw.wbits = s.bw.wbits
  wpush : t.bw.wpush = s.bw.wpush

theorem padFrame_padded (s : State) : PadFrame s (padded s) := by
  unfold padded
  split <;> exact ⟨rfl, rfl, rfl, rfl, rfl⟩

theorem wlen_padded (h : s.bw.Inv) : (padded s).bw.wlen = s.bw.flushBytes.length := by
  rw [← heldBytes_padded h, Bw.heldBytes, length_readList]

/-- R26 after padding, with an error latched, since the block buffer may have filled. -/
theorem latched_padded (he : s.bw.err = none) (h : s.bw.Inv) :
    ({ (padded s).bw with err := some .snk } : Bw).Inv := by
  unfold padded
  split
  · exact bwInv_appendCur (s := { s with bw := { s.bw with err := some .snk } }) h.canonical h.bounded
      (h.room he) fun hn => by cases hn
  · exact h.latched _

/-- A partial byte is its bits and the zeros that pad it (R26, R141). -/
theorem byteBits_wcur (h : s.bw.Inv) (h0 : 0 < s.bw.wcnt) :
    byteBits s.bw.mode s.bw.wcur = s.bw.curBits ++ s.bw.padding := by
  have hcnt := h.cntLe
  have h8 : 8 = s.bw.wcnt + (8 - s.bw.wcnt) := by omega
  rw [byteBits, h8, List.range_add, List.map_append, Bw.curBits, Bw.padding,
    Nat.mod_eq_of_lt (by omega : 8 - s.bw.wcnt < 8)]
  congr 1
  refine List.eq_replicate_iff.mpr ⟨by simp, fun b hb => ?_⟩
  simp only [List.map_map, List.mem_map, List.mem_range, Function.comp] at hb
  obtain ⟨k, hk, rfl⟩ := hb
  exact h.blankZero _ (by omega) (by omega)

/-- What a Flush hands over, after what SNK has: the bits written, and the padding (R141, R145). -/
theorem bytesBits_flushBytes (h : s.bw.Inv) :
    bytesBits s.bw.mode (s.snk.content ++ s.bw.flushBytes) = s.writtenBits ++ s.bw.padding := by
  rw [State.writtenBits, Bw.flushBytes, ← List.append_assoc, bytesBits_append, List.append_assoc]
  congr 1
  split
  case isTrue h0 => rw [bytesBits_cons, bytesBits_nil, List.append_nil, byteBits_wcur h h0]
  case isFalse h0 =>
    have hc : s.bw.wcnt = 0 := Nat.eq_zero_of_not_pos h0
    simp [Bw.curBits, Bw.padding, hc]

theorem exec_bwFlush (he : s.err .bw = none) :
    exec .bwFlush s = ((drain (padded s)).bind fun _ t => Res.ok 0 t).finish .bw := by
  rw [exec, execBwFlush, unlessSticky_none he, flush_eq_drain he]

/-- The state after a Flush that SNK has accepted. -/
theorem drained_padded (h : s.bw.Inv) :
    drained (padded s) = { s with
      bw := (drained (padded s)).bw
      snk := { s.snk.asked with accepted := s.snk.accepted ++ [s.bw.flushBytes] } } := by
  rw [← heldBytes_padded h, (padFrame_padded s).rest]
  rfl

/-- With nothing held there is nothing to pad (R141). -/
theorem padded_of_flushBytes_nil (h : s.bw.flushBytes = []) : padded s = s := by
  have hc : ¬ 0 < s.bw.wcnt := fun h0 => by simp [Bw.flushBytes, h0] at h
  rw [padded, if_neg hc]

end Flush

/-- Settles O33: Flush is one Drain of the padded buffer, which is empty, accepted or refused. -/
theorem flushDeliversEverything : Obligations.FlushDeliversEverything := by
  intro s he hi
  have hf := padFrame_padded s
  have hlen := wlen_padded hi
  have hlatched := latched_padded he hi
  have hpos (h0 : s.bw.flushBytes ≠ []) : 0 < (padded s).bw.wlen :=
    hlen ▸ List.length_pos_iff.mpr h0
  rw [exec_bwFlush he]
  refine ⟨fun h0 => ?_, fun h0 ha => ?_, fun h0 ha => ?_⟩
  · have hempty : (padded s).bw.wlen = 0 := by rw [hlen, h0]; rfl
    rw [drain_of_empty hempty, bind_ok, finish_ok, padded_of_flushBytes_nil h0]
  · rw [drain_of_ok (hpos h0) (by rw [hf.rest]; exact ha), bind_ok, finish_ok]
    refine ⟨(drained (padded s)).bw, ?_, rfl, wcnt_padded s, hf.mode, hf.err.trans he, hf.wbits, ?_,
      bwInv_drained hlatched.canonical hlatched.bounded hlatched.cntLe hlatched.blankZero,
      bytesBits_flushBytes hi⟩
    · rw [drained_padded hi]; rfl
    · rw [← hlen, ← hf.wpush]; rfl
  · rw [drain_of_err (hpos h0) (by rw [hf.rest]; exact ha), bind_faulted, finish_faulted]
    refine ⟨{ (padded s).bw with err := some .snk }, s.snk.asked, ?_, rfl, wcnt_padded s,
      heldBytes_padded hi, hf.wbits, hf.wpush, rfl⟩
    rw [offered, hf.rest]
    rfl

end Sys2Proof.Machine

/-! PROOF. HUF.BUILD (R153 to R157): when BuildTable completes, when it faults, and what HUF holds
then. -/

namespace Sys2Proof.Machine

open Config

/-! ## When AssignCodes succeeds (R155, R156) -/

section Assign
variable {h : Huf} {a : Assign} {l : Nat}

/-- AssignCodes over lengths of which none is over-subscribed succeeds. -/
theorem Assigned.succeeds (hw : h.count.wf = true) (hn : h.nsym ≤ HUF_NSYM_MAX)
    (ho : h.NotOversubscribed) (n : Nat) (ha : Assigned h l a) (h1 : 1 ≤ l)
    (hl : l + n ≤ HUF_MAXLEN + 1) : ∃ b, assignLengths (List.range' l n) a = .ok b := by
  induction n generalizing l a with
  | zero => exact ⟨a, rfl⟩
  | succ n ih =>
    have hfits := ho l h1 (by omega)
    have hcode : a.code = h.firstCode l := ha.filling.code
    rw [List.range'_succ, assignLengths, ha.filling.frame.count,
      withCounts_count_read h hw hn h1 (by omega), hcode, if_neg (Nat.not_lt.mpr hfits)]
    exact ih (ha.turn hn h1 (by omega) hfits) (by omega) (by omega)

end Assign

/-! ## BuildTable -/

/-- What BuildTable makes of the lengths of `h` (R154, R155): the canonical table, in BUILT. -/
structure Huf.Builds (h k : Huf) : Prop where
  hstate : k.hstate = .built
  inv : k.Inv
  len : k.len = h.len
  nsym : k.nsym = h.nsym
  freq : k.freq = h.freq
  nfreq : k.nfreq = h.nfreq
  defsym : k.defsym = h.defsym
  err : k.err = h.err

section Build
variable {s : State} {h k : Huf}

theorem Huf.Builds.canonical (hk : h.Builds k) : k.Canonical := hk.inv.table hk.hstate

theorem Huf.Builds.sameLengths (hk : h.Builds k) : h.SameLengths k := ⟨hk.len, hk.nsym⟩

theorem buildTable_tooLong (hn : ¬ s.huf.LengthsLegal) :
    buildTable s = .faulted .huf .hufLen s := by
  have hlong : s.huf.tooLong = true := by
    rw [← Bool.not_eq_false, tooLong_eq_false]
    exact hn
  rw [buildTable, if_pos hlong]

/-- From legal lengths that are not over-subscribed BuildTable makes the canonical table (R154,
R155). -/
theorem buildTable_builds (hl : s.huf.Loading) (hlegal : s.huf.LengthsLegal)
    (ho : s.huf.NotOversubscribed) :
    ∃ k, buildTable s = .ok () { s with huf := k } ∧ s.huf.Builds k := by
  have hm := hl.memories
  obtain ⟨-, -, hcount, -⟩ := hl.memories
  have hcase := buildTable_cases s
  have hkeeps := buildTable_keepsHuf hl
  generalize buildTable s = r at hcase hkeeps
  obtain ⟨b, hb⟩ := (assigned_start s.huf hm.tables).succeeds hcount hl.nsymLe ho HUF_MAXLEN
    (Nat.le_refl 1) (by omega)
  cases hcase with
  | tooLong hlong => rw [(tooLong_eq_false _).2 hlegal] at hlong; cases hlong
  | oversub k _ ha => exact absurd (ha.symm.trans hb) (by simp)
  | built a _ ha =>
    have hf := buildFrame_ok ha
    exact ⟨_, rfl, rfl, hkeeps, hf.len, hf.nsym, hf.freq, hf.nfreq, hf.defsym, hf.err⟩

/-- From legal lengths that are over-subscribed it makes none (R154, R156). -/
theorem buildTable_oversubscribed (hl : s.huf.Loading) (hlegal : s.huf.LengthsLegal)
    (ho : ¬ s.huf.NotOversubscribed) :
    ∃ k, buildTable s = .faulted .huf .hufOversub { s with huf := k } ∧ BuildFrame s.huf k := by
  have hm := hl.memories
  obtain ⟨-, -, hcount, -⟩ := hl.memories
  have hcase := buildTable_cases s
  generalize buildTable s = r at hcase
  cases hcase with
  | tooLong hlong => rw [(tooLong_eq_false _).2 hlegal] at hlong; cases hlong
  | oversub k _ ha => exact ⟨k, rfl, buildFrame_error ha⟩
  | built a _ ha =>
    have hdone := (assigned_start s.huf hm.tables).lengths hcount hl.nsymLe HUF_MAXLEN
      (Nat.le_refl 1) (by omega) ha
    exact absurd (fun l h1 hle => hdone.fits l h1 (by omega)) ho

end Build

/-! ## The command -/

section Commands
variable {s : State}

/-- HUF.BUILD in LOADING (R153). -/
theorem exec_hufBuild_loading (he : s.err .huf = none) (hl : s.huf.hstate = .loading) :
    exec .hufBuild s = ((buildTable s).bind fun _ t => Res.ok t.huf.ncodes t).finish .huf := by
  rw [exec, execHufBuild, unlessSticky_none he, if_neg (not_not.mpr hl)]

/-- HUF.BUILD is rejected in BUILT (R153). -/
theorem exec_hufBuild_built (he : s.err .huf = none) (hb : s.huf.hstate = .built) :
    exec .hufBuild s = reject .state s := by
  rw [exec, execHufBuild, unlessSticky_none he, if_pos (by rw [hb]; decide)]

/-- A HUF command that ends in BuildTable answers NCODES (R153, R163). -/
theorem finish_buildTable_builds (hl : s.huf.Loading) (hlegal : s.huf.LengthsLegal)
    (ho : s.huf.NotOversubscribed) : ∃ k, s.huf.Builds k ∧
      ((buildTable s).bind fun _ t => Res.ok t.huf.ncodes t).finish .huf =
        .next (State.respond { s with huf := k } k.ncodes) := by
  obtain ⟨k, hbuild, hk⟩ := buildTable_builds hl hlegal ho
  exact ⟨k, hk, by rw [hbuild, bind_ok, finish_ok]⟩

/-- A command of HUF that ends in a fault of HUF itself (R222). -/
theorem finish_huf_faulted (c : FaultCode) (t : State) :
    (Res.faulted .huf c t).finish .huf =
      .next (State.answer { t with huf := { t.huf with err := some c } } 0#32 c.num) := rfl

end Commands

/-- Settles O36: by `buildTable_builds`. -/
theorem buildMakesTheCanonicalTable : Obligations.BuildMakesTheCanonicalTable := by
  intro s he hload hi hlegal ho
  obtain ⟨k, hk, hfin⟩ := finish_buildTable_builds (hi.loading hload) hlegal ho
  exact ⟨k, (exec_hufBuild_loading he hload).trans hfin, hk.hstate, hk.canonical, hk.inv, hk.len,
    hk.nsym, hk.freq, hk.nfreq, hk.defsym, hk.err.trans he⟩

/-- Settles O37: by `buildTable_tooLong` and `buildTable_oversubscribed`. -/
theorem buildFaultsOnBadLengths : Obligations.BuildFaultsOnBadLengths := by
  intro s he hi
  refine ⟨exec_hufBuild_built he, fun hload hlong => ?_, fun hload hlegal ho => ?_⟩
  · rw [exec_hufBuild_loading he hload, buildTable_tooLong hlong, bind_faulted, finish_huf_faulted]
    rfl
  · obtain ⟨k, hbuild, hk⟩ := buildTable_oversubscribed (hi.loading hload) hlegal ho
    refine ⟨{ k with err := some .hufOversub }, ?_, hk.hstate.trans hload, rfl, hk.nsym, hk.len,
      hk.freq, hk.nfreq, hk.ncodes, hk.lmax, hk.defsym⟩
    rw [exec_hufBuild_loading he hload, hbuild, bind_faulted, finish_huf_faulted]
    rfl

end Sys2Proof.Machine

/-! PROOF. The merge of HUF.MKENC (R164, R165): the two queues give the nodes in the order of one
list in insertion order, and where the items of the queues lie in the tree that the merge ends with
(R168). -/

namespace Sys2Proof.Machine

/-! ## Taking from two queues -/

/-- `x` is the head of one of two queues, and `r1`, `r2` are the queues without it. -/
inductive Takes {α : Type} (x : α) : List α → List α → List α → List α → Prop
  | first (r1 r2 : List α) : Takes x (x :: r1) r2 r1 r2
  | second (r1 r2 : List α) : Takes x r1 (x :: r2) r1 r2

section Takes
variable {α β : Type} {x : α} {q1 q2 r1 r2 : List α}

theorem Takes.perm (h : Takes x q1 q2 r1 r2) : (q1 ++ q2).Perm (x :: (r1 ++ r2)) := by
  cases h with
  | first => exact .refl _
  | second => exact List.perm_middle

theorem Takes.length (h : Takes x q1 q2 r1 r2) :
    q1.length + q2.length = r1.length + r2.length + 1 := by
  simpa using h.perm.length_eq

/-- What holds along the second queue, and of its new head, holds along the queue before. -/
theorem Takes.pairwise_second {R : α → α → Prop} (h : Takes x q1 q2 r1 r2) (hr : r2.Pairwise R)
    (hx : ∀ z ∈ r2, R x z) : q2.Pairwise R := by
  cases h with
  | first => exact hr
  | second => exact List.pairwise_cons.2 ⟨hx, hr⟩

theorem Takes.mem_second (h : Takes x q1 q2 r1 r2) {z : α} (hz : z ∈ q2) : z = x ∨ z ∈ r2 := by
  cases h with
  | first => exact .inr hz
  | second => exact List.mem_cons.1 hz

theorem Takes.sublist (h : Takes x q1 q2 r1 r2) : r1.Sublist q1 ∧ r2.Sublist q2 := by
  cases h with
  | first => exact ⟨List.sublist_cons_self _ _, .refl _⟩
  | second => exact ⟨.refl _, List.sublist_cons_self _ _⟩

/-- Labels of what is left, and one of what was taken, label the queues. -/
theorem Takes.label {f : β → α} {c1 c2 : List β} (y : β)
    (h : Takes (f y) q1 q2 (c1.map f) (c2.map f)) :
    ∃ d1 d2, Takes y d1 d2 c1 c2 ∧ d1.map f = q1 ∧ d2.map f = q2 := by
  cases h with
  | first => exact ⟨y :: c1, c2, .first .., rfl, rfl⟩
  | second => exact ⟨c1, y :: c2, .second .., rfl, rfl⟩

end Takes

/-! ## Queues of the merge (R164) -/

/-- A queue in which no node is lighter than one before it. -/
def Ascending (q : List HufNode) : Prop := q.Pairwise fun x y => x.weight ≤ y.weight

section Queues
variable {q q1 q2 r1 r2 p1 p2 : List HufNode} {x y : HufNode} {m : Nat}

/-- `TakeMin()` takes a node of least weight (R164). -/
theorem takeMin_takes (h1 : Ascending q1) (h2 : Ascending q2) (hlen : 0 < q1.length + q2.length) :
    ∃ x r1 r2, takeMin q1 q2 = some (x, r1, r2) ∧ Takes x q1 q2 r1 r2 ∧
      ∀ z ∈ r1 ++ r2, x.weight ≤ z.weight := by
  cases q1 with
  | nil =>
    cases q2 with
    | nil => cases hlen
    | cons y q2 => exact ⟨y, [], q2, rfl, .second .., (List.pairwise_cons.1 h2).1⟩
  | cons x q1 =>
    obtain ⟨hx, -⟩ := List.pairwise_cons.1 h1
    cases q2 with
    | nil => exact ⟨x, q1, [], rfl, .first .., by simpa using hx⟩
    | cons y q2 =>
      obtain ⟨hy, -⟩ := List.pairwise_cons.1 h2
      by_cases hxy : x.weight ≤ y.weight
      · refine ⟨x, q1, y :: q2, by rw [takeMin, if_pos hxy], .first .., fun z hz => ?_⟩
        rcases List.mem_append.1 hz with hz | hz
        · exact hx z hz
        · rcases List.mem_cons.1 hz with rfl | hz
          · exact hxy
          · exact hxy.trans (hy z hz)
      · refine ⟨y, x :: q1, q2, by rw [takeMin, if_neg hxy], .second .., fun z hz => ?_⟩
        rcases List.mem_append.1 hz with hz | hz
        · rcases List.mem_cons.1 hz with rfl | hz
          · omega
          · have := hx z hz
            omega
        · exact hy z hz

/-- The two queues between merges: both ascend, and no node of Q2 is heavier than twice the lightest
node, since it was made of two nodes that were then the lightest. -/
structure Queues (m : Nat) (q1 q2 : List HufNode) : Prop where
  leaves : Ascending q1
  nodes : Ascending q2
  low : ∀ z ∈ q1 ++ q2, m ≤ z.weight
  high : ∀ z ∈ q2, z.weight ≤ 2 * m

/-- One merge: `x` and then `y` is taken, and nothing left is lighter than they are. -/
structure MergeTurn (q1 q2 : List HufNode) (x : HufNode) (p1 p2 : List HufNode) (y : HufNode)
    (r1 r2 : List HufNode) : Prop where
  first : takeMin q1 q2 = some (x, p1, p2)
  second : takeMin p1 p2 = some (y, r1, r2)
  takesFirst : Takes x q1 q2 p1 p2
  takesSecond : Takes y p1 p2 r1 r2
  least : x.weight ≤ y.weight
  rest : ∀ z ∈ r1 ++ r2, y.weight ≤ z.weight

theorem MergeTurn.perm (h : MergeTurn q1 q2 x p1 p2 y r1 r2) :
    (q1 ++ q2).Perm (x :: y :: (r1 ++ r2)) :=
  h.takesFirst.perm.trans (h.takesSecond.perm.cons x)

theorem MergeTurn.length (h : MergeTurn q1 q2 x p1 p2 y r1 r2) :
    q1.length + q2.length = r1.length + r2.length + 2 := by
  rw [h.takesFirst.length, h.takesSecond.length]

theorem MergeTurn.sublist (h : MergeTurn q1 q2 x p1 p2 y r1 r2) : r1.Sublist q1 ∧ r2.Sublist q2 :=
  ⟨h.takesSecond.sublist.1.trans h.takesFirst.sublist.1,
    h.takesSecond.sublist.2.trans h.takesFirst.sublist.2⟩

/-- A merge appends to Q2 a node that no node of Q2 is heavier than. -/
theorem Queues.merge (hq : Queues m q1 q2) (h : MergeTurn q1 q2 x p1 p2 y r1 r2) :
    Queues y.weight r1 (r2 ++ [joinNodes x y]) := by
  obtain ⟨hs1, hs2⟩ := h.sublist
  have hmx : m ≤ x.weight := hq.low x (h.perm.mem_iff.2 (by simp))
  have hxy := h.least
  have hjoin : (joinNodes x y).weight = x.weight + y.weight := rfl
  have hold : ∀ z ∈ r2, z.weight ≤ 2 * m := fun z hz => hq.high z (hs2.subset hz)
  refine ⟨hq.leaves.sublist hs1, ?_, fun z hz => ?_, fun z hz => ?_⟩
  · refine List.pairwise_append.2
      ⟨hq.nodes.sublist hs2, List.pairwise_singleton _ _, fun z hz w hw => ?_⟩
    rw [List.mem_singleton.1 hw, hjoin]
    have := hold z hz
    omega
  · rw [← List.append_assoc] at hz
    rcases List.mem_append.1 hz with hz | hz
    · exact h.rest z hz
    · rw [List.mem_singleton.1 hz, hjoin]
      exact Nat.le_add_left _ _
  · rcases List.mem_append.1 hz with hz | hz
    · have := hold z hz
      omega
    · rw [List.mem_singleton.1 hz, hjoin]
      omega

/-- With two nodes left a merge is possible, and MergeLengths makes it (R164). -/
theorem exists_mergeTurn (hq : Queues m q1 q2) (hlen : 2 ≤ q1.length + q2.length) :
    ∃ x p1 p2 y r1 r2, MergeTurn q1 q2 x p1 p2 y r1 r2 := by
  obtain ⟨x, p1, p2, hx, htx, hlx⟩ := takeMin_takes hq.leaves hq.nodes (by omega)
  obtain ⟨hs1, hs2⟩ := htx.sublist
  have hleft := htx.length
  obtain ⟨y, r1, r2, hy, hty, hly⟩ :=
    takeMin_takes (hq.leaves.sublist hs1) (hq.nodes.sublist hs2) (by omega)
  exact ⟨x, p1, p2, y, r1, r2, hx, hy, htx, hty, hlx y (hty.perm.mem_iff.2 (by simp)), hly⟩

theorem MergeTurn.mergeNodes_eq (h : MergeTurn q1 q2 x p1 p2 y r1 r2) (k : Nat) :
    mergeNodes (k + 1) q1 q2 = mergeNodes k r1 (r2 ++ [joinNodes x y]) := by
  simp only [mergeNodes, h.first, h.second]

theorem mergeInOrder_turn {p r : List HufNode} (hx : takeFirstMin q = some (x, p))
    (hy : takeFirstMin p = some (y, r)) (k : Nat) :
    mergeInOrder (k + 1) q = mergeInOrder k (r ++ [joinNodes x y]) := by
  simp only [mergeInOrder, hx, hy]

/-! ## Sorting the leaves (R164) -/

theorem insertNode_eq (x : HufNode) (q : List HufNode) :
    insertNode x q = q.orderedInsert (fun x y => x.weight ≤ y.weight) x := by
  induction q with
  | nil => rfl
  | cons y q ih => rw [insertNode, ih, List.orderedInsert]

theorem sortNodes_eq (q : List HufNode) :
    sortNodes q = q.insertionSort fun x y => x.weight ≤ y.weight := by
  induction q with
  | nil => rfl
  | cons x q ih => rw [sortNodes, ih, insertNode_eq]; rfl

theorem sortNodes_perm (q : List HufNode) : (sortNodes q).Perm q := by
  rw [sortNodes_eq]
  exact List.perm_insertionSort _ q

theorem sortNodes_ascending (q : List HufNode) : Ascending (sortNodes q) := by
  rw [sortNodes_eq, Ascending]
  have : Std.Total fun x y : HufNode => x.weight ≤ y.weight := ⟨fun x y => Nat.le_total _ _⟩
  have : IsTrans HufNode fun x y => x.weight ≤ y.weight := ⟨fun _ _ _ => Nat.le_trans⟩
  exact List.pairwise_insertionSort _ q

/-- The queues at the start of the merge (R164). -/
theorem queues_start (q : List HufNode) : Queues 0 (sortNodes q) [] :=
  ⟨sortNodes_ascending q, List.Pairwise.nil, fun _ _ => Nat.zero_le _, fun _ hz => by cases hz⟩

/-! ## The order of the merge (R165) -/

theorem takeMin_eq_none (h : takeMin q1 q2 = none) : q1 = [] ∧ q2 = [] := by
  cases q1 with
  | nil =>
    cases q2 with
    | nil => exact ⟨rfl, rfl⟩
    | cons y q2 => cases h
  | cons x q1 =>
    cases q2 with
    | nil => cases h
    | cons y q2 =>
      rw [takeMin] at h
      split at h <;> cases h

/-- TakeMin after one more leaf is sorted in: the leaf if it is not heavier than what would be taken
without it (R165). -/
theorem takeMin_insertNode (a : HufNode) (h : takeMin q1 q2 = some (x, r1, r2)) :
    takeMin (insertNode a q1) q2 =
      if a.weight ≤ x.weight then some (a, q1, q2) else some (x, insertNode a r1, r2) := by
  cases q1 with
  | nil =>
    cases q2 with
    | nil => cases h
    | cons c q2 => cases h; rfl
  | cons b q1 =>
    cases q2 with
    | nil =>
      cases h
      rw [insertNode]
      split <;> rfl
    | cons c q2 =>
      rw [takeMin] at h
      rw [insertNode]
      split at h <;> cases h
      · split
        · rw [takeMin, if_pos (by omega)]
        · rw [takeMin, if_pos ‹_›]
      · by_cases hab : a.weight ≤ b.weight
        · rw [if_pos hab, takeMin, insertNode, if_pos hab]
        · rw [if_neg hab, takeMin, if_neg ‹_›, if_neg (by omega), insertNode, if_neg hab]

theorem takeFirstMin_ascending (h : Ascending (x :: q)) : takeFirstMin (x :: q) = some (x, q) := by
  induction q generalizing x with
  | nil => rfl
  | cons y q ih =>
    obtain ⟨hx, hq⟩ := List.pairwise_cons.1 h
    rw [takeFirstMin, ih hq]
    exact if_pos (hx y (by simp))

/-- From the leaves in symbol order followed by the new nodes, the first of least weight is what
TakeMin takes from the sorted leaves and the new nodes (R165). -/
theorem takeFirstMin_eq_takeMin {leaves : List HufNode} (h2 : Ascending q2)
    (h : takeMin (sortNodes leaves) q2 = some (x, r1, r2)) :
    ∃ left, takeFirstMin (leaves ++ q2) = some (x, left ++ r2) ∧ sortNodes left = r1 := by
  induction leaves generalizing x r1 r2 with
  | nil =>
    cases q2 with
    | nil => cases h
    | cons y q2 =>
      cases h
      exact ⟨[], takeFirstMin_ascending h2, rfl⟩
  | cons a leaves ih =>
    rw [sortNodes] at h
    cases htake : takeMin (sortNodes leaves) q2 with
    | none =>
      obtain ⟨hsort, rfl⟩ := takeMin_eq_none htake
      obtain rfl : leaves = [] := by simpa [hsort] using sortNodes_perm leaves
      cases h
      exact ⟨[], rfl, rfl⟩
    | some t =>
      obtain ⟨y, s1, s2⟩ := t
      obtain ⟨left, hfirst, hsort⟩ := ih htake
      rw [takeMin_insertNode a htake] at h
      rw [List.cons_append, takeFirstMin, hfirst]
      simp only
      split at h <;> cases h
      · exact ⟨leaves, if_pos ‹_›, rfl⟩
      · exact ⟨a :: left, if_neg ‹_›, by rw [sortNodes, hsort]⟩

/-- The merge over two queues is the merge in insertion order (R165). -/
theorem mergeNodes_eq_mergeInOrder {leaves : List HufNode} {k : Nat}
    (hq : Queues m (sortNodes leaves) q2) (hlen : leaves.length + q2.length = k + 1)
    (h0 : k = 0 → leaves = []) :
    mergeNodes k (sortNodes leaves) q2 = mergeInOrder k (leaves ++ q2) := by
  induction k generalizing m leaves q2 with
  | zero => rw [h0 rfl]; rfl
  | succ k ih =>
    have hsorted := (sortNodes_perm leaves).length_eq
    obtain ⟨x, p1, p2, y, r1, r2, hturn⟩ := exists_mergeTurn hq (by omega)
    have hleft := hturn.length
    obtain ⟨p, hx, rfl⟩ := takeFirstMin_eq_takeMin hq.nodes hturn.first
    obtain ⟨r, hy, rfl⟩ :=
      takeFirstMin_eq_takeMin (hq.nodes.sublist hturn.takesFirst.sublist.2) hturn.second
    have hr := (sortNodes_perm r).length_eq
    rw [hturn.mergeNodes_eq, mergeInOrder_turn hx hy, List.append_assoc]
    exact ih (hq.merge hturn) (by rw [List.length_append, List.length_singleton]; omega)
      fun hk => List.eq_nil_of_length_eq_zero (by omega)

end Queues

/-! ## Where the items of the queues end up -/

/-- `root` is the tree that the merge of the queues ends with: the items of the queues lie in it at
the depths of their labels. No item lies deeper than a lighter one, no node of Q2 deeper than one
before it, and no item more than one below a node of Q2, since its parent is made after that node
and so is taken after it. -/
structure Spread (root : HufNode) (q1 q2 : List HufNode) (c1 c2 : List (HufNode × Nat)) : Prop where
  leaves : c1.map Prod.fst = q1
  nodes : c2.map Prod.fst = q2
  depths : (root.tree.depths 0).Perm ((c1 ++ c2).flatMap fun c => c.1.tree.depths c.2)
  lighter : ∀ u ∈ c1 ++ c2, ∀ v ∈ c1 ++ c2, u.1.weight < v.1.weight → v.2 ≤ u.2
  order : c2.Pairwise fun u v => v.2 ≤ u.2
  near : ∀ u ∈ c1 ++ c2, ∀ v ∈ c2, u.2 ≤ v.2 + 1

section Spread
variable {root x y : HufNode} {q1 q2 p1 p2 r1 r2 : List HufNode} {m k : Nat}

theorem spread_single (root : HufNode) : Spread root [] [root] [] [(root, 0)] := by
  refine ⟨rfl, rfl, ?_, ?_, List.pairwise_singleton _ _, ?_⟩ <;> simp

/-- Labels of what a merge leaves, and one label for the two nodes it takes, label the queues. -/
theorem MergeTurn.label {c1 c2 : List (HufNode × Nat)} (d : Nat)
    (h : MergeTurn q1 q2 x p1 p2 y (c1.map Prod.fst) (c2.map Prod.fst)) :
    ∃ d1 d2 : List (HufNode × Nat), d1.map Prod.fst = q1 ∧ d2.map Prod.fst = q2 ∧
      (d1 ++ d2).Perm ((x, d) :: (y, d) :: (c1 ++ c2)) ∧ (∀ v ∈ d2, v.2 = d ∨ v ∈ c2) ∧
      ((∀ v ∈ c2, v.2 ≤ d) → (c2.Pairwise fun u v => v.2 ≤ u.2) →
        d2.Pairwise fun u v => v.2 ≤ u.2) := by
  obtain ⟨e1, e2, hy, he1, he2⟩ := Takes.label (f := Prod.fst) (y, d) h.takesSecond
  have hfirst := h.takesFirst
  rw [← he1, ← he2] at hfirst
  obtain ⟨d1, d2, hx, hd1, hd2⟩ := Takes.label (f := Prod.fst) (x, d) hfirst
  have hsecond : ∀ v ∈ e2, v.2 = d ∨ v ∈ c2 := fun v hv =>
    (hy.mem_second hv).imp_left fun he => by rw [he]
  refine ⟨d1, d2, hd1, hd2, hx.perm.trans (hy.perm.cons _), fun v hv => ?_, fun hle horder => ?_⟩
  · exact (hx.mem_second hv).elim (fun he => .inl (by rw [he])) (hsecond v)
  · exact hx.pairwise_second (hy.pairwise_second horder hle) fun v hv =>
      (hsecond v hv).elim Nat.le_of_eq (hle v)

/-- The two nodes of a merge lie one below the node made of them (R164). -/
theorem MergeTurn.spread {c1 c2 : List (HufNode × Nat)} (h : MergeTurn q1 q2 x p1 p2 y r1 r2)
    (hs : Spread root r1 (r2 ++ [joinNodes x y]) c1 c2) : ∃ d1 d2, Spread root q1 q2 d1 d2 := by
  obtain ⟨c2, cj, rfl, rfl, hcj⟩ := List.map_eq_append_iff.1 hs.nodes
  obtain ⟨⟨j, d⟩, rfl, rfl⟩ := List.map_eq_singleton_iff.1 hcj
  obtain rfl := hs.leaves
  obtain ⟨d1, d2, hd1, hd2, hperm, hsecond, horder⟩ := h.label (d + 1)
  have hsub : ∀ u ∈ c1 ++ c2, u ∈ c1 ++ (c2 ++ [(joinNodes x y, d)]) := fun u hu => by
    rw [← List.append_assoc]; exact List.mem_append_left _ hu
  have hnew : ∀ u ∈ c1 ++ c2, u.2 ≤ d + 1 := fun u hu =>
    hs.near u (hsub u hu) (joinNodes x y, d) (by simp)
  obtain ⟨hnodes, -, hlast⟩ := List.pairwise_append.1 hs.order
  have hheavy : ∀ u ∈ c1 ++ c2, y.weight ≤ u.1.weight := fun u hu =>
    h.rest u.1 (by rw [← List.map_append]; exact List.mem_map_of_mem hu)
  have hcases : ∀ u ∈ d1 ++ d2, (u.2 = d + 1 ∧ u.1.weight ≤ y.weight) ∨ u ∈ c1 ++ c2 := by
    intro u hu
    rcases List.mem_cons.1 (hperm.mem_iff.1 hu) with rfl | hu
    · exact .inl ⟨rfl, h.least⟩
    · exact (List.mem_cons.1 hu).imp_left fun he => by rw [he]; exact ⟨rfl, Nat.le_refl _⟩
  have hall : ∀ u ∈ d1 ++ d2, u.2 ≤ d + 1 := fun u hu =>
    (hcases u hu).elim (fun he => he.1.le) (hnew u)
  refine ⟨d1, d2, hd1, hd2, ?_, fun u hu v hv hlt => ?_,
    horder (fun v hv => hnew v (List.mem_append_right _ hv)) hnodes, fun u hu v hv => ?_⟩
  · refine hs.depths.trans (List.Perm.trans ?_ (hperm.flatMap_right _).symm)
    rw [← List.append_assoc, List.flatMap_append]
    refine List.perm_append_comm.trans (.of_eq ?_)
    simp [joinNodes, HufTree.depths]
  · rcases hcases u hu with ⟨hud, -⟩ | hu
    · exact hud ▸ hall v hv
    · rcases hcases v hv with ⟨-, hvy⟩ | hv
      · have := hheavy u hu
        omega
      · exact hs.lighter u (hsub u hu) v (hsub v hv) hlt
  · rcases hsecond v hv with hvd | hv
    · exact hvd ▸ Nat.le_succ_of_le (hall u hu)
    · rcases hcases u hu with ⟨hud, -⟩ | hu
      · exact hud ▸ Nat.succ_le_succ (hlast v hv _ (List.mem_singleton_self _))
      · exact hs.near u (hsub u hu) v (List.mem_append_left _ hv)

/-- The merge of `k + 1` nodes ends with one tree that they all lie in (R164). -/
theorem mergeNodes_spread (hq : Queues m q1 q2) (hlen : q1.length + q2.length = k + 1)
    (h0 : k = 0 → q1 = []) :
    ∃ root c1 c2, mergeNodes k q1 q2 = some root ∧ Spread root q1 q2 c1 c2 := by
  induction k generalizing m q1 q2 with
  | zero =>
    obtain rfl := h0 rfl
    obtain ⟨root, rfl⟩ := List.length_eq_one_iff.1 (by simpa using hlen)
    exact ⟨root, [], [(root, 0)], rfl, spread_single root⟩
  | succ k ih =>
    obtain ⟨x, p1, p2, y, r1, r2, hturn⟩ := exists_mergeTurn hq (by omega)
    have hleft := hturn.length
    obtain ⟨root, c1, c2, hroot, hs⟩ := ih (hq.merge hturn)
      (by rw [List.length_append, List.length_singleton]; omega)
      fun hk => List.eq_nil_of_length_eq_zero (by omega)
    obtain ⟨d1, d2, hd⟩ := hturn.spread hs
    exact ⟨root, d1, d2, (hturn.mergeNodes_eq k).trans hroot, hd⟩

end Spread

/-! ## The depths of the merge (R168) -/

/-- The Kraft sum of the leaves of a tree below depth `d`. -/
theorem sum_depths (t : HufTree) (d : Nat) :
    ((t.depths d).map fun l => (1 / 2 : ℚ) ^ l.2).sum = (1 / 2) ^ d := by
  induction t generalizing d with
  | leaf sym => simp [HufTree.depths]
  | node x y ihx ihy =>
    rw [HufTree.depths, List.map_append, List.sum_append, ihx, ihy, pow_succ]
    ring

/-- The depths of the leaves under the one node left, if there is one (R164). -/
def rootDepths : Option HufNode → List (Nat × Nat)
  | none => []
  | some root => root.tree.depths 0

section Depths
variable {h : Huf}

theorem mergeDepths_eq (h : Huf) : h.mergeDepths =
    rootDepths (mergeNodes (h.active.length - 1) (sortNodes h.leaves) []) := rfl

theorem depthsInOrder_eq (h : Huf) :
    h.depthsInOrder = rootDepths (mergeInOrder (h.active.length - 1) h.leaves) := rfl

theorem length_leaves (h : Huf) : h.leaves.length = h.active.length := by
  rw [Huf.leaves, List.length_map]

theorem mergeDepths_eq_depthsInOrder (h2 : 2 ≤ h.active.length) :
    h.mergeDepths = h.depthsInOrder := by
  have hlen := length_leaves h
  have hmerge := mergeNodes_eq_mergeInOrder (leaves := h.leaves) (k := h.active.length - 1)
    (queues_start _) (by rw [List.length_nil]; omega) fun hk => by omega
  rw [List.append_nil] at hmerge
  rw [mergeDepths_eq, hmerge, depthsInOrder_eq]

/-- The leaf of a symbol (R164). -/
def Huf.leafNode (h : Huf) (sym : Nat) : HufNode := ⟨h.freqOf sym, .leaf sym⟩

theorem leafNode_injective (h : Huf) : Function.Injective h.leafNode := fun a b hab => by
  simpa [Huf.leafNode] using congrArg HufNode.tree hab

/-- The leaf of a symbol, labelled with its depth. -/
def Huf.leafAt (h : Huf) (l : Nat × Nat) : HufNode × Nat := (h.leafNode l.1, l.2)

theorem flatMap_leafAt (ds : List (Nat × Nat)) :
    ((ds.map h.leafAt).flatMap fun c => c.1.tree.depths c.2) = ds := by
  induction ds with
  | nil => rfl
  | cons l ds ih => rw [List.map_cons, List.flatMap_cons, ih]; rfl

/-- The depths are those of one tree, each symbol of non-zero frequency has one (R164), and no
symbol lies deeper than a less frequent one (R168). -/
theorem mergeDepths_tree (h2 : 2 ≤ h.active.length) : (∃ t : HufTree, h.mergeDepths = t.depths 0) ∧
    (h.mergeDepths.map Prod.fst).Perm h.active ∧
    ∀ a ∈ h.mergeDepths, ∀ b ∈ h.mergeDepths, h.freqOf b.1 < h.freqOf a.1 → a.2 ≤ b.2 := by
  have hsort := sortNodes_perm h.leaves
  have hlen := hsort.length_eq.trans (length_leaves h)
  obtain ⟨root, c1, c2, hroot, hs⟩ := mergeNodes_spread (k := h.active.length - 1)
    (queues_start h.leaves) (by rw [List.length_nil]; omega) fun hk => by omega
  obtain rfl := List.map_eq_nil_iff.1 hs.nodes
  have hdepths : h.mergeDepths = root.tree.depths 0 := by rw [mergeDepths_eq, hroot, rootDepths]
  obtain ⟨ds, rfl⟩ : c1 ∈ Set.range (List.map h.leafAt) := by
    rw [Set.range_list_map]
    intro c hc
    have hnode := hsort.mem_iff.1 (hs.leaves ▸ List.mem_map_of_mem (f := Prod.fst) hc)
    obtain ⟨sym, -, hsym⟩ := List.mem_map.1 hnode
    exact ⟨(sym, c.2), Prod.ext hsym rfl⟩
  have hperm : h.mergeDepths.Perm ds := by
    have hdepths' := hs.depths
    rwa [← hdepths, List.append_nil, flatMap_leafAt] at hdepths'
  refine ⟨⟨_, hdepths⟩, ?_, fun a ha b hb hlt => ?_⟩
  · have hnodes : (ds.map Prod.fst).map h.leafNode = sortNodes h.leaves := by
      rw [← hs.leaves, List.map_map, List.map_map]
      rfl
    exact (hperm.map _).trans ((List.map_perm_map_iff (leafNode_injective h)).1 (hnodes ▸ hsort))
  · have hmem : ∀ l ∈ h.mergeDepths, h.leafAt l ∈ ds.map h.leafAt ++ [] := fun l hl => by
      rw [List.append_nil]
      exact List.mem_map_of_mem (hperm.mem_iff.1 hl)
    exact hs.lighter _ (hmem b hb) _ (hmem a ha) hlt

end Depths

/-- Settles O42: the Kraft sum is that of any tree; the rest is `mergeDepths_tree`. -/
theorem mergeDepthsAreCompleteAndMonotone : Obligations.MergeDepthsAreCompleteAndMonotone := by
  intro h h2
  obtain ⟨⟨t, ht⟩, hsymbols, hmono⟩ := mergeDepths_tree h2
  refine ⟨hsymbols, ?_, hmono⟩
  rw [ht, sum_depths, pow_zero]

/-! ## The merge as a matter of the frequencies alone -/

/-- The leaves that a list of frequencies gives (R163). -/
def leavesOf (freqs : List Nat) : List HufNode :=
  ((List.range freqs.length).filter fun s => decide (0 < freqs.getD s 0)).map fun s =>
    ⟨freqs.getD s 0, .leaf s⟩

/-- The depths that the merge gives to leaves (R164). -/
def depthsOf (leaves : List HufNode) : List (Nat × Nat) :=
  rootDepths (mergeNodes (leaves.length - 1) (sortNodes leaves) [])

section Frequencies
variable {h : Huf} {freqs : List Nat}

theorem mergeDepths_eq_depthsOf (h : Huf) : h.mergeDepths = depthsOf h.leaves := by
  rw [mergeDepths_eq, depthsOf, length_leaves]

theorem leaves_eq_leavesOf (hf : (List.range h.nfreq).map h.freqOf = freqs) :
    h.leaves = leavesOf freqs := by
  have hlen : freqs.length = h.nfreq := by simp [← hf]
  have hget : ∀ s ∈ List.range h.nfreq, freqs.getD s 0 = h.freqOf s := fun s hs => by
    rw [← hf, List.getD_eq_getElem _ _ (by simpa using hs)]
    simp
  have hactive : ((List.range freqs.length).filter fun s => decide (0 < freqs.getD s 0)) =
      h.active := by
    rw [hlen]
    exact List.filter_congr fun s hs => by rw [hget s hs]
  rw [leavesOf, hactive]
  refine List.map_congr_left fun s hs => ?_
  rw [hget s (List.mem_filter.1 hs).1]

/-- The examples of R164 and R165, and one that another order of merging would change. -/
theorem depthsOf_examples : ∀ e ∈ [([5, 1, 1, 2], [1, 3, 3, 2]), ([1, 1, 1, 1], [2, 2, 2, 2]),
      ([1, 1, 2], [2, 2, 1]), ([2, 1, 1], [1, 2, 2]), ([1, 1, 2, 2], [2, 2, 2, 2])],
    (depthsOf (leavesOf e.1)).Perm (e.2.zipIdx.map Prod.swap) := by decide

end Frequencies

end Sys2Proof.Machine

/-! PROOF. HUF.MKENC (R163 to R167): the lengths that the merge gives are not over-subscribed, so
that BuildTable makes their canonical table. -/

namespace Sys2Proof.Machine

open Config

/-! ## The Kraft sum and the bit-space (R154, R168) -/

/-- The part of the Kraft sum that the symbols of length `l` and below make up. -/
def Huf.kraftUpTo (h : Huf) (l : Nat) : ℚ :=
  ((h.symbols.filter fun s => decide (0 < h.lenOf s ∧ h.lenOf s ≤ l)).map
    fun s => (1 / 2 : ℚ) ^ h.lenOf s).sum

/-- The Kraft sum of the lengths. -/
def Huf.kraft (h : Huf) : ℚ := (h.coded.map fun s => (1 / 2 : ℚ) ^ h.lenOf s).sum

/-- The elements of two kinds, in a list of which no element is of both. -/
theorem filter_or_perm {α : Type} (xs : List α) (p q r : α → Bool)
    (hr : ∀ x, r x = (p x || q x)) (hd : ∀ x, p x = true → q x = false) :
    (xs.filter r).Perm (xs.filter p ++ xs.filter q) := by
  induction xs with
  | nil => exact .refl _
  | cons x xs ih =>
    have hdx := hd x
    simp only [List.filter_cons, hr x]
    cases hp : p x
    · cases q x
      · exact ih
      · exact (ih.cons x).trans List.perm_middle.symm
    · rw [hdx hp]
      exact ih.cons x

section Kraft
variable {h : Huf}

theorem kraftUpTo_zero (h : Huf) : h.kraftUpTo 0 = 0 := by
  have hnone : (h.symbols.filter fun s => decide (0 < h.lenOf s ∧ h.lenOf s ≤ 0)) = [] :=
    List.filter_eq_nil_iff.2 fun s _ => by simp; omega
  rw [Huf.kraftUpTo, hnone]
  rfl

theorem kraftUpTo_succ (h : Huf) (l : Nat) :
    h.kraftUpTo (l + 1) = h.kraftUpTo l + h.countOf (l + 1) * (1 / 2) ^ (l + 1) := by
  have hperm := filter_or_perm h.symbols (fun s => decide (0 < h.lenOf s ∧ h.lenOf s ≤ l))
    (fun s => h.lenOf s == l + 1) (fun s => decide (0 < h.lenOf s ∧ h.lenOf s ≤ l + 1))
    (fun s => by rw [Bool.eq_iff_iff]; simp; omega) fun s hs => by simp at hs ⊢; omega
  have hlast : ∀ x ∈ (h.symbols.filter fun s => h.lenOf s == l + 1).map
      (fun s => (1 / 2 : ℚ) ^ h.lenOf s), x = (1 / 2) ^ (l + 1) := fun x hx => by
    obtain ⟨s, hs, rfl⟩ := List.mem_map.1 hx
    rw [eq_of_beq (List.mem_filter.1 hs).2]
  rw [Huf.kraftUpTo, (hperm.map _).sum_eq, List.map_append, List.sum_append,
    List.sum_eq_card_nsmul _ _ hlast, List.length_map, nsmul_eq_mul]
  rfl

theorem kraftUpTo_le (h : Huf) (l : Nat) : h.kraftUpTo l ≤ h.kraft := by
  refine List.Sublist.sum_le_sum (List.Sublist.map _ ?_) fun x hx => ?_
  · exact List.monotone_filter_right _ fun s hs => by simp at hs ⊢; exact hs.1
  · obtain ⟨s, -, rfl⟩ := List.mem_map.1 hx
    positivity

/-- The codes up to length `l` take up their part of the bit-space (R155). -/
theorem firstCode_add_countOf (h : Huf) (l : Nat) :
    ((h.firstCode l + if l = 0 then 0 else h.countOf l : Nat) : ℚ) = 2 ^ l * h.kraftUpTo l := by
  induction l with
  | zero => simp [Huf.firstCode, kraftUpTo_zero]
  | succ l ih =>
    rw [Huf.firstCode, if_neg (Nat.succ_ne_zero l), Nat.cast_add, Nat.cast_mul, ih, kraftUpTo_succ]
    have hpow : (2 : ℚ) ^ (l + 1) * (1 / 2) ^ (l + 1) = 1 := by rw [← mul_pow]; norm_num
    rw [mul_add, mul_left_comm _ (h.countOf (l + 1) : ℚ), hpow, pow_succ]
    push_cast
    ring

/-- Lengths whose Kraft sum is at most 1 are not over-subscribed (R154). -/
theorem notOversubscribed_of_kraft (hk : h.kraft ≤ 1) : h.NotOversubscribed := by
  intro l h1 _
  have hcodes := firstCode_add_countOf h l
  rw [if_neg (by omega)] at hcodes
  have hle : ((h.firstCode l + h.countOf l : Nat) : ℚ) ≤ (2 ^ l : Nat) := by
    rw [hcodes, Nat.cast_pow]
    exact mul_le_of_le_one_right (by positivity) ((kraftUpTo_le h l).trans hk)
  exact Nat.cast_le.1 hle

/-- Lengths of which none is set are not over-subscribed. -/
theorem notOversubscribed_of_coded_nil (hc : h.coded = []) : h.NotOversubscribed := by
  refine notOversubscribed_of_kraft ?_
  rw [Huf.kraft, hc]
  exact zero_le_one

end Kraft

/-! ## The lengths of HUF.MKENC (R163, R164) -/

section Loops
variable {w : Nat} {β : Type} {key : β → Nat} {val : β → BitVec w}

theorem read_foldl_write_other {xs : List β} {m : Memory w} (hm : m.wf = true) {k : Nat}
    (hk : k ∉ xs.map key) :
    (xs.foldl (fun m x => m.write (key x) (val x)) m).read k = m.read k := by
  induction xs generalizing m with
  | nil => rfl
  | cons x xs ih =>
    rw [List.map_cons, List.mem_cons, not_or] at hk
    rw [List.foldl_cons, ih (wf_write hm) hk.2, read_write_other hm _ hk.1]

theorem read_foldl_write_mem {xs : List β} {m : Memory w} (hm : m.wf = true)
    (hnodup : (xs.map key).Nodup) {x : β} (hx : x ∈ xs) :
    (xs.foldl (fun m x => m.write (key x) (val x)) m).read (key x) = val x := by
  induction xs generalizing m with
  | nil => cases hx
  | cons y xs ih =>
    rw [List.map_cons, List.nodup_cons] at hnodup
    rw [List.foldl_cons]
    rcases List.mem_cons.1 hx with rfl | hx
    · rw [read_foldl_write_other (wf_write hm) hnodup.1, read_write_same hm]
    · exact ih (wf_write hm) hnodup.2 hx

end Loops

section Lengths
variable {h : Huf}

theorem mem_active {sym : Nat} : sym ∈ h.active ↔ sym < h.nfreq ∧ 0 < h.freqOf sym := by
  simp [Huf.active]

theorem lenOf_zeroLengths (hw : h.len.wf = true) {sym : Nat} (hs : sym < h.nfreq) :
    h.zeroLengths.lenOf sym = 0 := by
  unfold Huf.zeroLengths Huf.lenOf
  rw [read_foldl_write (fun _ => 0#8) _ hw, if_pos (List.mem_range.2 hs)]
  rfl

theorem mergeDepths_nodup (h2 : 2 ≤ h.active.length) : (h.mergeDepths.map Prod.fst).Nodup := by
  obtain ⟨-, hsymbols, -⟩ := mergeDepths_tree h2
  exact hsymbols.nodup_iff.2 (List.nodup_range.filter _)

/-- The depth of a symbol is stored in 8 bits (R163, log 15). -/
theorem lenOf_mergeLengths (hw : h.len.wf = true) (h2 : 2 ≤ h.active.length) {d : Nat × Nat}
    (hd : d ∈ h.mergeDepths) (h8 : d.2 < 2 ^ 8) : h.mergeLengths.lenOf d.1 = d.2 := by
  unfold Huf.mergeLengths Huf.writeDepths Huf.lenOf
  rw [read_foldl_write_mem (wf_zeroLengths hw) (mergeDepths_nodup h2) hd, BitVec.toNat_ofNat,
    Nat.mod_eq_of_lt h8]

theorem lenOf_mergeLengths_zero (hw : h.len.wf = true) (h2 : 2 ≤ h.active.length) {sym : Nat}
    (hs : sym < h.nfreq) (h0 : h.freqOf sym = 0) : h.mergeLengths.lenOf sym = 0 := by
  obtain ⟨-, hsymbols, -⟩ := mergeDepths_tree h2
  have hnone : sym ∉ h.mergeDepths.map Prod.fst := fun hmem => by
    have := (mem_active.1 (hsymbols.mem_iff.1 hmem)).2
    omega
  have hread := read_foldl_write_other (val := fun d => BitVec.ofNat 8 d.2) (wf_zeroLengths hw)
    hnone
  have hzero := lenOf_zeroLengths hw hs
  unfold Huf.mergeLengths Huf.writeDepths Huf.lenOf
  rw [hread]
  exact hzero

/-- No leaf lies above the root of its tree. -/
theorem le_of_mem_depths {t : HufTree} {d : Nat} {l : Nat × Nat} (hl : l ∈ t.depths d) :
    d ≤ l.2 := by
  induction t generalizing d with
  | leaf sym => rw [List.mem_singleton.1 hl]
  | node x y ihx ihy =>
    rcases List.mem_append.1 hl with hl | hl
    · exact (Nat.le_succ d).trans (ihx hl)
    · exact (Nat.le_succ d).trans (ihy hl)

/-- With two symbols to merge every symbol lies below the root. -/
theorem mergeDepths_pos (h2 : 2 ≤ h.active.length) {d : Nat × Nat} (hd : d ∈ h.mergeDepths) :
    0 < d.2 := by
  obtain ⟨⟨t, ht⟩, hsymbols, -⟩ := mergeDepths_tree h2
  have hlen := hsymbols.length_eq
  rw [List.length_map, ht] at hlen
  rw [ht] at hd
  cases t with
  | leaf sym =>
    rw [HufTree.depths, List.length_singleton] at hlen
    omega
  | node x y => exact (List.mem_append.1 hd).elim le_of_mem_depths le_of_mem_depths

/-- The depths of the merge can be stored and coded (R167). -/
def Huf.DepthsLegal (h : Huf) : Prop := ∀ d ∈ h.mergeDepths, d.2 ≤ HUF_MAXLEN

theorem lenOf_mergeLengths_of_legal (hw : h.len.wf = true) (h2 : 2 ≤ h.active.length)
    (hlegal : h.DepthsLegal) {d : Nat × Nat} (hd : d ∈ h.mergeDepths) :
    h.mergeLengths.lenOf d.1 = d.2 :=
  lenOf_mergeLengths hw h2 hd ((hlegal d hd).trans_lt (by decide))

/-- A symbol that the merge has given a depth, or one with no frequency (R163). -/
theorem mergeLengths_cases (hw : h.len.wf = true) (h2 : 2 ≤ h.active.length)
    (hlegal : h.DepthsLegal) {sym : Nat} (hs : sym < h.nfreq) :
    (0 < h.freqOf sym ∧ 0 < h.mergeLengths.lenOf sym ∧ h.mergeLengths.lenOf sym ≤ HUF_MAXLEN) ∨
      (h.freqOf sym = 0 ∧ h.mergeLengths.lenOf sym = 0) := by
  rcases Nat.eq_zero_or_pos (h.freqOf sym) with h0 | h0
  · exact .inr ⟨h0, lenOf_mergeLengths_zero hw h2 hs h0⟩
  · obtain ⟨-, hsymbols, -⟩ := mergeDepths_tree h2
    obtain ⟨d, hd, rfl⟩ := List.mem_map.1 (hsymbols.mem_iff.2 (mem_active.2 ⟨hs, h0⟩))
    rw [lenOf_mergeLengths_of_legal hw h2 hlegal hd]
    exact .inl ⟨h0, mergeDepths_pos h2 hd, hlegal d hd⟩

theorem mergeLengths_legal (hw : h.len.wf = true) (h2 : 2 ≤ h.active.length)
    (hlegal : h.DepthsLegal) : h.mergeLengths.LengthsLegal := fun sym hs => by
  rcases mergeLengths_cases hw h2 hlegal hs with ⟨-, -, hle⟩ | ⟨-, h0⟩
  · exact hle
  · rw [h0]; exact Nat.zero_le _

theorem coded_mergeLengths (hw : h.len.wf = true) (h2 : 2 ≤ h.active.length)
    (hlegal : h.DepthsLegal) : h.mergeLengths.coded = h.active := by
  refine List.filter_congr fun sym hs => ?_
  rcases mergeLengths_cases hw h2 hlegal (List.mem_range.1 hs) with ⟨hf, hl, -⟩ | ⟨hf, hl⟩
  · simp [hf, hl]
  · simp [hf, hl]

/-- The lengths of the merge fill the bit-space (R168). -/
theorem kraft_mergeLengths (hw : h.len.wf = true) (h2 : 2 ≤ h.active.length)
    (hlegal : h.DepthsLegal) : h.mergeLengths.kraft = 1 := by
  obtain ⟨hsymbols, hsum, -⟩ := mergeDepthsAreCompleteAndMonotone h h2
  rw [Huf.kraft, coded_mergeLengths hw h2 hlegal, ← (hsymbols.map _).sum_eq, List.map_map]
  refine (congrArg List.sum (List.map_congr_left fun d hd => ?_)).trans hsum
  rw [Function.comp, lenOf_mergeLengths_of_legal hw h2 hlegal hd]

end Lengths

/-! ## One symbol (R166) -/

section OneSymbol
variable {h : Huf}

/-- HUF as the one-symbol case of HUF.MKENC hands it to BuildTable (R166). -/
def Huf.oneSymbol (h : Huf) (a : Nat) : Huf := { h.zeroLengths with defsym := BitVec.ofNat 16 a }

theorem Huf.Loading.oneSymbol (hl : h.Loading) (a : Nat) : (h.oneSymbol a).Loading := by
  have hz := hl.zeroLengths
  exact ⟨hz.memories, hz.nsymLe, hz.nfreqLe, hz.hstate, hz.ncodes, hz.lmax⟩

theorem lenOf_oneSymbol (hl : h.Loading) (a : Nat) {sym : Nat} (hs : sym < (h.oneSymbol a).nsym) :
    (h.oneSymbol a).lenOf sym = 0 := by
  obtain ⟨hlen, -⟩ := hl.memories
  exact lenOf_zeroLengths hlen hs

theorem coded_eq_nil {k : Huf} (hzero : ∀ sym < k.nsym, k.lenOf sym = 0) : k.coded = [] := by
  refine List.filter_eq_nil_iff.2 fun sym hs => ?_
  simp [hzero sym (List.mem_range.1 hs)]

/-- A table of symbols without code (R158). -/
theorem Huf.Canonical.no_codes {k : Huf} (hc : k.Canonical)
    (hzero : ∀ sym < k.nsym, k.lenOf sym = 0) : k.ncodes = 0 ∧ k.lmax = 0 := by
  refine ⟨by rw [hc.ncodes, coded_eq_nil hzero, List.length_nil], ?_⟩
  rcases hc.lmaxReached with hmax | ⟨sym, hs, hmax⟩
  · exact hmax
  · rw [← hmax, hzero sym hs]

end OneSymbol

/-! ## The command -/

section Commands
variable {s : State}

/-- HUF.MKENC in LOADING with a symbol to code (R163). -/
theorem exec_hufMkenc_loading (he : s.err .huf = none) (hl : s.huf.hstate = .loading)
    (ha : s.huf.active ≠ []) : exec .hufMkenc s = (makeEncoder s).finish .huf := by
  rw [exec, execHufMkenc, unlessSticky_none he, if_neg (not_not.mpr hl), if_neg ha]

/-- HUF.MKENC is rejected in BUILT (R163). -/
theorem exec_hufMkenc_built (he : s.err .huf = none) (hb : s.huf.hstate = .built) :
    exec .hufMkenc s = reject .state s := by
  rw [exec, execHufMkenc, unlessSticky_none he, if_pos (by rw [hb]; decide)]

/-- HUF.MKENC is rejected with no symbol to code (R163). -/
theorem exec_hufMkenc_none (he : s.err .huf = none) (hl : s.huf.hstate = .loading)
    (ha : s.huf.active = []) : exec .hufMkenc s = reject .noSym s := by
  rw [exec, execHufMkenc, unlessSticky_none he, if_neg (not_not.mpr hl), if_pos ha]

/-- The one-symbol case of HUF.MKENC (R166). -/
theorem makeEncoder_one {a : Nat} (ha : s.huf.active = [a]) : makeEncoder s =
    (buildTable { s with huf := s.huf.oneSymbol a }).bind fun _ t => Res.ok t.huf.ncodes t := by
  rw [makeEncoder, ha]
  rfl

/-- HUF.MKENC with symbols to merge (R163, R167). -/
theorem makeEncoder_merge (h2 : 2 ≤ s.huf.active.length) : makeEncoder s =
    if s.huf.tooDeep then .faulted .huf .hufLen { s with huf := s.huf.mergeLengths }
    else (buildTable { s with huf := s.huf.mergeLengths }).bind
      fun _ t => Res.ok t.huf.ncodes t := by
  unfold makeEncoder
  split
  · rename_i a ha
    rw [ha, List.length_singleton] at h2
    omega
  · rfl

theorem tooDeep_eq_false {h : Huf} : h.tooDeep = false ↔ h.DepthsLegal := by
  simp [Huf.tooDeep, Huf.DepthsLegal]

theorem active_ne_nil {h : Huf} (h2 : 2 ≤ h.active.length) : h.active ≠ [] := fun hnil => by
  rw [hnil, List.length_nil] at h2
  omega

end Commands

/-- Settles O41: the lengths of the merge are legal and fill the bit-space, so BuildTable makes
their table; the order of the merge is `mergeDepths_eq_depthsInOrder`. -/
theorem mkencBuildsTheMergeTable : Obligations.MkencBuildsTheMergeTable := by
  refine ⟨fun s he hload hi h2 hlegal => ?_, fun h h2 => mergeDepths_eq_depthsInOrder h2,
    fun h freqs lens hmem hfreqs sym d => ?_⟩
  · have hw : s.huf.len.wf = true := hi.canonical.1
    have hl : s.huf.mergeLengths.Loading := (hi.loading hload).zeroLengths.writeDepths _
    obtain ⟨k, hk, hfin⟩ := finish_buildTable_builds (s := { s with huf := s.huf.mergeLengths }) hl
      (mergeLengths_legal hw h2 hlegal)
      (notOversubscribed_of_kraft (kraft_mergeLengths hw h2 hlegal).le)
    have hlen := hk.sameLengths.lenOf
    refine ⟨k, ?_, hk.hstate, hk.canonical, hk.inv, hk.nsym, ?_, fun d hd => ?_,
      fun sym hs h0 => ?_, hk.freq, hk.nfreq, hk.defsym, hk.err.trans he⟩
    · rw [exec_hufMkenc_loading he hload (active_ne_nil h2), makeEncoder_merge h2,
        tooDeep_eq_false.2 hlegal]
      exact hfin
    · rw [hk.canonical.ncodes, hk.sameLengths.coded]
      exact congrArg List.length (coded_mergeLengths hw h2 hlegal)
    · exact (hlen d.1).trans (lenOf_mergeLengths_of_legal hw h2 hlegal hd)
    · exact (hlen sym).trans (lenOf_mergeLengths_zero hw h2 hs h0)
  · rw [mergeDepths_eq_depthsOf, leaves_eq_leavesOf hfreqs, (depthsOf_examples _ hmem).mem_iff,
      List.mem_map]
    simp [List.mem_zipIdx_iff_getElem?]

/-- Settles O43: with one symbol the lengths are all 0; a depth that is too large faults before
BuildTable. -/
theorem mkencCornerCases : Obligations.MkencCornerCases := by
  intro s he hi
  refine ⟨exec_hufMkenc_built he, exec_hufMkenc_none he, fun a hload ha => ?_,
    fun hload h2 hdeep => ?_⟩
  · have hl := hi.loading hload
    have hzero : ∀ sym < (s.huf.oneSymbol a).nsym, (s.huf.oneSymbol a).lenOf sym = 0 :=
      fun sym hs => lenOf_oneSymbol hl a hs
    obtain ⟨k, hk, hfin⟩ := finish_buildTable_builds (s := { s with huf := s.huf.oneSymbol a })
      (hl.oneSymbol a) (fun sym hs => by rw [hzero sym hs]; exact Nat.zero_le _)
      (notOversubscribed_of_coded_nil (coded_eq_nil hzero))
    have hlen : ∀ sym < k.nsym, k.lenOf sym = 0 := fun sym hs =>
      (hk.sameLengths.lenOf sym).trans (hzero sym (hk.nsym ▸ hs))
    obtain ⟨hncodes, hlmax⟩ := hk.canonical.no_codes hlen
    refine ⟨k, ?_, hk.hstate, hk.inv, ?_, hncodes, hlmax, hk.nsym, hlen, hk.freq, hk.nfreq,
      hk.err.trans he⟩
    · rw [exec_hufMkenc_loading he hload (by rw [ha]; exact List.cons_ne_nil _ _),
        makeEncoder_one ha, ← hncodes]
      exact hfin
    · have hmem : a ∈ s.huf.active := by rw [ha]; exact List.mem_singleton_self a
      have hlt : a < 512 := (mem_active.1 hmem).1.trans_le hi.nfreqLe
      rw [hk.defsym]
      exact Nat.mod_eq_of_lt (by omega)
  · have htoo : s.huf.tooDeep = true := by
      rw [← Bool.not_eq_false, tooDeep_eq_false]
      intro hlegal
      obtain ⟨d, hd, hlt⟩ := hdeep
      exact absurd (hlegal d hd) (Nat.not_le.mpr hlt)
    refine ⟨{ s.huf.mergeLengths with err := some .hufLen }, ?_, hload, rfl, rfl, rfl, rfl, rfl,
      fun d hd h8 => lenOf_mergeLengths hi.canonical.1 h2 hd h8⟩
    rw [exec_hufMkenc_loading he hload (active_ne_nil h2), makeEncoder_merge h2, if_pos htoo,
      finish_huf_faulted]
    rfl

end Sys2Proof.Machine

/-! PROOF. HUF.GETSYM (R159, R160): the bits read are a code exactly when they fall in the class of
their number, and until then DecodeSym reads on. -/

namespace Sys2Proof.Machine

open Config

/-! ## Codes as bits (R170) -/

theorem codeBits_packMsb (bs : List Bool) : codeBits bs.length (packMsb bs) = bs :=
  bitsOf_packBits .msb bs

theorem packMsb_codeBits {l code : Nat} (hc : code < 2 ^ l) : packMsb (codeBits l code) = code :=
  (packBits_bitsOf .msb l code).trans (Nat.mod_eq_of_lt hc)

theorem packMsb_concat (bs : List Bool) (b : Bool) :
    packMsb (bs ++ [b]) = 2 * packMsb bs + b.toNat := by
  simp [packMsb]

section Codes
variable {h : Huf} {sym l code : Nat} {bs : List Bool}

@[simp] theorem length_wireCode (h : Huf) (sym : Nat) : (h.wireCode sym).length = h.lenOf sym :=
  length_codeBits _ _

/-- The bits are the code of a symbol. -/
def Huf.IsCode (h : Huf) (bs : List Bool) : Prop :=
  ∃ sym < h.nsym, 0 < h.lenOf sym ∧ h.wireCode sym = bs

/-- The class test of a legal length, from the lengths alone (R155, R160). -/
theorem Huf.Canonical.inClass_iff (hc : h.Canonical) (h1 : 1 ≤ l) (hl : l ≤ HUF_MAXLEN) :
    h.inClass l code = true ↔ h.firstCode l ≤ code ∧ code - h.firstCode l < h.countOf l := by
  rw [Huf.inClass, hc.first l h1 hl, hc.count l h1 hl, decide_eq_true_iff]
  omega

/-- A code of a class is that of one of its symbols. -/
theorem Huf.Canonical.exists_code (hc : h.Canonical) (h1 : 1 ≤ l) (hl : l ≤ HUF_MAXLEN)
    (hin : h.inClass l code = true) :
    ∃ sym < h.nsym, h.lenOf sym = l ∧ h.canonicalCode sym = code := by
  obtain ⟨hfirst, hcount⟩ := (hc.inClass_iff h1 hl).1 hin
  have hnext := baseOf_succ h h1
  have hplace : h.baseOf l + (code - h.firstCode l) < h.coded.length := by
    rw [length_coded hc.lengthsLegal]
    have := baseOf_mono h (Nat.le_add_left 1 l) (show l + 1 ≤ HUF_MAXLEN + 1 by omega)
    omega
  obtain ⟨sym, hs, h0, hp⟩ := exists_place hc.lengthsLegal hplace
  have hlen : h.lenOf sym = l := by
    rcases Nat.lt_trichotomy (h.lenOf sym) l with hlt | heq | hgt
    · have := place_lt_baseOf hs h0 hlt
      omega
    · exact heq
    · have := baseOf_mono h (Nat.le_add_left 1 l) hgt
      rw [Huf.place] at hp
      omega
  refine ⟨sym, hs, hlen, ?_⟩
  rw [Huf.place, hlen] at hp
  rw [Huf.canonicalCode, hlen]
  omega

theorem Huf.Canonical.packMsb_wireCode (hc : h.Canonical) (hs : sym < h.nsym)
    (h0 : 0 < h.lenOf sym) : packMsb (h.wireCode sym) = h.canonicalCode sym := by
  rw [hc.wireCode_eq hs h0,
    packMsb_codeBits (canonicalCode_lt hc.notOversubscribed hc.lengthsLegal hs h0)]

/-- The code of a symbol falls in its class and leads to the symbol (R160). -/
theorem Huf.Canonical.class_of_wireCode (hc : h.Canonical) (hs : sym < h.nsym)
    (h0 : 0 < h.lenOf sym) : h.inClass (h.lenOf sym) (packMsb (h.wireCode sym)) = true ∧
      h.symbolAt (h.lenOf sym) (packMsb (h.wireCode sym)) = sym := by
  have hl := hc.lengthsLegal sym hs
  have hrank := rank_lt_countOf hs
  rw [hc.packMsb_wireCode hs h0]
  refine ⟨(hc.inClass_iff h0 hl).2 ?_, ?_⟩
  · unfold Huf.canonicalCode
    omega
  · rw [Huf.symbolAt, hc.base _ h0 hl, hc.first _ h0 hl, Huf.canonicalCode, Nat.add_sub_cancel_left]
    exact hc.sorted_place hs h0

/-- Bits fall in the class of their number exactly when they are a code (R160). -/
theorem Huf.Canonical.inClass_bits (hc : h.Canonical) (h1 : 1 ≤ bs.length)
    (hl : bs.length ≤ HUF_MAXLEN) : h.inClass bs.length (packMsb bs) = true ↔ h.IsCode bs := by
  constructor
  · intro hin
    obtain ⟨sym, hs, hlen, hcode⟩ := hc.exists_code h1 hl hin
    have h0 : 0 < h.lenOf sym := by omega
    exact ⟨sym, hs, h0, by rw [hc.wireCode_eq hs h0, hlen, hcode, codeBits_packMsb]⟩
  · rintro ⟨sym, hs, h0, rfl⟩
    rw [length_wireCode]
    exact (hc.class_of_wireCode hs h0).1

theorem Huf.Canonical.lmax_le (hc : h.Canonical) : h.lmax ≤ HUF_MAXLEN := by
  rcases hc.lmaxReached with hmax | ⟨sym, hs, hmax⟩
  · rw [hmax]; exact Nat.zero_le _
  · rw [← hmax]; exact hc.lengthsLegal sym hs

end Codes

/-! ## DecodeSym -/

section Decode
variable {s t : State} {bs rest pre : List Bool}

theorem State.Reads.huf (h : s.Reads bs t) : t.huf = s.huf := by rw [h.frame.rest]

/-- One turn of DecodeSym's loop that has a bit to read (R160). -/
theorem decodeFrom_getBit {b : Bool} {l : Nat} {ls : List Nat} (ht : getBit s = .ok b t)
    (hr : s.Reads [b] t) : decodeFrom (l :: ls) (packMsb pre) s =
      if s.huf.inClass l (packMsb (pre ++ [b])) then .ok (s.huf.symbolAt l (packMsb (pre ++ [b]))) t
      else decodeFrom ls (packMsb (pre ++ [b])) t := by
  rw [decodeFrom_cons, ht, bind_ok, hr.huf, packMsb_concat]

/-- After the bits `pre`, DecodeSym reads on over bits that complete no code (R160). -/
theorem decodeFrom_reads {n : Nat} (he : s.br.err = none) (hi : s.br.Inv) (hc : s.huf.Canonical)
    (hbits : s.readerBits = bs ++ rest) (hlen : pre.length + bs.length ≤ HUF_MAXLEN)
    (hno : ∀ p, p <+: bs → p ≠ [] → ¬ s.huf.IsCode (pre ++ p)) :
    ∃ t, s.Reads bs t ∧ decodeFrom (List.range' (pre.length + 1) (bs.length + n)) (packMsb pre) s =
      decodeFrom (List.range' (pre.length + bs.length + 1) n) (packMsb (pre ++ bs)) t := by
  induction bs generalizing s pre with
  | nil => exact ⟨s, .refl hi, by simp⟩
  | cons b bs ih =>
    obtain ⟨t, ht, hframe, hrest, hinv, -⟩ := getBit_next he hi hbits
    have hread := getBit_reads hi b t ht
    rw [List.length_cons] at hlen
    have hclass : ¬ s.huf.inClass (pre.length + 1) (packMsb (pre ++ [b])) = true := by
      have hiff := hc.inClass_bits (bs := pre ++ [b]) (by simp) (by simp; omega)
      rw [List.length_append, List.length_singleton] at hiff
      rw [hiff]
      exact hno [b] (by simp) (List.cons_ne_nil _ _)
    obtain ⟨u, hu, hdecode⟩ := ih (pre := pre ++ [b]) (hframe.err.trans he) hinv
      (by rw [hread.huf]; exact hc) hrest (by simp; omega) fun p hp _ => by
        rw [hread.huf, List.append_assoc]
        exact hno (b :: p) (List.cons_prefix_cons.2 ⟨rfl, hp⟩) (List.cons_ne_nil _ _)
    refine ⟨u, hread.append hu, ?_⟩
    rw [List.length_cons, Nat.add_right_comm, List.range'_succ, decodeFrom_getBit ht hread,
      if_neg hclass]
    simp only [List.length_append, List.length_singleton, List.append_assoc,
      List.singleton_append] at hdecode
    rw [hdecode, Nat.add_assoc pre.length 1, Nat.add_comm 1]

end Decode

/-! ## The command -/

section Commands
variable {s : State}

/-- HUF.GETSYM on a table with codes (R159). -/
theorem exec_hufGetsym_coded (he : s.err .huf = none) (hb : s.huf.hstate = .built)
    (hn : s.huf.ncodes ≠ 0) :
    exec .hufGetsym s = (decodeFrom (List.range' 1 s.huf.lmax) (packMsb []) s).finish .huf := by
  rw [exec, execHufGetsym, unlessSticky_none he, if_neg (not_not.mpr hb), decodeSym, if_neg hn]
  rfl

/-- HUF.GETSYM over bits of which none completes a code (R160). -/
theorem exec_hufGetsym_reads {bs rest : List Bool} (he : s.err .huf = none)
    (hb : s.huf.hstate = .built) (hn : s.huf.ncodes ≠ 0) (hi : s.huf.Inv) (hbe : s.br.err = none)
    (hbi : s.br.Inv) (hbits : s.readerBits = bs ++ rest) (hlen : bs.length ≤ s.huf.lmax)
    (hno : ∀ p, p <+: bs → ¬ s.huf.IsCode p) : ∃ t, s.Reads bs t ∧ exec .hufGetsym s =
      (decodeFrom (List.range' (bs.length + 1) (s.huf.lmax - bs.length)) (packMsb bs) t).finish
        .huf := by
  have hc := hi.table hb
  obtain ⟨t, ht, hdecode⟩ := decodeFrom_reads (pre := []) (n := s.huf.lmax - bs.length) hbe hbi hc
    hbits (by rw [List.length_nil, Nat.zero_add]; exact hlen.trans hc.lmax_le)
    fun p hp _ => hno p hp
  refine ⟨t, ht, ?_⟩
  rw [exec_hufGetsym_coded he hb hn]
  simp only [List.length_nil, Nat.zero_add, Nat.add_sub_cancel' hlen, List.nil_append] at hdecode
  rw [hdecode]

end Commands

/-- A code has a last bit, and the bits before it begin no other code (R28). -/
theorem Huf.Canonical.wireCode_concat {h : Huf} (hc : h.Canonical) {sym : Nat} (hs : sym < h.nsym)
    (h0 : 0 < h.lenOf sym) : ∃ bs b, h.wireCode sym = bs ++ [b] ∧ bs.length + 1 = h.lenOf sym ∧
      ∀ p, p <+: bs → ¬ h.IsCode p := by
  have hlen := length_wireCode h sym
  obtain ⟨bs, b, hwire⟩ := (List.eq_nil_or_concat' (h.wireCode sym)).resolve_left fun hnil => by
    rw [hnil, List.length_nil] at hlen
    omega
  rw [hwire, List.length_append, List.length_singleton] at hlen
  refine ⟨bs, b, hwire, hlen, fun p hp ⟨other, ho, ho0, hcode⟩ => ?_⟩
  have hne : other ≠ sym := fun he => by
    have hle := hp.length_le
    rw [← hcode, length_wireCode, he] at hle
    omega
  refine canonicalCode_not_begin hc.notOversubscribed hc.lengthsLegal ho hs ho0 h0 hne ?_
  rw [← hc.wireCode_eq ho ho0, ← hc.wireCode_eq hs h0, hcode, hwire]
  exact hp.trans (List.prefix_append _ _)

/-- Settles O39: no proper beginning of a code is a code, so DecodeSym reads the whole of it. -/
theorem getsymDecodesItsCode : Obligations.GetsymDecodesItsCode := by
  intro s sym rest he hb hi hbe hbi hs h0 hbits
  have hc := hi.table hb
  have hlmax := hc.lmaxUpper sym hs
  obtain ⟨bs, b, hwire, hlen, hno⟩ := hc.wireCode_concat hs h0
  rw [hwire, List.append_assoc, List.singleton_append] at hbits
  obtain ⟨t, ht, hexec⟩ := exec_hufGetsym_reads he hb (ncodes_ne_zero hi hb hs h0) hi hbe hbi hbits
    (by omega) hno
  have hrest : t.readerBits = b :: rest := List.append_cancel_left (ht.bits.symm.trans hbits)
  obtain ⟨u, hu, -⟩ := getBit_next (ht.frame.err.trans hbe) ht.inv hrest
  have hread := getBit_reads ht.inv b u hu
  have hall : s.Reads (s.huf.wireCode sym) u := hwire ▸ ht.append hread
  obtain ⟨hclass, hsymbol⟩ := hc.class_of_wireCode hs h0
  refine ⟨u.br, u.src, ?_, hall.consumed⟩
  rw [hexec, show s.huf.lmax - bs.length = s.huf.lmax - s.huf.lenOf sym + 1 by omega,
    List.range'_succ, decodeFrom_getBit hu hread, ht.huf, hlen, ← hwire, if_pos hclass, hsymbol,
    finish_ok, hall.respond]

/-- Settles O40: over bits that no code begins DecodeSym reads all lengths, or all bits there
are. -/
theorem getsymFaults : Obligations.GetsymFaults := by
  intro s bs rest he hb hi hn hbe hbi hbits hnone
  have hno : ∀ p, p <+: bs → ¬ s.huf.IsCode p := fun p hp ⟨sym, hs, h0, hcode⟩ =>
    hnone sym hs h0 (hcode ▸ hp)
  have hreads := fun hle => exec_hufGetsym_reads he hb hn.ne' hi hbe hbi hbits hle hno
  refine ⟨fun hlen => ?_, fun hnil hlen => ?_⟩
  · obtain ⟨t, ht, hexec⟩ := hreads hlen.le
    refine ⟨t.br, t.src, ht.consumed, ?_⟩
    rw [hexec, hlen, Nat.sub_self, List.range'_zero, decodeFrom, finish_huf_faulted, ht.huf,
      ht.frame.rest]
    rfl
  · obtain ⟨t, ht, hexec⟩ := hreads hlen.le
    rw [hnil, List.append_nil] at hbits
    subst hbits
    refine ⟨t.br.ended s.src.ending, (asked t).src, ht.exhausted hbe hbi, ?_⟩
    obtain ⟨n, hlmax⟩ : ∃ n, s.huf.lmax - s.readerBits.length = n + 1 :=
      ⟨s.huf.lmax - s.readerBits.length - 1, by omega⟩
    rw [hexec, hlmax, List.range'_succ, decodeFrom_cons,
      getBit_end (ht.frame.err.trans hbe) ht.inv ht.rest_eq, endOfStream_bind,
      ht.finish_endOfStream hbe hbi]

end Sys2Proof.Machine

/-! PROOF. The other commands of HUF: loading lengths and frequencies (R151, R152, R161, R162),
symbols with and without a code (R158, R159, R169), and reading a row of the table (R171). -/

namespace Sys2Proof.Machine

open Config

/-! ## HUF.CLEAR, HUF.SETDEF, HUF.PUSH and HUF.FPUSH -/

section Loading
variable {s : State}

theorem exec_hufClear (s : State) :
    exec .hufClear s = .next (State.respond { s with huf := s.huf.cleared } 0) := by
  rw [exec, execHufClear]

theorem exec_hufSetdef (sym : BitVec 16) (he : s.err .huf = none) : exec (.hufSetdef sym) s =
    .next (State.respond { s with huf := { s.huf with defsym := sym } } 0) := by
  rw [exec, execHufSetdef, unlessSticky_none he]

/-- HUF is either LOADING or BUILT (R150). -/
theorem hstate_ne_loading {h : Huf} : h.hstate ≠ .loading ↔ h.hstate = .built := by
  cases h.hstate <;> simp

theorem exec_hufPush (len : BitVec 8) (he : s.err .huf = none) : exec (.hufPush len) s =
    if s.huf.hstate = .built then reject .state s
    else if s.huf.nsym = HUF_NSYM_MAX then reject .full s
    else .next (State.respond { s with huf := { s.huf with
      len := s.huf.len.write s.huf.nsym len, nsym := s.huf.nsym + 1 } } s.huf.nsym) := by
  simp only [exec, execHufPush, unlessSticky_none he, hstate_ne_loading]

theorem exec_hufFpush (freq : Word) (he : s.err .huf = none) : exec (.hufFpush freq) s =
    if s.huf.hstate = .built then reject .state s
    else if s.huf.nfreq = HUF_NSYM_MAX then reject .full s
    else .next (State.respond { s with huf := { s.huf with
      freq := s.huf.freq.write s.huf.nfreq freq, nfreq := s.huf.nfreq + 1 } } s.huf.nfreq) := by
  simp only [exec, execHufFpush, unlessSticky_none he, hstate_ne_loading]

end Loading

/-- Settles O35: each command is its rule after the checks of R226; the entry written is read back
by `read_write`. -/
theorem clearSetdefPushAndFpush : Obligations.ClearSetdefPushAndFpush :=
  ⟨exec_hufClear, fun s sym len freq he => ⟨exec_hufSetdef sym he, exec_hufPush len he,
    exec_hufFpush freq he, fun hw k => read_write hw s.huf.nsym k len,
    fun hw k => read_write hw s.huf.nfreq k freq⟩⟩

/-! ## Symbols with and without a code -/

/-- Settles O44: the bits are the symbol's code, which `putBits_accepted` says is accepted. -/
theorem putsymWritesItsCode : Obligations.PutsymWritesItsCode := by
  intro s sym he hb hi hs h0 hr
  have hlegal := (hi.table hb).lengthsLegal sym.toNat hs
  rw [exec_hufPutsym_coded he hb hi hs h0]
  refine finish_accepted ?_ ?_ .huf _
  · rwa [length_wireCode]
  · rw [length_wireCode]
    exact hlegal.trans (by decide)

section Commands
variable {s : State} {sym : BitVec 16}

theorem exec_hufGetsym_loading (he : s.err .huf = none) (hl : s.huf.hstate = .loading) :
    exec .hufGetsym s = reject .state s := by
  rw [exec, execHufGetsym, unlessSticky_none he, if_pos (by rw [hl]; decide)]

/-- HUF.GETSYM on a table with no codes (R158, R159). -/
theorem exec_hufGetsym_default (he : s.err .huf = none) (hb : s.huf.hstate = .built)
    (hn : s.huf.ncodes = 0) : exec .hufGetsym s = .next (s.respond s.huf.defsym.toNat) := by
  rw [exec, execHufGetsym, unlessSticky_none he, if_neg (not_not.mpr hb), decodeSym, if_pos hn,
    finish_ok]

theorem exec_hufPutsym_loading (he : s.err .huf = none) (hl : s.huf.hstate = .loading) :
    exec (.hufPutsym sym) s = reject .state s := by
  rw [exec, execHufPutsym, unlessSticky_none he, if_pos (by rw [hl]; decide)]

/-- HUF.PUTSYM on a table with no codes (R158, R169). -/
theorem exec_hufPutsym_default (he : s.err .huf = none) (hb : s.huf.hstate = .built)
    (hn : s.huf.ncodes = 0) : exec (.hufPutsym sym) s =
      if sym = s.huf.defsym then .next (s.respond 0) else reject .noSym s := by
  rw [exec, execHufPutsym, unlessSticky_none he, if_neg (not_not.mpr hb), if_pos hn, ite_not]

/-- HUF.PUTSYM of a symbol that the table has no code for (R169). -/
theorem exec_hufPutsym_codeless (he : s.err .huf = none) (hb : s.huf.hstate = .built)
    (hn : s.huf.ncodes ≠ 0) (hsym : s.huf.nsym ≤ sym.toNat ∨ s.huf.lenOf sym.toNat = 0) :
    exec (.hufPutsym sym) s = reject .noSym s := by
  rw [exec, execHufPutsym, unlessSticky_none he, if_neg (not_not.mpr hb), if_neg hn, if_pos hsym]

theorem exec_hufRdlen_loading (he : s.err .huf = none) (hl : s.huf.hstate = .loading) :
    exec (.hufRdlen sym) s = reject .state s := by
  rw [exec, execHufRdlen, unlessSticky_none he, if_pos (by rw [hl]; decide)]

theorem exec_hufRdlen_above (he : s.err .huf = none) (hb : s.huf.hstate = .built)
    (hs : s.huf.nsym ≤ sym.toNat) : exec (.hufRdlen sym) s = reject .operand s := by
  rw [exec, execHufRdlen, unlessSticky_none he, if_neg (not_not.mpr hb), if_pos hs]

theorem exec_hufRdlen_row (he : s.err .huf = none) (hb : s.huf.hstate = .built)
    (hs : sym.toNat < s.huf.nsym) :
    exec (.hufRdlen sym) s = .next (s.answer (s.huf.lenRow sym.toNat) 0#32) := by
  rw [exec, execHufRdlen, unlessSticky_none he, if_neg (not_not.mpr hb), if_neg (Nat.not_le.mpr hs)]

/-- The row as a number: the length in bits 7..0, the code in bits 23..8 (R171). -/
theorem toNat_lenRow (h : Huf) (sym : Nat) : (h.lenRow sym).toNat =
    if h.lenOf sym = 0 then 0 else h.lenOf sym + 2 ^ 8 * (h.code.read sym).toNat := by
  unfold Huf.lenRow
  split
  case isTrue => rfl
  case isFalse =>
    rw [BitVec.toNat_append, BitVec.toNat_append, BitVec.toNat_ofNat, Nat.zero_mod,
      Nat.zero_shiftLeft, Nat.zero_or, ← Nat.shiftLeft_add_eq_or_of_lt (h.len.read sym).isLt,
      Nat.shiftLeft_eq, Nat.mul_comm, Nat.add_comm]
    rfl

end Commands

/-- Settles O45: by the cases of the two commands in which no code is used. -/
theorem symbolsWithoutACode : Obligations.SymbolsWithoutACode :=
  fun _ _ he => ⟨exec_hufGetsym_loading he, exec_hufGetsym_default he, exec_hufPutsym_loading he,
    exec_hufPutsym_default he, fun hb hn => exec_hufPutsym_codeless he hb hn.ne'⟩

/-- Settles O46: by the cases of the command, and `toNat_lenRow`. -/
theorem rdlenReadsOneRow : Obligations.RdlenReadsOneRow :=
  fun s sym he => ⟨exec_hufRdlen_loading he, exec_hufRdlen_above he,
    fun hb hs => ⟨s.huf.lenRow sym.toNat, exec_hufRdlen_row he hb hs, toNat_lenRow s.huf sym.toNat⟩⟩

end Sys2Proof.Machine

/-! PROOF. The codes an ERR field can hold (R222), and ESTATE between commands (R203). -/

namespace Sys2Proof.Machine

open Config

/-! ## ERR fields (R222) -/

section Err
variable {s t : State} {i : Instr} {c : FaultCode} {u v : CodecUnit}

/-- The units whose commands read bits. -/
theorem unit_of_readsBits (hi : readsBits i = true) : i.unit = .br ∨ i.unit = .huf ∨ i.unit = .lzd := by
  cases i with
  | brGetbit | brRead => exact .inl rfl
  | hufGetsym => exact .inr (.inl rfl)
  | lzdStep | lzdRun => exact .inr (.inr rfl)
  | _ => cases hi

/-- The units whose commands write bits. -/
theorem unit_of_writesBits (hi : writesBits i = true) :
    i.unit = .bw ∨ i.unit = .huf ∨ i.unit = .lze := by
  cases i with
  | bwPutbit | bwWrite | bwFlush => exact .inl rfl
  | hufPutsym => exact .inr (.inl rfl)
  | lzeLit | lzeRef | lzeFlush => exact .inr (.inr rfl)
  | _ => cases hi

/-- Every unit whose commands read bits can take what the reader detects (R222). -/
theorem possible_of_reader (hc : c.possible .br = true) (hu : u = .br ∨ u = .huf ∨ u = .lzd) :
    c.possible u = true := by
  rcases (by simpa [FaultCode.possible] using hc : c = .eos ∨ c = .src) with rfl | rfl <;>
    rcases hu with rfl | rfl | rfl <;> rfl

/-- Every unit whose commands write bits can take what the writer detects (R222). -/
theorem possible_of_writer (hc : c.possible .bw = true) (hu : u = .bw ∨ u = .huf ∨ u = .lze) :
    c.possible u = true := by
  obtain rfl : c = .snk := by simpa [FaultCode.possible] using hc
  rcases hu with rfl | rfl | rfl <;> rfl

theorem possible_detector (c : FaultCode) : c.possible c.detector = true := by
  cases c <;> rfl

/-- A fault is one that the detecting unit and the command's own unit can have (R222). -/
theorem Detects.possible (h : Detects i s v c) (hs : s.ErrInv) :
    c.possible v = true ∧ c.possible i.unit = true := by
  cases h with
  | reader hi hf =>
    obtain ⟨rfl, hcode⟩ := hf
    have hc : c.possible .br = true := by
      rcases hcode with hsticky | ⟨-, rfl | rfl⟩
      · exact hs .br c hsticky
      · rfl
      · rfl
    exact ⟨hc, possible_of_reader hc (unit_of_readsBits hi)⟩
  | writer hi hf =>
    obtain ⟨rfl, hcode⟩ := hf
    have hc : c.possible .bw = true := by
      rcases hcode with hsticky | ⟨-, rfl⟩
      · exact hs .bw c hsticky
      · rfl
    exact ⟨hc, possible_of_writer hc (unit_of_writesBits hi)⟩
  | own hv hc _ =>
    have hp : c.possible v = true := hc ▸ possible_detector c
    exact ⟨hp, hv ▸ hp⟩

/-- Leaving an ERR field, or clearing it, keeps it at a code it can hold. -/
theorem State.ErrInv.of_err (hs : s.ErrInv) (h : ∀ u, t.err u = s.err u ∨ t.err u = none) :
    t.ErrInv := by
  intro u c hc
  rcases h u with heq | hnone
  · exact hs u c (heq.symm.trans hc)
  · rw [hnone] at hc; cases hc

theorem State.ErrInv.takeFault (hs : s.ErrInv) (hu : c.possible u = true)
    (hv : c.possible v = true) : (s.takeFault u v c).ErrInv := by
  intro w d hd
  rw [takeFault_err] at hd
  split at hd
  case isTrue hw =>
    cases hd
    obtain ⟨-, rfl | rfl⟩ := hw
    · exact hu
    · exact hv
  case isFalse => exact hs w d hd

/-- Every command keeps each ERR field at a code it can hold (R222). -/
theorem exec_keepsErr (hs : s.ErrInv) : Keeps State.ErrInv (exec i s) := by
  have hcase := exec_cases i s
  generalize exec i s = a at hcase
  cases hcase with
  | answers | rejects | sticky => exact keeps_next (hs.of_err fun u => .inl (err_answer ..))
  | resets => exact keeps_next (hs.of_err fun u => .inr (by rw [err_respond, err_resetUnits]))
  | initsReader | initsWriter | clearsHuf | initsLzd | initsLze =>
    exact keeps_next (hs.of_err fun u => by
      cases u <;> first | exact .inl rfl | exact .inr rfl)
  | setsHuf k r _ _ hk =>
    exact keeps_next (hs.of_err fun u => .inl (by
      cases u with
      | huf => exact hk
      | _ => rfl))
  | runs r _ hr =>
    intro t ht
    have hfin := hr.finish_cases ht
    clear ht
    cases hfin with
    | responds _ t ht => exact hs.of_err fun u => .inl ((err_respond ..).trans (ht.err u))
    | waits _ t ht => exact hs.of_err fun u => .inl (ht.err u)
    | faults v c t ht hd =>
      obtain ⟨hv, hu⟩ := hd.possible hs
      exact (hs.of_err fun w => .inl (ht.err w)).takeFault hu hv

end Err

/-! ## The compressor (R203) -/

section Lze
variable {s t : State} {i : Instr}

/-- R203 of the state's compressor. -/
def State.LzeInv (s : State) : Prop := s.lze.Inv

/-- R203 of a state that does not wait. -/
def State.LzeInvWhenIdle (s : State) : Prop := s.waiting = none → s.lze.Inv

theorem lzeInv_initialised {c : LzConfig} (hc : c.ok = true) : (Lze.initialised c).Inv :=
  ⟨hc, fun h => by cases h⟩

theorem takeFault_lze_self (t : State) (v : CodecUnit) (c : FaultCode) :
    (t.takeFault .lze v c).lze = { t.lze with err := some c } := by
  cases v <;> rfl

/-- A command of LZE that writes through `r` keeps R203 if it does where `r` answers: Flushing may
stand beside the ERR of a fault, and nothing is claimed of a command that waits. -/
theorem finish_keepsLze {α : Type} {r : Res α} {f : α → State → Res Nat} (h : s.lze.cfg.ok = true)
    (hm : r.moves WriteEffect s)
    (hf : ∀ a t, t.lze = s.lze → (f a t).ends State.LzeInv Unclaimed .lze) :
    Keeps State.LzeInvWhenIdle ((r.bind f).finish .lze) := by
  have hlze : ∀ t, WriteEffect s t → t.lze = s.lze := fun t ht => by rw [ht.rest]
  refine keeps_finish (I := State.LzeInv) (W := Unclaimed) ?_ (fun _ _ h _ => h) (fun _ h _ => h)
    fun _ _ _ hw => by cases hw
  cases r with
  | ok a t => exact hf a t (hlze t hm)
  | faulted v c t =>
    show (t.takeFault .lze v c).lze.Inv
    rw [takeFault_lze_self, hlze t hm]
    exact ⟨h, fun _ hn => by cases hn⟩
  | waits d t => trivial

/-- LZE.LIT and LZE.REF keep R203: they leave LZE alone. -/
theorem putToken_keepsLze (h : s.lze.Inv) (tok : Token) :
    Keeps State.LzeInvWhenIdle ((putToken tok s).finish .lze) :=
  finish_keepsLze h.cfgOk (putBits_moves _ s) fun _ _ ht => (congrArg Lze.Inv ht).mpr h

/-- The commands of LZE keep R203. -/
theorem exec_keepsLze_of_lze (hi : i.unit = .lze) (h : s.lze.Inv) :
    Keeps State.LzeInvWhenIdle (exec i s) := by
  have hans : ∀ r st, (s.answer r st).LzeInvWhenIdle := fun _ _ _ => h
  cases i with
  | lzeInit wb ob lb min max =>
    rw [exec, execLzeInit]
    split
    · exact keeps_next fun _ => lzeInv_initialised ‹_›
    · exact keeps_next (hans _ _)
  | lzeLit b =>
    rw [exec, execLzeLit]
    exact keeps_unlessSticky hans fun _ => keeps_rejectIf hans fun _ => putToken_keepsLze h _
  | lzeRef off len =>
    rw [exec, execLzeRef]
    exact keeps_unlessSticky hans fun _ => keeps_rejectIf hans fun _ => keeps_rejectIf hans fun _ =>
      keeps_rejectIf hans fun _ => putToken_keepsLze h _
  | lzeFlush =>
    rw [exec, execLzeFlush]
    exact keeps_unlessSticky hans fun _ =>
      finish_keepsLze (s := setEstate .flushing s) h.cfgOk (flush_moves _) fun _ t ht =>
        ⟨(congrArg (fun e : Lze => e.cfg.ok = true) ht).mpr h.cfgOk, fun hf => by cases hf⟩
  | _ => cases hi

/-- Every command that ends keeps R203. -/
theorem exec_keepsLze (h : s.lze.Inv) : Keeps State.LzeInvWhenIdle (exec i s) := by
  by_cases hi : i.unit = .lze
  · exact exec_keepsLze_of_lze hi h
  · intro t ht
    by_cases hr : i = .sysReset
    · subst hr
      cases ht
      exact fun _ => lzeInv_initialised (by decide)
    · obtain ⟨-, -, -, -, -, -, -, hlze⟩ := commandsKeepToTheirUnits i s t ht
      exact fun _ => hlze hi hr ▸ h

end Lze

/-- Settles O21: by the ways a command can end and the faults each unit can take
(`Detects.possible`), and by `finish_keepsLze` for the commands of LZE. -/
theorem errorAndCompressorInvariantsAreKept : Obligations.ErrorAndCompressorInvariantsAreKept := by
  refine ⟨fun s t h hstep => ?_, fun s t h hstep => ?_⟩
  · cases step_cases hstep with
    | stays => exact h
    | illegal => exact h.of_err fun u => .inl (by cases u <;> rfl)
    | runs b rest i _ hw hc hd hexec =>
      have hrest : ({ s with cmds := rest } : State).ErrInv := h.of_err fun u => .inl (by
        cases u <;> rfl)
      exact exec_keepsErr hrest t hexec
  · cases step_cases hstep with
    | stays => exact h
    | illegal b rest hw hc => exact fun _ => h hw
    | runs b rest i _ hw hc hd hexec =>
      exact exec_keepsLze (s := { s with cmds := rest }) (h hw) t hexec

end Sys2Proof.Machine

/-! PROOF. The commands of LZE: the tokens they write (R200, R201, R204) and the flush (R202, R203). -/

namespace Sys2Proof.Machine

open Config

section Lze
variable {s : State}

/-! ## Rejects (R200, R201) -/

theorem exec_lzeLit_flushing (b : Byte) (he : s.err .lze = none) (hd : s.lze.estate ≠ .idle) :
    exec (.lzeLit b) s = reject .state s := by
  rw [exec, execLzeLit, unlessSticky_none he, if_pos hd]

theorem exec_lzeRef_flushing (off len : BitVec 16) (he : s.err .lze = none)
    (hd : s.lze.estate ≠ .idle) : exec (.lzeRef off len) s = reject .state s := by
  rw [exec, execLzeRef, unlessSticky_none he, if_pos hd]

/-- LZE.REF in Idle with an operand out of range (R201, R227). -/
theorem exec_lzeRef_operand {off len : BitVec 16} (he : s.err .lze = none)
    (hd : s.lze.estate = .idle) (h : 2 ^ s.lze.cfg.ob.toNat ≤ off.toNat ∨
      len.toNat < s.lze.cfg.min.toNat ∨ s.lze.cfg.max.toNat < len.toNat) :
    exec (.lzeRef off len) s = reject .operand s := by
  rw [exec, execLzeRef, unlessSticky_none he, if_neg (not_not.mpr hd)]
  split
  · rfl
  · rw [if_pos (h.resolve_left ‹_›)]

/-! ## Tokens on the wire (R183) -/

theorem length_tokenBits_literal (mode : BitOrder) (c : LzConfig) (b : Byte) :
    (tokenBits mode c (.literal b)).length = 9 := by
  rw [tokenBits, List.length_cons, length_bitsOf]
  rfl

theorem length_tokenBits_reference (mode : BitOrder) (c : LzConfig) (off len : Nat) :
    (tokenBits mode c (.reference off len)).length = 1 + c.ob.toNat + c.lb.toNat := by
  rw [tokenBits, List.length_cons, List.length_append, length_bitsOf, length_bitsOf, Nat.add_comm,
    Nat.add_assoc]

/-- A token of at most 63 bits that the writer is ready for is accepted, and its length is the
answer (R200, R201). -/
theorem putToken_accepted {tok : Token} {n : Nat}
    (hlen : (tokenBits s.bw.mode s.lze.cfg tok).length = n) (hn : n ≤ 63) (hr : s.WriterReady n) :
    ∃ bw snk, (putToken tok s).finish .lze = .next (State.respond { s with bw := bw, snk := snk } n) ∧
      s.Accepted (tokenBits s.bw.mode s.lze.cfg tok) bw snk := by
  subst hlen
  exact finish_accepted hr (hn.trans (by decide)) .lze _

end Lze

/-- Settles O58: the bits of a token are a list that `finish_accepted` says is accepted. -/
theorem lzeWritesItsTokens : Obligations.LzeWritesItsTokens := by
  intro s b off len he
  refine ⟨fun hd => ⟨exec_lzeLit_flushing b he hd, exec_lzeRef_flushing off len he hd⟩,
    fun hd => ⟨fun hr => ?_, exec_lzeRef_operand he hd, fun ho hmin hmax hr => ?_⟩⟩
  · rw [exec_lzeLit_idle b he hd]
    exact putToken_accepted (length_tokenBits_literal ..) (by decide) hr
  · have hob := s.lze.cfg.ob.isLt
    have hlb := s.lze.cfg.lb.isLt
    rw [exec_lzeRef_idle he hd ho hmin hmax]
    exact putToken_accepted (length_tokenBits_reference ..) (by omega) hr

/-! ## LZE.FLUSH (R202, R203) -/

section Flush
variable {s : State}

/-- LZE.FLUSH is the Drain of BW.FLUSH between the two settings of ESTATE (R202). -/
theorem exec_lzeFlush (he : s.err .lze = none) (hb : s.bw.err = none) :
    exec .lzeFlush s = ((drain (padded (setEstate .flushing s))).bind fun _ t =>
      Res.ok 0 (setEstate .idle t)).finish .lze := by
  rw [exec, execLzeFlush, unlessSticky_none he, flush_eq_drain (s := setEstate .flushing s) hb]

/-- ESTATE does not reach the writer. -/
theorem padded_setEstate (e : LzeState) (s : State) : padded (setEstate e s) = setEstate e (padded s) := by
  unfold padded
  rw [setEstate_bw]
  split <;> rfl

end Flush

/-- Settles O59: as for BW.FLUSH, the Drain of the padded buffer is empty, accepted or refused. -/
theorem lzeFlushDeliversEverything : Obligations.LzeFlushDeliversEverything := by
  intro s he hb hi
  have hf := padFrame_padded s
  have hlen := wlen_padded hi
  have hpos (h0 : s.bw.flushBytes ≠ []) : 0 < (setEstate .flushing (padded s)).bw.wlen :=
    show 0 < (padded s).bw.wlen from hlen ▸ List.length_pos_iff.mpr h0
  have hsnk : (setEstate .flushing (padded s)).snk = s.snk := by rw [setEstate_snk, hf.rest]
  rw [exec_lzeFlush he hb, padded_setEstate]
  refine ⟨fun h0 => ?_, fun h0 ha => ?_, fun h0 ha => ?_⟩
  · have hempty : (setEstate .flushing (padded s)).bw.wlen = 0 :=
      show (padded s).bw.wlen = 0 by rw [hlen, h0]; rfl
    rw [drain_of_empty hempty, bind_ok, finish_ok, padded_of_flushBytes_nil h0]
    rfl
  · rw [drain_of_ok (hpos h0) (hsnk.symm ▸ ha), bind_ok, finish_ok]
    refine ⟨(drained (padded s)).bw, ?_, rfl, wcnt_padded s, hf.mode, hf.err.trans hb, hf.wbits, ?_⟩
    · rw [← heldBytes_padded hi, hf.rest]; rfl
    · rw [← hlen, ← hf.wpush]; rfl
  · rw [drain_of_err (hpos h0) (hsnk.symm ▸ ha), bind_faulted, finish_faulted]
    refine ⟨{ (padded s).bw with err := some .snk }, s.snk.asked, ?_, rfl, wcnt_padded s,
      heldBytes_padded hi, rfl⟩
    rw [offered, hf.rest]
    rfl

end Sys2Proof.Machine

/-! PROOF. LZD.INIT and LZE.INIT (R181, R182, R199), and one byte put out: LZD.LIT (R185, R186, R192). -/

namespace Sys2Proof.Machine

open Config

/-! ## ConfigOk (R182) -/

section Config
variable {c : LzConfig} {off len : Nat}

theorem LzConfig.ok_iff : c.ok = true ↔ 1 ≤ c.wb.toNat ∧ c.wb.toNat ≤ 16 ∧ 1 ≤ c.ob.toNat ∧
    c.ob.toNat ≤ c.wb.toNat ∧ 1 ≤ c.lb.toNat ∧ c.lb.toNat ≤ 16 ∧ c.min.toNat ≤ c.max.toNat ∧
    c.max.toNat - c.min.toNat ≤ 2 ^ c.lb.toNat - 1 :=
  decide_eq_true_iff

/-- Every offset the plain format carries is below the window size (R182, R183). -/
theorem LzConfig.offset_lt (h : c.ok = true) (ho : off < 2 ^ c.ob.toNat) : off < c.wsize := by
  obtain ⟨-, -, -, hob, -⟩ := c.ok_iff.mp h
  exact ho.trans_le (Nat.pow_le_pow_right (by decide) hob)

/-- Every legal length fits its field (R182, R183). -/
theorem LzConfig.length_fits (h : c.ok = true) (hmax : len ≤ c.max.toNat) :
    len - c.min.toNat < 2 ^ c.lb.toNat := by
  obtain ⟨-, -, -, -, -, -, -, hspan⟩ := c.ok_iff.mp h
  have hpos := Nat.two_pow_pos c.lb.toNat
  omega

end Config

section Init
variable {s : State} {wb ob lb : BitVec 5} {min max : BitVec 16}

theorem exec_lzdInit_ok (h : (LzConfig.mk wb ob lb min max).ok = true) :
    exec (.lzdInit wb ob lb min max) s =
      .next (State.respond { s with lzd := s.lzd.initialised ⟨wb, ob, lb, min, max⟩ } 0) := by
  rw [exec, execLzdInit, if_pos h]

theorem exec_lzeInit_ok (h : (LzConfig.mk wb ob lb min max).ok = true) :
    exec (.lzeInit wb ob lb min max) s =
      .next (State.respond { s with lze := Lze.initialised ⟨wb, ob, lb, min, max⟩ } 0) := by
  rw [exec, execLzeInit, if_pos h]

end Init

/-- Settles O47: the check of both commands is ConfigOk (`LzConfig.ok_iff`). -/
theorem lzInitChecksTheConfiguration : Obligations.LzInitChecksTheConfiguration := by
  intro s wb ob lb min max
  refine ⟨fun h => ?_, fun h => ?_⟩
  · have hok : (LzConfig.mk wb ob lb min max).ok = true := LzConfig.ok_iff.mpr h
    exact ⟨exec_lzdInit_ok hok, exec_lzeInit_ok hok, fun _ => LzConfig.offset_lt hok,
      fun _ _ => LzConfig.length_fits hok⟩
  · have hbad : configOkFields wb ob lb min max = false := decide_eq_false h
    exact ⟨exec_lzdInit_notOk hbad, exec_lzeInit_notOk hbad⟩

/-! ## DOUT (R63) -/

theorem Dout.takes_iff {d : Dout} {n : Nat} :
    d.takes n = true ↔ ∀ k, d.room = some k → n ≤ k := by
  unfold Dout.takes
  cases d.room <;> simp

theorem Dout.takes_mono {d : Dout} {m n : Nat} (h : d.takes n = true) (hm : m ≤ n) :
    d.takes m = true :=
  Dout.takes_iff.mpr fun k hk => hm.trans (Dout.takes_iff.mp h k hk)

/-- PutByte when DOUT takes the byte (R185). -/
theorem putByte_taken {s : State} (h : s.dout.takes 1 = true) (b : Byte) :
    putByte b s = .ok () (emitted b s) := by
  have hcase := putByte_cases b s
  generalize putByte b s = r at hcase
  cases hcase with
  | taken => rfl
  | blocked hn => rw [h] at hn; cases hn

/-! ## LZD.LIT (R192) -/

section Literal
variable {s : State}

/-- The commands that execute a token are rejected outside READY (R192 to R194). -/
theorem exec_lzdLit_notReady (b : Byte) (he : s.err .lzd = none) (hd : s.lzd.dstate ≠ .ready) :
    exec (.lzdLit b) s = reject .state s := by
  rw [exec, execLzdLit, unlessSticky_none he, if_pos hd]

theorem exec_lzdLit_taken (b : Byte) (he : s.lzd.err = none) (hd : s.lzd.dstate = .ready)
    (ht : s.dout.takes 1 = true) : exec (.lzdLit b) s = .next ((emitted b s).respond 1) := by
  rw [exec_lzdLit_ready b he hd, putByte_taken ht, bind_ok, finish_ok]

end Literal

/-- Settles O48: LZD.LIT is one PutByte, which keeps R30 (`State.LzdInv.emitted`). -/
theorem literalIsInsertedAndEmitted : Obligations.LiteralIsInsertedAndEmitted := by
  intro s b he
  refine ⟨exec_lzdLit_notReady b he, fun hd ht => ?_, fun hi hd ht t hexec => ?_⟩
  · rw [exec_lzdLit_taken b he hd ht]
    rfl
  · rw [exec_lzdLit_taken b he hd ht] at hexec
    cases hexec
    exact (hi.emitted (by rw [hd]; decide) b).respond 1

end Sys2Proof.Machine

/-! PROOF. Copies (R189 to R191): what `copyBack` appends, and that CopyBytes appends it. -/

namespace Sys2Proof.Machine

open Config

/-! ## Copying back (R190, R191) -/

section CopyBack
variable {d m k : Nat} {out : List Byte}

theorem copyBack_add (d m k : Nat) (out : List Byte) :
    copyBack d (m + k) out = copyBack d k (copyBack d m out) := by
  induction m generalizing out with
  | zero => rw [Nat.zero_add, copyBack]
  | succ m ih => rw [Nat.add_right_comm, copyBack, copyBack, ih]

/-- The last byte of a copy is the one `d` before it. -/
theorem copyBack_concat (d m : Nat) (out : List Byte) : copyBack d (m + 1) out =
    copyBack d m out ++ [(copyBack d m out).getD (out.length + m - d) 0#8] := by
  rw [copyBack_add, copyBack, copyBack, length_copyBack]

theorem prefix_copyBack (d m : Nat) (out : List Byte) : out <+: copyBack d m out := by
  induction m with
  | zero => exact List.prefix_refl _
  | succ m ih => exact ih.trans (copyBack_concat d m out ▸ List.prefix_append _ _)

theorem getD_of_prefix {α : Type} {as bs : List α} {x : α} {i : Nat} (h : as <+: bs)
    (hi : i < as.length) : bs.getD i x = as.getD i x := by
  obtain ⟨cs, rfl⟩ := h
  exact List.getD_append _ _ _ _ hi

theorem copyBack_prefix_copyBack (h : m ≤ k) : copyBack d m out <+: copyBack d k out := by
  obtain ⟨j, rfl⟩ := Nat.exists_eq_add_of_le h
  rw [copyBack_add]
  exact prefix_copyBack _ _ _

/-- A byte of a copy is the one `d` before it (R190). -/
theorem getD_copyBack_back (h1 : 1 ≤ d) (hd : d ≤ out.length) (hk : k < m) :
    (copyBack d m out).getD (out.length + k) 0#8 =
      (copyBack d m out).getD (out.length + k - d) 0#8 := by
  have hlen := length_copyBack d k out
  have hstep : copyBack d (k + 1) out <+: copyBack d m out := copyBack_prefix_copyBack hk
  have hlong := length_copyBack d (k + 1) out
  rw [getD_of_prefix hstep (by omega), copyBack_concat,
    List.getD_append_right _ _ _ _ (by omega), hlen, Nat.sub_self, List.getD_cons_zero]
  exact (getD_of_prefix (copyBack_prefix_copyBack hk.le) (by omega)).symm

/-- A copy repeats the last `d` bytes (R191). -/
theorem getD_copyBack (h1 : 1 ≤ d) (hd : d ≤ out.length) (hk : k < m) :
    (copyBack d m out).getD (out.length + k) 0#8 = out.getD (out.length - d + k % d) 0#8 := by
  induction k using Nat.strong_induction_on with
  | _ k ih =>
    rw [getD_copyBack_back h1 hd hk]
    rcases Nat.lt_or_ge k d with hlt | hge
    · rw [Nat.mod_eq_of_lt hlt, getD_of_prefix (prefix_copyBack d m out) (by omega)]
      congr 1
      omega
    · rw [show out.length + k - d = out.length + (k - d) by omega, ih (k - d) (by omega) (by omega),
        ← Nat.mod_eq_sub_mod hge]

end CopyBack

/-- Settles O49: `getD_copyBack`, and three copies evaluated. -/
theorem overlappingCopyIsPeriodic : Obligations.OverlappingCopyIsPeriodic :=
  ⟨fun d m out h1 hd => ⟨length_copyBack d m out, prefix_copyBack d m out,
    fun _ hk => getD_copyBack h1 hd hk⟩, rfl, rfl, rfl⟩

/-! ## What has been put out (R185) -/

/-- Between `s` and `t`, `n` bytes have been put out: what R185 makes of the counts. `State.Emitted`
adds which bytes they are and R30, which does not hold between the turns of CopyBytes. -/
structure State.Outputs (s : State) (n : Nat) (t : State) : Prop where
  room : t.dout.room = s.dout.room.map fun k => k - n
  outcnt : t.lzd.outcnt = s.lzd.outcnt + BitVec.ofNat 64 n
  wpos : t.lzd.wpos = (s.lzd.wpos + n) % s.lzd.cfg.wsize
  filled : t.lzd.filled = min (s.lzd.filled + n) s.lzd.cfg.wsize
  cfg : t.lzd.cfg = s.lzd.cfg
  err : t.lzd.err = s.lzd.err

section Outputs
variable {s t u : State} {m n : Nat}

theorem State.WindowInv.outputs (h : s.WindowInv) : s.Outputs 0 s where
  room := by simp
  outcnt := by simp
  wpos := (Nat.mod_eq_of_lt h.wpos_lt).symm
  filled := (Nat.min_eq_left h.filled_le).symm
  cfg := rfl
  err := rfl

theorem State.Outputs.trans (h : s.Outputs m t) (k : t.Outputs n u) : s.Outputs (m + n) u where
  room := by rw [k.room, h.room, Option.map_map]; simp only [Function.comp_def, Nat.sub_sub]
  outcnt := by rw [k.outcnt, h.outcnt, ofNat64_add, BitVec.add_assoc]
  wpos := by rw [k.wpos, h.wpos, h.cfg, Nat.mod_add_mod, Nat.add_assoc]
  filled := by rw [k.filled, h.filled, h.cfg]; omega
  cfg := k.cfg.trans h.cfg
  err := k.err.trans h.err

/-- PutByte puts out one byte (R185). -/
theorem outputs_emitted (s : State) (b : Byte) : s.Outputs 1 (emitted b s) :=
  ⟨rfl, rfl, rfl, rfl, rfl, rfl⟩

theorem State.Outputs.takes (h : s.Outputs m t) (ht : s.dout.takes (m + n) = true) :
    t.dout.takes n = true := by
  rw [Dout.takes_iff, h.room]
  intro k hk
  obtain ⟨j, hj, rfl⟩ := Option.map_eq_some_iff.mp hk
  have := Dout.takes_iff.mp ht j hj
  omega

theorem State.Outputs.emitted {out : List Byte} (h : s.Outputs n t) (hb : t.dout.bytes = out)
    (hrest : { s with lzd := t.lzd, dout := t.dout } = u) (hi : u.LzdInv) :
    s.Emitted n out t.lzd t.dout :=
  ⟨hb, h.room, h.outcnt, h.wpos, h.filled, h.cfg, h.err, hrest ▸ hi⟩

end Outputs

/-! ## CopyBytes (R189) -/

/-- The distance of the pending copy: the way from CSRC to WPOS (R187, R190). -/
def State.copyDistance (s : State) : Nat :=
  s.lzd.cfg.distance ((s.lzd.wpos + s.lzd.cfg.wsize - s.lzd.csrc) % s.lzd.cfg.wsize)

/-- Between `s` and `t`, `m` bytes of the pending copy have been copied. -/
structure State.Copies (s : State) (m : Nat) (t : State) : Prop where
  rest : t = { s with lzd := t.lzd, dout := t.dout }
  outputs : s.Outputs m t
  bytes : t.dout.bytes = copyBack s.copyDistance m s.dout.bytes
  csrc : t.lzd.csrc = (s.lzd.csrc + m) % s.lzd.cfg.wsize
  crem : t.lzd.crem = s.lzd.crem - m
  distance : t.copyDistance = s.copyDistance
  tokphase : t.lzd.tokphase = s.lzd.tokphase

section Copies
variable {s t u : State} {m n : Nat}

theorem LzConfig.distance_pos (c : LzConfig) (off : Nat) : 1 ≤ c.distance off := by
  have := c.wsize_pos
  unfold LzConfig.distance
  split <;> omega

/-- The place a distance back from WPOS is CSRC (R187, R190). -/
theorem back_distance (c : LzConfig) {wpos csrc : Nat} (hw : wpos < c.wsize) (hc : csrc < c.wsize) :
    (wpos + c.wsize - c.distance ((wpos + c.wsize - csrc) % c.wsize)) % c.wsize = csrc := by
  unfold LzConfig.distance
  generalize c.wsize = w at *
  rcases Nat.lt_or_ge wpos csrc with hlt | hge
  · have hgap : (wpos + w - csrc) % w = wpos + w - csrc := Nat.mod_eq_of_lt (by omega)
    rw [hgap, if_neg (by omega), show wpos + w - (wpos + w - csrc) = csrc by omega,
      Nat.mod_eq_of_lt hc]
  · have hgap : (wpos + w - csrc) % w = wpos - csrc := by
      rw [show wpos + w - csrc = wpos - csrc + w by omega, Nat.add_mod_right,
        Nat.mod_eq_of_lt (by omega)]
    rw [hgap]
    split
    case isTrue h0 => rw [Nat.add_sub_cancel, Nat.mod_eq_of_lt hw]; omega
    case isFalse h0 =>
      rw [show wpos + w - (wpos - csrc) = csrc + w by omega, Nat.add_mod_right, Nat.mod_eq_of_lt hc]

/-- The byte a copy reads is the one its distance back in DOUT (R30, R190). -/
theorem State.Copying.read_csrc (h : s.Copying) : s.lzd.win.read s.lzd.csrc =
    s.dout.bytes.getD (s.dout.bytes.length - s.copyDistance) 0#8 := by
  rw [← h.window.history s.copyDistance (LzConfig.distance_pos _ _) h.source, State.copyDistance,
    back_distance _ h.window.wpos_lt h.window.csrcLt]

theorem State.WindowInv.copies (h : s.WindowInv) : s.Copies 0 s :=
  ⟨rfl, h.outputs, rfl, (Nat.mod_eq_of_lt h.csrcLt).symm, rfl, rfl, rfl⟩

theorem State.Copies.trans (h : s.Copies m t) (k : t.Copies n u) : s.Copies (m + n) u where
  rest := by rw [k.rest, h.rest]
  outputs := h.outputs.trans k.outputs
  bytes := by rw [k.bytes, h.bytes, h.distance, copyBack_add]
  csrc := by rw [k.csrc, h.csrc, h.outputs.cfg, Nat.mod_add_mod, Nat.add_assoc]
  crem := by rw [k.crem, h.crem, Nat.sub_sub]
  distance := k.distance.trans h.distance
  tokphase := k.tokphase.trans h.tokphase

/-- One turn of CopyBytes. -/
theorem State.Copying.copies_copied (h : s.Copying) : s.Copies 1 (Machine.copied s) where
  rest := rfl
  outputs := ⟨rfl, rfl, rfl, rfl, rfl, rfl⟩
  bytes := by rw [copyBack, copyBack, ← h.read_csrc]; rfl
  csrc := rfl
  crem := rfl
  distance := congrArg s.lzd.cfg.distance (gap_advance h.window.csrcLt)
  tokphase := rfl

/-- The last line of CopyBytes copies nothing. -/
theorem State.Copies.settle (h : s.Copies m t) : s.Copies m (settleCopy t) := by
  unfold settleCopy
  split
  · exact ⟨by rw [h.rest], ⟨h.outputs.room, h.outputs.outcnt, h.outputs.wpos, h.outputs.filled,
      h.outputs.cfg, h.outputs.err⟩, h.bytes, h.csrc, h.crem, h.distance, h.tokphase⟩
  · exact h

theorem copyByte_taken (h : s.dout.takes 1 = true) : copyByte s = .ok () (copied s) := by
  rw [copyByte, putByte_taken (s := advanceSource s) h, bind_ok]
  rfl

/-- CopyBytes copies as many bytes as it makes turns, if DOUT takes them (R189). -/
theorem copyTurns_copies (h : s.Copying) (ht : s.dout.takes m = true) :
    ∃ t, copyTurns m s = .ok () t ∧ s.Copies m t ∧ t.Copying := by
  induction m generalizing s with
  | zero => exact ⟨s, rfl, h.window.copies, h⟩
  | succ m ih =>
    have hone := h.copies_copied
    have htail := hone.outputs.takes (n := m) (by rwa [Nat.add_comm])
    obtain ⟨t, hturns, hcopies, hcopying⟩ := ih h.copied htail
    refine ⟨t, ?_, Nat.add_comm 1 m ▸ hone.trans hcopies, hcopying⟩
    rw [copyTurns, copyByte_taken (Dout.takes_mono ht (Nat.le_add_left 1 m)), bind_ok, hturns]

/-- Short of DONE, DSTATE says whether a copy is pending (R30). -/
theorem State.LzdInv.dstate_eq (h : s.LzdInv) (hd : s.lzd.dstate ≠ .done) :
    s.lzd.dstate = if s.lzd.crem = 0 then .ready else .copy := by
  have hcopy := h.copyIff
  split
  · cases hs : s.lzd.dstate with
    | ready => rfl
    | copy => have := hcopy.mp hs; omega
    | done => exact absurd hs hd
  · exact hcopy.mpr (by omega)

/-- In READY no copy is pending (R30). -/
theorem State.LzdInv.crem_of_ready (h : s.LzdInv) (hd : s.lzd.dstate = .ready) : s.lzd.crem = 0 := by
  by_contra hn
  rw [h.copyIff.mpr (Nat.pos_of_ne_zero hn)] at hd
  cases hd

/-- `if DSTATE = COPY: CopyBytes(k)` copies what is pending, up to `k` bytes (R189). -/
theorem continueCopy_copies {k : Nat} (h : s.LzdInv) (hd : s.lzd.dstate ≠ .done)
    (ht : s.dout.takes (min k s.lzd.crem) = true) :
    ∃ t, continueCopy k s = .ok (min k s.lzd.crem) t ∧ s.Copies (min k s.lzd.crem) t ∧ t.LzdInv ∧
      t.lzd.dstate ≠ .done := by
  by_cases hc : s.lzd.dstate = .copy
  · obtain ⟨t, hturns, hcopies, hcopying⟩ := copyTurns_copies (h.copying hc) ht
    refine ⟨settleCopy t, ?_, hcopies.settle, hcopying.settle, ?_⟩
    · rw [continueCopy, if_pos hc, copyBytes, hturns, bind_ok]
    · rw [settleCopy_lzd]
      split
      · simp
      · rw [hcopying.dstate]; simp
  · have hcrem : s.lzd.crem = 0 := by
      by_contra hn
      exact hc (h.copyIff.mpr (Nat.pos_of_ne_zero hn))
    rw [hcrem, Nat.min_zero, continueCopy, if_neg hc]
    exact ⟨s, rfl, h.window.copies, h, hd⟩

end Copies

end Sys2Proof.Machine

/-! PROOF. Tokens as the decompressor executes them (R185 to R191): whatever it has copied so far, what
is left to copy completes the expansion of the tokens it has started. LZD.REF (R193). -/

namespace Sys2Proof.Machine

open Config

/-! ## Token sequences with one token more -/

section Sequences
variable {c : LzConfig} {wpos csrc : Nat} {ts : List Token}

/-- WPOS after a token sequence (R185). -/
theorem foldl_move_wpos (c : LzConfig) (wpos csrc : Nat) (ts : List Token) :
    (ts.foldl (Token.move c) (wpos, csrc)).1 % c.wsize = (wpos + tokensSize ts) % c.wsize := by
  induction ts using List.reverseRecOn with
  | nil => rfl
  | append_singleton ts tok ih =>
    rw [List.foldl_concat, move_wpos, Nat.mod_mod, Nat.add_mod, ih, ← Nat.add_mod, tokensSize_append,
      tokensSize_cons, tokensSize_nil, Nat.add_zero, Nat.add_assoc]

theorem source_mod (c : LzConfig) (wpos off : Nat) :
    c.source (wpos % c.wsize) off = c.source wpos off := by
  rw [LzConfig.source, LzConfig.source, Nat.mod_add_mod]

theorem sourceAfter_literal (b : Byte) :
    sourceAfter c wpos csrc (ts ++ [.literal b]) = sourceAfter c wpos csrc ts := by
  rw [sourceAfter, List.foldl_concat]
  rfl

theorem sourceAfter_reference (off len : Nat) :
    sourceAfter c wpos csrc (ts ++ [.reference off len]) =
      (c.source ((wpos + tokensSize ts) % c.wsize) off + len) % c.wsize := by
  rw [sourceAfter, List.foldl_concat, ← foldl_move_wpos c wpos csrc, source_mod]
  rfl

end Sequences

/-! ## Executing tokens -/

/-- A token that can be executed with `filled` bytes in the window (R187, R190); `Token.valid` asks
moreover that the plain format carries it. -/
def Token.executable (c : LzConfig) (filled : Nat) : Token → Prop
  | .literal _ => True
  | .reference off len => len ≠ 0 ∧ len ≤ 65535 ∧ c.distance off ≤ filled

/-- How many bytes LZD.RUN emits when it has read the token: a reference is only started (R196). -/
def Token.atOnce : Token → Nat
  | .literal _ => 1
  | .reference _ _ => 0

/-- The state after that. -/
def State.started (t : State) : Token → State
  | .literal b => emitted b t
  | .reference off len => { t with lzd := { t.lzd with
      csrc := t.lzd.cfg.source t.lzd.wpos off, crem := len, dstate := .copy } }

/-- From `s` the tokens `ts` have been started, after the pending copy of `s`, and `m` of their bytes
are put out: what `t` has still to copy completes their expansion (R185 to R191). -/
structure State.Performs (s : State) (ts : List Token) (m : Nat) (t : State) : Prop where
  outputs : s.Outputs m t
  size : m + t.lzd.crem = tokensSize (s.pendingCopy ++ ts)
  bytes : copyBack t.copyDistance t.lzd.crem t.dout.bytes =
    expandTokens s.lzd.cfg s.dout.bytes (s.pendingCopy ++ ts)
  csrc : (t.lzd.csrc + t.lzd.crem) % s.lzd.cfg.wsize =
    sourceAfter s.lzd.cfg s.lzd.wpos s.lzd.csrc (s.pendingCopy ++ ts)
  inv : t.LzdInv
  notDone : t.lzd.dstate ≠ .done

section Performs
variable {s t u : State} {ts : List Token} {tok : Token} {m n : Nat}

theorem Token.executable_of_valid {c : LzConfig} {filled : Nat} (h : tok.valid c filled = true) :
    tok.executable c filled := by
  cases tok with
  | literal b => trivial
  | reference off len =>
    obtain ⟨h0, -, hmax, -, hdist⟩ := of_decide_eq_true h
    exact ⟨h0, hmax.trans (Nat.le_of_lt_succ c.max.isLt), hdist⟩

/-- The pending copy, as a reference, copies CREM bytes from the distance of CSRC (R189). -/
theorem expandTokens_pendingCopy (s : State) :
    expandTokens s.lzd.cfg s.dout.bytes s.pendingCopy =
      copyBack s.copyDistance s.lzd.crem s.dout.bytes := by
  unfold State.pendingCopy
  split
  case isTrue h0 => rw [h0]; rfl
  case isFalse => rfl

theorem sourceAfter_pendingCopy (h : s.LzdInv) :
    sourceAfter s.lzd.cfg s.lzd.wpos s.lzd.csrc s.pendingCopy =
      (s.lzd.csrc + s.lzd.crem) % s.lzd.cfg.wsize := by
  unfold State.pendingCopy
  split
  case isTrue h0 => rw [h0]; exact (Nat.mod_eq_of_lt h.csrcLt).symm
  case isFalse =>
    rw [sourceAfter_cons, sourceAfter_nil, Token.move,
      source_pendingOffset h.window.wpos_lt h.csrcLt]

theorem State.LzdInv.performs (h : s.LzdInv) (hd : s.lzd.dstate ≠ .done) : s.Performs [] 0 s where
  outputs := h.window.outputs
  size := by rw [List.append_nil, tokensSize_pendingCopy, Nat.zero_add]
  bytes := by rw [List.append_nil, expandTokens_pendingCopy]
  csrc := by rw [List.append_nil, sourceAfter_pendingCopy h]
  inv := h
  notDone := hd

/-- Reading a token performs nothing (R184). -/
theorem State.Performs.of_token (h : s.Performs ts m t) (k : TokenEffect t u) :
    s.Performs ts m u := by
  have hinv := k.lzdInv h.inv
  obtain ⟨⟨p, hp⟩, hdout⟩ := k
  obtain ⟨hroom, houtcnt, hwpos, hfilled, hcfg, herr⟩ := h.outputs
  cases u
  subst hp
  subst hdout
  exact ⟨⟨hroom, houtcnt, hwpos, hfilled, hcfg, herr⟩, h.size, h.bytes, h.csrc, hinv, h.notDone⟩

/-- Copying on leaves less of the pending copy (R189). -/
theorem State.Performs.copies (h : s.Performs ts m t) (k : t.Copies n u) (hn : n ≤ t.lzd.crem)
    (hi : u.LzdInv) (hd : u.lzd.dstate ≠ .done) : s.Performs ts (m + n) u where
  outputs := h.outputs.trans k.outputs
  size := by rw [k.crem, ← h.size]; omega
  bytes := by
    rw [k.crem, k.bytes, k.distance, ← copyBack_add, Nat.add_sub_cancel' hn, h.bytes]
  csrc := by
    rw [k.crem, k.csrc, h.outputs.cfg, Nat.mod_add_mod, ← h.csrc, Nat.add_assoc,
      Nat.add_sub_cancel' hn]
  inv := hi
  notDone := hd

/-- With no copy pending the bytes put out are the expansion itself. -/
theorem State.Performs.bytes_of_settled (h : s.Performs ts m t) (hc : t.lzd.crem = 0) :
    t.dout.bytes = expandTokens s.lzd.cfg s.dout.bytes (s.pendingCopy ++ ts) := by
  rw [← h.bytes, hc, copyBack]

theorem State.Performs.size_of_settled (h : s.Performs ts m t) (hc : t.lzd.crem = 0) :
    m = tokensSize (s.pendingCopy ++ ts) := by
  rw [← h.size, hc, Nat.add_zero]

/-- Executing a literal (R186). -/
theorem State.Performs.literal (h : s.Performs ts m t) (hc : t.lzd.crem = 0) (b : Byte) :
    s.Performs (ts ++ [.literal b]) (m + 1) (emitted b t) where
  outputs := h.outputs.trans (outputs_emitted t b)
  size := by
    have hsize := h.size
    show m + 1 + t.lzd.crem = _
    rw [← List.append_assoc, tokensSize_append, ← hsize]
    simp only [tokensSize_cons, tokensSize_nil, Token.size]
    omega
  bytes := by
    show copyBack _ t.lzd.crem (t.dout.bytes ++ [b]) = _
    rw [← List.append_assoc, expandTokens_append, ← h.bytes_of_settled hc, hc]
    rfl
  csrc := by
    rw [← List.append_assoc, sourceAfter_literal]
    exact h.csrc
  inv := h.inv.emitted (fun hcopy => by have := h.inv.copyIff.mp hcopy; omega) b
  notDone := h.notDone

/-- A reference that can be executed is started (R187). -/
theorem startRef_started {off len : Nat} (hx : (Token.reference off len).executable t.lzd.cfg
    t.lzd.filled) : startRef off len t = .ok () (t.started (.reference off len)) := by
  obtain ⟨h0, -, hdist⟩ := hx
  rw [startRef, if_neg h0, if_neg (Nat.not_lt.mpr hdist)]
  rfl

/-- Starting a reference (R187): the distance of the copy it leaves pending is its own. -/
theorem State.Performs.reference (h : s.Performs ts m t) (hc : t.lzd.crem = 0) {off len : Nat}
    (hx : (Token.reference off len).executable t.lzd.cfg t.lzd.filled) :
    s.Performs (ts ++ [.reference off len]) m (t.started (.reference off len)) where
  outputs := ⟨h.outputs.room, h.outputs.outcnt, h.outputs.wpos, h.outputs.filled, h.outputs.cfg,
    h.outputs.err⟩
  size := by
    rw [← List.append_assoc, tokensSize_append, ← h.size_of_settled hc]
    rfl
  bytes := by
    obtain ⟨-, -, hdist⟩ := hx
    have hdistance : (t.started (.reference off len)).copyDistance = s.lzd.cfg.distance off := by
      rw [State.copyDistance, State.started, ← h.outputs.cfg]
      simp only
      rw [gap_source _ h.inv.window.wpos_lt,
        distance_mod (hdist.trans h.inv.window.filled_le)]
    rw [← List.append_assoc, expandTokens_append, ← h.bytes_of_settled hc, hdistance]
    rfl
  csrc := by
    show (t.lzd.cfg.source t.lzd.wpos off + len) % s.lzd.cfg.wsize = _
    rw [← List.append_assoc, sourceAfter_reference, ← h.size_of_settled hc, ← h.outputs.wpos,
      h.outputs.cfg]
  inv := by
    have hnot : t.lzd.dstate ≠ .copy := fun hcopy => by have := h.inv.copyIff.mp hcopy; omega
    have hkept := startRef_keepsLzd h.inv hnot (off := off) hx.2.1 .lzd
    rwa [startRef_started hx] at hkept
  notDone := by simp [State.started]

/-- What LZD.RUN does with a token that can be executed (R196). -/
theorem startToken_performs (h : s.Performs ts m t) (hc : t.lzd.crem = 0)
    (hx : tok.executable t.lzd.cfg t.lzd.filled) (ht : t.dout.takes tok.atOnce = true) (e : Nat) :
    startToken e tok t = .ok (e + tok.atOnce) (t.started tok) ∧
      s.Performs (ts ++ [tok]) (m + tok.atOnce) (t.started tok) := by
  cases tok with
  | literal b => exact ⟨by rw [startToken, putByte_taken ht]; rfl, h.literal hc b⟩
  | reference off len => exact ⟨by rw [startToken, startRef_started hx]; rfl, h.reference hc hx⟩

/-- Copying on, up to `k` bytes (R189). -/
theorem continueCopy_performs (h : s.Performs ts m t) (k : Nat)
    (ht : t.dout.takes (min k t.lzd.crem) = true) :
    ∃ u, continueCopy k t = .ok (min k t.lzd.crem) u ∧ s.Performs ts (m + min k t.lzd.crem) u := by
  obtain ⟨u, hcopy, hcopies, hinv, hdone⟩ := continueCopy_copies h.inv h.notDone ht
  exact ⟨u, hcopy, h.copies hcopies (Nat.min_le_right _ _) hinv hdone⟩

/-- Executing a token whole, as LZD.REF and LZD.STEP do (R193, R194). -/
theorem runToken_performs (h : s.Performs ts m t) (hc : t.lzd.crem = 0)
    (hx : tok.executable t.lzd.cfg t.lzd.filled) (ht : t.dout.takes tok.size = true) :
    ∃ u, runToken tok t = .ok tok.size u ∧ s.Performs (ts ++ [tok]) (m + tok.size) u := by
  cases tok with
  | literal b => exact ⟨emitted b t, by rw [runToken, putByte_taken ht]; rfl, h.literal hc b⟩
  | reference off len =>
    have hmin : min (t.started (.reference off len)).lzd.crem
        (t.started (.reference off len)).lzd.crem = len := Nat.min_self len
    obtain ⟨u, hcopy, hu⟩ := continueCopy_performs (h.reference hc hx)
      (t.started (.reference off len)).lzd.crem (hmin.symm ▸ ht)
    rw [hmin] at hu
    exact ⟨u, by rw [runToken, runRef, startRef_started hx, bind_ok, hcopy]; rfl, hu⟩

/-! ## What has been performed, as the statements say it -/

theorem prefix_expandToken (c : LzConfig) (out : List Byte) (tok : Token) :
    out <+: expandToken c out tok := by
  cases tok with
  | literal b => exact List.prefix_append _ _
  | reference off len => exact prefix_copyBack _ _ _

theorem prefix_expandTokens (c : LzConfig) (out : List Byte) (ts : List Token) :
    out <+: expandTokens c out ts := by
  induction ts generalizing out with
  | nil => exact List.prefix_refl _
  | cons tok ts ih => exact (prefix_expandToken c out tok).trans (ih _)

/-- DOUT holds the beginning of the expansion of these tokens and any that follow. -/
theorem State.Performs.bytes_eq_take (h : s.Performs ts m t) (us : List Token) :
    t.dout.bytes = (expandTokens s.lzd.cfg s.dout.bytes (s.pendingCopy ++ (ts ++ us))).take
      (s.dout.bytes.length + m) := by
  have hprefix : t.dout.bytes <+:
      expandTokens s.lzd.cfg s.dout.bytes (s.pendingCopy ++ (ts ++ us)) := by
    rw [← List.append_assoc, expandTokens_append, ← h.bytes]
    exact (prefix_copyBack _ _ _).trans (prefix_expandTokens _ _ _)
  have hlen : t.dout.bytes.length = s.dout.bytes.length + m := by
    have hbytes := congrArg List.length h.bytes
    have hsize := h.size
    rw [length_copyBack, length_expandTokens] at hbytes
    omega
  rw [← hlen]
  exact List.prefix_iff_eq_take.mp hprefix

/-- R30 of the state that the decompressor's part of `t` makes of `s`. -/
theorem State.Performs.inv_frame (h : s.Performs ts m t) :
    ({ s with lzd := t.lzd, dout := t.dout } : State).LzdInv := h.inv.of_eq rfl rfl

theorem State.Performs.emitted (h : s.Performs ts m t) (us : List Token) :
    s.Emitted m ((expandTokens s.lzd.cfg s.dout.bytes (s.pendingCopy ++ (ts ++ us))).take
      (s.dout.bytes.length + m)) t.lzd t.dout :=
  h.outputs.emitted (h.bytes_eq_take us) rfl h.inv_frame

/-- Tokens of which nothing is left to copy have been executed whole. -/
theorem State.Performs.executed (h : s.Performs ts m t) (hc : t.lzd.crem = 0) :
    s.Executed (s.pendingCopy ++ ts) t.lzd t.dout where
  emitted := by
    rw [← h.size_of_settled hc]
    exact h.outputs.emitted (h.bytes_of_settled hc) rfl h.inv_frame
  csrc := by
    rw [← h.csrc, hc, Nat.add_zero, ← h.outputs.cfg, Nat.mod_eq_of_lt h.inv.csrcLt]
  crem := hc

theorem State.Performs.ready (h : s.Performs ts m t) (hc : t.lzd.crem = 0) :
    t.lzd.dstate = .ready := by
  rw [h.inv.dstate_eq h.notDone, if_pos hc]

theorem State.Performs.crem_of_whole (h : s.Performs ts (tokensSize (s.pendingCopy ++ ts)) t) :
    t.lzd.crem = 0 := by
  have := h.size
  omega

/-- LZD in READY that has executed one token (R193, R194). -/
theorem State.Performs.executed_one (h : s.Performs [tok] tok.size t) (hc : s.lzd.crem = 0) :
    s.Executed [tok] t.lzd t.dout ∧ t.lzd.dstate = .ready := by
  have hcrem : t.lzd.crem = 0 := by
    have hsize := h.size
    rw [pendingCopy_none hc, List.nil_append, tokensSize_cons, tokensSize_nil] at hsize
    omega
  have hexec := h.executed hcrem
  rw [pendingCopy_none hc, List.nil_append] at hexec
  exact ⟨hexec, h.ready hcrem⟩

theorem State.Executed.emitted_one {d : Lzd} {o : Dout} (h : s.Executed [tok] d o) :
    s.Emitted tok.size (expandToken s.lzd.cfg s.dout.bytes tok) d o := h.emitted

/-- CSRC after one token (R187, R189), an offset in the window written as R187 writes it. -/
theorem State.Executed.csrc_reference {d : Lzd} {o : Dout} {off len : Nat}
    (h : s.Executed [.reference off len] d o) (ho : off < s.lzd.cfg.wsize) :
    d.csrc = (s.lzd.wpos + s.lzd.cfg.wsize - off + len) % s.lzd.cfg.wsize := by
  rw [h.csrc]
  show (s.lzd.cfg.source s.lzd.wpos off + len) % _ = _
  rw [LzConfig.source, Nat.mod_add_mod, Nat.mod_eq_of_lt ho, Nat.add_sub_assoc ho.le]

end Performs

/-! ## LZD.REF (R193) -/

section Reference
variable {s : State} {off len : BitVec 16}

theorem exec_lzdRef_notReady (he : s.err .lzd = none) (hd : s.lzd.dstate ≠ .ready) :
    exec (.lzdRef off len) s = reject .state s := by
  rw [exec, execLzdRef, unlessSticky_none he, if_pos hd]

/-- An offset beyond the window (R193). -/
theorem exec_lzdRef_offset (he : s.err .lzd = none) (hd : s.lzd.dstate = .ready)
    (ho : s.lzd.cfg.wsize ≤ off.toNat) : exec (.lzdRef off len) s = reject .operand s := by
  rw [exec, execLzdRef, unlessSticky_none he, if_neg (not_not.mpr hd), if_pos ho]

/-- A length out of range (R193). -/
theorem exec_lzdRef_length (he : s.err .lzd = none) (hd : s.lzd.dstate = .ready)
    (ho : off.toNat < s.lzd.cfg.wsize) (h0 : len.toNat ≠ 0)
    (hl : len.toNat < s.lzd.cfg.min.toNat ∨ s.lzd.cfg.max.toNat < len.toNat) :
    exec (.lzdRef off len) s = reject .operand s := by
  rw [exec, execLzdRef, unlessSticky_none he, if_neg (not_not.mpr hd), if_neg (Nat.not_le.mpr ho),
    if_pos ⟨h0, hl⟩]

/-- LZD.REF with its operands in range executes its reference (R193). -/
theorem exec_lzdRef_runRef (he : s.err .lzd = none) (hd : s.lzd.dstate = .ready)
    (ho : off.toNat < s.lzd.cfg.wsize) (hl : len.toNat = 0 ∨
      s.lzd.cfg.min.toNat ≤ len.toNat ∧ len.toNat ≤ s.lzd.cfg.max.toNat) :
    exec (.lzdRef off len) s = (runRef off.toNat len.toNat s).finish .lzd := by
  rw [exec, execLzdRef, unlessSticky_none he, if_neg (not_not.mpr hd), if_neg (Nat.not_le.mpr ho),
    if_neg (by omega)]

/-- A reference of length 0 ends the stream, whatever its offset (R188). -/
theorem runRef_terminator (off : Nat) (s : State) :
    runRef off 0 s = .ok 0 { s with lzd := { s.lzd with dstate := .done } } := by
  rw [runRef, startRef, if_pos rfl, bind_ok, continueCopy, if_neg (by simp), bind_ok]

/-- A distance beyond what the window holds faults before anything is copied (R190). -/
theorem runRef_badref {off len : Nat} (h0 : len ≠ 0)
    (hd : s.lzd.filled < s.lzd.cfg.distance off) :
    runRef off len s = .faulted .lzd .lzBadref s := by
  rw [runRef, startRef, if_neg h0, if_pos hd, bind_faulted]

theorem toNat_ne_zero (h : len ≠ 0#16) : len.toNat ≠ 0 :=
  fun h0 => h (BitVec.eq_of_toNat_eq h0)

end Reference

/-- Settles O51: the checks of the command in the order of R226, then the two ends of StartRef that
copy nothing. -/
theorem referenceCornerCases : Obligations.ReferenceCornerCases := by
  intro s off len he
  refine ⟨exec_lzdRef_notReady he, fun hd => ⟨exec_lzdRef_offset he hd, fun ho =>
    ⟨fun h0 => ?_, fun h0 => ⟨exec_lzdRef_length he hd ho (toNat_ne_zero h0),
      fun hmin hmax hdist => ?_⟩⟩⟩⟩
  · subst h0
    rw [exec_lzdRef_runRef he hd ho (.inl rfl)]
    exact congrArg (Res.finish .lzd) (runRef_terminator _ s)
  · rw [exec_lzdRef_runRef he hd ho (.inr ⟨hmin, hmax⟩), runRef_badref (toNat_ne_zero h0) hdist]
    rfl

/-- Settles O50: LZD.REF is `runToken` of its reference, which `runToken_performs` says is executed
whole. -/
theorem referenceCopiesFromItsDistance : Obligations.ReferenceCopiesFromItsDistance := by
  intro s off len he hd hi ho h0 hmin hmax hdist ht
  have hcrem := hi.crem_of_ready hd
  have hstart := hi.performs (by rw [hd]; decide)
  obtain ⟨u, hrun, hu⟩ := runToken_performs (tok := .reference off.toNat len.toNat) hstart hcrem
    ⟨toNat_ne_zero h0, Nat.le_of_lt_succ len.isLt, hdist⟩ ht
  have hmoves := runRef_moves off.toNat len.toNat s
  have hrun' : runRef off.toNat len.toNat s = .ok len.toNat u := hrun
  rw [hrun'] at hmoves
  rw [Nat.zero_add] at hu
  obtain ⟨hexec, hready⟩ := hu.executed_one hcrem
  refine ⟨u.lzd, u.dout, ?_, hexec.emitted_one, hexec.csrc_reference ho, hready, hexec.crem,
    hmoves.tokphase⟩
  rw [exec_lzdRef_runRef he hd ho (.inr ⟨hmin, hmax⟩), hrun', finish_ok, ← hmoves.rest]

end Sys2Proof.Machine

/-! PROOF. Reading a token (R184, R195, R197): the token whose bits come next, and where it stops when
the source ends. LZD.STEP (R194). -/

namespace Sys2Proof.Machine

open Config

/-! ## Reads of a state that differs elsewhere -/

section Rebase
variable {s t u : State} {bs : List Bool}

/-- The bits still to be read depend on BR and SRC alone (R42). -/
theorem readerBits_congr (hbr : t.br = s.br) (hsrc : t.src = s.src) :
    t.readerBits = s.readerBits := by
  rw [State.readerBits, State.readerBits, State.unreadBytes, State.unreadBytes, hbr, hsrc]

/-- What is read from `s` is read in the same way from a state with the same reader and SRC. -/
theorem State.Reads.rebase (h : s.Reads bs u) (hbr : t.br = s.br) (hsrc : t.src = s.src) :
    t.Reads bs { t with br := u.br, src := u.src } where
  frame := by
    obtain ⟨-, hmode, hreof, herr, hcontent, hdelivered, hending⟩ := h.frame
    rw [← hbr] at hmode hreof herr
    rw [← hsrc] at hcontent hdelivered hending
    exact ⟨rfl, hmode, hreof, herr, hcontent, hdelivered, hending⟩
  bits := by rw [readerBits_congr hbr hsrc, h.bits]; rfl
  rbits := by rw [hbr]; exact h.rbits
  inv := h.inv
  held := by rw [hbr, hsrc]; exact h.held
  untouched := by rw [hbr]; exact h.untouched

/-- Reading on from a state reached by reading, LZD and DOUT having changed in between. -/
theorem State.Reads.append_rebased {cs : List Bool} (h : s.Reads bs { s with br := t.br, src := t.src })
    (k : t.Reads cs u) : s.Reads (bs ++ cs) { s with br := u.br, src := u.src } :=
  h.append (k.rebase (t := { s with br := t.br, src := t.src }) rfl rfl)

theorem State.Reads.of_setTokphase {p : Bool} (h : (setTokphase p s).Reads bs u) :
    s.Reads bs { s with br := u.br, src := u.src } := h.rebase rfl rfl

theorem State.Reads.setTokphase_eq {p : Bool} (h : (setTokphase p s).Reads bs u) (q : Bool) :
    setTokphase q u = setTokphase q { s with br := u.br, src := u.src } :=
  (congrArg (setTokphase q) h.frame.rest).trans rfl

theorem State.Reads.lzd (h : s.Reads bs t) : t.lzd = s.lzd := by rw [h.frame.rest]

end Rebase

/-! ## The token whose bits come next (R183, R184) -/

/-- The bits of a reference with the fields `off` and `l` (R183). -/
def referenceBits (mode : BitOrder) (c : LzConfig) (off l : Nat) : List Bool :=
  true :: (bitsOf mode c.ob.toNat off ++ bitsOf mode c.lb.toNat l)

theorem tokenBits_reference (mode : BitOrder) (c : LzConfig) (off len : Nat) :
    tokenBits mode c (.reference off len) = referenceBits mode c off (len - c.min.toNat) := rfl

section Token
variable {s : State} {rest : List Bool}

/-- A value of `n` bits is read back from its bits (R132). -/
theorem readBits_value {n v : Nat} (he : s.br.err = none) (hi : s.br.Inv) (hv : v < 2 ^ n)
    (h : s.readerBits = bitsOf s.br.mode n v ++ rest) :
    ∃ t, readBits n s = .ok v t ∧ s.Reads (bitsOf s.br.mode n v) t ∧ t.readerBits = rest := by
  obtain ⟨t, ht, hreads⟩ := readBits_reads he hi h
  rw [length_bitsOf, packBits_bitsOf, Nat.mod_eq_of_lt hv] at ht
  exact ⟨t, ht, hreads, List.append_cancel_left (hreads.bits.symm.trans h)⟩

/-- The flag of a token says which payload is read next (R184). -/
theorem readToken_flag {flag : Bool} (he : s.br.err = none) (hi : s.br.Inv)
    (h : s.readerBits = flag :: rest) :
    ∃ t, s.Reads [flag] t ∧ t.br.err = none ∧ t.readerBits = rest ∧ readToken s =
      if flag then readReference (setTokphase true t) else readLiteral (setTokphase true t) := by
  obtain ⟨t, ht, hframe, hrest, -⟩ := getBit_next he hi h
  exact ⟨t, getBit_reads hi flag t ht, hframe.err.trans he, hrest, by rw [readToken, ht, bind_ok]⟩

theorem readLiteral_bits {b : Byte} (he : s.br.err = none) (hi : s.br.Inv)
    (h : s.readerBits = bitsOf s.br.mode LITBITS b.toNat ++ rest) :
    ∃ u, s.Reads (bitsOf s.br.mode LITBITS b.toNat) u ∧
      readLiteral s = .ok (.literal b) (setTokphase false u) := by
  obtain ⟨u, hu, hbits, -⟩ := readBits_value (n := LITBITS) he hi b.isLt h
  refine ⟨u, hbits, ?_⟩
  rw [readLiteral, hu, bind_ok, BitVec.ofNat_toNat, BitVec.setWidth_eq]

/-- A reference, read, is checked against D.MAX (R184, R195). -/
theorem readReference_bits {off l : Nat} (he : s.br.err = none) (hi : s.br.Inv)
    (ho : off < 2 ^ s.lzd.cfg.ob.toNat) (hl : l < 2 ^ s.lzd.cfg.lb.toNat)
    (h : s.readerBits = bitsOf s.br.mode s.lzd.cfg.ob.toNat off ++
      bitsOf s.br.mode s.lzd.cfg.lb.toNat l ++ rest) :
    ∃ u, s.Reads (bitsOf s.br.mode s.lzd.cfg.ob.toNat off ++
        bitsOf s.br.mode s.lzd.cfg.lb.toNat l) u ∧
      readReference s = if s.lzd.cfg.max.toNat < l + s.lzd.cfg.min.toNat then
          .faulted .lzd .lzRange (setTokphase false u)
        else .ok (.reference off (l + s.lzd.cfg.min.toNat)) (setTokphase false u) := by
  rw [List.append_assoc] at h
  obtain ⟨t, ht, hoff, hrest⟩ := readBits_value he hi ho h
  rw [← hoff.frame.mode] at hrest
  obtain ⟨u, hu, hlen, -⟩ := readBits_value (hoff.frame.err.trans he) hoff.inv hl hrest
  rw [hoff.frame.mode] at hlen
  refine ⟨u, hoff.append hlen, ?_⟩
  rw [readReference, ht, bind_ok, hoff.lzd, hu, bind_ok, hlen.lzd, hoff.lzd]

theorem readToken_literal {b : Byte} (he : s.br.err = none) (hi : s.br.Inv)
    (h : s.readerBits = tokenBits s.br.mode s.lzd.cfg (.literal b) ++ rest) :
    ∃ u, s.Reads (tokenBits s.br.mode s.lzd.cfg (.literal b)) u ∧
      readToken s = .ok (.literal b) (setTokphase false u) := by
  obtain ⟨t, hflag, hte, hrest, hread⟩ := readToken_flag he hi h
  rw [← hflag.frame.mode] at hrest
  obtain ⟨u, hu, hpayload⟩ := readLiteral_bits (s := setTokphase true t) hte hflag.inv hrest
  rw [hread, tokenBits, ← hflag.frame.mode]
  exact ⟨_, hflag.append hu.of_setTokphase, hu.setTokphase_eq false ▸ hpayload⟩

theorem readToken_reference {off l : Nat} (he : s.br.err = none) (hi : s.br.Inv)
    (ho : off < 2 ^ s.lzd.cfg.ob.toNat) (hl : l < 2 ^ s.lzd.cfg.lb.toNat)
    (h : s.readerBits = referenceBits s.br.mode s.lzd.cfg off l ++ rest) :
    ∃ u, s.Reads (referenceBits s.br.mode s.lzd.cfg off l) u ∧
      readToken s = if s.lzd.cfg.max.toNat < l + s.lzd.cfg.min.toNat then
          .faulted .lzd .lzRange (setTokphase false u)
        else .ok (.reference off (l + s.lzd.cfg.min.toNat)) (setTokphase false u) := by
  obtain ⟨t, hflag, hte, hrest, hread⟩ := readToken_flag he hi h
  rw [hread, referenceBits, ← hflag.frame.mode, ← hflag.lzd]
  rw [← hflag.frame.mode, ← hflag.lzd] at hrest
  rw [← hflag.lzd] at ho hl
  obtain ⟨u, hu, hpayload⟩ := readReference_bits (s := setTokphase true t) hte hflag.inv ho hl hrest
  exact ⟨_, hflag.append hu.of_setTokphase, hu.setTokphase_eq false ▸ hpayload⟩

/-- A token that can be executed is read from its bits (R183, R184). -/
theorem readToken_valid {tok : Token} {filled : Nat} (he : s.br.err = none) (hi : s.br.Inv)
    (hc : s.lzd.cfg.ok = true) (hv : tok.valid s.lzd.cfg filled = true)
    (h : s.readerBits = tokenBits s.br.mode s.lzd.cfg tok ++ rest) :
    ∃ u, s.Reads (tokenBits s.br.mode s.lzd.cfg tok) u ∧
      readToken s = .ok tok (setTokphase false u) := by
  cases tok with
  | literal b => exact readToken_literal he hi h
  | reference off len =>
    obtain ⟨-, hmin, hmax, ho, -⟩ := of_decide_eq_true hv
    rw [tokenBits_reference] at h ⊢
    obtain ⟨u, hu, hread⟩ := readToken_reference he hi ho (LzConfig.length_fits hc hmax) h
    rw [Nat.sub_add_cancel hmin, if_neg (Nat.not_lt.mpr hmax)] at hread
    exact ⟨u, hu, hread⟩

/-! ## A token cut by the end of the source (R197) -/

/-- The bits left are none, or begin a token and do not complete it. -/
def LzConfig.CutsToken (c : LzConfig) (bits : List Bool) : Prop :=
  bits = [] ∨ (∃ bs, bits = false :: bs ∧ bs.length < LITBITS) ∨
    ∃ bs, bits = true :: bs ∧ bs.length < c.ob.toNat + c.lb.toNat

theorem readLiteral_end (he : s.br.err = none) (hi : s.br.Inv) (h : s.readerBits.length < LITBITS) :
    ∃ u, s.Reads s.readerBits u ∧ readLiteral s = endOfStream u := by
  obtain ⟨u, hu, hend⟩ := readBits_end he hi h
  exact ⟨u, hu, by rw [readLiteral, hend, endOfStream_bind]⟩

/-- The source ends inside the offset of a reference or inside its length. -/
theorem readReference_end (he : s.br.err = none) (hi : s.br.Inv)
    (h : s.readerBits.length < s.lzd.cfg.ob.toNat + s.lzd.cfg.lb.toNat) :
    ∃ u, s.Reads s.readerBits u ∧ readReference s = endOfStream u := by
  rcases Nat.lt_or_ge s.readerBits.length s.lzd.cfg.ob.toNat with hlt | hge
  · obtain ⟨u, hu, hend⟩ := readBits_end he hi hlt
    exact ⟨u, hu, by rw [readReference, hend, endOfStream_bind]⟩
  · obtain ⟨t, ht, hoff⟩ := readBits_reads he hi (List.take_append_drop s.lzd.cfg.ob.toNat _).symm
    rw [List.length_take_of_le hge] at ht
    have hrest : t.readerBits = s.readerBits.drop s.lzd.cfg.ob.toNat :=
      List.append_cancel_left (hoff.bits.symm.trans (List.take_append_drop _ _).symm)
    have hlen : t.readerBits.length < t.lzd.cfg.lb.toNat := by
      rw [hrest, List.length_drop, hoff.lzd]
      omega
    obtain ⟨u, hu, hend⟩ := readBits_end (hoff.frame.err.trans he) hoff.inv hlen
    have hboth := hoff.append hu
    rw [hrest, List.take_append_drop] at hboth
    exact ⟨u, hboth, by rw [readReference, ht, bind_ok, hend, endOfStream_bind]⟩

/-- A payload that the source cuts leaves the token begun (R184, R197). -/
theorem readToken_cut {flag : Bool} {bs : List Bool} (he : s.br.err = none) (hi : s.br.Inv)
    (h : s.readerBits = flag :: bs)
    (hend : ∀ t, t.br.err = none → t.br.Inv → t.readerBits = bs → t.lzd.cfg = s.lzd.cfg →
      ∃ u, t.Reads t.readerBits u ∧
        (if flag then readReference t else readLiteral t) = endOfStream u) :
    ∃ u, s.Reads s.readerBits u ∧ readToken s = endOfStream (setTokphase true u) := by
  obtain ⟨t, hflag, hte, hrest, hread⟩ := readToken_flag he hi h
  obtain ⟨u, hu, hpayload⟩ := hend (setTokphase true t) hte hflag.inv hrest (by rw [← hflag.lzd]; rfl)
  have hall := hflag.append hu.of_setTokphase
  rw [show (setTokphase true t).readerBits = bs from hrest] at hall
  rw [h, hread, hpayload]
  exact ⟨_, hall, congrArg endOfStream hu.frame.rest⟩

/-- ReadToken cut by the end of the source reads every bit there is; TOKPHASE says whether the token
has begun (R184, R197). -/
theorem readToken_end (he : s.br.err = none) (hi : s.br.Inv)
    (h : s.lzd.cfg.CutsToken s.readerBits) :
    ∃ u, s.Reads s.readerBits u ∧ readToken s = endOfStream
      (setTokphase (if s.readerBits = [] then s.lzd.tokphase else true) u) := by
  rcases h with hnil | ⟨bs, hbits, hlen⟩ | ⟨bs, hbits, hlen⟩
  · refine ⟨s, hnil ▸ .refl hi, ?_⟩
    rw [readToken, getBit_end he hi hnil, endOfStream_bind, if_pos hnil]
    rfl
  · rw [if_neg (by simp [hbits])]
    exact readToken_cut he hi hbits fun t hte hti hrest _ => readLiteral_end hte hti (hrest ▸ hlen)
  · rw [if_neg (by simp [hbits])]
    exact readToken_cut he hi hbits fun t hte hti hrest hcfg =>
      readReference_end hte hti (by rw [hrest, hcfg]; exact hlen)

/-- How a command of LZD ends that the end of the source has cut in ReadToken (R197, R222). -/
theorem State.Reads.finish_cut {u : State} {bs : List Bool} (h : s.Reads bs u) (he : s.br.err = none)
    (hi : s.br.Inv) (p : Bool) : (endOfStream (setTokphase p u)).finish .lzd =
      s.src.ending.ends .lzd { s with
        br := u.br.ended s.src.ending, src := (asked u).src, lzd := { s.lzd with tokphase := p } } := by
  have hbase : (setTokphase p s).Reads bs (setTokphase p u) := by
    have := h.rebase (t := setTokphase p s) rfl rfl
    rw [h.frame.rest]
    exact this
  exact hbase.finish_endOfStream he hi .lzd

end Token

/-! ## LZD.STEP (R194) -/

section Step
variable {s : State}

theorem exec_lzdStep_notReady (he : s.err .lzd = none) (hd : s.lzd.dstate ≠ .ready) :
    exec .lzdStep s = reject .state s := by
  rw [exec, execLzdStep, unlessSticky_none he, if_pos hd]

theorem exec_lzdStep_ready (he : s.err .lzd = none) (hd : s.lzd.dstate = .ready) :
    exec .lzdStep s = ((readToken s).bind fun tok t => runToken tok t).finish .lzd := by
  rw [exec, execLzdStep, unlessSticky_none he, if_neg (not_not.mpr hd)]

theorem runToken_moves (tok : Token) (s : State) : (runToken tok s).moves EmitEffect s := by
  cases tok with
  | literal b => exact emitEffect_bind (putByte_moves b s) fun _ t _ _ => .refl t
  | reference off len => exact runRef_moves off len s

theorem tokenEffect_read {t : State} {bs : List Bool} (h : s.Reads bs t) (p : Bool) :
    TokenEffect s (setTokphase p t) :=
  ⟨⟨p, by rw [setTokphase_lzd, h.lzd]⟩, by rw [setTokphase_dout, h.frame.rest]⟩

end Step

/-- Settles O52: the token is read from its bits (`readToken_valid`) and executed whole
(`runToken_performs`). -/
theorem stepExecutesOneToken : Obligations.StepExecutesOneToken := by
  intro s tok rest he hd hi hbe hbi hv hbits ht
  have hcrem := hi.crem_of_ready hd
  obtain ⟨t, hreads, hread⟩ := readToken_valid hbe hbi hi.cfgOk hv hbits
  have htoken := tokenEffect_read hreads false
  have hlzd : (setTokphase false t).lzd = { s.lzd with tokphase := false } := by
    rw [setTokphase_lzd, hreads.lzd]
  have hstart := (hi.performs (by rw [hd]; decide)).of_token htoken
  obtain ⟨u, hrun, hu⟩ := runToken_performs (tok := tok) hstart (by rw [hlzd]; exact hcrem)
    (by rw [hlzd]; exact Token.executable_of_valid hv) (by rw [htoken.dout]; exact ht)
  have hmoves := runToken_moves tok (setTokphase false t)
  rw [hrun] at hmoves
  rw [Nat.zero_add] at hu
  obtain ⟨hexec, hready⟩ := hu.executed_one hcrem
  refine ⟨t.br, t.src, u.lzd, u.dout, ?_, hreads.consumed, hexec.emitted_one, ?_, hexec.crem, hready,
    hmoves.tokphase⟩
  · rw [exec_lzdStep_ready he hd, hread, bind_ok, hrun, finish_ok, hmoves.rest, hreads.frame.rest]
    rfl
  · cases tok with
    | literal b => exact hexec.csrc
    | reference off len =>
      obtain ⟨-, -, -, ho, -⟩ := of_decide_eq_true hv
      exact hexec.csrc_reference (LzConfig.offset_lt hi.cfgOk ho)

/-- Settles O53: the reference is read whole, and then the range check, the terminator and the bad
distance are looked for in the order of R226. -/
theorem stepCornerCases : Obligations.StepCornerCases := by
  intro s off l rest he hd hbe hbi ho hl hbits hcase
  obtain ⟨t, hreads, hread⟩ := readToken_reference hbe hbi ho hl hbits
  refine ⟨t.br, t.src, hreads.consumed, ?_⟩
  rw [exec_lzdStep_ready he hd, hread]
  split
  case isTrue => rw [bind_faulted, finish_faulted, hreads.frame.rest]; rfl
  case isFalse hmax =>
    rw [bind_ok, runToken]
    split
    case isTrue h0 => rw [h0, runRef_terminator, finish_ok, hreads.frame.rest]; rfl
    case isFalse h0 =>
      have hdist : (setTokphase false t).lzd.filled < (setTokphase false t).lzd.cfg.distance off := by
        rw [setTokphase_lzd, hreads.lzd]
        exact (hcase.resolve_left hmax).resolve_left h0
      rw [runRef_badref h0 hdist, finish_faulted, hreads.frame.rest]
      rfl

/-- Settles O54: `readToken_end` for the three places where the source can end. -/
theorem stepAtTheEndFaults : Obligations.StepAtTheEndFaults := by
  intro s he
  refine ⟨exec_lzdStep_notReady he, fun hd hbe hbi hcut => ?_⟩
  obtain ⟨t, hreads, hread⟩ := readToken_end hbe hbi hcut
  refine ⟨_, _, hreads.exhausted hbe hbi, ?_⟩
  rw [exec_lzdStep_ready he hd, hread, endOfStream_bind, hreads.finish_cut hbe hbi]

end Sys2Proof.Machine

/-! PROOF. LZD.RUN (R196): the turns of its loop, how far it gets in the tokens of the stream, and where
it stops. -/

namespace Sys2Proof.Machine

open Config

/-! ## Turns of the loop (R196, R268) -/

section Turns
variable {s t : State} {n e : Nat}

theorem exec_lzdRun (n : Word) (he : s.err .lzd = none) :
    exec (.lzdRun n) s = (runLoop n.toNat (n.toNat + 1) 0 s).finish .lzd := by
  rw [exec, execLzdRun, unlessSticky_none he]

theorem runLoop_done (hd : s.lzd.dstate = .done) (n turns e : Nat) :
    runLoop n turns e s = .ok e s := by
  cases turns with
  | zero => rfl
  | succ turns => rw [runLoop, if_pos hd]

theorem runLoop_succ (hd : s.lzd.dstate ≠ .done) (n turns e : Nat) :
    runLoop n (turns + 1) e s = (continueCopy (n - e) s).bind fun c t =>
      if e + c = n then .ok (e + c) t
      else (readToken t).bind fun tok u => (startToken (e + c) tok u).bind (runLoop n turns) := by
  rw [runLoop, if_neg hd]

theorem bind_congr {α β : Type} {r : Res α} {f g : α → State → Res β}
    (h : ∀ a t, r = .ok a t → f a t = g a t) : r.bind f = r.bind g := by
  cases r with
  | ok a t => exact h a t rfl
  | faulted => rfl
  | waits => rfl

/-- The byte that the next turn copies for certain, unless the budget is used up. -/
def State.owed (s : State) : Nat := if s.lzd.dstate = .copy ∧ 0 < s.lzd.crem then 1 else 0

theorem continueCopy_owed (k : Nat) (s : State) :
    (continueCopy k s).yields fun c _ => c ≤ k ∧ (c = k ∨ s.owed ≤ c) := by
  by_cases hc : s.lzd.dstate = .copy
  · rw [continueCopy, if_pos hc]
    refine yields_bind fun _ t _ => yields_ok ⟨Nat.min_le_left _ _, ?_⟩
    unfold State.owed
    split <;> omega
  · rw [continueCopy, if_neg hc]
    exact yields_ok ⟨Nat.zero_le _, .inr (by simp [State.owed, hc])⟩

/-- A token started ends the stream, or emits a byte, or leaves one to copy (R186 to R188). -/
theorem startToken_owed (e : Nat) (tok : Token) (s : State) : (startToken e tok s).yields fun e' t =>
    t.lzd.dstate = .done ∨ (e' ≤ e + 1 ∧ e + 1 ≤ e' + t.owed) := by
  cases tok with
  | literal b => exact yields_bind fun _ t _ => yields_ok (.inr ⟨Nat.le_refl _, by omega⟩)
  | reference off len =>
    refine yields_bind fun _ t ht => yields_ok ?_
    have hcase := startRef_cases off len s
    rw [ht] at hcase
    cases hcase with
    | terminator => exact .inl rfl
    | started h0 => exact .inr ⟨Nat.le_succ e, by simp [State.owed, Nat.pos_of_ne_zero h0]⟩

/-- Every turn that reads a token emits a byte or leaves one to the next turn, so that the turns left
need not exceed what is left of the budget (R268). -/
theorem runLoop_enough {turns : Nat} (he : e ≤ n) (hn : n ≤ turns + e + s.owed) (k : Nat) :
    runLoop n (turns + 1 + k) e s = runLoop n (turns + 1) e s := by
  induction turns generalizing e s with
  | zero =>
    by_cases hd : s.lzd.dstate = .done
    · rw [runLoop_done hd, runLoop_done hd]
    · rw [Nat.add_right_comm, runLoop_succ hd, runLoop_succ hd]
      refine bind_congr fun c t hc => ?_
      obtain ⟨hle, howed⟩ := continueCopy_owed _ s c t hc
      rw [if_pos (by omega), if_pos (by omega)]
  | succ turns ih =>
    by_cases hd : s.lzd.dstate = .done
    · rw [runLoop_done hd, runLoop_done hd]
    · rw [Nat.add_right_comm, runLoop_succ hd, runLoop_succ hd]
      refine bind_congr fun c t hc => ?_
      obtain ⟨hle, howed⟩ := continueCopy_owed _ s c t hc
      split
      case isTrue => rfl
      case isFalse hne =>
        refine bind_congr fun tok u _ => bind_congr fun e' v hv => ?_
        rcases startToken_owed _ tok u e' v hv with hdone | ⟨hle', howed'⟩
        · rw [runLoop_done hdone, runLoop_done hdone]
        · exact ih (by omega) (by omega)

end Turns

/-- Settles O57, by `runLoop_enough`: nothing is emitted yet, and n turns may read a token. -/
theorem runTurnBoundIsEnough : Obligations.RunTurnBoundIsEnough :=
  fun n k _ => runLoop_enough (Nat.zero_le n) (Nat.le_add_right _ _) k

/-! ## The pending copy first (R196 (a), (b), (e)) -/

section Pending
variable {s : State}

theorem continueCopy_zero (h : s.LzdInv) : continueCopy 0 s = .ok 0 s := by
  unfold continueCopy
  split
  case isTrue hc =>
    have hcrem := h.copyIff.mp hc
    rw [copyBytes, Nat.zero_min, copyTurns, bind_ok, settleCopy, if_neg (by omega)]
  case isFalse => rfl

theorem runLoop_zero (h : s.LzdInv) (turns : Nat) : runLoop 0 (turns + 1) 0 s = .ok 0 s := by
  by_cases hd : s.lzd.dstate = .done
  · exact runLoop_done hd _ _ _
  · rw [runLoop_succ hd, continueCopy_zero h, bind_ok, if_pos rfl]

end Pending

/-- Settles O56: the first turn copies what is pending (`continueCopy_copies`), and with the budget
used up the loop ends. -/
theorem runContinuesThePendingCopy : Obligations.RunContinuesThePendingCopy := by
  intro s n he hi
  refine ⟨fun h0 => ?_, fun hd => ?_, fun hd hn ht => ?_⟩
  · subst h0
    rw [exec_lzdRun _ he]
    exact congrArg (Res.finish .lzd) (runLoop_zero hi 0)
  · rw [exec_lzdRun n he, runLoop_done hd, finish_ok]
  · have hmin : min n.toNat s.lzd.crem = n.toNat := Nat.min_eq_left hn
    have hnot : s.lzd.dstate ≠ .done := by rw [hd]; decide
    obtain ⟨t, hcopy, hcopies, hinv, hdone⟩ := continueCopy_copies (k := n.toNat) hi hnot
      (hmin.symm ▸ ht)
    rw [hmin] at hcopy hcopies
    refine ⟨t.lzd, t.dout, ?_, hcopies.outputs.emitted hcopies.bytes hcopies.rest.symm hinv,
      hcopies.crem, hcopies.csrc, hcopies.tokphase, ?_⟩
    · rw [exec_lzdRun n he, runLoop_succ hnot, Nat.sub_zero, hcopy, bind_ok, Nat.zero_add, if_pos rfl,
        finish_ok, ← hcopies.rest]
    · rw [hinv.dstate_eq hdone, hcopies.crem]
      refine if_congr ?_ rfl rfl
      omega

/-! ## How far the loop has got -/

/-- From `s` LZD.RUN has read the bits `bs`, which hold the tokens `ts`, and put out `m` bytes. -/
structure State.Advances (s : State) (bs : List Bool) (ts : List Token) (m : Nat) (t : State) :
    Prop where
  rest : t = { s with br := t.br, src := t.src, lzd := t.lzd, dout := t.dout }
  reads : s.Reads bs { s with br := t.br, src := t.src }
  tokphase : t.lzd.tokphase = if bs = [] then s.lzd.tokphase else false
  performs : s.Performs ts m t

section Advances
variable {s t u : State} {bs cs rest : List Bool} {ts us toks : List Token} {tok : Token} {m n : Nat}

theorem State.LzdInv.advances (h : s.LzdInv) (hd : s.lzd.dstate ≠ .done) (hbi : s.br.Inv) :
    s.Advances [] [] 0 s :=
  ⟨rfl, .refl hbi, rfl, h.performs hd⟩

theorem State.Advances.emits (h : s.Advances bs ts m t) (k : EmitEffect t u)
    (hp : s.Performs us n u) : s.Advances bs us n u where
  rest := by rw [k.rest, h.rest]
  reads := by rw [k.rest]; exact h.reads
  tokphase := k.tokphase.trans h.tokphase
  performs := hp

/-- Reading a token takes its bits (R184). -/
theorem State.Advances.token (h : s.Advances bs ts m t) (k : t.Reads cs u) (hcs : cs ≠ []) :
    s.Advances (bs ++ cs) ts m (setTokphase false u) where
  rest := by rw [k.frame.rest, h.rest]; rfl
  reads := (h.reads.append_rebased k :)
  tokphase := by rw [if_neg fun hnil => hcs (List.append_eq_nil_iff.mp hnil).2]; rfl
  performs := h.performs.of_token (tokenEffect_read k false)

/-- What is left to read. -/
theorem State.Advances.readerBits_eq (h : s.Advances bs ts m t)
    (hbits : s.readerBits = bs ++ rest) : t.readerBits = rest :=
  (readerBits_congr rfl rfl).trans (List.append_cancel_left (h.reads.bits.symm.trans hbits))

theorem State.Advances.mode (h : s.Advances bs ts m t) : t.br.mode = s.br.mode := h.reads.frame.mode

theorem State.Advances.cfg (h : s.Advances bs ts m t) : t.lzd.cfg = s.lzd.cfg :=
  h.performs.outputs.cfg

theorem State.Advances.br_err (h : s.Advances bs ts m t) (hbe : s.br.err = none) :
    t.br.err = none := h.reads.frame.err.trans hbe

theorem State.Advances.br_inv (h : s.Advances bs ts m t) : t.br.Inv := h.reads.inv

theorem startToken_moves (e : Nat) (tok : Token) (s : State) :
    (startToken e tok s).moves EmitEffect s := by
  cases tok with
  | literal b => exact emitEffect_bind (putByte_moves b s) fun _ t _ _ => .refl t
  | reference off len => exact emitEffect_bind (startRef_moves off len s) fun _ t _ _ => .refl t

theorem State.Advances.copy (h : s.Advances bs ts m t) (k : Nat)
    (ht : t.dout.takes (min k t.lzd.crem) = true) :
    ∃ u, continueCopy k t = .ok (min k t.lzd.crem) u ∧
      s.Advances bs ts (m + min k t.lzd.crem) u := by
  obtain ⟨u, hcopy, hu⟩ := continueCopy_performs h.performs k ht
  have hmoves := continueCopy_moves k t
  rw [hcopy] at hmoves
  exact ⟨u, hcopy, h.emits hmoves hu⟩

/-- The token that comes next is read and started (R184, R196). -/
theorem State.Advances.start (h : s.Advances bs ts m t) (hc : t.lzd.crem = 0)
    (hbe : s.br.err = none) (hv : tok.valid s.lzd.cfg t.lzd.filled = true)
    (hbits : s.readerBits = bs ++ (tokenBits s.br.mode s.lzd.cfg tok ++ rest))
    (ht : t.dout.takes tok.atOnce = true) :
    ∃ u, s.Advances (bs ++ tokenBits s.br.mode s.lzd.cfg tok) (ts ++ [tok]) (m + tok.atOnce) u ∧
      ∀ f : Nat → State → Res Nat, ((readToken t).bind fun tok v => (startToken m tok v).bind f) =
        f (m + tok.atOnce) u := by
  have hnext := h.readerBits_eq hbits
  rw [← h.mode, ← h.cfg] at hnext ⊢
  rw [← h.cfg] at hv
  obtain ⟨v, hreads, hread⟩ := readToken_valid (h.br_err hbe) h.br_inv h.performs.inv.cfgOk hv hnext
  have hne : tokenBits t.br.mode t.lzd.cfg tok ≠ [] := by cases tok <;> exact List.cons_ne_nil _ _
  have hv' := h.token hreads hne
  have hlzd : (setTokphase false v).lzd = { t.lzd with tokphase := false } := by
    rw [setTokphase_lzd, hreads.lzd]
  have hdout : (setTokphase false v).dout = t.dout := by rw [setTokphase_dout, hreads.frame.rest]
  obtain ⟨hstart, hperforms⟩ := startToken_performs hv'.performs (by rw [hlzd]; exact hc)
    (by rw [hlzd]; exact Token.executable_of_valid hv) (by rw [hdout]; exact ht) m
  have hmoves := startToken_moves m tok (setTokphase false v)
  rw [hstart] at hmoves
  exact ⟨_, hv'.emits hmoves hperforms, fun f => by rw [hread, bind_ok, hstart, bind_ok]⟩

/-! ### Turns -/

/-- What is left to copy is what the tokens hold beyond the bytes put out. -/
theorem State.Advances.crem_eq (h : s.Advances bs ts m t) :
    t.lzd.crem = tokensSize (s.pendingCopy ++ ts) - m := by
  have := h.performs.size
  omega

/-- A budget that the tokens started can fill ends the loop (R196 (b), (c)). -/
theorem runLoop_stops (h : s.Advances bs ts m t) (hm : m ≤ n)
    (hn : n ≤ tokensSize (s.pendingCopy ++ ts)) (ht : s.dout.takes n = true) (turns : Nat) :
    ∃ u, s.Advances bs ts n u ∧ runLoop n (turns + 1) m t = .ok n u := by
  have hmin : min (n - m) t.lzd.crem = n - m := by
    have := h.crem_eq
    omega
  obtain ⟨u, hcopy, hu⟩ := h.copy (n - m) (by
    rw [hmin]
    exact h.performs.outputs.takes (by rwa [Nat.add_sub_cancel' hm]))
  rw [hmin] at hcopy hu
  rw [Nat.add_sub_cancel' hm] at hu
  refine ⟨u, hu, ?_⟩
  rw [runLoop_succ h.performs.notDone, hcopy, bind_ok, Nat.add_sub_cancel' hm, if_pos rfl]

/-- With budget left after the tokens started, the loop finishes them and reads on (R196 (c)). -/
theorem runLoop_readsOn (h : s.Advances bs ts m t) (hn : tokensSize (s.pendingCopy ++ ts) < n)
    (ht : s.dout.takes (tokensSize (s.pendingCopy ++ ts)) = true) (turns : Nat) :
    ∃ u, s.Advances bs ts (tokensSize (s.pendingCopy ++ ts)) u ∧
      runLoop n (turns + 1) m t = (readToken u).bind fun tok v =>
        (startToken (tokensSize (s.pendingCopy ++ ts)) tok v).bind (runLoop n turns) := by
  have hsize := h.performs.size
  have hmin : min (n - m) t.lzd.crem = t.lzd.crem := by omega
  obtain ⟨u, hcopy, hu⟩ := h.copy (n - m) (by
    rw [hmin]
    exact h.performs.outputs.takes (by rwa [hsize]))
  rw [hmin] at hcopy hu
  rw [hsize] at hu
  refine ⟨u, hu, ?_⟩
  rw [runLoop_succ h.performs.notDone, hcopy, bind_ok, hsize, if_neg hn.ne]

/-- While the budget lasts, the loop reads the valid tokens of the stream one by one and executes
them whole (R196 (c), R205). -/
theorem runLoop_reaches (hbe : s.br.err = none) (h : s.Advances bs ts m t)
    (hv : validTokens s.lzd.cfg (min (s.lzd.filled + tokensSize (s.pendingCopy ++ ts))
      s.lzd.cfg.wsize) toks = true)
    (hbits : s.readerBits = bs ++ (tokensBits s.br.mode s.lzd.cfg toks ++ rest))
    (hn : tokensSize (s.pendingCopy ++ (ts ++ toks)) < n)
    (ht : s.dout.takes (tokensSize (s.pendingCopy ++ (ts ++ toks))) = true) (turns : Nat) :
    ∃ u, s.Advances (bs ++ tokensBits s.br.mode s.lzd.cfg toks) (ts ++ toks)
        (tokensSize (s.pendingCopy ++ (ts ++ toks))) u ∧
      runLoop n (turns + 1 + toks.length) m t = (readToken u).bind fun tok v =>
        (startToken (tokensSize (s.pendingCopy ++ (ts ++ toks))) tok v).bind (runLoop n turns) := by
  induction toks generalizing bs ts m t with
  | nil =>
    rw [List.append_nil] at hn ht ⊢
    rw [tokensBits_nil, List.append_nil]
    exact runLoop_readsOn h hn ht turns
  | cons tok toks ih =>
    rw [← List.singleton_append, ← List.append_assoc ts] at hn ht ⊢
    rw [tokensBits_cons, List.append_assoc] at hbits
    obtain ⟨hv1, hvs⟩ := Bool.and_eq_true_iff.mp hv
    have hsplit : tokensSize (s.pendingCopy ++ (ts ++ [tok] ++ toks)) =
        tokensSize (s.pendingCopy ++ ts) + tok.size + tokensSize toks := by
      simp only [tokensSize_append, tokensSize_cons, tokensSize_nil]
      omega
    have honce : tok.atOnce ≤ tok.size := by cases tok <;> simp [Token.atOnce, Token.size]
    obtain ⟨u, hu, hloop⟩ := runLoop_readsOn (n := n) h (by omega) (Dout.takes_mono ht (by omega))
      (turns + 1 + toks.length)
    obtain ⟨v, hv', hstart⟩ := hu.start (by rw [hu.crem_eq, Nat.sub_self]) hbe
      (by rw [hu.performs.outputs.filled]; exact hv1) hbits
      (hu.performs.outputs.takes (Dout.takes_mono ht (by omega)))
    obtain ⟨w, hw, hrun⟩ := ih hv' (by
        rw [← hvs]
        congr 1
        simp only [tokensSize_append, tokensSize_cons, tokensSize_nil]
        omega)
      (by rw [hbits, List.append_assoc]) hn ht
    refine ⟨w, ?_, ?_⟩
    · rwa [tokensBits_append, tokensBits_cons, tokensBits_nil, List.append_nil, ← List.append_assoc]
    · rw [List.length_append, List.length_singleton, Nat.add_comm 1, ← Nat.add_assoc, hloop, hstart,
        hrun]

end Advances

end Sys2Proof.Machine

/-! PROOF. Where LZD.RUN ends (R196): at its budget, at the terminator, or at the token that faults. -/

namespace Sys2Proof.Machine

open Config

/-! ## Token sequences -/

section Sequences
variable {c : LzConfig} {ts us : List Token} {filled n : Nat}

theorem tokensBits_eq_nil (mode : BitOrder) : tokensBits mode c ts = [] ↔ ts = [] := by
  cases ts with
  | nil => simp
  | cons tok ts => cases tok <;> simp [tokenBits]

theorem validTokens_append (hf : filled ≤ c.wsize) (h : validTokens c filled (ts ++ us) = true) :
    validTokens c filled ts = true ∧
      validTokens c (min (filled + tokensSize ts) c.wsize) us = true := by
  induction ts generalizing filled with
  | nil => exact ⟨rfl, by rwa [tokensSize_nil, Nat.add_zero, Nat.min_eq_left hf]⟩
  | cons tok ts ih =>
    obtain ⟨htok, hrest⟩ := Bool.and_eq_true_iff.mp h
    obtain ⟨hts, hus⟩ := ih (Nat.min_le_right _ _) hrest
    refine ⟨Bool.and_eq_true_iff.mpr ⟨htok, hts⟩, ?_⟩
    rw [← hus, tokensSize_cons]
    congr 1
    omega

/-- Every valid token emits a byte (R205). -/
theorem length_le_tokensSize (h : validTokens c filled ts = true) : ts.length ≤ tokensSize ts := by
  induction ts generalizing filled with
  | nil => exact Nat.le_refl 0
  | cons tok ts ih =>
    obtain ⟨htok, hrest⟩ := Bool.and_eq_true_iff.mp h
    have hlen := ih hrest
    have hsize : 1 ≤ tok.size := by
      cases tok with
      | literal b => exact Nat.le_refl 1
      | reference off len =>
        obtain ⟨h0, -⟩ := of_decide_eq_true htok
        exact Nat.pos_of_ne_zero h0
    rw [List.length_cons, tokensSize_cons]
    omega

/-- The fewest tokens that fill a budget. -/
theorem exists_fewest (ps : List Token) (h : n ≤ tokensSize (ps ++ ts)) :
    ∃ k ≤ ts.length, n ≤ tokensSize (ps ++ ts.take k) ∧
      (0 < k → tokensSize (ps ++ ts.take (k - 1)) < n) := by
  have hex : ∃ k, n ≤ tokensSize (ps ++ ts.take k) := ⟨ts.length, by rwa [List.take_length]⟩
  refine ⟨Nat.find hex, Nat.find_min' hex (by rwa [List.take_length]), Nat.find_spec hex, fun h0 => ?_⟩
  exact Nat.not_le.mp (Nat.find_min hex (Nat.sub_lt h0 Nat.one_pos))

end Sequences

/-! ## The three ends of the loop -/

section Ends
variable {s t u : State} {bs after rest : List Bool} {ts toks : List Token}
  {tok : Token} {m n : Nat}

section Start
variable (hbe : s.br.err = none) (hbi : s.br.Inv) (hi : s.LzdInv) (hd : s.lzd.dstate ≠ .done)
include hbe hbi hi hd

/-- The start of LZD.RUN, with the whole budget left: the loop reads and executes all the tokens, and
reads on (R196 (c)). -/
theorem runLoop_executes
    (hv : validTokens s.lzd.cfg (min (s.lzd.filled + s.lzd.crem) s.lzd.cfg.wsize) toks = true)
    (hbits : s.readerBits = tokensBits s.br.mode s.lzd.cfg toks ++ rest)
    (hn : tokensSize (s.pendingCopy ++ toks) < n)
    (ht : s.dout.takes (tokensSize (s.pendingCopy ++ toks)) = true) :
    ∃ u turns, 0 < turns ∧
      s.Advances (tokensBits s.br.mode s.lzd.cfg toks) toks (tokensSize (s.pendingCopy ++ toks)) u ∧
      runLoop n (n + 1) 0 s = (readToken u).bind fun tok v =>
        (startToken (tokensSize (s.pendingCopy ++ toks)) tok v).bind (runLoop n turns) := by
  have hlen := length_le_tokensSize hv
  have hsize : tokensSize toks ≤ tokensSize (s.pendingCopy ++ toks) := by
    rw [tokensSize_append]
    exact Nat.le_add_left _ _
  obtain ⟨u, hu, hloop⟩ := runLoop_reaches (toks := toks) (n := n) hbe (hi.advances hd hbi)
    (by rwa [List.append_nil, tokensSize_pendingCopy]) hbits hn ht (n - toks.length)
  refine ⟨u, n - toks.length, by omega, hu, Eq.trans ?_ hloop⟩
  congr 1
  omega

/-- The budget ends the loop in the token that fills it (R196 (b), (c)). -/
theorem runLoop_endsIn
    (hv : validTokens s.lzd.cfg (min (s.lzd.filled + s.lzd.crem) s.lzd.cfg.wsize)
      (ts ++ [tok]) = true)
    (hbits : s.readerBits = tokensBits s.br.mode s.lzd.cfg (ts ++ [tok]) ++ rest)
    (ht : s.dout.takes n = true) (hlt : tokensSize (s.pendingCopy ++ ts) < n)
    (hn : n ≤ tokensSize (s.pendingCopy ++ (ts ++ [tok]))) :
    ∃ u, s.Advances (tokensBits s.br.mode s.lzd.cfg (ts ++ [tok])) (ts ++ [tok]) n u ∧
      runLoop n (n + 1) 0 s = .ok n u := by
  obtain ⟨hts, htok⟩ := validTokens_append (Nat.min_le_right _ _) hv
  obtain ⟨hone, -⟩ := Bool.and_eq_true_iff.mp htok
  have hsplit : tokensBits s.br.mode s.lzd.cfg (ts ++ [tok]) =
      tokensBits s.br.mode s.lzd.cfg ts ++ tokenBits s.br.mode s.lzd.cfg tok := by
    rw [tokensBits_append, tokensBits_cons, tokensBits_nil, List.append_nil]
  rw [hsplit, List.append_assoc] at hbits
  rw [hsplit]
  obtain ⟨u, turns, hturns, hu, hloop⟩ := runLoop_executes hbe hbi hi hd hts hbits hlt
    (Dout.takes_mono ht hlt.le)
  have honce : tok.atOnce ≤ 1 := by cases tok <;> simp [Token.atOnce]
  have hfilled : u.lzd.filled =
      min (min (s.lzd.filled + s.lzd.crem) s.lzd.cfg.wsize + tokensSize ts) s.lzd.cfg.wsize := by
    rw [hu.performs.outputs.filled, tokensSize_append, tokensSize_pendingCopy]
    omega
  obtain ⟨v, hv', hstart⟩ := hu.start (by rw [hu.crem_eq, Nat.sub_self]) hbe
    (by rw [hfilled]; exact hone) hbits
    (hu.performs.outputs.takes (Dout.takes_mono ht (by omega)))
  obtain ⟨j, rfl⟩ := Nat.exists_eq_succ_of_ne_zero hturns.ne'
  obtain ⟨w, hw, hstop⟩ := runLoop_stops hv' (by omega) hn ht j
  exact ⟨w, hw, by rw [hloop, hstart, hstop]⟩

/-- The budget ends the loop in the pending copy, or in the first token that fills it. -/
theorem runLoop_fills
    (hv : validTokens s.lzd.cfg (min (s.lzd.filled + s.lzd.crem) s.lzd.cfg.wsize) toks = true)
    (hbits : s.readerBits = tokensBits s.br.mode s.lzd.cfg toks ++ rest)
    (ht : s.dout.takes n = true) {k : Nat} (hk : k ≤ toks.length)
    (hn : n ≤ tokensSize (s.pendingCopy ++ toks.take k))
    (hfew : 0 < k → tokensSize (s.pendingCopy ++ toks.take (k - 1)) < n) :
    ∃ u, s.Advances (tokensBits s.br.mode s.lzd.cfg (toks.take k)) (toks.take k) n u ∧
      runLoop n (n + 1) 0 s = .ok n u := by
  rw [← List.take_append_drop k toks] at hv hbits
  rw [tokensBits_append, List.append_assoc] at hbits
  obtain ⟨hv, -⟩ := validTokens_append (Nat.min_le_right _ _) hv
  cases k with
  | zero => exact runLoop_stops (hi.advances hd hbi) (Nat.zero_le n) hn ht n
  | succ j =>
    rw [← List.take_concat_get' toks j hk] at hv hbits hn ⊢
    exact runLoop_endsIn hbe hbi hi hd hv hbits ht (hfew (Nat.succ_pos j)) hn

end Start

/-- A reference that is read from its bits, whatever comes of it (R184, R195). -/
theorem State.Advances.reference (h : s.Advances bs ts m t) (hbe : s.br.err = none) {off l : Nat}
    (ho : off < 2 ^ s.lzd.cfg.ob.toNat) (hl : l < 2 ^ s.lzd.cfg.lb.toNat)
    (hbits : s.readerBits = bs ++ (referenceBits s.br.mode s.lzd.cfg off l ++ after)) :
    ∃ u, s.Advances (bs ++ referenceBits s.br.mode s.lzd.cfg off l) ts m u ∧
      readToken t = if s.lzd.cfg.max.toNat < l + s.lzd.cfg.min.toNat then .faulted .lzd .lzRange u
        else .ok (.reference off (l + s.lzd.cfg.min.toNat)) u := by
  have hnext := h.readerBits_eq hbits
  rw [← h.mode, ← h.cfg] at hnext ⊢
  rw [← h.cfg] at ho hl
  obtain ⟨u, hreads, hread⟩ := readToken_reference (h.br_err hbe) h.br_inv ho hl hnext
  exact ⟨_, h.token hreads (List.cons_ne_nil _ _), hread⟩

/-- Of LZD's elements TOKPHASE and DSTATE play no part in what has been executed, short of COPY. -/
theorem State.Executed.relabel {d : Lzd} {o : Dout} (h : s.Executed ts d o) (p : Bool)
    {x : LzdState} (hx : x ≠ .copy) : s.Executed ts { d with tokphase := p, dstate := x } o where
  emitted := { h.emitted with
    inv := { h.emitted.inv with
      copyIff := by
        have hcrem : d.crem = 0 := h.crem
        exact ⟨fun hc => absurd hc hx, fun hp => absurd hcrem hp.ne'⟩
      copySource := fun hc => absurd hc hx } }
  csrc := h.csrc
  crem := h.crem

/-- The response to a command that has got so far, with the frame written out. -/
theorem State.Advances.respond (h : s.Advances bs ts m t) (r : Nat) : t.respond r =
    State.respond { s with br := t.br, src := t.src, lzd := t.lzd, dout := t.dout } r :=
  congrArg (State.respond · r) h.rest

/-- A fault of LZD that ends a command that has got so far (R222). -/
theorem State.Advances.finish_faulted (h : s.Advances bs ts m t) (c : FaultCode) :
    (Res.faulted .lzd c t : Res Nat).finish .lzd = .next (State.answer
      { s with br := t.br, src := t.src, dout := t.dout, lzd := { t.lzd with err := some c } }
      0#32 c.num) :=
  congrArg (fun w : State => Host.Outcome.next
    (State.answer { w with lzd := { t.lzd with err := some c } } 0#32 c.num)) h.rest

end Ends

/-- Settles O55: with `n` bytes or more to come the loop stops in the first token that fills the budget
(`runLoop_fills`); with fewer it executes all (`runLoop_executes`) and reads the terminator. -/
theorem runEmitsExactlyItsBudget : Obligations.RunEmitsExactlyItsBudget := by
  intro s n toks rest he hd hi hbe hbi hv hbits
  refine ⟨fun hn ht => ?_, fun off after hmin ho hrest hn ht => ?_⟩
  · obtain ⟨k, hk, hfill, hfew⟩ := exists_fewest s.pendingCopy hn
    obtain ⟨u, hu, hloop⟩ := runLoop_fills hbe hbi hi hd hv hbits ht hk hfill hfew
    have hemitted := hu.performs.emitted (toks.drop k)
    rw [List.take_append_drop] at hemitted
    refine ⟨k, u.br, u.src, u.lzd, u.dout, hk, ?_, hu.reads.consumed, hemitted, hfill, hfew, hu.crem_eq,
      hu.performs.csrc, hu.performs.inv.dstate_eq hu.performs.notDone, ?_⟩
    · rw [exec_lzdRun n he, hloop, finish_ok, hu.respond]
    · rw [hu.tokphase]
      refine if_congr ?_ rfl rfl
      rw [tokensBits_eq_nil, List.take_eq_nil_iff]
      refine ⟨fun h => h.elim id fun hnil => ?_, .inl⟩
      subst hnil
      exact Nat.le_zero.mp hk
  · obtain ⟨u, turns, -, hu, hloop⟩ := runLoop_executes hbe hbi hi hd hv hbits hn ht
    have hzero : s.lzd.cfg.min.toNat = 0 := by rw [hmin]; rfl
    rw [hrest, tokenBits_reference, Nat.zero_sub] at hbits
    obtain ⟨v, hv', hread⟩ := hu.reference hbe ho (Nat.two_pow_pos _) hbits
    rw [if_neg (by omega), hzero] at hread
    have hexec := (hv'.performs.executed hv'.performs.crem_of_whole).relabel v.lzd.tokphase
      (x := .done) (by decide)
    refine ⟨v.br, v.src, { v.lzd with dstate := .done }, v.dout, ?_, ?_, hexec, rfl, ?_⟩
    · rw [exec_lzdRun n he, hloop, hread, bind_ok, startToken, startRef, if_pos rfl, bind_ok, bind_ok,
        runLoop_done rfl, finish_ok]
      exact congrArg (fun w : State => Host.Outcome.next (State.respond
        { w with lzd := { v.lzd with dstate := .done } } (tokensSize (s.pendingCopy ++ toks)))) hv'.rest
    · rw [tokensBits_append, tokensBits_cons, tokensBits_nil, List.append_nil, tokenBits_reference,
        Nat.zero_sub]
      exact hv'.reads.consumed
    · rw [hv'.tokphase, if_neg (by simp [referenceBits])]

/-- Settles O60: the loop executes the valid tokens (`runLoop_executes`), and the next token is cut by
the end of the source (`readToken_end`), too long, or of a bad distance. -/
theorem runFaultsAtTheTokenThatFaults : Obligations.RunFaultsAtTheTokenThatFaults := by
  intro s n toks rest he hd hi hbe hbi hv hbits hn ht
  obtain ⟨u, turns, -, hu, hloop⟩ := runLoop_executes hbe hbi hi hd hv hbits hn ht
  have hcrem := hu.performs.crem_of_whole
  refine ⟨fun hcut => ?_, fun off l after ho hl hrest hbad => ?_⟩
  · have hrest := hu.readerBits_eq hbits
    obtain ⟨v, hreads, hread⟩ := readToken_end (hu.br_err hbe) hu.br_inv (by
      rw [hrest, hu.cfg]; exact hcut)
    have hall := hu.reads.append_rebased hreads
    rw [hrest, ← hbits] at hall
    have hready := hu.performs.ready hcrem
    refine ⟨_, _, _, u.dout, hall.exhausted hbe hbi, (hu.performs.executed hcrem).relabel
      (if u.readerBits = [] then u.lzd.tokphase else true) (x := u.lzd.dstate)
      (by rw [hready]; decide), hready, ?_, ?_⟩
    · rw [hrest, hu.tokphase, ite_not]
      exact if_congr Iff.rfl (if_congr (tokensBits_eq_nil _) rfl rfl) rfl
    · have hending : u.src.ending = s.src.ending := hu.reads.frame.ending
      rw [exec_lzdRun n he, hloop, hread, endOfStream_bind, hreads.finish_cut (hu.br_err hbe) hu.br_inv,
        hending]
      generalize (if u.readerBits = [] then u.lzd.tokphase else true) = p
      exact congrArg (fun w : State => s.src.ending.ends .lzd { w with
        br := v.br.ended s.src.ending, src := (asked v).src, lzd := { u.lzd with tokphase := p } })
        hu.rest
  · rw [hrest] at hbits
    obtain ⟨v, hv', hread⟩ := hu.reference hbe ho hl hbits
    have hcrem' := hv'.performs.crem_of_whole
    refine ⟨v.br, v.src, v.lzd, v.dout, hv'.reads.consumed, hv'.performs.executed hcrem',
      hv'.performs.ready hcrem', ?_, ?_⟩
    · rw [hv'.tokphase, if_neg (by simp [referenceBits])]
    · rw [exec_lzdRun n he, hloop, hread]
      split
      case isTrue => rw [bind_faulted, hv'.finish_faulted]; rfl
      case isFalse hmax =>
        obtain ⟨h0, hdist⟩ := hbad.resolve_left hmax
        have hfilled : v.lzd.filled < v.lzd.cfg.distance off := by
          rw [hv'.performs.outputs.filled, hv'.cfg]
          exact hdist
        rw [bind_ok, startToken, startRef, if_neg h0, if_pos hfilled, bind_faulted, bind_faulted,
          hv'.finish_faulted]
        rfl

end Sys2Proof.Machine

/-! PROOF. Rejects and faults as the host sees them: STATUS tells how a command has ended (R220), a
reject leaves the state alone (R221), a fault stands in the ERR of two units (R222), and the sticky
code of BR or BW is the fault of the next command that needs the unit (R223). -/

namespace Sys2Proof.Machine

/-! ## What STATUS tells (R220) -/

/-- The reject codes are numbered below the fault codes. -/
theorem RejectCode.num_lt (c : RejectCode) : c.num.toNat < 16 := by
  cases c <;> decide

theorem FaultCode.num_ge (c : FaultCode) : 16 ≤ c.num.toNat := by
  cases c <;> decide

theorem FaultCode.num_ne_reject (c : FaultCode) (d : RejectCode) : c.num ≠ d.num := fun h =>
  absurd (h ▸ c.num_ge) (Nat.not_le.mpr d.num_lt)

theorem RejectCode.num_ne_zero (c : RejectCode) : c.num ≠ 0#32 := by
  cases c <;> decide

theorem FaultCode.num_ne_zero (c : FaultCode) : c.num ≠ 0#32 := by
  cases c <;> decide

theorem FaultCode.num_injective : Function.Injective FaultCode.num := by
  intro c d h
  cases c <;> cases d <;> simp [FaultCode.num] at h ⊢

section Responses
variable {i : Instr} {s t : State} {r : Response}

/-- The ways a command can end with the response `r` in the state `t`. -/
inductive ResponseCase (i : Instr) (s t : State) : Response → Prop
  | succeeds (result : Word) : ResponseCase i s t ⟨result, 0#32⟩
  | rejected (c : RejectCode) : t = s.answer 0#32 c.num → ResponseCase i s t ⟨0#32, c.num⟩
  | sticky (c : FaultCode) : s.err i.unit = some c → ResponseCase i s t ⟨0#32, c.num⟩
  | faulted (v : CodecUnit) (c : FaultCode) (u : State) : CommandEffect i s u → Detects i s v c →
      t = u.takeFault i.unit v c → ResponseCase i s t ⟨0#32, c.num⟩

/-- The response added to those given before is determined by the list (R93). -/
theorem response_unique {rs : List Response} {a b : Response} (h : rs ++ [a] = rs ++ [b]) : a = b :=
  List.singleton_inj.mp (List.append_cancel_left h)

/-- A command that runs primitives and answers has not come to wait. -/
theorem FinishCase.responseCase (h : FinishCase i s t) (hr : t.responses = s.responses ++ [r]) :
    ResponseCase i s t r := by
  cases h with
  | responds a u hu =>
    rw [respond_responses, hu.responses] at hr
    obtain rfl := response_unique hr
    exact .succeeds _
  | faults v c u hu hd =>
    rw [takeFault_responses, hu.responses] at hr
    obtain rfl := response_unique hr
    exact .faulted v c u hu hd rfl
  | waits d u hu =>
    have hnone : s.responses = s.responses ++ [r] := hu.responses.symm.trans hr
    exact absurd (List.self_eq_append_right.mp hnone) (List.cons_ne_nil _ _)

theorem exec_responseCase (h : exec i s = .next t) (hr : t.responses = s.responses ++ [r]) :
    ResponseCase i s t r := by
  have hcase := exec_cases i s
  rw [h] at hcase
  generalize ha : (Host.Outcome.next t : Answer) = a at hcase
  cases hcase with
  | answers | resets | initsReader | initsWriter | clearsHuf | setsHuf | initsLzd | initsLze =>
    cases ha
    obtain rfl := response_unique hr
    exact .succeeds _
  | rejects c =>
    cases ha
    obtain rfl := response_unique hr
    exact .rejected c rfl
  | sticky c he =>
    cases ha
    obtain rfl := response_unique hr
    exact .sticky c he
  | runs p _ hp => exact (hp.finish_cases ha.symm).responseCase hr

end Responses

/-- Settles O11: of the ways a command can end, only a reject answers a reject code. -/
theorem rejectedCommandsChangeNothing : Obligations.RejectedCommandsChangeNothing := by
  intro i s t r c h hr hc
  cases exec_responseCase h hr with
  | succeeds => exact absurd hc.symm c.num_ne_zero
  | rejected d ht => rw [ht, show d.num = c.num from hc]
  | sticky d => exact absurd hc (d.num_ne_reject c)
  | faulted _ d => exact absurd hc (d.num_ne_reject c)

/-! ## Faults (R222) -/

section Faults
variable {i : Instr} {s u : State} {v : CodecUnit} {c : FaultCode}

/-- With every ERR field at a code it can hold, a fault is detected in the unit R222 names for it. -/
theorem Detects.detector (h : Detects i s v c) (hs : s.ErrInv) : c.detector = v := by
  obtain ⟨hp, -⟩ := h.possible hs
  cases h with
  | reader _ hf =>
    obtain ⟨rfl, -⟩ := hf
    rcases (by simpa [FaultCode.possible] using hp : c = .eos ∨ c = .src) with rfl | rfl <;> rfl
  | writer _ hf =>
    obtain ⟨rfl, -⟩ := hf
    obtain rfl : c = .snk := by simpa [FaultCode.possible] using hp
    rfl
  | own _ hc _ => exact hc

/-- No ERR field of SYS can hold a code (R222). -/
theorem ne_sys_of_possible (h : c.possible v = true) : v ≠ .sys := by
  rintro rfl
  cases h

/-- The ERR fields after a fault (R222). -/
theorem Detects.latches (h : Detects i s v c) (hs : s.ErrInv) (hu : CommandEffect i s u) :
    (u.takeFault i.unit v c).err c.detector = some c ∧
      (u.takeFault i.unit v c).err i.unit = some c ∧
      ∀ w, w ≠ c.detector → w ≠ i.unit → (u.takeFault i.unit v c).err w = s.err w := by
  obtain ⟨hv, hi⟩ := h.possible hs
  rw [h.detector hs]
  refine ⟨?_, ?_, fun w hw hwi => ?_⟩
  · rw [takeFault_err, if_pos ⟨ne_sys_of_possible hv, .inr rfl⟩]
  · rw [takeFault_err, if_pos ⟨ne_sys_of_possible hi, .inl rfl⟩]
  · rw [takeFault_err, if_neg (by rintro ⟨-, hor⟩; exact hor.elim hwi hw), hu.err]

/-- Writing the code that stands in an ERR field already. -/
theorem setErr_of_err (h : s.err v = some c) : s.setErr v c = s := by
  cases v with
  | sys => rfl
  | _ => rw [State.setErr, ← h]; rfl

/-- A command that ends with a sticky code of another unit takes it in its own ERR (R223). -/
theorem finish_sticky {w : CodecUnit} (h : s.err v = some c) :
    (Res.faulted v c s : Res Nat).finish w = .next ((s.setErr w c).answer 0#32 c.num) := by
  rw [finish_faulted, State.takeFault, setErr_of_err h]

end Faults

/-! ## Commands that need a bit while BR.ERR is set (R223) -/

section Reader
variable {s : State} {c : FaultCode} (hc : s.br.err = some c)
include hc

theorem getBit_sticky : getBit s = .faulted .br c s := by
  simp only [getBit, hc]

theorem readToken_sticky : readToken s = .faulted .br c s := by
  rw [readToken, getBit_sticky hc, bind_faulted]

/-- HUF.GETSYM on a table with codes needs a bit (R160). -/
theorem exec_hufGetsym_sticky (he : s.err .huf = none) (hb : s.huf.hstate = .built)
    (hi : s.huf.Inv) (hn : 0 < s.huf.ncodes) :
    exec .hufGetsym s = .next ((s.setErr .huf c).answer 0#32 c.num) := by
  have hpos : 0 < s.huf.lmax := by
    have htable := hi.table hb
    rw [htable.ncodes] at hn
    obtain ⟨sym, hsym⟩ := List.exists_mem_of_length_pos hn
    obtain ⟨hs, h0⟩ := mem_coded.mp hsym
    exact h0.trans_le (htable.lmaxUpper sym hs)
  obtain ⟨n, hlmax⟩ := Nat.exists_eq_succ_of_ne_zero hpos.ne'
  rw [exec_hufGetsym_coded he hb hn.ne', hlmax, List.range'_succ, decodeFrom_cons, getBit_sticky hc,
    bind_faulted, finish_sticky (v := .br) hc]

theorem exec_lzdStep_sticky (he : s.err .lzd = none) (hd : s.lzd.dstate = .ready) :
    exec .lzdStep s = .next ((s.setErr .lzd c).answer 0#32 c.num) := by
  rw [exec_lzdStep_ready he hd, readToken_sticky hc, bind_faulted, finish_sticky (v := .br) hc]

/-- LZD.RUN with budget left after the pending copy makes that copy and then needs a bit (R196). -/
theorem exec_lzdRun_sticky {n : Word} (he : s.err .lzd = none) (hd : s.lzd.dstate ≠ .done)
    (hi : s.LzdInv) (hn : s.lzd.crem < n.toNat) (ht : s.dout.takes s.lzd.crem = true) :
    ∃ lzd dout, s.Executed s.pendingCopy lzd dout ∧ lzd.dstate = .ready ∧
      lzd.tokphase = s.lzd.tokphase ∧
      exec (.lzdRun n) s = .next (State.answer
        { s with lzd := { lzd with err := some c }, dout := dout } 0#32 c.num) := by
  have hmin : min n.toNat s.lzd.crem = s.lzd.crem := Nat.min_eq_right hn.le
  obtain ⟨u, hcopy, hu⟩ := continueCopy_performs (hi.performs hd) n.toNat (hmin.symm ▸ ht)
  have hmoves : EmitEffect s u := by
    have := continueCopy_moves n.toNat s
    rwa [hcopy] at this
  rw [hmin] at hcopy hu
  have hcrem : u.lzd.crem = 0 := by
    have hsize := hu.size
    rw [List.append_nil, tokensSize_pendingCopy] at hsize
    omega
  have hexec := hu.executed hcrem
  rw [List.append_nil] at hexec
  have hu_err : u.br.err = some c := by rw [hmoves.rest]; exact hc
  refine ⟨u.lzd, u.dout, hexec, hu.ready hcrem, hmoves.tokphase, ?_⟩
  rw [exec_lzdRun n he, runLoop_succ hd, Nat.sub_zero, hcopy, bind_ok, Nat.zero_add, if_neg hn.ne,
    readToken_sticky hu_err, bind_faulted, finish_sticky (v := .br) hu_err, hmoves.rest]
  rfl

end Reader

/-! ## Commands that write a bit or flush while BW.ERR is set (R223) -/

section Writer
variable {s : State} {c : FaultCode} (hc : s.bw.err = some c)
include hc

theorem putBits_sticky {bs : List Bool} (hbs : bs ≠ []) : putBits bs s = .faulted .bw c s := by
  cases bs with
  | nil => exact absurd rfl hbs
  | cons b bs =>
    have hput : putBit b s = .faulted .bw c s := by simp only [putBit, hc]
    rw [putBits, hput, bind_faulted]

theorem flush_sticky : flush s = .faulted .bw c s := by
  simp only [flush, hc]

theorem finish_putBits_sticky {bs : List Bool} (hbs : bs ≠ []) (f : Unit → State → Res Nat)
    (u : CodecUnit) :
    ((putBits bs s).bind f).finish u = .next ((s.setErr u c).answer 0#32 c.num) := by
  rw [putBits_sticky hc hbs, bind_faulted, finish_sticky (v := .bw) hc]

/-- Every token begins with its flag bit (R183). -/
theorem finish_putToken_sticky (tok : Token) :
    (putToken tok s).finish .lze = .next ((s.setErr .lze c).answer 0#32 c.num) :=
  finish_putBits_sticky hc (by cases tok <;> exact List.cons_ne_nil _ _) _ _

theorem exec_hufPutsym_sticky {sym : BitVec 16} (he : s.err .huf = none)
    (hb : s.huf.hstate = .built) (hi : s.huf.Inv) (hs : sym.toNat < s.huf.nsym)
    (h0 : 0 < s.huf.lenOf sym.toNat) :
    exec (.hufPutsym sym) s = .next ((s.setErr .huf c).answer 0#32 c.num) := by
  have hcode : s.huf.wireCode sym.toNat ≠ [] :=
    List.ne_nil_of_length_pos (by rwa [length_wireCode])
  rw [exec_hufPutsym_coded he hb hi hs h0, finish_putBits_sticky hc hcode]

/-- LZE.FLUSH sets ESTATE before it flushes (R202, R203). -/
theorem exec_lzeFlush_sticky (he : s.err .lze = none) : exec .lzeFlush s =
    .next (((setEstate .flushing s).setErr .lze c).answer 0#32 c.num) := by
  have hset : (setEstate .flushing s).bw.err = some c := hc
  rw [exec, execLzeFlush, unlessSticky_none he, flush_sticky hset, bind_faulted,
    finish_sticky (v := .bw) hset]

end Writer

/-- Settles O12: a fault is latched by `Detects.latches`; while BR.ERR or BW.ERR is set, each command
that uses the unit comes to its first GetBit, PutBit or Flush and ends there. -/
theorem faultLatchesBothErrFields : Obligations.FaultLatchesBothErrFields := by
  refine ⟨fun i s t r c hs he h hr hc => ?_, fun s c hc => ⟨?_, ?_, ?_⟩,
    fun s c hc => ⟨?_, ?_, ?_, ?_⟩⟩
  · cases exec_responseCase h hr with
    | succeeds => exact absurd hc.symm c.num_ne_zero
    | rejected d => exact absurd hc.symm (c.num_ne_reject d)
    | sticky d hd => rw [he] at hd; cases hd
    | faulted v d u hu hd ht =>
      obtain rfl := FaultCode.num_injective hc
      rw [ht]
      exact ⟨rfl, hd.latches hs hu⟩
  · exact exec_hufGetsym_sticky hc
  · exact exec_lzdStep_sticky hc
  · exact fun n he hd hi hn ht => exec_lzdRun_sticky hc he hd hi hn ht
  · exact fun sym he hb hi hs h0 => exec_hufPutsym_sticky hc he hb hi hs h0
  · intro b he hd
    rw [exec_lzeLit_idle b he hd]
    exact finish_putToken_sticky hc _
  · intro off len he hd ho hmin hmax
    rw [exec_lzeRef_idle he hd ho hmin hmax]
    exact finish_putToken_sticky hc _
  · exact exec_lzeFlush_sticky hc

end Sys2Proof.Machine

/-! PROOF. SYS.RESET (R121, R250 to R252): the reset state but for the contents of the private
memories and for the streams, neither of which a status register shows. -/

namespace Sys2Proof.Machine

theorem exec_sysReset (s : State) : exec .sysReset s = .next (s.resetUnits.respond 0) := by
  rw [exec, execSysReset]

/-- A reset leaves HUF's seven memories and nothing else of the unit (R151, R251). -/
theorem cleared_eq_reset_with_memories (h : Huf) : h.cleared =
    { Huf.reset with
      len := h.len, freq := h.freq, count := h.count, first := h.first
      base := h.base, sorted := h.sorted, code := h.code } := rfl

/-- Settles O23: SYS.RESET is one `resetUnits`; `Br.initialised` and the like start from the reset
values, HUF's case is `cleared_eq_reset_with_memories`. -/
theorem resetCommandRestoresTheUnits : Obligations.ResetCommandRestoresTheUnits := by
  intro s
  rw [exec_sysReset, ← cleared_eq_reset_with_memories]
  rfl

/-- A response is not a state element that a status register shows (R34). -/
theorem statusRegister_respond (s : State) (n r : Nat) :
    statusRegister (s.respond n) r = statusRegister s r := rfl

/-- No status register shows a private memory or a stream, which are what SYS.RESET does not restore
(R251, R252). -/
theorem statusRegister_resetUnits (s : State) (r : Nat) :
    statusRegister s.resetUnits r = statusRegister State.reset r := by
  unfold statusRegister
  split <;> rfl

/-- The values of R250 come from R35 for the four constants and from R44 for the other registers. -/
theorem statusRegisters_reset : (List.range 28).map (statusRegister State.reset) =
    [0x48424331#32, 0x00001000#32, 0x02002010#32, 0x00000810#32, 0#32, 0#32, 0#32, 0#32, 0#32,
      0#32, 0#32, 0#32, 0#32, 0#32, 0#32, 0#32, 0#32, 0#32, 0x0000118C#32, 0x00120003#32, 0#32,
      0#32, 0#32, 0#32, 0#32, 0#32, 0x0000118C#32, 0x00120003#32] := by
  decide

/-- Settles O24: the values at power-on are computed, and after SYS.RESET every register reads the
same by `statusRegister_resetUnits`. -/
theorem statusRegistersAfterReset : Obligations.StatusRegistersAfterReset := by
  refine ⟨statusRegisters_reset, fun s t ht => List.map_congr_left fun r _ => ?_⟩
  rw [exec_sysReset] at ht
  cases ht
  rw [statusRegister_respond, statusRegister_resetUnits]

end Sys2Proof.Machine
